-- ==== Sys2Proof/Word.lean ====
section
/-! DEFINITION. The word and byte types of the engine: every register is one 32-bit word (R30) and payload is a stream of
bytes (R81). -/

namespace Sys2Proof

/-- One byte of system memory, of the arena or of a packet (R80, R81). -/
abbrev Byte := BitVec 8

/-- One register of the window, one command word, one event word or one link event word (R30, R110, R119, R122). -/
abbrev Word := BitVec 32

end Sys2Proof
end

