-- ==== Sys2Proof/Config.lean ====
section
/-! DEFINITION. The instance parameters of rule R7. An instance is plain data: the state carries it (State.cfg), no step
writes it, and a statement over all states is therefore a statement over all parameter values (log entry 2). -/

namespace Sys2Proof

/-- The parameters of one instance (R7). -/
structure Config where
  /-- NUM_CH: hardware channels, each with two direction slots; 1..16. -/
  numCh : Nat
  /-- EP_MAX: Endpoint Registry entries; 1..255. -/
  epMax : Nat
  /-- ARENA_SIZE: bytes of the Packet Memory Arena; 1..65535. -/
  arenaSize : Nat
  /-- ARENA_BASE: first allocatable arena byte; below ARENA_SIZE. -/
  arenaBase : Nat
  /-- ARENA_GRAN: allocation granularity; a power of two, 1..256. -/
  arenaGran : Nat
  /-- EVQ_DEPTH: capacity of the event FIFO; 2*NUM_CH+1..255. -/
  evqDepth : Nat
  /-- ERR_RETRY_MAX: retries allowed after consecutive transmission errors; 0..15. -/
  errRetryMax : Nat
  /-- BLOCK_BASE: bus address of the register window; OPEN in the spec (R7, R88), which gives no width of it either: 32 bits are
  a DESIGN CHOICE (log entry 17). -/
  blockBase : Word
  /-- The accesses (address, length) that the platform's predicate MemAdmit refuses; OPEN in the spec (R7, R86). Every
  predicate on the engine's accesses is such a list, since they are finitely many. -/
  memRefused : List (Nat × Nat)
deriving DecidableEq, Repr

/-- The default parameter values of rule R7; BLOCK_BASE 0 and no refused access are DESIGN CHOICE, unsafe (log entry 2). -/
def Config.default : Config :=
  { numCh := 8, epMax := 16, arenaSize := 1024, arenaBase := 0, arenaGran := 8, evqDepth := 32, errRetryMax := 3,
    blockBase := 0, memRefused := [] }

/-- The legal values of rule R7's table. -/
abbrev Config.Legal (c : Config) : Prop :=
  (1 ≤ c.numCh ∧ c.numCh ≤ 16) ∧ (1 ≤ c.epMax ∧ c.epMax ≤ 255) ∧ (1 ≤ c.arenaSize ∧ c.arenaSize ≤ 65535) ∧
  c.arenaBase < c.arenaSize ∧ c.arenaGran ∈ [1, 2, 4, 8, 16, 32, 64, 128, 256] ∧
  (2 * c.numCh + 1 ≤ c.evqDepth ∧ c.evqDepth ≤ 255) ∧ c.errRetryMax ≤ 15

end Sys2Proof
end

