-- ==== Sys2Proof/Syntax.lean ====
section
/-! DEFINITION. The syntax of everything an agent can make the engine do: one constructor of Instr per row of
spec/opcode_table.json, and the raw form (RawInstr) in which an agent presents it. -/

namespace Sys2Proof

/-- Directions, USB's host-centric names: OUT = 0, IN = 1 (R11). -/
inductive Dir where
  | out
  | inn
deriving DecidableEq, Repr

/-- The two roles; 0 = device, 1 = host (R32, R331). -/
inductive Role where
  | device
  | host
deriving DecidableEq, Repr

/-- Transfer types CTRL = 0, ISO = 1, BULK = 2, INTR = 3 (R14). -/
inductive XferType where
  | ctrl
  | iso
  | bulk
  | intr
deriving DecidableEq, Repr

/-- What a CPU access does to the register it names: a read (R284) or a write of a value (R285). -/
inductive RegAccess where
  | read
  | write (v : Word)
deriving DecidableEq, Repr

/-- One row of spec/opcode_table.json each. Operands are the fields of rules R112 and R122; reserved (z) bits of a command are
operands too, because a command with one set is decoded and then rejected (R112, R113). -/
inductive Instr where
  -- commands (R111, R112)
  | init (z : BitVec 27) (role : Role)
  | epOpen (type : XferType) (mps : BitVec 11) (dev : BitVec 7) (dir : Dir) (z : BitVec 3) (num : BitVec 4)
  | epClose (z : BitVec 19) (dir : Dir) (handle : BitVec 8)
  | epFind (z : BitVec 13) (dev : BitVec 7) (dir : Dir) (z2 : BitVec 3) (num : BitVec 4)
  | xferSubmit (setup zlp : Bool) (len : BitVec 16) (z : BitVec 1) (dir : Dir) (handle : BitVec 8)
  | xferAbort (z : BitVec 19) (dir : Dir) (handle : BitVec 8)
  | epClearStall (z : BitVec 19) (dir : Dir) (handle : BitVec 8)
  | devClose (z : BitVec 13) (dev : BitVec 7) (z2 : BitVec 8)
  | epQuery (z : BitVec 19) (dir : Dir) (handle : BitVec 8)
  -- reserved opcodes (R114); x is the 28 bits the opcode leaves
  | illegal0 (x : BitVec 28)
  | illegalA (x : BitVec 28)
  | illegalB (x : BitVec 28)
  | illegalC (x : BitVec 28)
  | illegalD (x : BitVec 28)
  | illegalE (x : BitVec 28)
  | illegalF (x : BitVec 28)
  -- link events (R122, R123); pid true = DATA1, speed true = low speed
  | linkTxAck (ch : BitVec 4) (dir : Dir)
  | linkRxData (ch : BitVec 4) (dir : Dir) (pid : Bool) (n : BitVec 11) (data : List Byte)
  | linkNak (ch : BitVec 4) (dir : Dir)
  | linkStall (ch : BitVec 4) (dir : Dir)
  | linkXerr (ch : BitVec 4) (dir : Dir)
  | linkSetupRx (ch : BitVec 4) (dir : Dir) (n : BitVec 11) (data : List Byte)
  | linkFrame
  | linkBusReset
  | linkAttach (speed : Bool)
  | linkDetach
  | linkSuspend
  | linkResume
  -- reserved link kinds, which the Link never produces (R124)
  | linkReserved0 (x : BitVec 28) (data : List Byte)
  | linkReservedD (x : BitVec 28) (data : List Byte)
  | linkReservedE (x : BitVec 28) (data : List Byte)
  | linkReservedF (x : BitVec 28) (data : List Byte)
  -- register accesses, aligned and 32 bits wide (R30, R284, R285)
  | regCtrl (a : RegAccess)
  | regIntEn (a : RegAccess)
  | regNakLimit (a : RegAccess)
  | regArg0 (a : RegAccess)
  | regCmd (a : RegAccess)
  | regResult (a : RegAccess)
  | regResult2 (a : RegAccess)
  | regEvqStatus (a : RegAccess)
  | regEvqPop (a : RegAccess)
  | regEvqPeek (a : RegAccess)
  | regParam0 (a : RegAccess)
  | regParam1 (a : RegAccess)
  | regParam2 (a : RegAccess)
  | regReserved34 (a : RegAccess)
  | regReserved38 (a : RegAccess)
  | regReserved3C (a : RegAccess)
deriving DecidableEq, Repr

/-- The raw form of one attempted step, before decoding: what the CPU puts on the bus, or what the Link reports. -/
inductive RawInstr where
  /-- A CPU read of `width` bits at bus address `addr` (R83, R88). -/
  | read (addr : Word) (width : Nat)
  /-- A CPU write of `width` bits of `v` at bus address `addr` (R83, R88). -/
  | write (addr : Word) (width : Nat) (v : Word)
  /-- A link event word with its payload list (R122). -/
  | link (w : Word) (payload : List Byte)
deriving DecidableEq, Repr

/-- One attempted step of an agent (R6), in the total order of rule R90. -/
inductive Stimulus where
  /-- A register access of the CPU, or a link event. -/
  | act (r : RawInstr)
  /-- A CPU store into system memory, atomic as a whole whatever its width (R90, R96): the bytes it writes, each with its 32-bit
  address (R80; DESIGN CHOICE, log entry 12). No instruction of the engine, but a step of the same order. The addresses are ones of
  system memory and never of the window, also where the numbers agree (DESIGN CHOICE, log entry 18). -/
  | store (cells : List (Word × Byte))
  /-- A CPU load from system memory, atomic as a whole (R90): the addresses of the bytes it reads, in the order it returns them
  (log entry 12). They are addresses of system memory, as a store's are (log entry 18). -/
  | load (addrs : List Word)
deriving DecidableEq, Repr

end Sys2Proof
end

