-- ==== Sys2Proof/WellFormed.lean ====
section
/-! DEFINITION. Which terms of Instr an agent can present: the payload checks of rule R124, the reserved link kinds, and the
one term that is only a second spelling (a write of CMD is the command it carries). -/

namespace Sys2Proof

/-- A payload list has exactly N bytes (R124). -/
def payloadFits (n : BitVec 11) (data : List Byte) : Bool := data.length == n.toNat

/-- Well-formedness of an instruction. Command words are all well-formed, reserved bits included (R115); RX_DATA carries
exactly N bytes and SETUP_RX exactly 8 (R124); a reserved link kind never is (R124); a write of CMD decodes to the command it
carries (R38), so regCmd is well-formed as a read only. -/
def wellFormed : Instr → Bool
  | .linkRxData _ _ _ n data => payloadFits n data
  | .linkSetupRx _ _ n data => n == 8#11 && payloadFits n data
  | .linkReserved0 _ _ => false
  | .linkReservedD _ _ => false
  | .linkReservedE _ _ => false
  | .linkReservedF _ _ => false
  | .regCmd .read => true
  | .regCmd (.write _) => false
  | .init _ _ => true
  | .epOpen _ _ _ _ _ _ => true
  | .epClose _ _ _ => true
  | .epFind _ _ _ _ _ => true
  | .xferSubmit _ _ _ _ _ _ => true
  | .xferAbort _ _ _ => true
  | .epClearStall _ _ _ => true
  | .devClose _ _ _ => true
  | .epQuery _ _ _ => true
  | .illegal0 _ => true
  | .illegalA _ => true
  | .illegalB _ => true
  | .illegalC _ => true
  | .illegalD _ => true
  | .illegalE _ => true
  | .illegalF _ => true
  | .linkTxAck _ _ => true
  | .linkNak _ _ => true
  | .linkStall _ _ => true
  | .linkXerr _ _ => true
  | .linkFrame => true
  | .linkBusReset => true
  | .linkAttach _ => true
  | .linkDetach => true
  | .linkSuspend => true
  | .linkResume => true
  | .regCtrl _ => true
  | .regIntEn _ => true
  | .regNakLimit _ => true
  | .regArg0 _ => true
  | .regResult _ => true
  | .regResult2 _ => true
  | .regEvqStatus _ => true
  | .regEvqPop _ => true
  | .regEvqPeek _ => true
  | .regParam0 _ => true
  | .regParam1 _ => true
  | .regParam2 _ => true
  | .regReserved34 _ => true
  | .regReserved38 _ => true
  | .regReserved3C _ => true

end Sys2Proof
end

