-- ==== Sys2Proof/Decode.lean ====
section
/-! DEFINITION. Decoding, total: a command word written to CMD (R115), a link event word with its payload (R122 to R124), a
register access (R83, R284, R285); what is rejected is rejected by name. After it the encoder, from the same tables. -/

namespace Sys2Proof

/-- Why a raw instruction is no instruction. -/
inductive Reject where
  /-- A register access that is not a 32-bit access at a multiple of 4 inside the window (R83, R323, I7). -/
  | regAccess (offset : Nat) (width : Nat) (isWrite : Bool)
  /-- A link event word that is not well formed (R124). -/
  | illFormedLink (w : Word)
deriving DecidableEq, Repr

/-- The field of `n` bits whose lowest bit is bit `lo` (R9). -/
def bits (w : Word) (lo n : Nat) : BitVec n := w.extractLsb' lo n

/-- Bit `i` of a word (R9). -/
def bit (w : Word) (i : Nat) : Bool := w.getLsbD i

/-- The word whose field with lowest bit `lo` is `v`, every other bit 0 (R9, R118). -/
def field {n : Nat} (lo : Nat) (v : BitVec n) : Word := v.setWidth 32 <<< lo

/-- The word whose bit `i` is `b`, every other bit 0 (R9). -/
def flag (i : Nat) (b : Bool) : Word := field i (BitVec.ofBool b)

/-- OUT = 0, IN = 1 (R11). -/
def dirOfBit : Bool → Dir
  | false => .out
  | true => .inn

/-- OUT = 0, IN = 1 (R11). -/
def Dir.toBit : Dir → BitVec 1
  | .out => 0
  | .inn => 1

/-- 0 = device, 1 = host (R112). -/
def roleOfBit : Bool → Role
  | false => .device
  | true => .host

/-- 0 = device, 1 = host (R32, R112). -/
def Role.toBit : Role → BitVec 1
  | .device => 0
  | .host => 1

/-- CTRL = 0, ISO = 1, BULK = 2, INTR = 3 (R14). -/
def typeOfBits (b : BitVec 2) : XferType :=
  match b.toNat with
  | 0 => .ctrl
  | 1 => .iso
  | 2 => .bulk
  | _ => .intr

/-- CTRL = 0, ISO = 1, BULK = 2, INTR = 3 (R14). -/
def XferType.toBits : XferType → BitVec 2
  | .ctrl => 0
  | .iso => 1
  | .bulk => 2
  | .intr => 3

/-- Decoding a command word: total on all 2^32 words (R115), the reserved bits kept as operands (R112). -/
def decodeCommand (w : Word) : Instr :=
  match (bits w 28 4).toNat with
  | 0x0 => .illegal0 (bits w 0 28)
  | 0x1 => .init (bits w 1 27) (roleOfBit (bit w 0))
  | 0x2 => .epOpen (typeOfBits (bits w 26 2)) (bits w 15 11) (bits w 8 7) (dirOfBit (bit w 7)) (bits w 4 3) (bits w 0 4)
  | 0x3 => .epClose (bits w 9 19) (dirOfBit (bit w 8)) (bits w 0 8)
  | 0x4 => .epFind (bits w 15 13) (bits w 8 7) (dirOfBit (bit w 7)) (bits w 4 3) (bits w 0 4)
  | 0x5 => .xferSubmit (bit w 27) (bit w 26) (bits w 10 16) (bits w 9 1) (dirOfBit (bit w 8)) (bits w 0 8)
  | 0x6 => .xferAbort (bits w 9 19) (dirOfBit (bit w 8)) (bits w 0 8)
  | 0x7 => .epClearStall (bits w 9 19) (dirOfBit (bit w 8)) (bits w 0 8)
  | 0x8 => .devClose (bits w 15 13) (bits w 8 7) (bits w 0 8)
  | 0x9 => .epQuery (bits w 9 19) (dirOfBit (bit w 8)) (bits w 0 8)
  | 0xA => .illegalA (bits w 0 28)
  | 0xB => .illegalB (bits w 0 28)
  | 0xC => .illegalC (bits w 0 28)
  | 0xD => .illegalD (bits w 0 28)
  | 0xE => .illegalE (bits w 0 28)
  | _ => .illegalF (bits w 0 28)

/-- A kind that uses CH and DIR only: bits 22 to 0 are 0 and there is no payload (R122, R124). -/
def slotKindOnly (w : Word) (payload : List Byte) : Bool := bits w 0 23 == 0#23 && payload.isEmpty

/-- A bus event kind with no operand: bits 27 to 0 are 0 and there is no payload (R122, R124). -/
def busKindOnly (w : Word) (payload : List Byte) : Bool := bits w 0 28 == 0#28 && payload.isEmpty

/-- Keep an instruction when its word is well formed. -/
def whenFits (ok : Bool) (i : Instr) : Option Instr := if ok then some i else none

/-- Decoding a link event word with its payload list: none where the word is ill formed (R122 to R124). The four reserved
kinds decode to instructions of their own, which are refused when run (R124). -/
def decodeLink (w : Word) (payload : List Byte) : Option Instr :=
  match (bits w 28 4).toNat with
  | 0x0 => some (.linkReserved0 (bits w 0 28) payload)
  | 0x1 => whenFits (slotKindOnly w payload) (.linkTxAck (bits w 24 4) (dirOfBit (bit w 23)))
  | 0x2 => whenFits (bits w 0 11 == 0#11 && payloadFits (bits w 11 11) payload)
      (.linkRxData (bits w 24 4) (dirOfBit (bit w 23)) (bit w 22) (bits w 11 11) payload)
  | 0x3 => whenFits (slotKindOnly w payload) (.linkNak (bits w 24 4) (dirOfBit (bit w 23)))
  | 0x4 => whenFits (slotKindOnly w payload) (.linkStall (bits w 24 4) (dirOfBit (bit w 23)))
  | 0x5 => whenFits (slotKindOnly w payload) (.linkXerr (bits w 24 4) (dirOfBit (bit w 23)))
  | 0x6 => whenFits (bits w 0 11 == 0#11 && bits w 22 1 == 0#1 && bits w 11 11 == 8#11 && payloadFits (bits w 11 11) payload)
      (.linkSetupRx (bits w 24 4) (dirOfBit (bit w 23)) (bits w 11 11) payload)
  | 0x7 => whenFits (busKindOnly w payload) .linkFrame
  | 0x8 => whenFits (busKindOnly w payload) .linkBusReset
  | 0x9 => whenFits (bits w 0 10 == 0#10 && bits w 11 17 == 0#17 && payload.isEmpty) (.linkAttach (bit w 10))
  | 0xA => whenFits (busKindOnly w payload) .linkDetach
  | 0xB => whenFits (busKindOnly w payload) .linkSuspend
  | 0xC => whenFits (busKindOnly w payload) .linkResume
  | 0xD => some (.linkReservedD (bits w 0 28) payload)
  | 0xE => some (.linkReservedE (bits w 0 28) payload)
  | _ => some (.linkReservedF (bits w 0 28) payload)

/-- The access to the register at byte offset `o` of the window (R30); `o` is a multiple of 4 below 0x40. -/
def regInstr (o : Nat) (a : RegAccess) : Instr :=
  match o with
  | 0x00 => .regCtrl a
  | 0x04 => .regIntEn a
  | 0x08 => .regNakLimit a
  | 0x0C => .regArg0 a
  | 0x10 => .regCmd a
  | 0x14 => .regResult a
  | 0x18 => .regResult2 a
  | 0x1C => .regEvqStatus a
  | 0x20 => .regEvqPop a
  | 0x24 => .regEvqPeek a
  | 0x28 => .regParam0 a
  | 0x2C => .regParam1 a
  | 0x30 => .regParam2 a
  | 0x34 => .regReserved34 a
  | 0x38 => .regReserved38 a
  | _ => .regReserved3C a

/-- The byte offset of a bus address from BLOCK_BASE (R30, R88). The spec gives neither a width: both are taken as 32 bits and
their difference modulo 2^32, so a window whose BLOCK_BASE lies above 0xFFFFFFC0 goes on at address 0: DESIGN CHOICE, log entry
17. -/
def windowOffset (base addr : Word) : Nat := (addr - base).toNat

/-- The accesses the window answers: 32 bits wide, at a multiple of 4, inside the 64 bytes (R83, R88). -/
def accessOk (o width : Nat) : Bool := width == 32 && o % 4 == 0 && decide (o < 0x40)

/-- A write of the register at offset `o`: a write of CMD is the command its value encodes (R38, R285). -/
def writeInstr (o : Nat) (v : Word) : Instr := if o = 0x10 then decodeCommand v else regInstr o (.write v)

/-- Decoding one attempted step; `base` is BLOCK_BASE. -/
def decode (base : Word) : RawInstr → Except Reject Instr
  | .read addr width =>
    if accessOk (windowOffset base addr) width then .ok (regInstr (windowOffset base addr) .read)
    else .error (.regAccess (windowOffset base addr) width false)
  | .write addr width v =>
    if accessOk (windowOffset base addr) width then .ok (writeInstr (windowOffset base addr) v)
    else .error (.regAccess (windowOffset base addr) width true)
  | .link w payload =>
    match decodeLink w payload with
    | some i => .ok i
    | none => .error (.illFormedLink w)

/-- The raw form of a register access at offset `o`. -/
def encodeReg (base : Word) (o : Word) : RegAccess → RawInstr
  | .read => .read (base + o) 32
  | .write v => .write (base + o) 32 v

/-- A command is presented as a 32-bit write of its word to CMD (R38, R110). -/
def encodeCommand (base : Word) (w : Word) : RawInstr := .write (base + 0x10#32) 32 w

/-- A link event of a transaction kind: KIND, CH and DIR, every other field 0 (R122). -/
def slotKindWord (kind : BitVec 4) (ch : BitVec 4) (dir : Dir) : Word := field 28 kind ||| field 24 ch ||| field 23 dir.toBit

/-- The encoder: the raw form of an instruction, from the layouts of R112, R122 and R30. -/
def encode (base : Word) : Instr → RawInstr
  | .init z role => encodeCommand base (field 28 0x1#4 ||| field 1 z ||| field 0 role.toBit)
  | .epOpen type mps dev dir z num =>
    encodeCommand base (field 28 0x2#4 ||| field 26 type.toBits ||| field 15 mps ||| field 8 dev ||| field 7 dir.toBit |||
      field 4 z ||| field 0 num)
  | .epClose z dir handle => encodeCommand base (field 28 0x3#4 ||| field 9 z ||| field 8 dir.toBit ||| field 0 handle)
  | .epFind z dev dir z2 num =>
    encodeCommand base (field 28 0x4#4 ||| field 15 z ||| field 8 dev ||| field 7 dir.toBit ||| field 4 z2 ||| field 0 num)
  | .xferSubmit setup zlp len z dir handle =>
    encodeCommand base (field 28 0x5#4 ||| flag 27 setup ||| flag 26 zlp ||| field 10 len ||| field 9 z |||
      field 8 dir.toBit ||| field 0 handle)
  | .xferAbort z dir handle => encodeCommand base (field 28 0x6#4 ||| field 9 z ||| field 8 dir.toBit ||| field 0 handle)
  | .epClearStall z dir handle => encodeCommand base (field 28 0x7#4 ||| field 9 z ||| field 8 dir.toBit ||| field 0 handle)
  | .devClose z dev z2 => encodeCommand base (field 28 0x8#4 ||| field 15 z ||| field 8 dev ||| field 0 z2)
  | .epQuery z dir handle => encodeCommand base (field 28 0x9#4 ||| field 9 z ||| field 8 dir.toBit ||| field 0 handle)
  | .illegal0 x => encodeCommand base (field 28 0x0#4 ||| field 0 x)
  | .illegalA x => encodeCommand base (field 28 0xA#4 ||| field 0 x)
  | .illegalB x => encodeCommand base (field 28 0xB#4 ||| field 0 x)
  | .illegalC x => encodeCommand base (field 28 0xC#4 ||| field 0 x)
  | .illegalD x => encodeCommand base (field 28 0xD#4 ||| field 0 x)
  | .illegalE x => encodeCommand base (field 28 0xE#4 ||| field 0 x)
  | .illegalF x => encodeCommand base (field 28 0xF#4 ||| field 0 x)
  | .linkTxAck ch dir => .link (slotKindWord 0x1 ch dir) []
  | .linkRxData ch dir pid n data => .link (slotKindWord 0x2 ch dir ||| flag 22 pid ||| field 11 n) data
  | .linkNak ch dir => .link (slotKindWord 0x3 ch dir) []
  | .linkStall ch dir => .link (slotKindWord 0x4 ch dir) []
  | .linkXerr ch dir => .link (slotKindWord 0x5 ch dir) []
  | .linkSetupRx ch dir n data => .link (slotKindWord 0x6 ch dir ||| field 11 n) data
  | .linkFrame => .link (field 28 0x7#4) []
  | .linkBusReset => .link (field 28 0x8#4) []
  | .linkAttach speed => .link (field 28 0x9#4 ||| flag 10 speed) []
  | .linkDetach => .link (field 28 0xA#4) []
  | .linkSuspend => .link (field 28 0xB#4) []
  | .linkResume => .link (field 28 0xC#4) []
  | .linkReserved0 x data => .link (field 28 0x0#4 ||| field 0 x) data
  | .linkReservedD x data => .link (field 28 0xD#4 ||| field 0 x) data
  | .linkReservedE x data => .link (field 28 0xE#4 ||| field 0 x) data
  | .linkReservedF x data => .link (field 28 0xF#4 ||| field 0 x) data
  | .regCtrl a => encodeReg base 0x00 a
  | .regIntEn a => encodeReg base 0x04 a
  | .regNakLimit a => encodeReg base 0x08 a
  | .regArg0 a => encodeReg base 0x0C a
  | .regCmd a => encodeReg base 0x10 a
  | .regResult a => encodeReg base 0x14 a
  | .regResult2 a => encodeReg base 0x18 a
  | .regEvqStatus a => encodeReg base 0x1C a
  | .regEvqPop a => encodeReg base 0x20 a
  | .regEvqPeek a => encodeReg base 0x24 a
  | .regParam0 a => encodeReg base 0x28 a
  | .regParam1 a => encodeReg base 0x2C a
  | .regParam2 a => encodeReg base 0x30 a
  | .regReserved34 a => encodeReg base 0x34 a
  | .regReserved38 a => encodeReg base 0x38 a
  | .regReserved3C a => encodeReg base 0x3C a

/-- The raw instruction that the bits `w` of an opcode-table row stand for: a row of at most 8 bits is a register offset, taken
as a CPU read of it; a row of 32 bits is taken as a command word, a 32-bit write to CMD. Command words and link event words
share their 2^32 values and only the agent tells them apart, so the table's number alone cannot name a link event
(log entry 8). -/
def tableRaw (base : Word) (nbits w : Nat) : RawInstr :=
  if nbits ≤ 8 then .read (base + BitVec.ofNat 32 (w % 64)) 32 else encodeCommand base (BitVec.ofNat 32 w)

/-- The host's view of the decoder, on the opcode table's numbering of bits. -/
def decodeTableWord (nbits w : Nat) : Option Instr :=
  match decode 0 (tableRaw 0 nbits w) with
  | .ok i => some i
  | .error _ => none

end Sys2Proof
end

