-- ==== Sys2Proof/Machine/State.lean ====
section
/-! DEFINITION. The state of the engine as plain data: the register window (R30 to R43), the Endpoint Registry (R45 to R47), the
channel table with the Buffer Descriptor Table (R48, R49), the arena (R50), the event FIFO (R51), system memory (R80), the
instance parameters (R7) and the model's own observation and input fields; the reasons a step can stop; the reset state
(R57, R350). -/

namespace Sys2Proof.Machine

/-- A byte memory: (address, byte) pairs, addresses strictly rising, no entry 0; an unlisted address reads 0 (log entries 3
and 4). Used for system memory and for the arena. -/
abbrev Memory := List Host.Cell

/-- The held transfer states of R47; the encoding 3 is never held and has no constructor. -/
inductive XferState where
  | idle
  | inflight
  | wait
deriving DecidableEq, Repr

/-- A direction half ep[h].half[d] (R46). -/
structure Half where
  isOpen : Bool
  type   : XferType
  mps    : BitVec 11
  toggle : Bool
  halted : Bool
  bound  : Bool
  ch     : BitVec 4
  xs     : XferState
  setup  : Bool
  zlp    : Bool
  buf    : BitVec 32
  total  : BitVec 16
  done   : BitVec 16
  nak    : BitVec 16
  err    : BitVec 5
deriving DecidableEq, Repr

/-- A half with all fields 0 (R57, R155). -/
def Half.closed : Half :=
  { isOpen := false, type := .ctrl, mps := 0, toggle := false, halted := false, bound := false, ch := 0, xs := .idle,
    setup := false, zlp := false, buf := 0, total := 0, done := 0, nak := 0, err := 0 }

/-- A registry entry ep[h] (R45). -/
structure Entry where
  used    : Bool
  dev     : BitVec 7
  num     : BitVec 4
  halfOut : Half
  halfIn  : Half
deriving DecidableEq, Repr

/-- An entry with all fields 0: its handle is free (R57, R155). -/
def Entry.free : Entry := { used := false, dev := 0, num := 0, halfOut := Half.closed, halfIn := Half.closed }

/-- A direction slot ch[c].slot[d]; off and cnt are its Buffer Descriptor Table entry (R49). -/
structure Slot where
  bound : Bool
  ep    : BitVec 8
  valid : Bool
  off   : BitVec 16
  size  : BitVec 16
  cnt   : BitVec 16
deriving DecidableEq, Repr

/-- A slot with all fields 0 (R57, R172). -/
def Slot.free : Slot := { bound := false, ep := 0, valid := false, off := 0, size := 0, cnt := 0 }

/-- A channel ch[c] with its association (R48). -/
structure Channel where
  adev    : BitVec 7
  anum    : BitVec 4
  slotOut : Slot
  slotIn  : Slot
deriving DecidableEq, Repr

/-- A channel with all fields 0 (R57). -/
def Channel.free : Channel := { adev := 0, anum := 0, slotOut := Slot.free, slotIn := Slot.free }

/-- The PID a sending slot transmits with (R212). -/
inductive TxPid where
  | setupData0
  | data0
  | data1
deriving DecidableEq, Repr

/-- The outcome the Link reports for a transmission attempt of a sending slot (R213). -/
inductive TxAnswer where
  | ack
  | nak
  | stall
  | xerr
deriving DecidableEq, Repr

/-- One packet observed on the wire: what a sending slot transmitted in one attempt, and the outcome reported (R213). -/
structure WirePacket where
  ch     : BitVec 4
  dir    : Dir
  pid    : TxPid
  data   : List Byte
  answer : TxAnswer
deriving DecidableEq, Repr

/-- The whole machine. -/
structure State where
  /-- The instance parameters (R7); no step writes them. -/
  cfg      : Config
  /-- CTRL.GIE (R32). -/
  gie      : Bool
  /-- CTRL.ROLE; meaningful only when initDone (R32). -/
  role     : Role
  /-- CTRL.INIT_DONE (R32). -/
  initDone : Bool
  /-- CTRL.FATAL (R32, R53). -/
  fatal    : Bool
  /-- INT_EN bits 6 to 1; bit 0 is hardwired to 1 and bits 31 to 7 read 0 (R34, R35). -/
  intEn    : BitVec 6
  /-- NAK_LIMIT.K, bits 15 to 0; bits 31 to 16 read 0 (R36). -/
  nakLimit : BitVec 16
  /-- ARG0 (R37). -/
  arg0     : Word
  /-- RESULT (R39). -/
  result   : Word
  /-- RESULT2 (R40). -/
  result2  : Word
  /-- ep[0..EP_MAX-1] (R45). -/
  eps      : List Entry
  /-- ch[0..NUM_CH-1] (R48). -/
  chans    : List Channel
  /-- arena[0..ARENA_SIZE-1] (R50). -/
  arena    : Memory
  /-- The event FIFO, head first (R51). -/
  evq      : List Word
  /-- System memory (R80). -/
  mem      : Memory
  /-- The model's own: the word the last CPU register read returned (R283, R284; log entry 5). -/
  rdata    : Word
  /-- The model's own: the bytes the last CPU load from system memory returned (R90; log entry 12). -/
  loaded   : List Byte
  /-- The model's own: the packets observed on the wire, oldest first (R213; log entry 6). -/
  wire     : List WirePacket
  /-- The model's own: the agents' attempted steps in their total order, the next one first (R6, R90; log entry 1). -/
  inbox    : List Stimulus
deriving DecidableEq, Repr

/-- Why the machine stops: the closed set of R325. The spec's two faults are regAccess and invariant; stuck is its third kind of
end, a step that has no transition. -/
inductive Fault where
  /-- Raised by decoding a CPU access that is not a 32-bit access at a multiple of 4 inside the window, with the information
  rule R323 gives; no engine state changes. The spec's own fault: safe. -/
  | regAccess (offset : Nat) (width : Nat) (isWrite : Bool)
  /-- Raised by step when the state it would leave breaks invariant INV `number` of R54; `faulted` is that state with FATAL set
  (R324). The spec's own fault: safe. -/
  | invariant (number : Nat) (faulted : State)
  /-- Raised by XFER_SUBMIT, TX_ACK, RX_DATA and SETUP_RX when MemAdmit refuses the access of `n` bytes at `addr` the step would
  perform: the step has no transition (R86, R325, log entry 7). The model stops where the hardware waits: safe. -/
  | stuck (addr : Nat) (n : Nat)
deriving DecidableEq, Repr

/-- Why the model gives an attempted step no meaning. -/
inductive Refusal where
  /-- Raised by an arm of exec that has no meaning yet, with the row's mnemonic: safe. No arm of this model is one. -/
  | notModelled (mnemonic : String)
  /-- Raised by an ill-formed link event word and by the four reserved link kinds, which the Link never produces (R124, R325):
  safe. -/
  | illFormedLink
  /-- Raised by a well-formed link event whose enabling condition fails in the state: the Link never offers it (R125, R295, I14,
  log entry 9): safe. -/
  | linkNotEnabled
  /-- Raised by nothing a command word decodes to: the case of executeCommand for an instruction that is no command, which
  decodeCommand never gives: safe. -/
  | notACommand
deriving DecidableEq, Repr

/-- The state after hardware reset of an instance with parameters `c` (R57, R350). -/
def State.resetWith (c : Config) : State :=
  { cfg := c, gie := false, role := .device, initDone := false, fatal := false, intEn := 0, nakLimit := 0, arg0 := 0,
    result := 0, result2 := 0, eps := List.replicate c.epMax Entry.free, chans := List.replicate c.numCh Channel.free,
    arena := [], evq := [], mem := [], rdata := 0, loaded := [], wire := [], inbox := [] }

/-- The state after hardware reset of the instance with the default parameters of R7 (R57, R350). -/
def State.reset : State := State.resetWith Config.default

end Sys2Proof.Machine
end

