-- ==== Sys2Proof/Machine/Flags.lean ====
section
/-! DEFINITION. Status codes (R321), outcome codes (R120), the flags of rule R55 and what reads them: the sending direction
(R11), the toggle (R212, R221), the event enables (R34), the interrupt line (R52), the event words (R119, R120). -/

namespace Sys2Proof.Machine

/-- The statuses a command reports (R321). -/
inductive Status where
  | ok
  | busy
  | nochan
  | nomem
  | badhandle
  | badarg
  | illegal
  | notfound
  | existing
  | notinit
  | regfull
  | wrongrole
  | halted
  | evqfull
  | already
deriving DecidableEq, Repr

/-- The status codes of R321. -/
def Status.code : Status → BitVec 4
  | .ok => 0
  | .busy => 1
  | .nochan => 2
  | .nomem => 3
  | .badhandle => 4
  | .badarg => 5
  | .illegal => 6
  | .notfound => 7
  | .existing => 8
  | .notinit => 9
  | .regfull => 10
  | .wrongrole => 11
  | .halted => 12
  | .evqfull => 13
  | .already => 14

/-- The outcomes of a settled transfer (R120). -/
inductive XferOutcome where
  | success
  | stalled
  | failedXact
  | failedNak
  | failedAbort
deriving DecidableEq, Repr

/-- The outcome codes of R120. -/
def XferOutcome.code : XferOutcome → BitVec 3
  | .success => 0
  | .stalled => 1
  | .failedXact => 2
  | .failedNak => 3
  | .failedAbort => 4

/-- The event classes INT_EN enables one by one; XFER is always enabled (R34). -/
inductive EventClass where
  | busReset
  | attach
  | remove
  | resume
  | suspend
  | sof
deriving DecidableEq, Repr

/-- The bit of INT_EN that enables a class (R34). -/
def EventClass.bit : EventClass → Nat
  | .busReset => 1
  | .attach => 2
  | .remove => 3
  | .resume => 4
  | .suspend => 5
  | .sof => 6

/-- INT_EN as the CPU reads it: bit 0 is 1, bits 31 to 7 are 0 (R34, R35). -/
def intEnWord (s : State) : Word := field 1 s.intEn ||| flag 0 true

/-- Whether a class of events is generated (R34, R280). -/
def enabled (e : EventClass) (s : State) : Bool := (intEnWord s).getLsbD e.bit

/-- The interrupt line, a level (R52, R286). -/
def irq (s : State) : Bool := s.gie && !s.evq.isEmpty

/-- other(d) = 1 - d (R11). -/
def otherDir : Dir → Dir
  | .out => .inn
  | .inn => .out

/-- The sending direction of a role: OUT for the host, IN for the device (R11). -/
def isSend : Role → Dir → Bool
  | .host, .out => true
  | .device, .inn => true
  | .host, .inn => false
  | .device, .out => false

/-- ISO and INTR are periodic (R14). -/
def periodic : XferType → Bool
  | .iso => true
  | .intr => true
  | .ctrl => false
  | .bulk => false

/-- The toggle after a packet that succeeds: it flips unless the half is isochronous (R214, R216, R221). -/
def nextToggle (hf : Half) : Bool := if hf.type = .iso then hf.toggle else !hf.toggle

/-- Whether a received PID is the one expected; an isochronous half expects none (R216, R217). -/
def pidMatches (hf : Half) (pid : Bool) : Bool := hf.type == .iso || pid == hf.toggle

/-- The PID of a sending slot's packet (R212). -/
def txPid (hf : Half) : TxPid :=
  if hf.setup then .setupData0 else if hf.type = .iso then .data0 else if hf.toggle then .data1 else .data0

/-- sat16(x) = min(x, 0xFFFF) (R12). -/
def sat16 (x : Nat) : BitVec 16 := BitVec.ofNat 16 (min x 0xFFFF)

/-- The bits of XS in EP_QUERY (R47, R162). -/
def XferState.toBits : XferState → BitVec 2
  | .idle => 0
  | .inflight => 1
  | .wait => 2

/-- The XFER_COMPLETE word (R120). -/
def xferComplete (o : XferOutcome) (d : Dir) (h : Nat) (done : BitVec 16) : Word :=
  field 28 0x1#4 ||| field 25 o.code ||| field 24 d.toBit ||| field 16 (BitVec.ofNat 8 h) ||| field 0 done

/-- BUS_RESET (R119, R290). -/
def busResetWord : Word := 0x20000000

/-- DEVICE_ATTACHED with its SPEED bit (R119, R292). -/
def attachedWord (speed : Bool) : Word := field 28 0x3#4 ||| flag 0 speed

/-- DEVICE_REMOVED (R119, R293). -/
def removedWord : Word := 0x40000000

/-- RESUME (R119, R294). -/
def resumeWord : Word := 0x50000000

/-- SUSPEND (R119, R294). -/
def suspendWord : Word := 0x60000000

/-- SOF (R119, R257). -/
def sofWord : Word := 0x70000000

end Sys2Proof.Machine
end

