-- ==== Sys2Proof/Machine/Ops.lean ====
section
/-! DEFINITION. The named operations every meaning is written in: the byte memories; the registry, channel and slot accessors;
the event FIFO (R281, R282); ending a command (R321); the allocators (R170 to R173); settlement, the one way an abnormal or
normal end of a transfer is taken (R230); arming a packet (R210, R211); aborting and closing (R155, R206). -/

namespace Sys2Proof.Machine

/-- What a meaning answers. -/
abbrev Result := Host.Outcome State Fault Refusal

/-- Go on in the next state; a fault or a refusal ends the step. -/
def andThen (r : Result) (f : State → Result) : Result :=
  match r with
  | .next s => f s
  | .fault e => .fault e
  | .refused e => .refused e

/-- roundup(x, g) (R12). -/
def roundup (x g : Nat) : Nat := ((x + g - 1) / g) * g

/-! ### Byte memories -/

/-- The byte at an address; an unlisted address reads 0 (log entries 3 and 4). -/
def Memory.read : Memory → Nat → Byte
  | [], _ => 0
  | (k, v) :: t, a => if k = a then v else Memory.read t a

/-- Write one byte, keeping the canonical form. -/
def Memory.write : Memory → Nat → Byte → Memory
  | [], a, b => if b = 0 then [] else [(a, b)]
  | (k, v) :: t, a, b =>
    if a < k then (if b = 0 then (k, v) :: t else (a, b) :: (k, v) :: t)
    else if a = k then (if b = 0 then t else (a, b) :: t)
    else (k, v) :: Memory.write t a b

/-- The canonical form: addresses strictly rising, no entry 0. -/
abbrev Memory.wf (m : Memory) : Prop := m.Pairwise (fun p q => p.1 < q.1) ∧ ∀ p ∈ m, p.2 ≠ 0

/-- The `n` bytes at `a`, `a+1`, …, ascending (R12). -/
def Memory.readBytes (m : Memory) (a n : Nat) : List Byte := (List.range n).map (fun i => Memory.read m (a + i))

/-- Write bytes at `a`, `a+1`, …, ascending (R12). -/
def Memory.writeBytes : Memory → Nat → List Byte → Memory
  | m, _, [] => m
  | m, a, b :: bs => Memory.writeBytes (Memory.write m a b) (a + 1) bs

/-- Write bytes each at its own 32-bit address, the first of the list first. -/
def Memory.writeCells : Memory → List (Word × Byte) → Memory
  | m, [] => m
  | m, (a, b) :: cells => Memory.writeCells (Memory.write m a.toNat b) cells

/-- ArenaWrite(off, bytes) (R12). -/
def arenaWrite (off : Nat) (bytes : List Byte) (s : State) : State := { s with arena := Memory.writeBytes s.arena off bytes }

/-- ArenaRead(off, n) (R12). -/
def arenaRead (off n : Nat) (s : State) : List Byte := Memory.readBytes s.arena off n

/-- Whether the step may perform an access of `n` bytes at `addr`: with n = 0 there is no access; otherwise it lies inside the
2^32 bytes of the address space (R80, R85) and MemAdmit(addr, n) holds (R86). -/
def memAdmits (addr n : Nat) (s : State) : Bool :=
  n == 0 || (decide (addr + n ≤ 2 ^ 32) && !s.cfg.memRefused.contains (addr, n))

/-- MemWrite(addr, n, bytes), once admitted (R12). -/
def memWrite (addr : Nat) (bytes : List Byte) (s : State) : State := { s with mem := Memory.writeBytes s.mem addr bytes }

/-- A step whose access MemAdmit refuses has no transition (R86). -/
def whenAdmitted (addr n : Nat) (s : State) (r : Result) : Result := if memAdmits addr n s then r else .fault (.stuck addr n)

/-- A CPU store into system memory, one atomic access between two engine steps (R90, R96). Every 32-bit address exists (R80), so
no store faults (R325); MemAdmit is a predicate on the engine's accesses and is not asked (R7, R86). The window is another address
space, and the spec gives no CPU map of system memory, so no address is tested against the window: DESIGN CHOICE, log entry 18. -/
def cpuStore (cells : List (Word × Byte)) (s : State) : State := { s with mem := Memory.writeCells s.mem cells }

/-- A CPU load from system memory, one atomic access between two engine steps: it returns what the stores and MemWrites before it
left (R90), into the model's record of it (log entry 12). As a store it never faults, and its addresses are untested against the
window (log entry 18). -/
def cpuLoad (addrs : List Word) (s : State) : State := { s with loaded := addrs.map (fun a => Memory.read s.mem a.toNat) }

/-! ### Registry, channels, slots -/

/-- The two directions in the order the rules name them. -/
def bothDirs : List Dir := [.out, .inn]

/-- ep[h]; an index outside the registry reads as a free entry. -/
def entry (h : Nat) (s : State) : Entry := s.eps.getD h Entry.free

/-- Store ep[h]; an index outside the registry stores nothing. -/
def setEntry (h : Nat) (e : Entry) (s : State) : State := { s with eps := s.eps.set h e }

/-- ep.half[d]. -/
def Entry.half (e : Entry) : Dir → Half
  | .out => e.halfOut
  | .inn => e.halfIn

/-- Store ep.half[d]. -/
def Entry.setHalf (e : Entry) (x : Half) : Dir → Entry
  | .out => { e with halfOut := x }
  | .inn => { e with halfIn := x }

/-- ep[h].half[d] (R10). -/
def half (h : Nat) (d : Dir) (s : State) : Half := (entry h s).half d

/-- Change ep[h].half[d]. -/
def modHalf (h : Nat) (d : Dir) (f : Half → Half) (s : State) : State := setEntry h ((entry h s).setHalf (f (half h d s)) d) s

/-- ch[c]; an index outside the table reads as a free channel. -/
def chan (c : Nat) (s : State) : Channel := s.chans.getD c Channel.free

/-- Store ch[c]; an index outside the table stores nothing. -/
def setChan (c : Nat) (x : Channel) (s : State) : State := { s with chans := s.chans.set c x }

/-- ch.slot[d]. -/
def Channel.slot (x : Channel) : Dir → Slot
  | .out => x.slotOut
  | .inn => x.slotIn

/-- Store ch.slot[d]. -/
def Channel.setSlot (x : Channel) (y : Slot) : Dir → Channel
  | .out => { x with slotOut := y }
  | .inn => { x with slotIn := y }

/-- ch[c].slot[d] (R10). -/
def slot (c : Nat) (d : Dir) (s : State) : Slot := (chan c s).slot d

/-- Change ch[c].slot[d]. -/
def modSlot (c : Nat) (d : Dir) (f : Slot → Slot) (s : State) : State := setChan c ((chan c s).setSlot (f (slot c d s)) d) s

/-- s.valid <- v. -/
def setValid (c : Nat) (d : Dir) (v : Bool) (s : State) : State := modSlot c d (fun x => { x with valid := v }) s

/-- s.cnt <- n. -/
def setCnt (c : Nat) (d : Dir) (n : Nat) (s : State) : State := modSlot c d (fun x => { x with cnt := BitVec.ofNat 16 n }) s

/-- xs <- x. -/
def setXs (h : Nat) (d : Dir) (x : XferState) (s : State) : State := modHalf h d (fun y => { y with xs := x }) s

/-- The toggles of both halves to DATA1: the completion of a SETUP stage (R214, R218, R220). -/
def forceToggles (h : Nat) (s : State) : State :=
  modHalf h .inn (fun x => { x with toggle := true }) (modHalf h .out (fun x => { x with toggle := true }) s)

/-- The toggle after a packet that succeeded (R214, R216). -/
def advanceToggle (h : Nat) (d : Dir) (s : State) : State := modHalf h d (fun x => { x with toggle := nextToggle x }) s

/-- A packet succeeded: `k` more bytes done, both counters 0 (R214, R216). -/
def countPacket (h : Nat) (d : Dir) (k : Nat) (s : State) : State :=
  modHalf h d (fun x => { x with done := BitVec.ofNat 16 (x.done.toNat + k), nak := 0, err := 0 }) s

/-! ### Event FIFO -/

/-- Room(n) (R282). -/
def room (n : Nat) (s : State) : Bool := decide (s.evq.length + n ≤ s.cfg.evqDepth)

/-- Push(w): appended at the tail (R281). -/
def push (w : Word) (s : State) : State := { s with evq := s.evq ++ [w] }

/-- An event of a class whose enable is 0 is not generated (R280). -/
def pushIf (e : EventClass) (w : Word) (s : State) : State := if enabled e s then push w s else s

/-- The room a bus event of a class needs: one word if the class is enabled (R282). -/
def roomIf (e : EventClass) (s : State) : Bool := !enabled e s || room 1 s

/-! ### Ending a command -/

/-- reject(code): RESULT and RESULT2, and nothing else (R321). -/
def reject (code : Status) (s : State) : State := { s with result := field 0 code.code, result2 := 0 }

/-- An accepted command without a result (R39, R40). -/
def accept (s : State) : State := { s with result := 0, result2 := 0 }

/-- An accepted EP_OPEN or EP_FIND: HANDLE in RESULT[15:8] (R39, R151, R157). -/
def acceptHandle (h : Nat) (s : State) : State := { s with result := field 8 (BitVec.ofNat 8 h), result2 := 0 }

/-! ### Channel Allocator and arena -/

/-- A fully free channel has no bound slot (R48). -/
def fullyFree (c : Nat) (s : State) : Bool := !(slot c .out s).bound && !(slot c .inn s).bound

/-- The channel already serves entry `h` in the opposite direction and its slot `d` is free (R170). -/
def servesOther (h : Nat) (d : Dir) (c : Nat) (s : State) : Bool :=
  (slot c (otherDir d) s).bound && (slot c (otherDir d) s).ep.toNat == h && !(slot c d s).bound

/-- ChAcquire(h, dev, num, d): co-location first, else the lowest fully free channel (R170). -/
def chAcquire (h : Nat) (d : Dir) (s : State) : Option Nat :=
  match (List.range s.cfg.numCh).find? (fun c => servesOther h d c s) with
  | some c => some c
  | none => (List.range s.cfg.numCh).find? (fun c => fullyFree c s)

/-- The range [o, o+size) is disjoint from one slot's range, if the slot is bound (R171). -/
def clearOf (o size : Nat) (x : Slot) : Bool :=
  !x.bound || decide (o + size ≤ x.off.toNat) || decide (x.off.toNat + x.size.toNat ≤ o)

/-- The range [o, o+size) is disjoint from every bound slot's range (R171). -/
def rangeFree (o size : Nat) (s : State) : Bool :=
  (List.range s.cfg.numCh).all (fun c => clearOf o size (slot c .out s) && clearOf o size (slot c .inn s))

/-- The search loop of R171 from offset `o`; `fuel` bounds the number of candidates. -/
def firstFit (size : Nat) (s : State) : Nat → Nat → Option Nat
  | 0, _ => none
  | fuel + 1, o =>
    if o + size ≤ s.cfg.arenaSize then
      (if rangeFree o size s then some o else firstFit size s fuel (o + s.cfg.arenaGran))
    else none

/-- ArenaAlloc(size): first fit at the lowest aligned offset (R171). -/
def arenaAlloc (size : Nat) (s : State) : Option Nat :=
  firstFit size s (s.cfg.arenaSize + 1) (roundup s.cfg.arenaBase s.cfg.arenaGran)

/-- BindSlot(c, d, h, dev, num, o, size) (R173). -/
def bindSlot (c : Nat) (d : Dir) (h : Nat) (dev : BitVec 7) (num : BitVec 4) (o size : Nat) (s : State) : State :=
  modHalf h d (fun x => { x with bound := true, ch := BitVec.ofNat 4 c })
    (setChan c
      (({ chan c s with adev := dev, anum := num } : Channel).setSlot
        { bound := true, ep := BitVec.ofNat 8 h, valid := false, off := BitVec.ofNat 16 o, size := BitVec.ofNat 16 size,
          cnt := 0 } d) s)

/-- Acquire a channel slot and an arena range for one half and bind them: one round of Reserve (R153), and StartHost (R202). -/
def reserveHalf (h : Nat) (dev : BitVec 7) (num : BitVec 4) (mps : Nat) (d : Dir) (s : State) : Except Status State :=
  match chAcquire h d s with
  | none => .error .nochan
  | some c =>
    match arenaAlloc (roundup mps s.cfg.arenaGran) s with
    | none => .error .nomem
    | some o => .ok (bindSlot c d h dev num o (roundup mps s.cfg.arenaGran) s)

/-- Reserve: each half in order, all or nothing (R153). -/
def reserve (h : Nat) (dev : BitVec 7) (num : BitVec 4) (mps : Nat) : List Dir → State → Except Status State
  | [], s => .ok s
  | d :: ds, s =>
    match reserveHalf h dev num mps d s with
    | .error e => .error e
    | .ok t => reserve h dev num mps ds t

/-- The association of a channel is dropped once it is fully free (R172). -/
def dropAssociation (c : Nat) (s : State) : State :=
  if fullyFree c s then setChan c { chan c s with adev := 0, anum := 0 } s else s

/-- ChRelease(c, d) (R172). -/
def chRelease (c : Nat) (d : Dir) (s : State) : State :=
  dropAssociation c
    (modHalf (slot c d s).ep.toNat d (fun x => { x with bound := false, ch := 0 }) (modSlot c d (fun _ => Slot.free) s))

/-! ### Settlement -/

/-- The host role releases the channel at settlement; the device role keeps its static binding (R174, R230). -/
def releaseIfHost (c : Nat) (d : Dir) (s : State) : State := if s.role = .host then chRelease c d s else s

/-- Settle(h, d, outcome): the only way a half returns to IDLE (R230). -/
def settle (h : Nat) (d : Dir) (o : XferOutcome) (s : State) : State :=
  push (xferComplete o d h (half h d s).done)
    (releaseIfHost (half h d s).ch.toNat d (setXs h d .idle (setValid (half h d s).ch.toNat d false s)))

/-- AbortHalf(h, d) (R206). -/
def abortHalf (h : Nat) (d : Dir) (s : State) : State :=
  settle h d .failedAbort (setValid (half h d s).ch.toNat d false s)

/-! ### Arming packets -/

/-- The length of the next packet of a sending half (R210). -/
def nextLen (hf : Half) : Nat := min hf.mps.toNat (hf.total.toNat - hf.done.toNat)

/-- Arm a sending half: caller buffer to arena slot, byte count, valid (R210). -/
def armSend (h : Nat) (d : Dir) (s : State) : Result :=
  let hf := half h d s
  let c := hf.ch.toNat
  let a := hf.buf.toNat + hf.done.toNat
  let n := nextLen hf
  whenAdmitted a n s
    (.next (setValid c d true (setCnt c d n (arenaWrite (slot c d s).off.toNat (Memory.readBytes s.mem a n) s))))

/-- ArmReceive(h, d): the slot accepts mps bytes (R211); then valid (R210). -/
def armReceive (h : Nat) (d : Dir) (s : State) : State :=
  setValid (half h d s).ch.toNat d true (setCnt (half h d s).ch.toNat d (half h d s).mps.toNat s)

/-- Arm(h, d) (R210). -/
def arm (h : Nat) (d : Dir) (s : State) : Result :=
  if isSend s.role d then armSend h d s else .next (armReceive h d s)

/-! ### The packet on the wire -/

/-- What the Link transmits from a slot: its half's PID and the `cnt` arena bytes at `off` (R213). -/
def txPacket (c : BitVec 4) (d : Dir) (answer : TxAnswer) (s : State) : WirePacket :=
  { ch := c, dir := d, pid := txPid (half (slot c.toNat d s).ep.toNat d s),
    data := arenaRead (slot c.toNat d s).off.toNat (slot c.toNat d s).cnt.toNat s, answer := answer }

/-- Record the attempt whose outcome the Link reports, if the slot sends (R213, log entry 6). -/
def recordTx (c : BitVec 4) (d : Dir) (answer : TxAnswer) (s : State) : State :=
  if isSend s.role d then { s with wire := s.wire ++ [txPacket c d answer s] } else s

/-! ### Closing -/

/-- Abort a transfer in flight, if there is one. -/
def abortIfBusy (h : Nat) (d : Dir) (s : State) : State := if (half h d s).xs = .idle then s else abortHalf h d s

/-- Release the static reservation, if the half still has one. -/
def releaseIfBound (h : Nat) (d : Dir) (s : State) : State :=
  if (half h d s).bound then chRelease (half h d s).ch.toNat d s else s

/-- An entry with no open half is free again (R155). -/
def freeIfClosed (h : Nat) (s : State) : State :=
  if (half h .out s).isOpen || (half h .inn s).isOpen then s else setEntry h Entry.free s

/-- CloseHalf(h, x) (R155). -/
def closeHalf (h : Nat) (d : Dir) (s : State) : State :=
  freeIfClosed h (modHalf h d (fun _ => Half.closed) (releaseIfBound h d (abortIfBusy h d s)))

/-- CloseHalf on each of some halves, in order. -/
def closeHalves (h : Nat) (ds : List Dir) (s : State) : State := ds.foldl (fun t d => closeHalf h d t) s

/-- Close the open halves of one entry, OUT before IN (R159, R290). -/
def closeEntry (h : Nat) (s : State) : State :=
  bothDirs.foldl (fun t d => if (half h d t).isOpen then closeHalf h d t else t) s

/-- Do something for every registry entry, in ascending handle order. -/
def forEntries (f : Nat → State → State) (s : State) : State := (List.range s.cfg.epMax).foldl (fun t h => f h t) s

/-- How many of some halves of an entry have a transfer in flight. -/
def busyIn (h : Nat) (ds : List Dir) (s : State) : Nat := ds.countP (fun d => (half h d s).xs != .idle)

/-- How many halves of the selected entries have a transfer in flight (R159, R290). -/
def busyCount (sel : Nat → Bool) (s : State) : Nat :=
  ((List.range s.cfg.epMax).map (fun h => if sel h then busyIn h bothDirs s else 0)).sum

end Sys2Proof.Machine
end

