-- ==== Sys2Proof/Machine/Operands.lean ====
section
/-! DEFINITION. Operand forms: the reserved-bit tests of rule R113, the handle check (R156), the halves an operand names (R154),
entry selection and search (R152, R157), the query words (R162), and the slot a transaction event names (R125). -/

namespace Sys2Proof.Machine

/-- rsv of formats I, H and S: the one reserved field is not 0 (R113). -/
def rsv {n : Nat} (z : BitVec n) : Bool := z != 0

/-- rsv of formats F and D: either reserved field is not 0 (R113). -/
def rsv2 {n m : Nat} (z : BitVec n) (z2 : BitVec m) : Bool := rsv z || rsv z2

/-- HandleOK(h, d) (R156). -/
def handleOk (h : Nat) (d : Dir) (s : State) : Bool :=
  decide (h < s.cfg.epMax) && (entry h s).used && (half h d s).isOpen

/-- The halves a direction operand names: both of a control endpoint, else the one (R151, R154, R158). -/
def halvesOf (t : XferType) (d : Dir) : List Dir := if t = .ctrl then bothDirs else [d]

/-- The used entry of an identity (dev, num); at most one exists (R45, R152). -/
def findEntry (dev : BitVec 7) (num : BitVec 4) (s : State) : Option Nat :=
  (List.range s.cfg.epMax).find? (fun h => (entry h s).used && (entry h s).dev == dev && (entry h s).num == num)

/-- The open endpoint of an identity (dev, num, d) (R157). -/
def findOpen (dev : BitVec 7) (num : BitVec 4) (d : Dir) (s : State) : Option Nat :=
  (List.range s.cfg.epMax).find?
    (fun h => (entry h s).used && (entry h s).dev == dev && (entry h s).num == num && (half h d s).isOpen)

/-- The lowest free entry (R152). -/
def freeEntry (s : State) : Option Nat := (List.range s.cfg.epMax).find? (fun h => !(entry h s).used)

/-- SelectEntry(type, dev, dir, num) (R152). -/
def selectEntry (type : XferType) (dev : BitVec 7) (dir : Dir) (num : BitVec 4) (s : State) : Except Status Nat :=
  match findEntry dev num s with
  | some h =>
    if type = .ctrl then .error .existing
    else if (half h dir s).isOpen then .error .existing
    else if (half h (otherDir dir) s).isOpen && (half h (otherDir dir) s).type == .ctrl then .error .existing
    else .ok h
  | none =>
    match freeEntry s with
    | some h => .ok h
    | none => .error .regfull

/-- QueryWord(hf): RESULT of EP_QUERY, STATUS 0 (R162). -/
def queryWord (hf : Half) : Word :=
  flag 4 hf.isOpen ||| flag 5 hf.halted ||| flag 6 hf.toggle ||| field 7 hf.xs.toBits ||| flag 9 hf.bound |||
    field 10 (if hf.bound then hf.ch else 0#4) ||| field 14 hf.type.toBits ||| field 16 hf.done

/-- QueryWord2(hf): RESULT2 of EP_QUERY (R162). -/
def queryWord2 (hf : Half) : Word := field 0 hf.nak ||| field 16 hf.err ||| field 21 hf.mps

/-- The handle a transaction event acts on (R125). -/
def slotHandle (c : BitVec 4) (d : Dir) (s : State) : Nat := (slot c.toNat d s).ep.toNat

/-- The half a transaction event acts on (R125). -/
def slotHalf (c : BitVec 4) (d : Dir) (s : State) : Half := half (slotHandle c d s) d s

/-- The slot conditions of a transaction event: the channel exists, its slot is bound and valid, INIT is done and the FIFO has
room for one word (R125). -/
def slotEnabled (c : BitVec 4) (d : Dir) (s : State) : Bool :=
  decide (c.toNat < s.cfg.numCh) && (slot c.toNat d s).bound && (slot c.toNat d s).valid && s.initDone && room 1 s

/-- NAK, STALL and XERR: host role, slot conditions, and the half INFLIGHT (R250). -/
def retryEnabled (c : BitVec 4) (d : Dir) (s : State) : Bool :=
  s.role == .host && slotEnabled c d s && (slotHalf c d s).xs == .inflight

/-- A link event whose enabling condition fails is refused (I14, R125, R295). -/
def whenEnabled (c : Bool) (r : Result) : Result := if c then r else .refused .linkNotEnabled

end Sys2Proof.Machine
end

