-- ==== Sys2Proof/Machine/Bus.lean ====
section
/-! DEFINITION. The bus events (43_event_sink_bus.md): BUS_RESET, ATTACH, DETACH, SUSPEND, RESUME; and the reserved link kinds,
which a model refuses (R124). -/

namespace Sys2Proof.Machine

/-- Close every open half, in ascending handle order, OUT before IN (R290). -/
def closeAll (s : State) : State := forEntries closeEntry s

/-- The words a bus reset pushes: one per transfer in flight, and its own if enabled (R282, R290). -/
def busResetWords (s : State) : Nat := busyCount (fun _ => true) s + (if enabled .busReset s then 1 else 0)

/-- BUS_RESET (R290). -/
def execLinkBusReset (s : State) : Result :=
  whenEnabled (s.initDone && s.role == .device && room (busResetWords s) s) (.next (pushIf .busReset busResetWord (closeAll s)))

/-- ATTACH (R292). -/
def execLinkAttach (speed : Bool) (s : State) : Result :=
  whenEnabled (s.initDone && s.role == .host && roomIf .attach s) (.next (pushIf .attach (attachedWord speed) s))

/-- DETACH (R293). -/
def execLinkDetach (s : State) : Result :=
  whenEnabled (s.initDone && s.role == .host && roomIf .remove s) (.next (pushIf .remove removedWord s))

/-- SUSPEND (R294). -/
def execLinkSuspend (s : State) : Result :=
  whenEnabled (s.initDone && roomIf .suspend s) (.next (pushIf .suspend suspendWord s))

/-- RESUME (R294). -/
def execLinkResume (s : State) : Result :=
  whenEnabled (s.initDone && roomIf .resume s) (.next (pushIf .resume resumeWord s))

/-- A reserved link kind is no behaviour of the hardware: a model refuses it (R124, R325). -/
def reservedKind : Result := .refused .illFormedLink

/-- Reserved link kind 0x0 (R124). -/
def execLinkReserved0 (_x : BitVec 28) (_data : List Byte) (_s : State) : Result := reservedKind

/-- Reserved link kind 0xD (R124). -/
def execLinkReservedD (_x : BitVec 28) (_data : List Byte) (_s : State) : Result := reservedKind

/-- Reserved link kind 0xE (R124). -/
def execLinkReservedE (_x : BitVec 28) (_data : List Byte) (_s : State) : Result := reservedKind

/-- Reserved link kind 0xF (R124). -/
def execLinkReservedF (_x : BitVec 28) (_data : List Byte) (_s : State) : Result := reservedKind

end Sys2Proof.Machine
end

