-- ==== Sys2Proof/Machine/Registry.lean ====
section
/-! DEFINITION. The commands of the Endpoint Registry (40_registry_allocator.md) and the reserved opcodes (R114). The check
order of each is that of rule R322. -/

namespace Sys2Proof.Machine

/-- INIT's register effects (R150). -/
def initRole (role : Role) (s : State) : State :=
  { s with
    role := role
    initDone := true
    intEn := bits (if role = .device then 0x00000033#32 else 0x0000000D#32) 1 6 }

/-- INIT (R150). -/
def execInit (z : BitVec 27) (role : Role) (s : State) : Result :=
  if rsv z then .next (reject .badarg s)
  else if s.initDone then .next (reject .already s)
  else .next (accept (initRole role s))

/-- The operand checks of EP_OPEN after NOTINIT (R151). -/
def epOpenBadArg (type : XferType) (mps : BitVec 11) (dev : BitVec 7) (z : BitVec 3) (s : State) : Bool :=
  rsv z || mps == 0 || decide (1023 < mps.toNat) || (type == .ctrl && decide (mps.toNat < 8)) ||
    (s.role == .device && dev != 0)

/-- The identity of an entry that EP_OPEN uses (R151). -/
def claimEntry (h : Nat) (dev : BitVec 7) (num : BitVec 4) (s : State) : State :=
  setEntry h { entry h s with used := true, dev := dev, num := num } s

/-- A freshly opened half; `bound` and `ch` are what Reserve set (device role), else 0 (R151). -/
def openedHalf (role : Role) (type : XferType) (mps : BitVec 11) (x : Half) : Half :=
  { Half.closed with
    isOpen := true
    type := type
    mps := mps
    bound := if role = .device then x.bound else false
    ch := if role = .device then x.ch else 0 }

/-- Open some halves of entry `h` (R151). -/
def openHalves (h : Nat) (type : XferType) (mps : BitVec 11) (ds : List Dir) (s : State) : State :=
  ds.foldl (fun t d => modHalf h d (openedHalf t.role type mps) t) s

/-- The device role reserves a slot and an arena range per half at open; the host role reserves nothing (R151, R153). -/
def reserveAtOpen (h : Nat) (dev : BitVec 7) (num : BitVec 4) (mps : Nat) (ds : List Dir) (s : State) :
    Except Status State :=
  if s.role = .device then reserve h dev num mps ds s else .ok s

/-- EP_OPEN (R151 to R153). -/
def execEpOpen (type : XferType) (mps : BitVec 11) (dev : BitVec 7) (dir : Dir) (z : BitVec 3) (num : BitVec 4)
    (s : State) : Result :=
  if !s.initDone then .next (reject .notinit s)
  else if epOpenBadArg type mps dev z s then .next (reject .badarg s)
  else
    match selectEntry type dev dir num s with
    | .error e => .next (reject e s)
    | .ok h =>
      match reserveAtOpen h dev num mps.toNat (halvesOf type dir) s with
      | .error e => .next (reject e s)
      | .ok t => .next (acceptHandle h (openHalves h type mps (halvesOf type dir) (claimEntry h dev num t)))

/-- EP_CLOSE (R154, R155). -/
def execEpClose (z : BitVec 19) (dir : Dir) (handle : BitVec 8) (s : State) : Result :=
  if !s.initDone then .next (reject .notinit s)
  else if rsv z then .next (reject .badarg s)
  else if !handleOk handle.toNat dir s then .next (reject .badhandle s)
  else if !room (busyIn handle.toNat (halvesOf (half handle.toNat dir s).type dir) s) s then .next (reject .evqfull s)
  else .next (accept (closeHalves handle.toNat (halvesOf (half handle.toNat dir s).type dir) s))

/-- EP_FIND (R157). -/
def execEpFind (z : BitVec 13) (dev : BitVec 7) (dir : Dir) (z2 : BitVec 3) (num : BitVec 4) (s : State) : Result :=
  if !s.initDone then .next (reject .notinit s)
  else if rsv2 z z2 then .next (reject .badarg s)
  else
    match findOpen dev num dir s with
    | some h => .next (acceptHandle h s)
    | none => .next (reject .notfound s)

/-- The halt is cleared and the toggle goes back to DATA0 (R158). -/
def clearStall (h : Nat) (ds : List Dir) (s : State) : State :=
  ds.foldl (fun t d => modHalf h d (fun x => { x with halted := false, toggle := false }) t) s

/-- EP_CLEAR_STALL (R158). -/
def execEpClearStall (z : BitVec 19) (dir : Dir) (handle : BitVec 8) (s : State) : Result :=
  if !s.initDone then .next (reject .notinit s)
  else if rsv z then .next (reject .badarg s)
  else if !handleOk handle.toNat dir s then .next (reject .badhandle s)
  else if busyIn handle.toNat (halvesOf (half handle.toNat dir s).type dir) s ≠ 0 then .next (reject .busy s)
  else .next (accept (clearStall handle.toNat (halvesOf (half handle.toNat dir s).type dir) s))

/-- Whether entry `h` belongs to device `dev` (R159). -/
def ofDevice (dev : BitVec 7) (s : State) (h : Nat) : Bool := (entry h s).used && (entry h s).dev == dev

/-- Close every endpoint of one device, in ascending handle order, OUT before IN (R159). -/
def closeDevice (dev : BitVec 7) (s : State) : State := forEntries (fun h t => if ofDevice dev t h then closeEntry h t else t) s

/-- DEV_CLOSE (R159). -/
def execDevClose (z : BitVec 13) (dev : BitVec 7) (z2 : BitVec 8) (s : State) : Result :=
  if !s.initDone then .next (reject .notinit s)
  else if rsv2 z z2 then .next (reject .badarg s)
  else if s.role ≠ .host then .next (reject .wrongrole s)
  else if !room (busyCount (ofDevice dev s) s) s then .next (reject .evqfull s)
  else .next (accept (closeDevice dev s))

/-- EP_QUERY (R161, R162). -/
def execEpQuery (z : BitVec 19) (dir : Dir) (handle : BitVec 8) (s : State) : Result :=
  if !s.initDone then .next (reject .notinit s)
  else if rsv z then .next (reject .badarg s)
  else if s.cfg.epMax ≤ handle.toNat then .next (reject .badhandle s)
  else .next { s with result := queryWord (half handle.toNat dir s), result2 := queryWord2 (half handle.toNat dir s) }

/-- A reserved opcode: RESULT 6, RESULT2 0, nothing else, before every other check (R114). -/
def illegalCommand (s : State) : Result := .next (reject .illegal s)

/-- Reserved opcode 0x0 (R114). -/
def execIllegal0 (_x : BitVec 28) (s : State) : Result := illegalCommand s

/-- Reserved opcode 0xA (R114). -/
def execIllegalA (_x : BitVec 28) (s : State) : Result := illegalCommand s

/-- Reserved opcode 0xB (R114). -/
def execIllegalB (_x : BitVec 28) (s : State) : Result := illegalCommand s

/-- Reserved opcode 0xC (R114). -/
def execIllegalC (_x : BitVec 28) (s : State) : Result := illegalCommand s

/-- Reserved opcode 0xD (R114). -/
def execIllegalD (_x : BitVec 28) (s : State) : Result := illegalCommand s

/-- Reserved opcode 0xE (R114). -/
def execIllegalE (_x : BitVec 28) (s : State) : Result := illegalCommand s

/-- Reserved opcode 0xF (R114). -/
def execIllegalF (_x : BitVec 28) (s : State) : Result := illegalCommand s

end Sys2Proof.Machine
end

