-- ==== Sys2Proof/Machine/Transfer.lean ====
section
/-! DEFINITION. The Transfer State Machine (41_transfer_engine.md): XFER_SUBMIT and XFER_ABORT, and the link events that
complete packets, TX_ACK, RX_DATA and SETUP_RX; the common transmission-error rule XErr (R255), which a babbling RX_DATA
takes too (R216). -/

namespace Sys2Proof.Machine

/-- SETUP misuse (R201). -/
def setupMisuse (setup zlp : Bool) (len : BitVec 16) (dir : Dir) (hf : Half) : Bool :=
  setup && (hf.type != .ctrl || dir != .out || len != 8 || zlp)

/-- The buffer ends past the top of the address space (R85, R201). -/
def pastTop (len : BitVec 16) (s : State) : Bool := len != 0 && decide (2 ^ 32 < s.arg0.toNat + len.toNat)

/-- The host role binds a channel slot and an arena range to the half at submit (R202); the device role uses the reserved
slot (R174). -/
def startHost (h : Nat) (d : Dir) (s : State) : Except Status State :=
  if s.role = .host then reserveHalf h (entry h s).dev (entry h s).num (half h d s).mps.toNat d s else .ok s

/-- A SETUP submit clears the halt of both halves (R201, R203). -/
def clearHaltedIf (setup : Bool) (h : Nat) (s : State) : State :=
  if setup then
    modHalf h .inn (fun x => { x with halted := false }) (modHalf h .out (fun x => { x with halted := false }) s)
  else s

/-- The transfer fields of a submit; the buffer is ARG0 (R201). -/
def loadTransfer (setup zlp : Bool) (len : BitVec 16) (h : Nat) (d : Dir) (s : State) : State :=
  modHalf h d
    (fun x => { x with setup := setup, zlp := zlp, buf := s.arg0, total := len, done := 0, nak := 0, err := 0 }) s

/-- The accepted submit once its slot is there: transfer fields, first packet, INFLIGHT (R201). -/
def startTransfer (setup zlp : Bool) (len : BitVec 16) (h : Nat) (d : Dir) (s : State) : Result :=
  andThen (arm h d (loadTransfer setup zlp len h d (clearHaltedIf setup h s)))
    (fun t => .next (accept (setXs h d .inflight t)))

/-- XFER_SUBMIT (R201 to R203). -/
def execXferSubmit (setup zlp : Bool) (len : BitVec 16) (z : BitVec 1) (dir : Dir) (handle : BitVec 8) (s : State) : Result :=
  if !s.initDone then .next (reject .notinit s)
  else if rsv z then .next (reject .badarg s)
  else if !handleOk handle.toNat dir s then .next (reject .badhandle s)
  else if (half handle.toNat dir s).xs ≠ .idle then .next (reject .busy s)
  else if setupMisuse setup zlp len dir (half handle.toNat dir s) then .next (reject .badarg s)
  else if zlp && !isSend s.role dir then .next (reject .badarg s)
  else if pastTop len s then .next (reject .badarg s)
  else if (half handle.toNat dir s).halted && !setup then .next (reject .halted s)
  else
    match startHost handle.toNat dir s with
    | .error e => .next (reject e s)
    | .ok t => startTransfer setup zlp len handle.toNat dir t

/-- XFER_ABORT (R205, R206). -/
def execXferAbort (z : BitVec 19) (dir : Dir) (handle : BitVec 8) (s : State) : Result :=
  if !s.initDone then .next (reject .notinit s)
  else if rsv z then .next (reject .badarg s)
  else if !handleOk handle.toNat dir s then .next (reject .badhandle s)
  else if (half handle.toNat dir s).xs = .idle then .next (accept s)
  else if !room 1 s then .next (reject .evqfull s)
  else .next (accept (abortHalf handle.toNat dir s))

/-- After a non-SETUP packet is acknowledged: settle on a short packet or on the last byte with ZLP = 0, else arm the next
(R214, R215). -/
def finishSend (h : Nat) (d : Dir) (n : Nat) (s : State) : Result :=
  let hf := half h d s
  if decide (n < hf.mps.toNat) || (hf.done == hf.total && !hf.zlp) then .next (settle h d .success s) else arm h d s

/-- The packet armed in a sending slot was acknowledged (R214). -/
def ackPacket (c : BitVec 4) (d : Dir) (s : State) : Result :=
  let h := slotHandle c d s
  let n := (slot c.toNat d s).cnt.toNat
  let t := countPacket h d n (recordTx c d .ack s)
  if (half h d t).setup then .next (settle h d .success (forceToggles h t))
  else finishSend h d n (advanceToggle h d t)

/-- TX_ACK (R214). -/
def execLinkTxAck (ch : BitVec 4) (dir : Dir) (s : State) : Result :=
  whenEnabled (slotEnabled ch dir s && isSend s.role dir) (ackPacket ch dir s)

/-- XErr(c, d): one more consecutive error; beyond ERR_RETRY_MAX the transfer fails, else the same packet stays armed
(R255). -/
def xErr (c : BitVec 4) (d : Dir) (s : State) : State :=
  let h := slotHandle c d s
  let t := modHalf h d (fun x => { x with err := BitVec.ofNat 5 (x.err.toNat + 1) }) s
  if s.cfg.errRetryMax < (half h d t).err.toNat then settle h d .failedXact (setValid c.toNat d false t) else t

/-- A packet with the wrong PID is a retransmission: only the counters are reset (R217). -/
def duplicatePacket (h : Nat) (d : Dir) (s : State) : State := modHalf h d (fun x => { x with nak := 0, err := 0 }) s

/-- After a received packet is counted: settle on a short packet or on the last byte, else arm again (R215, R216). -/
def finishReceive (h : Nat) (d : Dir) (n : Nat) (s : State) : Result :=
  let hf := half h d s
  if decide (n < hf.mps.toNat) || hf.done == hf.total then .next (settle h d .success s) else arm h d s

/-- An accepted data packet: into the arena, the part that is wanted into the caller buffer, counted (R216). -/
def acceptPacket (c : BitVec 4) (d : Dir) (data : List Byte) (s : State) : Result :=
  let h := slotHandle c d s
  let o := (slot c.toNat d s).off.toNat
  let hf := half h d s
  let k := min data.length (hf.total.toNat - hf.done.toNat)
  let a := hf.buf.toNat + hf.done.toNat
  let t := setCnt c.toNat d data.length (arenaWrite o data s)
  whenAdmitted a k s
    (finishReceive h d data.length (advanceToggle h d (countPacket h d k (memWrite a (arenaRead o k t) t))))

/-- A data packet received on a receiving slot: too long, a duplicate, or accepted (R216, R217). -/
def receivePacket (c : BitVec 4) (d : Dir) (pid : Bool) (data : List Byte) (s : State) : Result :=
  if (slot c.toNat d s).cnt.toNat < data.length then .next (if s.role = .host then xErr c d s else s)
  else if !pidMatches (slotHalf c d s) pid then .next (duplicatePacket (slotHandle c d s) d s)
  else acceptPacket c d data s

/-- The enabling condition of RX_DATA (R216). -/
def rxEnabled (c : BitVec 4) (d : Dir) (s : State) : Bool :=
  slotEnabled c d s && !isSend s.role d && !(s.role == .device && (slotHalf c d s).setup)

/-- RX_DATA (R216, R217). -/
def execLinkRxData (ch : BitVec 4) (dir : Dir) (pid : Bool) (n : BitVec 11) (data : List Byte) (s : State) : Result :=
  if !payloadFits n data then .refused .illFormedLink
  else whenEnabled (rxEnabled ch dir s) (receivePacket ch dir pid data s)

/-- A SETUP packet received (R218). -/
def acceptSetup (c : BitVec 4) (data : List Byte) (s : State) : Result :=
  let h := slotHandle c .out s
  let a := (half h .out s).buf.toNat
  let t := memWrite a data (setCnt c.toNat .out 8 (arenaWrite (slot c.toNat .out s).off.toNat data s))
  whenAdmitted a 8 s
    (.next (settle h .out .success
      (forceToggles h (modHalf h .out (fun x => { x with done := 8, nak := 0, err := 0 }) t))))

/-- The enabling condition of SETUP_RX: device role, OUT, the half armed with a SETUP transfer (R218). -/
def setupEnabled (c : BitVec 4) (d : Dir) (s : State) : Bool :=
  slotEnabled c d s && s.role == .device && d == .out && (slotHalf c d s).setup

/-- SETUP_RX (R218). -/
def execLinkSetupRx (ch : BitVec 4) (dir : Dir) (n : BitVec 11) (data : List Byte) (s : State) : Result :=
  if !(n == 8#11 && payloadFits n data) then .refused .illFormedLink
  else whenEnabled (setupEnabled ch dir s) (acceptSetup ch data s)

end Sys2Proof.Machine
end

