-- ==== Sys2Proof/Machine/Registers.lean ====
section
/-! DEFINITION. The CPU's register accesses, one step each: reads (R283, R284) and writes (R285); a write of CMD executes the
command its value encodes (R38, R115). -/

namespace Sys2Proof.Machine

/-- A read returns a word to the CPU and changes nothing else (R84, R284). -/
def returnRead (v : Word) (s : State) : State := { s with rdata := v }

/-- A register a CPU write does not change: read-only or reserved (R31, R43, R285). -/
def readOnly (v : Word) (a : RegAccess) (s : State) : Result :=
  match a with
  | .read => .next (returnRead v s)
  | .write _ => .next s

/-- CTRL as the CPU reads it (R32, R284). -/
def ctrlWord (s : State) : Word :=
  flag 0 s.gie ||| field 1 s.role.toBit ||| flag 2 s.initDone ||| flag 3 (irq s) ||| flag 4 s.fatal

/-- EVQ_STATUS (R42, R284). -/
def evqStatusWord (s : State) : Word := field 0 (BitVec.ofNat 8 s.evq.length) ||| field 8 (BitVec.ofNat 8 s.cfg.evqDepth)

/-- The head event word, or 0 when the FIFO is empty (R42, R283). -/
def evqHead (s : State) : Word := s.evq.headD 0

/-- PARAM0 (R41, R284); interface revision 1 (R2). -/
def param0Word (c : Config) : Word :=
  field 0 (BitVec.ofNat 8 c.numCh) ||| field 8 (BitVec.ofNat 8 c.epMax) ||| field 16 (BitVec.ofNat 8 c.evqDepth) |||
    field 24 (BitVec.ofNat 4 c.errRetryMax) ||| field 28 1#4

/-- PARAM1 (R41, R284). -/
def param1Word (c : Config) : Word := field 0 (BitVec.ofNat 16 c.arenaSize) ||| field 16 (BitVec.ofNat 16 c.arenaBase)

/-- PARAM2 (R41, R284). -/
def param2Word (c : Config) : Word := field 0 (BitVec.ofNat 9 c.arenaGran)

/-- CTRL: a write sets GIE to bit 0 of the value and nothing else (R33, R284). -/
def execRegCtrl (a : RegAccess) (s : State) : Result :=
  match a with
  | .read => .next (returnRead (ctrlWord s) s)
  | .write v => .next { s with gie := bit v 0 }

/-- INT_EN: a write stores bits 6 to 1 (R35, R284). -/
def execRegIntEn (a : RegAccess) (s : State) : Result :=
  match a with
  | .read => .next (returnRead (intEnWord s) s)
  | .write v => .next { s with intEn := bits v 1 6 }

/-- NAK_LIMIT: a write stores bits 15 to 0 (R36, R284). -/
def execRegNakLimit (a : RegAccess) (s : State) : Result :=
  match a with
  | .read => .next (returnRead (field 0 s.nakLimit) s)
  | .write v => .next { s with nakLimit := bits v 0 16 }

/-- ARG0 (R37, R284, R285). -/
def execRegArg0 (a : RegAccess) (s : State) : Result :=
  match a with
  | .read => .next (returnRead s.arg0 s)
  | .write v => .next { s with arg0 := v }

/-- Run the command an instruction is (R111, R114). -/
def executeInstr (i : Instr) (s : State) : Result :=
  match i with
  | .init z role => execInit z role s
  | .epOpen type mps dev dir z num => execEpOpen type mps dev dir z num s
  | .epClose z dir handle => execEpClose z dir handle s
  | .epFind z dev dir z2 num => execEpFind z dev dir z2 num s
  | .xferSubmit setup zlp len z dir handle => execXferSubmit setup zlp len z dir handle s
  | .xferAbort z dir handle => execXferAbort z dir handle s
  | .epClearStall z dir handle => execEpClearStall z dir handle s
  | .devClose z dev z2 => execDevClose z dev z2 s
  | .epQuery z dir handle => execEpQuery z dir handle s
  | .illegal0 x => execIllegal0 x s
  | .illegalA x => execIllegalA x s
  | .illegalB x => execIllegalB x s
  | .illegalC x => execIllegalC x s
  | .illegalD x => execIllegalD x s
  | .illegalE x => execIllegalE x s
  | .illegalF x => execIllegalF x s
  | _ => .refused .notACommand

/-- Execute(w): the command a word written to CMD encodes, as one step (R38, R115, R285). -/
def executeCommand (w : Word) (s : State) : Result := executeInstr (decodeCommand w) s

/-- CMD: reads 0; a write executes the command (R31, R38, R285). -/
def execRegCmd (a : RegAccess) (s : State) : Result :=
  match a with
  | .read => .next (returnRead 0 s)
  | .write w => executeCommand w s

/-- RESULT, read-only (R39). -/
def execRegResult (a : RegAccess) (s : State) : Result := readOnly s.result a s

/-- RESULT2, read-only (R40). -/
def execRegResult2 (a : RegAccess) (s : State) : Result := readOnly s.result2 a s

/-- EVQ_STATUS, read-only (R42). -/
def execRegEvqStatus (a : RegAccess) (s : State) : Result := readOnly (evqStatusWord s) a s

/-- EVQ_POP: a read returns the head event word and removes it, 0 when there is none (R283); a write has no effect (R31). -/
def execRegEvqPop (a : RegAccess) (s : State) : Result :=
  match a with
  | .read => .next (returnRead (evqHead s) { s with evq := s.evq.tail })
  | .write _ => .next s

/-- EVQ_PEEK, read-only: the head event word stays (R42, R284). -/
def execRegEvqPeek (a : RegAccess) (s : State) : Result := readOnly (evqHead s) a s

/-- PARAM0, read-only (R41). -/
def execRegParam0 (a : RegAccess) (s : State) : Result := readOnly (param0Word s.cfg) a s

/-- PARAM1, read-only (R41). -/
def execRegParam1 (a : RegAccess) (s : State) : Result := readOnly (param1Word s.cfg) a s

/-- PARAM2, read-only (R41). -/
def execRegParam2 (a : RegAccess) (s : State) : Result := readOnly (param2Word s.cfg) a s

/-- Offset 0x34, reserved (R43). -/
def execRegReserved34 (a : RegAccess) (s : State) : Result := readOnly 0 a s

/-- Offset 0x38, reserved (R43). -/
def execRegReserved38 (a : RegAccess) (s : State) : Result := readOnly 0 a s

/-- Offset 0x3C, reserved (R43). -/
def execRegReserved3C (a : RegAccess) (s : State) : Result := readOnly 0 a s

end Sys2Proof.Machine
end

