-- ==== Sys2Proof/Machine/Retry.lean ====
section
/-! DEFINITION. The Retry and Backoff Policy (42_retry_policy.md): NAK, STALL, XERR and the frame boundary. -/

namespace Sys2Proof.Machine

/-- PeriodicNak(h, d): not valid, waiting for the next frame (R252). -/
def periodicNak (h : Nat) (d : Dir) (s : State) : State :=
  setXs h d .wait (setValid (half h d s).ch.toNat d false s)

/-- The NAK budget K is used up (R251). -/
def budgetGone (hf : Half) (s : State) : Bool := s.nakLimit != 0 && decide (s.nakLimit.toNat ≤ hf.nak.toNat)

/-- One more NAK: a periodic half waits, a half whose budget is gone settles, any other stays armed (R251, R252). -/
def nakPacket (c : BitVec 4) (d : Dir) (s : State) : State :=
  let h := slotHandle c d s
  let t := modHalf h d (fun x => { x with nak := sat16 (x.nak.toNat + 1) }) (recordTx c d .nak s)
  if periodic (half h d t).type then periodicNak h d t
  else if budgetGone (half h d t) t then settle h d .failedNak (setValid c.toNat d false t)
  else t

/-- NAK (R250 to R252). -/
def execLinkNak (ch : BitVec 4) (dir : Dir) (s : State) : Result :=
  whenEnabled (retryEnabled ch dir s) (.next (nakPacket ch dir s))

/-- The device answered STALL: halted, settled, no retry (R254). -/
def stallPacket (c : BitVec 4) (d : Dir) (s : State) : State :=
  let h := slotHandle c d s
  settle h d .stalled
    (setValid c.toNat d false (modHalf h d (fun x => { x with halted := true }) (recordTx c d .stall s)))

/-- STALL (R250, R254). -/
def execLinkStall (ch : BitVec 4) (dir : Dir) (s : State) : Result :=
  whenEnabled (retryEnabled ch dir s) (.next (stallPacket ch dir s))

/-- XERR (R250, R255). -/
def execLinkXerr (ch : BitVec 4) (dir : Dir) (s : State) : Result :=
  whenEnabled (retryEnabled ch dir s) (.next (xErr ch dir (recordTx ch dir .xerr s)))

/-- The frame boundary of one half: a periodic half's NAK count restarts, and a waiting packet is armed again (R257). -/
def frameHalf (h : Nat) (d : Dir) (s : State) : State :=
  if (half h d s).isOpen && periodic (half h d s).type then
    let t := modHalf h d (fun x => { x with nak := 0 }) s
    if (half h d t).xs = .wait then setXs h d .inflight (setValid (half h d t).ch.toNat d true t) else t
  else s

/-- The frame boundary of the registry, host role only, OUT before IN in ascending handle order (R257). -/
def frameService (s : State) : State :=
  if s.role = .host then forEntries (fun h t => frameHalf h .inn (frameHalf h .out t)) s else s

/-- FRAME (R257). -/
def execLinkFrame (s : State) : Result :=
  whenEnabled (s.initDone && roomIf .sof s) (.next (pushIf .sof sofWord (frameService s)))

end Sys2Proof.Machine
end

