-- ==== Sys2Proof/Machine/Dispatch.lean ====
section
/-! DEFINITION. The meaning of every instruction, one arm per row of spec/opcode_table.json. -/

namespace Sys2Proof.Machine

def exec (i : Instr) (s : State) : Host.Outcome State Fault Refusal :=
  match i with
  | .init z role => Sys2Proof.Machine.execInit z role s
  | .epOpen type mps dev dir z num => Sys2Proof.Machine.execEpOpen type mps dev dir z num s
  | .epClose z dir handle => Sys2Proof.Machine.execEpClose z dir handle s
  | .epFind z dev dir z2 num => Sys2Proof.Machine.execEpFind z dev dir z2 num s
  | .xferSubmit setup zlp len z dir handle => Sys2Proof.Machine.execXferSubmit setup zlp len z dir handle s
  | .xferAbort z dir handle => Sys2Proof.Machine.execXferAbort z dir handle s
  | .epClearStall z dir handle => Sys2Proof.Machine.execEpClearStall z dir handle s
  | .devClose z dev z2 => Sys2Proof.Machine.execDevClose z dev z2 s
  | .epQuery z dir handle => Sys2Proof.Machine.execEpQuery z dir handle s
  | .illegal0 x => Sys2Proof.Machine.execIllegal0 x s
  | .illegalA x => Sys2Proof.Machine.execIllegalA x s
  | .illegalB x => Sys2Proof.Machine.execIllegalB x s
  | .illegalC x => Sys2Proof.Machine.execIllegalC x s
  | .illegalD x => Sys2Proof.Machine.execIllegalD x s
  | .illegalE x => Sys2Proof.Machine.execIllegalE x s
  | .illegalF x => Sys2Proof.Machine.execIllegalF x s
  | .linkTxAck ch dir => Sys2Proof.Machine.execLinkTxAck ch dir s
  | .linkRxData ch dir pid n data => Sys2Proof.Machine.execLinkRxData ch dir pid n data s
  | .linkNak ch dir => Sys2Proof.Machine.execLinkNak ch dir s
  | .linkStall ch dir => Sys2Proof.Machine.execLinkStall ch dir s
  | .linkXerr ch dir => Sys2Proof.Machine.execLinkXerr ch dir s
  | .linkSetupRx ch dir n data => Sys2Proof.Machine.execLinkSetupRx ch dir n data s
  | .linkFrame => Sys2Proof.Machine.execLinkFrame s
  | .linkBusReset => Sys2Proof.Machine.execLinkBusReset s
  | .linkAttach speed => Sys2Proof.Machine.execLinkAttach speed s
  | .linkDetach => Sys2Proof.Machine.execLinkDetach s
  | .linkSuspend => Sys2Proof.Machine.execLinkSuspend s
  | .linkResume => Sys2Proof.Machine.execLinkResume s
  | .linkReserved0 x data => Sys2Proof.Machine.execLinkReserved0 x data s
  | .linkReservedD x data => Sys2Proof.Machine.execLinkReservedD x data s
  | .linkReservedE x data => Sys2Proof.Machine.execLinkReservedE x data s
  | .linkReservedF x data => Sys2Proof.Machine.execLinkReservedF x data s
  | .regCtrl a => Sys2Proof.Machine.execRegCtrl a s
  | .regIntEn a => Sys2Proof.Machine.execRegIntEn a s
  | .regNakLimit a => Sys2Proof.Machine.execRegNakLimit a s
  | .regArg0 a => Sys2Proof.Machine.execRegArg0 a s
  | .regCmd a => Sys2Proof.Machine.execRegCmd a s
  | .regResult a => Sys2Proof.Machine.execRegResult a s
  | .regResult2 a => Sys2Proof.Machine.execRegResult2 a s
  | .regEvqStatus a => Sys2Proof.Machine.execRegEvqStatus a s
  | .regEvqPop a => Sys2Proof.Machine.execRegEvqPop a s
  | .regEvqPeek a => Sys2Proof.Machine.execRegEvqPeek a s
  | .regParam0 a => Sys2Proof.Machine.execRegParam0 a s
  | .regParam1 a => Sys2Proof.Machine.execRegParam1 a s
  | .regParam2 a => Sys2Proof.Machine.execRegParam2 a s
  | .regReserved34 a => Sys2Proof.Machine.execRegReserved34 a s
  | .regReserved38 a => Sys2Proof.Machine.execRegReserved38 a s
  | .regReserved3C a => Sys2Proof.Machine.execRegReserved3C a s

end Sys2Proof.Machine
end

