-- ==== Sys2Proof/Machine/Invariants.lean ====
section
/-! DEFINITION. The state invariants INV1 to INV8 of rule R54, and the check that ends a step whose result breaks one
(R53, R324). -/

namespace Sys2Proof.Machine

/-- The ranges [off, off+size) of two slots are disjoint. -/
abbrev apart (x y : Slot) : Prop :=
  x.off.toNat + x.size.toNat ≤ y.off.toNat ∨ y.off.toNat + y.size.toNat ≤ x.off.toNat

/-- INV1: the bound slots' ranges lie in [ARENA_BASE, ARENA_SIZE) and are pairwise disjoint (R54). -/
abbrev Inv1 (s : State) : Prop :=
  ∀ c < s.cfg.numCh, ∀ d ∈ bothDirs, (slot c d s).bound = true →
    s.cfg.arenaBase ≤ (slot c d s).off.toNat ∧ (slot c d s).off.toNat + (slot c d s).size.toNat ≤ s.cfg.arenaSize ∧
    ∀ c' < s.cfg.numCh, ∀ d' ∈ bothDirs, (slot c' d' s).bound = true → (c, d) ≠ (c', d') →
      apart (slot c d s) (slot c' d' s)

/-- INV2: a bound slot and the half it serves name each other (R54). -/
abbrev Inv2 (s : State) : Prop :=
  (∀ c < s.cfg.numCh, ∀ d ∈ bothDirs, (slot c d s).bound = true →
    (slot c d s).ep.toNat < s.cfg.epMax ∧ (half (slot c d s).ep.toNat d s).bound = true ∧
    (half (slot c d s).ep.toNat d s).ch.toNat = c) ∧
  (∀ h < s.cfg.epMax, ∀ d ∈ bothDirs, (half h d s).bound = true →
    (half h d s).ch.toNat < s.cfg.numCh ∧ (slot (half h d s).ch.toNat d s).bound = true ∧
    (slot (half h d s).ch.toNat d s).ep.toNat = h)

/-- INV3: the bound slots of a channel serve one entry, whose identity is the channel's association (R54). -/
abbrev Inv3 (s : State) : Prop :=
  ∀ c < s.cfg.numCh,
    ((slot c .out s).bound = true → (slot c .inn s).bound = true → (slot c .out s).ep = (slot c .inn s).ep) ∧
    ∀ d ∈ bothDirs, (slot c d s).bound = true →
      (chan c s).adev = (entry (slot c d s).ep.toNat s).dev ∧ (chan c s).anum = (entry (slot c d s).ep.toNat s).num

/-- INV4: done ≤ total; cnt ≤ size and size = roundup(mps, ARENA_GRAN) for a bound slot (R54). -/
abbrev Inv4 (s : State) : Prop :=
  (∀ h < s.cfg.epMax, ∀ d ∈ bothDirs, (half h d s).done.toNat ≤ (half h d s).total.toNat) ∧
  (∀ c < s.cfg.numCh, ∀ d ∈ bothDirs, (slot c d s).bound = true →
    (slot c d s).cnt.toNat ≤ (slot c d s).size.toNat ∧
    (slot c d s).size.toNat = roundup (half (slot c d s).ep.toNat d s).mps.toNat s.cfg.arenaGran)

/-- INV5: which slots are valid, and what each transfer state says of the half's slot (R54). -/
abbrev Inv5 (s : State) : Prop :=
  (∀ c < s.cfg.numCh, ∀ d ∈ bothDirs, (slot c d s).valid = true → (slot c d s).bound = true) ∧
  (∀ h < s.cfg.epMax, ∀ d ∈ bothDirs,
    ((half h d s).xs = .inflight ↔ (half h d s).bound = true ∧ (slot (half h d s).ch.toNat d s).valid = true) ∧
    ((half h d s).xs = .wait → s.role = .host ∧ periodic (half h d s).type = true ∧ (half h d s).bound = true ∧
      (slot (half h d s).ch.toNat d s).valid = false) ∧
    ((half h d s).xs = .idle → (half h d s).bound = true → (slot (half h d s).ch.toNat d s).valid = false))

/-- INV6: when a half is bound, by role (R54, R174). -/
abbrev Inv6 (s : State) : Prop :=
  ∀ h < s.cfg.epMax, ∀ d ∈ bothDirs,
    (s.role = .host → ((half h d s).bound = true ↔ (half h d s).xs ≠ .idle)) ∧
    (s.role = .device → ((half h d s).bound = true ↔ (half h d s).isOpen = true))

/-- INV7: the FIFO never holds more than EVQ_DEPTH words (R54). -/
abbrev Inv7 (s : State) : Prop := s.evq.length ≤ s.cfg.evqDepth

/-- A control half is open exactly when the other half of its entry is an open control half (R54, INV8). -/
abbrev controlPair (x y : Half) : Prop := x.type = .ctrl → (x.isOpen = true ↔ y.isOpen = true ∧ y.type = .ctrl)

/-- Two entries have the same (dev, num) (R45). -/
def sameIdentity (x y : Entry) : Bool := x.dev == y.dev && x.num == y.num

/-- INV8, first part: a used entry is one with an open half (R54). -/
abbrev Inv8Used (s : State) : Prop :=
  ∀ h < s.cfg.epMax, (entry h s).used = true ↔ (half h .out s).isOpen = true ∨ (half h .inn s).isOpen = true

/-- INV8, second part: control halves come in pairs (R54). -/
abbrev Inv8Pair (s : State) : Prop := ∀ h < s.cfg.epMax, ∀ d ∈ bothDirs, controlPair (half h d s) (half h (otherDir d) s)

/-- INV8, third part: no two used entries have one identity (R45, R54). -/
abbrev Inv8Unique (s : State) : Prop :=
  ∀ h < s.cfg.epMax, (entry h s).used = true → ∀ h' < s.cfg.epMax, (entry h' s).used = true →
    sameIdentity (entry h s) (entry h' s) = true → h = h'

/-- INV8: used entries and open halves; one entry per identity; control halves come in pairs (R54). -/
abbrev Inv8 (s : State) : Prop := Inv8Used s ∧ Inv8Pair s ∧ Inv8Unique s

/-- The number of the first broken invariant, if one is broken (R324). -/
def firstBroken (s : State) : Option Nat :=
  if ¬ Inv1 s then some 1
  else if ¬ Inv2 s then some 2
  else if ¬ Inv3 s then some 3
  else if ¬ Inv4 s then some 4
  else if ¬ Inv5 s then some 5
  else if ¬ Inv6 s then some 6
  else if ¬ Inv7 s then some 7
  else if ¬ Inv8Used s then some 8
  else if ¬ Inv8Pair s then some 8
  else if ¬ Inv8Unique s then some 8
  else none

/-- A step that would leave a state where an invariant fails sets FATAL and ends in the invariant fault (R53, R324). -/
def checked (r : Result) : Result :=
  match r with
  | .next s =>
    match firstBroken s with
    | none => .next s
    | some n => .fault (.invariant n { s with fatal := true })
  | .fault e => .fault e
  | .refused e => .refused e

end Sys2Proof.Machine
end

