-- ==== Sys2Proof/Machine/Fetch.lean ====
section
/-! DEFINITION. What the next attempted step is: the head of the inbox, decoded (R6, R90); and how a rejected access ends
(R83, R124, R323). -/

namespace Sys2Proof.Machine

/-- The next attempted step and the state without it; none when no agent attempts one. -/
def fetch (s : State) : Option (Stimulus × State) :=
  match s.inbox with
  | [] => none
  | x :: rest => some (x, { s with inbox := rest })

/-- The instruction a raw form is, in the window of this instance (R83, R88, R115, R122). -/
def decodeAt (r : RawInstr) (s : State) : Except Reject Instr := decode s.cfg.blockBase r

/-- How a rejected raw instruction ends: the RegAccess fault with its information (R323), or the refusal of an ill-formed link
event word (R124, R325). -/
def rejected : Reject → Result
  | .regAccess o w isWrite => .fault (.regAccess o w isWrite)
  | .illFormedLink _ => .refused .illFormedLink

/-- Put a raw instruction at the head of the inbox. -/
def offer (r : RawInstr) (s : State) : State := { s with inbox := .act r :: s.inbox }

end Sys2Proof.Machine
end

