-- ==== Sys2Proof/Machine/Step.lean ====
section
/-! DEFINITION. One step: the next attempted step of the inbox, decoded and executed, its result checked against the invariants
of R54 (R324); a CPU store or load accesses system memory; with an empty inbox the engine idles (R44, R351). -/

namespace Sys2Proof.Machine

/-- One step of the machine. A CPU access of the window is an act, of any width, and can end in RegAccess (R83, R323); a store or
a load is an access of system memory at any addresses, also one that BLOCK_BASE gives the window: DESIGN CHOICE, log entry 18. -/
def step (s : State) : Host.Outcome State Fault Refusal :=
  match fetch s with
  | none => .next s
  | some (.store cells, t) => .next (cpuStore cells t)
  | some (.load addrs, t) => .next (cpuLoad addrs t)
  | some (.act r, t) =>
    match decodeAt r t with
    | .error e => rejected e
    | .ok i => checked (exec i t)

/-- The state whose very next step runs the instruction a table word stands for (log entry 8). -/
def State.withFetchWord (s : State) (nbits w : Nat) : State := offer (tableRaw s.cfg.blockBase nbits w) s

end Sys2Proof.Machine
end

