-- ==== Sys2Proof/Safety.lean ====
section
/-! DEFINITION. What counts as a safe state of the engine: the invariants of rule R54, and with them the facts the rules imply
about every state a run reaches, which make the invariants of R54 hold from step to step. Claims take Good as their premise
where they would fail only in states that no run reaches. -/

namespace Sys2Proof.Safety

open Sys2Proof.Machine

/-- A property of every direction half of the registry. -/
abbrev EveryHalf (P : Nat → Dir → Prop) (s : State) : Prop := ∀ h < s.cfg.epMax, ∀ d ∈ bothDirs, P h d

/-- The parameters are legal (R7) and the tables have their sizes (R45, R48). -/
abbrev Shape (s : State) : Prop := s.cfg.Legal ∧ s.eps.length = s.cfg.epMax ∧ s.chans.length = s.cfg.numCh

/-- Both memories are canonical and list only addresses of their space (R80). -/
abbrev Memories (s : State) : Prop :=
  Memory.wf s.arena ∧ Memory.wf s.mem ∧ (∀ p ∈ s.arena, p.1 < s.cfg.arenaSize) ∧ ∀ p ∈ s.mem, p.1 < 2 ^ 32

/-- Before INIT there is no role and nothing is open (R150, R351). -/
abbrev BeforeInit (s : State) : Prop :=
  s.initDone = false → s.role = .device ∧ ∀ h < s.cfg.epMax, entry h s = Entry.free

/-- A half that is not open has all fields 0 (R57, R155). -/
abbrev ClosedHalves (s : State) : Prop := EveryHalf (fun h d => (half h d s).isOpen = false → half h d s = Half.closed) s

/-- The max packet size of an open half is one EP_OPEN accepts (R46, R151). -/
abbrev OpenSizes (s : State) : Prop :=
  EveryHalf (fun h d => (half h d s).isOpen = true →
    1 ≤ (half h d s).mps.toNat ∧ (half h d s).mps.toNat ≤ 1023 ∧ ((half h d s).type = .ctrl → 8 ≤ (half h d s).mps.toNat)) s

/-- A SETUP stage in flight is an 8-byte transfer on the OUT half of a control endpoint (R201, R203). -/
abbrev SetupTransfers (s : State) : Prop :=
  EveryHalf (fun h d => (half h d s).xs ≠ .idle → (half h d s).setup = true →
    (half h d s).type = .ctrl ∧ d = .out ∧ (half h d s).total = 8) s

/-- The byte count of the slot of a transfer in flight: the armed packet's length on a sending slot, mps on a receiving one
(R49, R210, R211). -/
abbrev ArmedCounts (s : State) : Prop :=
  EveryHalf (fun h d => (half h d s).xs ≠ .idle →
    (slot (half h d s).ch.toNat d s).cnt.toNat =
      if isSend s.role d then nextLen (half h d s) else (half h d s).mps.toNat) s

/-- The caller buffer of a transfer in flight ends inside the address space (R85, R201). -/
abbrev Buffers (s : State) : Prop :=
  EveryHalf (fun h d => (half h d s).xs ≠ .idle → (half h d s).total ≠ 0 →
    (half h d s).buf.toNat + (half h d s).total.toNat ≤ 2 ^ 32) s

/-- The error count stays in its bound (R255), and a device half keeps no retry state (R250). -/
abbrev RetryCounts (s : State) : Prop :=
  EveryHalf (fun h d =>
    (half h d s).err.toNat ≤ s.cfg.errRetryMax + 1 ∧
    ((half h d s).xs ≠ .idle → (half h d s).err.toNat ≤ s.cfg.errRetryMax) ∧
    (s.role = .device → (half h d s).nak = 0 ∧ (half h d s).err = 0)) s

/-- Both bound halves of an entry are on one channel (R175). -/
abbrev CoLocated (s : State) : Prop :=
  ∀ h < s.cfg.epMax, (half h .out s).bound = true → (half h .inn s).bound = true → (half h .out s).ch = (half h .inn s).ch

/-- The invariants of R54, and the facts that make them inductive. -/
structure Good (s : State) : Prop where
  shape : Shape s
  memories : Memories s
  inv1 : Inv1 s
  inv2 : Inv2 s
  inv3 : Inv3 s
  inv4 : Inv4 s
  inv5 : Inv5 s
  inv6 : Inv6 s
  inv7 : Inv7 s
  inv8Used : Inv8Used s
  inv8Pair : Inv8Pair s
  inv8Unique : Inv8Unique s
  beforeInit : BeforeInit s
  closedHalves : ClosedHalves s
  openSizes : OpenSizes s
  setupTransfers : SetupTransfers s
  armedCounts : ArmedCounts s
  buffers : Buffers s
  retryCounts : RetryCounts s
  coLocated : CoLocated s
  notFatal : s.fatal = false

end Sys2Proof.Safety
end

