-- ==== Sys2Proof/Certificates/Slice0/Obligations.lean ====
section
/-! DEFINITION. The statements for the provers, each a proposition about the model that formalises rules of spec/. The first
part names what the statements share: the numbers of event words and query words, what a step leaves unchanged, and, per
instruction, when it completes (…Ready) and what it then leaves (…After). Wherever a statement would fail only in states no run
reaches, its premise is Safety.Good, which StepKeepsGood and ResetIsGood state of every reachable state. -/

namespace Sys2Proof.Claims

open Sys2Proof.Machine Sys2Proof.Safety

/-! ### Numbers -/

/-- OUT = 0, IN = 1 (R11). -/
def dirNum : Dir → Nat
  | .out => 0
  | .inn => 1

/-- The XFER_COMPLETE word as a number: code, outcome, direction, handle and byte count in their places (R120). -/
def completion (outcome : Nat) (d : Dir) (h done : Nat) : Word :=
  BitVec.ofNat 32 (0x10000000 + outcome * 0x2000000 + dirNum d * 0x1000000 + h * 0x10000 + done)

/-- Whether an event word is an XFER_COMPLETE word (R119). -/
def isCompletion (w : Word) : Bool := w >>> 28 == 1

/-- RESULT of EP_QUERY as a number (R162). -/
def queryNumber (x : Half) : Nat :=
  x.isOpen.toNat * 16 + x.halted.toNat * 32 + x.toggle.toNat * 64 +
    (match x.xs with
      | .idle => 0
      | .inflight => 1
      | .wait => 2) * 128 +
    x.bound.toNat * 512 + (if x.bound then x.ch.toNat else 0) * 1024 +
    (match x.type with
      | .ctrl => 0
      | .iso => 1
      | .bulk => 2
      | .intr => 3) * 16384 +
    x.done.toNat * 65536

/-- RESULT2 of EP_QUERY as a number (R162). -/
def queryNumber2 (x : Half) : Nat := x.nak.toNat + x.err.toNat * 65536 + x.mps.toNat * 2097152

/-- The packets a sending transfer of `n` bytes takes at max packet size `m` (R204). -/
def packets (n m : Nat) (zlp : Bool) : Nat :=
  if n = 0 then 1 else if n % m ≠ 0 then n / m + 1 else if zlp then n / m + 1 else n / m

/-! ### Which instruction a step runs -/

/-- A write of CMD is the command its value encodes (R38); any other instruction is itself. -/
def underlying : Instr → Instr
  | .regCmd (.write w) => decodeCommand w
  | i => i

/-- The commands and the reserved opcodes (R111). -/
def isCommand : Instr → Bool
  | .init _ _ | .epOpen _ _ _ _ _ _ | .epClose _ _ _ | .epFind _ _ _ _ _ | .xferSubmit _ _ _ _ _ _ | .xferAbort _ _ _
  | .epClearStall _ _ _ | .devClose _ _ _ | .epQuery _ _ _ | .illegal0 _ | .illegalA _ | .illegalB _ | .illegalC _
  | .illegalD _ | .illegalE _ | .illegalF _ => true
  | _ => false

/-- The link events, the reserved kinds among them (R123). -/
def isLink : Instr → Bool
  | .linkTxAck _ _ | .linkRxData _ _ _ _ _ | .linkNak _ _ | .linkStall _ _ | .linkXerr _ _ | .linkSetupRx _ _ _ _ | .linkFrame
  | .linkBusReset | .linkAttach _ | .linkDetach | .linkSuspend | .linkResume | .linkReserved0 _ _ | .linkReservedD _ _
  | .linkReservedE _ _ | .linkReservedF _ _ => true
  | _ => false

/-- The register reads (R284). -/
def isRead : Instr → Bool
  | .regCtrl .read | .regIntEn .read | .regNakLimit .read | .regArg0 .read | .regCmd .read | .regResult .read
  | .regResult2 .read | .regEvqStatus .read | .regEvqPop .read | .regEvqPeek .read | .regParam0 .read | .regParam1 .read
  | .regParam2 .read | .regReserved34 .read | .regReserved38 .read | .regReserved3C .read => true
  | _ => false

/-- INIT (R150). -/
def isInit : Instr → Bool
  | .init _ _ => true
  | _ => false

/-- XFER_SUBMIT (R201). -/
def isSubmit : Instr → Bool
  | .xferSubmit _ _ _ _ _ _ => true
  | _ => false

/-- The instructions that can perform a system-memory access (R80, R86). -/
def usesMemory : Instr → Bool
  | .xferSubmit _ _ _ _ _ _ | .linkTxAck _ _ | .linkRxData _ _ _ _ _ | .linkSetupRx _ _ _ _ => true
  | _ => false

/-- The instructions that may move a toggle: the packet completions, the forced resets to DATA0, and the closes, which clear
the whole half (R221, R155). -/
def movesToggle : Instr → Bool
  | .epOpen _ _ _ _ _ _ | .epClose _ _ _ | .epClearStall _ _ _ | .devClose _ _ _ | .linkTxAck _ _ | .linkRxData _ _ _ _ _
  | .linkSetupRx _ _ _ _ | .linkBusReset => true
  | _ => false

/-- Whether a step reported a transmission attempt of a sending slot (R213). -/
def reportsAttempt : Instr → Bool
  | .linkTxAck _ _ | .linkNak _ _ | .linkStall _ _ | .linkXerr _ _ => true
  | _ => false

/-- One instruction, `k` times. -/
def repeatExec (i : Instr) : Nat → State → Result
  | 0, s => .next s
  | k + 1, s => andThen (repeatExec i k s) (fun t => exec i t)

/-! ### What a step leaves unchanged -/

/-- CTRL's stored bits, INT_EN, NAK_LIMIT, ARG0, the parameters, and the model's rdata, loaded and inbox. -/
abbrev SameControls (s t : State) : Prop :=
  t.cfg = s.cfg ∧ t.gie = s.gie ∧ t.role = s.role ∧ t.initDone = s.initDone ∧ t.fatal = s.fatal ∧ t.intEn = s.intEn ∧
  t.nakLimit = s.nakLimit ∧ t.arg0 = s.arg0 ∧ t.rdata = s.rdata ∧ t.loaded = s.loaded ∧
  t.inbox = s.inbox

/-- RESULT and RESULT2: what every step but a command keeps (R39, R40). -/
abbrev SameResults (s t : State) : Prop := t.result = s.result ∧ t.result2 = s.result2

/-- Every byte reads as before. -/
abbrev SameBytes (m m' : Memory) : Prop := ∀ a, Memory.read m' a = Memory.read m a

/-- Every byte outside the `n` bytes at `lo` reads as before. -/
abbrev SameBytesOutside (lo n : Nat) (m m' : Memory) : Prop := ∀ a, (a < lo ∨ lo + n ≤ a) → Memory.read m' a = Memory.read m a

/-- The bytes at `lo`, ascending. -/
abbrev BytesAt (m : Memory) (lo : Nat) (bs : List Byte) : Prop := Memory.readBytes m lo bs.length = bs

/-- Every half reads as before but the halves `ds` of entry `h`. -/
abbrev OtherHalves (h : Nat) (ds : List Dir) (s t : State) : Prop :=
  ∀ h' d', ¬ (h' = h ∧ d' ∈ ds) → half h' d' t = half h' d' s

/-- Every entry's used bit and identity. -/
abbrev SameIdentities (s t : State) : Prop :=
  ∀ h, (entry h t).used = (entry h s).used ∧ (entry h t).dev = (entry h s).dev ∧ (entry h t).num = (entry h s).num

/-- Every other entry's used bit and identity. -/
abbrev OtherIdentities (h : Nat) (s t : State) : Prop :=
  ∀ h', h' ≠ h → (entry h' t).used = (entry h' s).used ∧ (entry h' t).dev = (entry h' s).dev ∧
    (entry h' t).num = (entry h' s).num

/-- Every slot reads as before but the slots `ds` of channel `c`. -/
abbrev OtherSlots (c : Nat) (ds : List Dir) (s t : State) : Prop :=
  ∀ c' d', ¬ (c' = c ∧ d' ∈ ds) → slot c' d' t = slot c' d' s

/-- Every channel's association. -/
abbrev SameAssociations (s t : State) : Prop :=
  ∀ c, (chan c t).adev = (chan c s).adev ∧ (chan c t).anum = (chan c s).anum

/-- Every other channel's association. -/
abbrev OtherAssociations (c : Nat) (s t : State) : Prop :=
  ∀ c', c' ≠ c → (chan c' t).adev = (chan c' s).adev ∧ (chan c' t).anum = (chan c' s).anum

/-- A channel that became fully free lost its association, every other channel kept its own (R172). -/
abbrev AssociationsAfter (s t : State) : Prop :=
  ∀ c, ((chan c t).adev, (chan c t).anum) =
    if fullyFree c t && !fullyFree c s then (0, 0) else ((chan c s).adev, (chan c s).anum)

/-- The bound slots of the selected halves are free, every other slot reads as before (R172). -/
abbrev SlotsReleased (sel : Nat → Dir → Bool) (s t : State) : Prop :=
  ∀ c d, slot c d t = if (slot c d s).bound && sel (slot c d s).ep.toNat d then Slot.free else slot c d s

/-- The selected entries are free, every other entry reads as before (R155). -/
abbrev EntriesFreed (sel : Nat → Bool) (s t : State) : Prop := ∀ h, entry h t = if sel h then Entry.free else entry h s

/-- Registry, channel table, FIFO and wire all as before. -/
abbrev SameTables (s t : State) : Prop := t.eps = s.eps ∧ t.chans = s.chans ∧ t.evq = s.evq ∧ t.wire = s.wire

/-- A command was accepted: RESULT is `r`, RESULT2 is 0 (R39, R40). -/
abbrev Accepted (r : Nat) (t : State) : Prop := t.result = BitVec.ofNat 32 r ∧ t.result2 = 0

/-! ### Settlement (R230) -/

/-- A half after settlement: IDLE; in the host role no longer bound (R174, R230). -/
def settledHalf (r : Role) (x : Half) : Half :=
  if r = .host then { x with xs := .idle, bound := false, ch := 0 } else { x with xs := .idle }

/-- The slot of a settled half: freed in the host role; in the device role still bound, no longer valid (R172, R230). -/
abbrev SlotSettled (c : Nat) (d : Dir) (k : BitVec 16) (s t : State) : Prop :=
  slot c d t = (if s.role = .host then Slot.free else { slot c d s with valid := false, cnt := k }) ∧
  OtherSlots c [d] s t ∧ AssociationsAfter s t

/-- The completion words of aborting the selected transfers, ascending handles, OUT before IN (R159, R288, R290). -/
def abortWords (sel : Nat → Bool) (s : State) : List Word :=
  (List.range s.cfg.epMax).flatMap (fun h =>
    if sel h then
      (bothDirs.filter (fun d => decide ((half h d s).xs ≠ .idle))).map (fun d => completion 4 d h (half h d s).done.toNat)
    else [])

/-- The packet a slot transmits: its PID and its arena bytes (R212, R213). -/
def packet (c : BitVec 4) (d : Dir) (answer : TxAnswer) (s : State) : WirePacket :=
  { ch := c
    dir := d
    pid := if (slotHalf c d s).setup then .setupData0
      else if (slotHalf c d s).type = .iso ∨ (slotHalf c d s).toggle = false then .data0 else .data1
    data := Memory.readBytes s.arena (slot c.toNat d s).off.toNat (slot c.toNat d s).cnt.toNat
    answer := answer }

/-! ### Encoding -/

/-- Well-formed link event words by their numbers (R122 to R124): the kind, the bits it leaves 0, and the payload length. -/
def LinkOk (w : Word) (payload : List Byte) : Prop :=
  ((w >>> 28).toNat ∈ [1, 3, 4, 5] ∧ w &&& 0x007FFFFF = 0 ∧ payload = []) ∨
  (w >>> 28 = 2 ∧ w &&& 0x7FF = 0 ∧ payload.length = ((w >>> 11) &&& 0x7FF).toNat) ∨
  (w >>> 28 = 6 ∧ w &&& 0x007FFFFF = 0x4000 ∧ payload.length = 8) ∨
  ((w >>> 28).toNat ∈ [7, 8, 10, 11, 12] ∧ w &&& 0x0FFFFFFF = 0 ∧ payload = []) ∨
  (w >>> 28 = 9 ∧ w &&& 0x0FFFFBFF = 0 ∧ payload = [])

/-- A legal register access: 32 bits wide, at a multiple of 4 of the 64-byte window at BLOCK_BASE (R83, R88). -/
abbrev LegalAccess (base addr : Word) (width : Nat) : Prop :=
  width = 32 ∧ (addr - base).toNat % 4 = 0 ∧ (addr - base).toNat < 64

/-! ### The invariant of a number (R54) -/

/-- INV `n` of rule R54. -/
def InvNumber (n : Nat) (s : State) : Prop :=
  match n with
  | 1 => Inv1 s
  | 2 => Inv2 s
  | 3 => Inv3 s
  | 4 => Inv4 s
  | 5 => Inv5 s
  | 6 => Inv6 s
  | 7 => Inv7 s
  | 8 => Inv8 s
  | _ => True

/-! ### Command checks (R322) -/

/-- The status of the first check that fails, if one does. -/
def firstFailing : List (Bool × Nat) → Option Nat
  | [] => none
  | (c, n) :: l => if c then some n else firstFailing l

/-- Whether an identity is already open, or conflicts with an open control endpoint (R152). -/
def conflicts (type : XferType) (dev : BitVec 7) (dir : Dir) (num : BitVec 4) (s : State) : Bool :=
  (List.range s.cfg.epMax).any (fun h =>
    (entry h s).used && decide ((entry h s).dev = dev) && decide ((entry h s).num = num) &&
      (decide (type = .ctrl) || (half h dir s).isOpen ||
        ((half h (otherDir dir) s).isOpen && decide ((half h (otherDir dir) s).type = .ctrl))))

/-- Whether the registry is full for an identity it does not hold (R152). -/
def registryFull (dev : BitVec 7) (num : BitVec 4) (s : State) : Bool :=
  (List.range s.cfg.epMax).all (fun h =>
    (entry h s).used && !(decide ((entry h s).dev = dev) && decide ((entry h s).num = num)))

/-- Whether the device-role reservation of an EP_OPEN fails with a status (R153). -/
def reserveFails (e : Status) (type : XferType) (mps : BitVec 11) (dev : BitVec 7) (dir : Dir) (num : BitVec 4) (s : State) :
    Bool :=
  match selectEntry type dev dir num s with
  | .error _ => false
  | .ok h =>
    match reserve h dev num mps.toNat (halvesOf type dir) s with
    | .error x => decide (s.role = .device ∧ x = e)
    | .ok _ => false

/-- The checks of a command in the order of rule R322, each with the status it reports. -/
def checks (s : State) : Instr → List (Bool × Nat)
  | .init z _ => [(z != 0, 5), (s.initDone, 14)]
  | .epOpen type mps dev dir z num =>
    [(!s.initDone, 9), (z != 0, 5), (decide (mps.toNat = 0 ∨ 1023 < mps.toNat), 5),
      (decide (type = .ctrl ∧ mps.toNat < 8), 5), (decide (s.role = .device ∧ dev ≠ 0), 5), (conflicts type dev dir num s, 8),
      (registryFull dev num s, 10), (reserveFails .nochan type mps dev dir num s, 2),
      (reserveFails .nomem type mps dev dir num s, 3)]
  | .epClose z dir handle =>
    [(!s.initDone, 9), (z != 0, 5), (!handleOk handle.toNat dir s, 4),
      (decide (s.cfg.evqDepth < s.evq.length + busyIn handle.toNat (halvesOf (half handle.toNat dir s).type dir) s), 13)]
  | .epFind z dev dir z2 num =>
    [(!s.initDone, 9), (z != 0, 5), (z2 != 0, 5),
      (!(List.range s.cfg.epMax).any (fun h => (entry h s).used && decide ((entry h s).dev = dev) &&
        decide ((entry h s).num = num) && (half h dir s).isOpen), 7)]
  | .xferSubmit setup zlp len z dir handle =>
    [(!s.initDone, 9), (z != 0, 5), (!handleOk handle.toNat dir s, 4), (decide ((half handle.toNat dir s).xs ≠ .idle), 1),
      (decide (setup = true ∧ ((half handle.toNat dir s).type ≠ .ctrl ∨ dir ≠ .out ∨ len.toNat ≠ 8 ∨ zlp = true)), 5),
      (decide (zlp = true ∧ isSend s.role dir = false), 5),
      (decide (0 < len.toNat ∧ 2 ^ 32 < s.arg0.toNat + len.toNat), 5),
      (decide ((half handle.toNat dir s).halted = true ∧ setup = false), 12),
      (decide (s.role = .host ∧ chAcquire handle.toNat dir s = none), 2),
      (decide (s.role = .host ∧ arenaAlloc (roundup (half handle.toNat dir s).mps.toNat s.cfg.arenaGran) s = none), 3)]
  | .xferAbort z dir handle =>
    [(!s.initDone, 9), (z != 0, 5), (!handleOk handle.toNat dir s, 4), (decide ((half handle.toNat dir s).xs = .idle), 0),
      (decide (s.cfg.evqDepth < s.evq.length + 1), 13)]
  | .epClearStall z dir handle =>
    [(!s.initDone, 9), (z != 0, 5), (!handleOk handle.toNat dir s, 4),
      ((halvesOf (half handle.toNat dir s).type dir).any (fun d => decide ((half handle.toNat d s).xs ≠ .idle)), 1)]
  | .devClose z dev z2 =>
    [(!s.initDone, 9), (z != 0, 5), (z2 != 0, 5), (decide (s.role = .device), 11),
      (decide (s.cfg.evqDepth < s.evq.length + (abortWords (ofDevice dev s) s).length), 13)]
  | .epQuery z _ handle => [(!s.initDone, 9), (z != 0, 5), (decide (s.cfg.epMax ≤ handle.toNat), 4)]
  | _ => []

/-! ### EP_OPEN -/

/-- The operand values EP_OPEN accepts (R151). -/
abbrev SizesOk (type : XferType) (mps : BitVec 11) : Prop :=
  1 ≤ mps.toNat ∧ mps.toNat ≤ 1023 ∧ (type = .ctrl → 8 ≤ mps.toNat)

/-- Entry `h` holds an identity. -/
abbrev Identity (h : Nat) (dev : BitVec 7) (num : BitVec 4) (s : State) : Prop :=
  (entry h s).used = true ∧ (entry h s).dev = dev ∧ (entry h s).num = num

/-- The identity is new, and `h` is the lowest free entry (R152). -/
abbrev Fresh (h : Nat) (dev : BitVec 7) (num : BitVec 4) (s : State) : Prop :=
  h < s.cfg.epMax ∧ (entry h s).used = false ∧ (∀ h' < h, (entry h' s).used = true) ∧
  ∀ h' < s.cfg.epMax, ¬ Identity h' dev num s

/-- The identity is entry `h`'s, whose half `dir` is free beside a half that is no control half (R152). -/
abbrev Joins (h : Nat) (type : XferType) (dev : BitVec 7) (dir : Dir) (num : BitVec 4) (s : State) : Prop :=
  h < s.cfg.epMax ∧ Identity h dev num s ∧ type ≠ .ctrl ∧ (half h dir s).isOpen = false ∧
  ((half h (otherDir dir) s).isOpen = true → (half h (otherDir dir) s).type ≠ .ctrl)

/-- A freshly opened half (R151). -/
def openHalf (type : XferType) (mps : BitVec 11) (bound : Bool) (ch : BitVec 4) : Half :=
  { isOpen := true, type := type, mps := mps, toggle := false, halted := false, bound := bound, ch := ch, xs := .idle,
    setup := false, zlp := false, buf := 0, total := 0, done := 0, nak := 0, err := 0 }

/-- A slot as BindSlot leaves it (R173). -/
def boundSlot (h o size : Nat) : Slot :=
  { bound := true, ep := BitVec.ofNat 8 h, valid := false, off := BitVec.ofNat 16 o, size := BitVec.ofNat 16 size, cnt := 0 }

/-- What any accepted EP_OPEN leaves unchanged: every other entry and half, the FIFO, both memories. -/
abbrev OpenFrame (h : Nat) (ds : List Dir) (s t : State) : Prop :=
  OtherHalves h ds s t ∧ OtherIdentities h s t ∧ t.evq = s.evq ∧ t.wire = s.wire ∧ SameControls s t ∧
  SameBytes s.mem t.mem ∧ SameBytes s.arena t.arena

abbrev HostOpenReady (type : XferType) (mps : BitVec 11) (dev : BitVec 7) (dir : Dir) (num : BitVec 4) (h : Nat)
    (s : State) : Prop :=
  s.initDone = true ∧ s.role = .host ∧ SizesOk type mps ∧ (Fresh h dev num s ∨ Joins h type dev dir num s)

abbrev HostOpenAfter (type : XferType) (mps : BitVec 11) (dev : BitVec 7) (dir : Dir) (num : BitVec 4) (h : Nat)
    (s t : State) : Prop :=
  Accepted (h * 256) t ∧ Identity h dev num t ∧ (∀ d ∈ halvesOf type dir, half h d t = openHalf type mps false 0) ∧
  t.chans = s.chans ∧ OpenFrame h (halvesOf type dir) s t

abbrev DeviceOpenReady (type : XferType) (mps : BitVec 11) (dir : Dir) (num : BitVec 4) (h c o : Nat) (s : State) : Prop :=
  s.initDone = true ∧ s.role = .device ∧ SizesOk type mps ∧ type ≠ .ctrl ∧ (Fresh h 0 num s ∨ Joins h type 0 dir num s) ∧
  chAcquire h dir s = some c ∧ arenaAlloc (roundup mps.toNat s.cfg.arenaGran) s = some o

abbrev DeviceOpenAfter (type : XferType) (mps : BitVec 11) (dir : Dir) (num : BitVec 4) (h c o : Nat) (s t : State) : Prop :=
  Accepted (h * 256) t ∧ Identity h 0 num t ∧ half h dir t = openHalf type mps true (BitVec.ofNat 4 c) ∧
  slot c dir t = boundSlot h o (roundup mps.toNat s.cfg.arenaGran) ∧ (chan c t).adev = 0 ∧ (chan c t).anum = num ∧
  OtherSlots c [dir] s t ∧ OtherAssociations c s t ∧ OpenFrame h [dir] s t

abbrev ControlOpenReady (mps : BitVec 11) (num : BitVec 4) (h c o o2 : Nat) (s : State) : Prop :=
  s.initDone = true ∧ s.role = .device ∧ SizesOk .ctrl mps ∧ Fresh h 0 num s ∧ chAcquire h .out s = some c ∧
  arenaAlloc (roundup mps.toNat s.cfg.arenaGran) s = some o ∧
  arenaAlloc (roundup mps.toNat s.cfg.arenaGran)
    (bindSlot c .out h 0 num o (roundup mps.toNat s.cfg.arenaGran) s) = some o2

abbrev ControlOpenAfter (mps : BitVec 11) (num : BitVec 4) (h c o o2 : Nat) (s t : State) : Prop :=
  Accepted (h * 256) t ∧ Identity h 0 num t ∧ (∀ d ∈ bothDirs, half h d t = openHalf .ctrl mps true (BitVec.ofNat 4 c)) ∧
  slot c .out t = boundSlot h o (roundup mps.toNat s.cfg.arenaGran) ∧
  slot c .inn t = boundSlot h o2 (roundup mps.toNat s.cfg.arenaGran) ∧ (chan c t).adev = 0 ∧ (chan c t).anum = num ∧
  OtherSlots c bothDirs s t ∧ OtherAssociations c s t ∧ OpenFrame h bothDirs s t

/-! ### The other registry commands -/

abbrev CloseReady (dir : Dir) (h : Nat) (s : State) : Prop :=
  s.initDone = true ∧ handleOk h dir s = true ∧
  s.evq.length + busyIn h (halvesOf (half h dir s).type dir) s ≤ s.cfg.evqDepth

/-- The halves EP_CLOSE closes (R154). -/
abbrev closing (dir : Dir) (h : Nat) (s : State) : List Dir := halvesOf (half h dir s).type dir

abbrev CloseAfter (dir : Dir) (h : Nat) (s t : State) : Prop :=
  Accepted 0 t ∧ (∀ d ∈ closing dir h s, half h d t = Half.closed) ∧ OtherHalves h (closing dir h s) s t ∧
  OtherIdentities h s t ∧
  (if ∃ d ∈ bothDirs, d ∉ closing dir h s ∧ (half h d s).isOpen = true then
    (entry h t).used = true ∧ (entry h t).dev = (entry h s).dev ∧ (entry h t).num = (entry h s).num
   else entry h t = Entry.free) ∧
  SlotsReleased (fun h' d => decide (h' = h ∧ d ∈ closing dir h s)) s t ∧ AssociationsAfter s t ∧
  t.evq = s.evq ++ ((closing dir h s).filter (fun d => decide ((half h d s).xs ≠ .idle))).map
    (fun d => completion 4 d h (half h d s).done.toNat) ∧
  t.wire = s.wire ∧ SameControls s t ∧ SameBytes s.mem t.mem ∧ SameBytes s.arena t.arena

abbrev ClearStallReady (dir : Dir) (h : Nat) (s : State) : Prop :=
  s.initDone = true ∧ handleOk h dir s = true ∧ ∀ d ∈ halvesOf (half h dir s).type dir, (half h d s).xs = .idle

abbrev ClearStallAfter (dir : Dir) (h : Nat) (s t : State) : Prop :=
  Accepted 0 t ∧
  (∀ d ∈ halvesOf (half h dir s).type dir, half h d t = { half h d s with halted := false, toggle := false }) ∧
  OtherHalves h (halvesOf (half h dir s).type dir) s t ∧ SameIdentities s t ∧ t.chans = s.chans ∧ t.evq = s.evq ∧
  t.wire = s.wire ∧ SameControls s t ∧ SameBytes s.mem t.mem ∧ SameBytes s.arena t.arena

abbrev DevCloseReady (dev : BitVec 7) (s : State) : Prop :=
  s.initDone = true ∧ s.role = .host ∧ s.evq.length + (abortWords (ofDevice dev s) s).length ≤ s.cfg.evqDepth

abbrev DevCloseAfter (dev : BitVec 7) (s t : State) : Prop :=
  Accepted 0 t ∧ EntriesFreed (ofDevice dev s) s t ∧ SlotsReleased (fun h _ => ofDevice dev s h) s t ∧
  AssociationsAfter s t ∧ t.evq = s.evq ++ abortWords (ofDevice dev s) s ∧ t.wire = s.wire ∧ SameControls s t ∧
  SameBytes s.mem t.mem ∧ SameBytes s.arena t.arena

/-! ### Transfers -/

/-- The conditions of rule R201 that need no allocation. -/
abbrev SubmitOk (setup zlp : Bool) (len : BitVec 16) (dir : Dir) (h : Nat) (s : State) : Prop :=
  s.initDone = true ∧ handleOk h dir s = true ∧ (half h dir s).xs = .idle ∧
  (setup = true → (half h dir s).type = .ctrl ∧ dir = .out ∧ len.toNat = 8 ∧ zlp = false) ∧
  (zlp = true → isSend s.role dir = true) ∧ (len.toNat = 0 ∨ s.arg0.toNat + len.toNat ≤ 2 ^ 32) ∧
  ((half h dir s).halted = true → setup = true)

/-- The half of an accepted submit (R201). -/
def submittedHalf (setup zlp : Bool) (len : BitVec 16) (buf : Word) (ch : BitVec 4) (x : Half) : Half :=
  { x with
    halted := if setup then false else x.halted
    bound := true
    ch := ch
    xs := .inflight
    setup := setup
    zlp := zlp
    buf := buf
    total := len
    done := 0
    nak := 0
    err := 0 }

/-- The byte count of the first packet: its length when sending, mps when receiving (R210, R211). -/
def firstCount (len : BitVec 16) (dir : Dir) (h : Nat) (s : State) : Nat :=
  if isSend s.role dir then min (half h dir s).mps.toNat len.toNat else (half h dir s).mps.toNat

/-- What any accepted submit does beside its half and slot: a SETUP clears the other half's halt, a sending direction loads the
first packet into the slot's range at `o`, nothing else changes (R201, R210). -/
abbrev SubmitFrame (setup : Bool) (len : BitVec 16) (dir : Dir) (h o : Nat) (s t : State) : Prop :=
  half h (otherDir dir) t =
    (if setup then { half h (otherDir dir) s with halted := false } else half h (otherDir dir) s) ∧
  OtherHalves h bothDirs s t ∧ SameIdentities s t ∧ t.evq = s.evq ∧ t.wire = s.wire ∧ SameControls s t ∧
  SameBytes s.mem t.mem ∧
  (if isSend s.role dir then
    BytesAt t.arena o (Memory.readBytes s.mem s.arg0.toNat (firstCount len dir h s)) ∧
      SameBytesOutside o (firstCount len dir h s) s.arena t.arena
   else SameBytes s.arena t.arena)

abbrev HostSubmitReady (setup zlp : Bool) (len : BitVec 16) (dir : Dir) (h c o : Nat) (s : State) : Prop :=
  s.role = .host ∧ SubmitOk setup zlp len dir h s ∧ chAcquire h dir s = some c ∧
  arenaAlloc (roundup (half h dir s).mps.toNat s.cfg.arenaGran) s = some o ∧
  (isSend s.role dir = true → memAdmits s.arg0.toNat (firstCount len dir h s) s = true)

abbrev HostSubmitAfter (setup zlp : Bool) (len : BitVec 16) (dir : Dir) (h c o : Nat) (s t : State) : Prop :=
  Accepted 0 t ∧ half h dir t = submittedHalf setup zlp len s.arg0 (BitVec.ofNat 4 c) (half h dir s) ∧
  slot c dir t = { boundSlot h o (roundup (half h dir s).mps.toNat s.cfg.arenaGran) with
    valid := true, cnt := BitVec.ofNat 16 (firstCount len dir h s) } ∧
  (chan c t).adev = (entry h s).dev ∧ (chan c t).anum = (entry h s).num ∧ OtherSlots c [dir] s t ∧ OtherAssociations c s t ∧
  SubmitFrame setup len dir h o s t

abbrev DeviceSubmitReady (setup zlp : Bool) (len : BitVec 16) (dir : Dir) (h : Nat) (s : State) : Prop :=
  s.role = .device ∧ SubmitOk setup zlp len dir h s ∧
  (isSend s.role dir = true → memAdmits s.arg0.toNat (firstCount len dir h s) s = true)

abbrev DeviceSubmitAfter (setup zlp : Bool) (len : BitVec 16) (dir : Dir) (h : Nat) (s t : State) : Prop :=
  Accepted 0 t ∧ half h dir t = submittedHalf setup zlp len s.arg0 (half h dir s).ch (half h dir s) ∧
  slot (half h dir s).ch.toNat dir t =
    { slot (half h dir s).ch.toNat dir s with valid := true, cnt := BitVec.ofNat 16 (firstCount len dir h s) } ∧
  OtherSlots (half h dir s).ch.toNat [dir] s t ∧ SameAssociations s t ∧
  SubmitFrame setup len dir h (slot (half h dir s).ch.toNat dir s).off.toNat s t

/-- A submit that passes every check and whose first packet's read MemAdmit refuses (R86). -/
abbrev SubmitStuckReady (setup zlp : Bool) (len : BitVec 16) (dir : Dir) (h : Nat) (s : State) : Prop :=
  SubmitOk setup zlp len dir h s ∧ isSend s.role dir = true ∧
  memAdmits s.arg0.toNat (firstCount len dir h s) s = false ∧
  (s.role = .host → (chAcquire h dir s).isSome = true ∧
    (arenaAlloc (roundup (half h dir s).mps.toNat s.cfg.arenaGran) s).isSome = true)

abbrev AbortReady (dir : Dir) (h : Nat) (s : State) : Prop :=
  s.initDone = true ∧ handleOk h dir s = true ∧ (half h dir s).xs ≠ .idle ∧ s.evq.length + 1 ≤ s.cfg.evqDepth

abbrev AbortAfter (dir : Dir) (h : Nat) (s t : State) : Prop :=
  Accepted 0 t ∧ half h dir t = settledHalf s.role (half h dir s) ∧ OtherHalves h [dir] s t ∧ SameIdentities s t ∧
  SlotSettled (half h dir s).ch.toNat dir (slot (half h dir s).ch.toNat dir s).cnt s t ∧
  t.evq = s.evq ++ [completion 4 dir h (half h dir s).done.toNat] ∧ t.wire = s.wire ∧ SameControls s t ∧
  SameBytes s.mem t.mem ∧ SameBytes s.arena t.arena

/-! ### Link events -/

/-- The slot conditions of rule R125. -/
abbrev SlotReady (c : BitVec 4) (d : Dir) (s : State) : Prop :=
  c.toNat < s.cfg.numCh ∧ (slot c.toNat d s).bound = true ∧ (slot c.toNat d s).valid = true ∧ s.initDone = true ∧
  s.evq.length < s.cfg.evqDepth

/-- The host-role conditions of rule R250. -/
abbrev RetryReady (c : BitVec 4) (d : Dir) (s : State) : Prop :=
  s.role = .host ∧ SlotReady c d s ∧ (slotHalf c d s).xs = .inflight

/-- The half after a packet that succeeded: `k` more bytes, counters 0, the toggle flipped unless isochronous (R214, R216). -/
def progressed (k : Nat) (x : Half) : Half :=
  { x with
    done := BitVec.ofNat 16 (x.done.toNat + k)
    nak := 0
    err := 0
    toggle := if x.type = .iso then x.toggle else !x.toggle }

/-- What no link event changes but on the half, slot and memories it names. -/
abbrev LinkFrame (s t : State) : Prop := SameResults s t ∧ SameControls s t ∧ SameIdentities s t

abbrev AckReady (c : BitVec 4) (d : Dir) (s : State) : Prop :=
  SlotReady c d s ∧ isSend s.role d = true ∧ (slotHalf c d s).setup = false

/-- Whether the acknowledged packet completes its transfer (R215). -/
abbrev AckCompletes (c : BitVec 4) (d : Dir) (s : State) : Prop :=
  (slot c.toNat d s).cnt.toNat < (slotHalf c d s).mps.toNat ∨
  ((slotHalf c d s).done.toNat + (slot c.toNat d s).cnt.toNat = (slotHalf c d s).total.toNat ∧ (slotHalf c d s).zlp = false)

abbrev AckFrame (c : BitVec 4) (d : Dir) (s t : State) : Prop :=
  OtherHalves (slotHandle c d s) [d] s t ∧ t.wire = s.wire ++ [packet c d .ack s] ∧ SameBytes s.mem t.mem ∧ LinkFrame s t

abbrev AckSettleAfter (c : BitVec 4) (d : Dir) (s t : State) : Prop :=
  half (slotHandle c d s) d t =
    settledHalf s.role (progressed (slot c.toNat d s).cnt.toNat (slotHalf c d s)) ∧
  SlotSettled c.toNat d (slot c.toNat d s).cnt s t ∧
  t.evq = s.evq ++
    [completion 0 d (slotHandle c d s) ((slotHalf c d s).done.toNat + (slot c.toNat d s).cnt.toNat)] ∧
  SameBytes s.arena t.arena ∧ AckFrame c d s t

/-- Where the next packet's bytes start in the caller buffer. -/
def nextAddr (c : BitVec 4) (d : Dir) (s : State) : Nat :=
  (slotHalf c d s).buf.toNat + ((slotHalf c d s).done.toNat + (slot c.toNat d s).cnt.toNat)

/-- The length of the packet armed after the acknowledged one (R210). -/
def nextCount (c : BitVec 4) (d : Dir) (s : State) : Nat :=
  min (slotHalf c d s).mps.toNat
    ((slotHalf c d s).total.toNat - ((slotHalf c d s).done.toNat + (slot c.toNat d s).cnt.toNat))

abbrev AckNextAfter (c : BitVec 4) (d : Dir) (s t : State) : Prop :=
  half (slotHandle c d s) d t = progressed (slot c.toNat d s).cnt.toNat (slotHalf c d s) ∧
  slot c.toNat d t = { slot c.toNat d s with cnt := BitVec.ofNat 16 (nextCount c d s) } ∧ OtherSlots c.toNat [d] s t ∧
  SameAssociations s t ∧ t.evq = s.evq ∧
  BytesAt t.arena (slot c.toNat d s).off.toNat (Memory.readBytes s.mem (nextAddr c d s) (nextCount c d s)) ∧
  SameBytesOutside (slot c.toNat d s).off.toNat (nextCount c d s) s.arena t.arena ∧ AckFrame c d s t

abbrev AckSetupReady (c : BitVec 4) (d : Dir) (s : State) : Prop :=
  SlotReady c d s ∧ isSend s.role d = true ∧ (slotHalf c d s).setup = true

abbrev AckSetupAfter (c : BitVec 4) (d : Dir) (s t : State) : Prop :=
  d = .out ∧
  half (slotHandle c d s) .out t = settledHalf s.role
    { slotHalf c d s with
      done := BitVec.ofNat 16 ((slotHalf c d s).done.toNat + (slot c.toNat d s).cnt.toNat)
      nak := 0
      err := 0
      toggle := true } ∧
  half (slotHandle c d s) .inn t = { half (slotHandle c d s) .inn s with toggle := true } ∧
  OtherHalves (slotHandle c d s) bothDirs s t ∧ SlotSettled c.toNat d (slot c.toNat d s).cnt s t ∧
  t.evq = s.evq ++
    [completion 0 d (slotHandle c d s) ((slotHalf c d s).done.toNat + (slot c.toNat d s).cnt.toNat)] ∧
  t.wire = s.wire ++ [packet c d .ack s] ∧ SameBytes s.mem t.mem ∧ SameBytes s.arena t.arena ∧ LinkFrame s t

/-- RX_DATA is enabled (R125, R216) and its payload has its N bytes (R124). -/
abbrev RxReady (c : BitVec 4) (d : Dir) (n : BitVec 11) (data : List Byte) (s : State) : Prop :=
  SlotReady c d s ∧ isSend s.role d = false ∧ ¬ (s.role = .device ∧ (slotHalf c d s).setup = true) ∧ data.length = n.toNat

/-- How many of the received bytes are wanted (R216). -/
def wanted (c : BitVec 4) (d : Dir) (data : List Byte) (s : State) : Nat :=
  min data.length ((slotHalf c d s).total.toNat - (slotHalf c d s).done.toNat)

abbrev RxAcceptReady (c : BitVec 4) (d : Dir) (pid : Bool) (n : BitVec 11) (data : List Byte) (s : State) : Prop :=
  RxReady c d n data s ∧ data.length ≤ (slot c.toNat d s).cnt.toNat ∧
  ((slotHalf c d s).type = .iso ∨ pid = (slotHalf c d s).toggle)

/-- Where the received bytes go in the caller buffer (R216). -/
def rxAddr (c : BitVec 4) (d : Dir) (s : State) : Nat := (slotHalf c d s).buf.toNat + (slotHalf c d s).done.toNat

/-- Whether the received packet completes its transfer (R215). -/
abbrev RxCompletes (c : BitVec 4) (d : Dir) (data : List Byte) (s : State) : Prop :=
  data.length < (slotHalf c d s).mps.toNat ∨
  (slotHalf c d s).done.toNat + wanted c d data s = (slotHalf c d s).total.toNat

abbrev RxAcceptAfter (c : BitVec 4) (d : Dir) (data : List Byte) (s t : State) : Prop :=
  (if RxCompletes c d data s then
    half (slotHandle c d s) d t = settledHalf s.role (progressed (wanted c d data s) (slotHalf c d s)) ∧
    SlotSettled c.toNat d (BitVec.ofNat 16 data.length) s t ∧
    t.evq = s.evq ++ [completion 0 d (slotHandle c d s) ((slotHalf c d s).done.toNat + wanted c d data s)]
   else
    half (slotHandle c d s) d t = progressed (wanted c d data s) (slotHalf c d s) ∧
    slot c.toNat d t = { slot c.toNat d s with cnt := BitVec.ofNat 16 (slotHalf c d s).mps.toNat } ∧
    OtherSlots c.toNat [d] s t ∧ SameAssociations s t ∧ t.evq = s.evq) ∧
  OtherHalves (slotHandle c d s) [d] s t ∧
  BytesAt t.mem (rxAddr c d s) (data.take (wanted c d data s)) ∧
  SameBytesOutside (rxAddr c d s) (wanted c d data s) s.mem t.mem ∧
  BytesAt t.arena (slot c.toNat d s).off.toNat data ∧
  SameBytesOutside (slot c.toNat d s).off.toNat data.length s.arena t.arena ∧ t.wire = s.wire ∧ LinkFrame s t

/-- The half `h`, `d` becomes `y` and nothing else of the tables, the FIFO and the memories changes. -/
abbrev OnlyHalf (h : Nat) (d : Dir) (y : Half) (s t : State) : Prop :=
  half h d t = y ∧ OtherHalves h [d] s t ∧ t.chans = s.chans ∧ t.evq = s.evq ∧ SameBytes s.mem t.mem ∧
  SameBytes s.arena t.arena ∧ LinkFrame s t

/-- The transfer of the named slot settles with an outcome, its half otherwise `y` (R230). -/
abbrev SettlesWith (outcome : Nat) (c : BitVec 4) (d : Dir) (y : Half) (s t : State) : Prop :=
  half (slotHandle c d s) d t = settledHalf s.role y ∧ OtherHalves (slotHandle c d s) [d] s t ∧
  SlotSettled c.toNat d (slot c.toNat d s).cnt s t ∧
  t.evq = s.evq ++ [completion outcome d (slotHandle c d s) (slotHalf c d s).done.toNat] ∧
  SameBytes s.mem t.mem ∧ SameBytes s.arena t.arena ∧ LinkFrame s t

/-- What the common transmission-error rule leaves (R255). -/
abbrev ErrorAfter (c : BitVec 4) (d : Dir) (s t : State) : Prop :=
  if (slotHalf c d s).err.toNat + 1 ≤ s.cfg.errRetryMax then
    OnlyHalf (slotHandle c d s) d
      { slotHalf c d s with err := BitVec.ofNat 5 ((slotHalf c d s).err.toNat + 1) } s t
  else
    SettlesWith 2 c d { slotHalf c d s with err := BitVec.ofNat 5 ((slotHalf c d s).err.toNat + 1) } s t

abbrev SetupRxReady (c : BitVec 4) (data : List Byte) (s : State) : Prop :=
  SlotReady c .out s ∧ s.role = .device ∧ (slotHalf c .out s).setup = true ∧ data.length = 8

abbrev SetupRxAfter (c : BitVec 4) (data : List Byte) (s t : State) : Prop :=
  half (slotHandle c .out s) .out t =
    { slotHalf c .out s with done := 8, nak := 0, err := 0, toggle := true, xs := .idle } ∧
  half (slotHandle c .out s) .inn t = { half (slotHandle c .out s) .inn s with toggle := true } ∧
  OtherHalves (slotHandle c .out s) bothDirs s t ∧ SlotSettled c.toNat .out 8 s t ∧
  t.evq = s.evq ++ [completion 0 .out (slotHandle c .out s) 8] ∧
  BytesAt t.mem (slotHalf c .out s).buf.toNat data ∧ SameBytesOutside (slotHalf c .out s).buf.toNat 8 s.mem t.mem ∧
  BytesAt t.arena (slot c.toNat .out s).off.toNat data ∧
  SameBytesOutside (slot c.toNat .out s).off.toNat 8 s.arena t.arena ∧ t.wire = s.wire ∧ LinkFrame s t

/-- The half after one more NAK; the count saturates (R12, R251). -/
def naked (x : Half) : Half := { x with nak := BitVec.ofNat 16 (if x.nak.toNat = 65535 then 65535 else x.nak.toNat + 1) }

/-- What an attempt's outcome other than an acknowledgement adds to the wire (R213). -/
abbrev WireAfter (c : BitVec 4) (d : Dir) (answer : TxAnswer) (s t : State) : Prop :=
  t.wire = if isSend s.role d then s.wire ++ [packet c d answer s] else s.wire

abbrev NakAfter (c : BitVec 4) (d : Dir) (s t : State) : Prop :=
  (if (slotHalf c d s).type = .iso ∨ (slotHalf c d s).type = .intr then
    half (slotHandle c d s) d t = { naked (slotHalf c d s) with xs := .wait } ∧ OtherHalves (slotHandle c d s) [d] s t ∧
    slot c.toNat d t = { slot c.toNat d s with valid := false } ∧ OtherSlots c.toNat [d] s t ∧ SameAssociations s t ∧
    t.evq = s.evq ∧ SameBytes s.mem t.mem ∧ SameBytes s.arena t.arena ∧ LinkFrame s t
   else if s.nakLimit.toNat ≠ 0 ∧ s.nakLimit.toNat ≤ (naked (slotHalf c d s)).nak.toNat then
    SettlesWith 3 c d (naked (slotHalf c d s)) s t
   else OnlyHalf (slotHandle c d s) d (naked (slotHalf c d s)) s t) ∧
  WireAfter c d .nak s t

/-- A half after a frame boundary of the host role (R257). -/
def framed (x : Half) : Half :=
  if x.isOpen = true ∧ (x.type = .intr ∨ x.type = .iso) then
    { x with nak := 0, xs := if x.xs = .wait then .inflight else x.xs }
  else x

abbrev HalvesFramed (s t : State) : Prop := ∀ h d, half h d t = framed (half h d s)

abbrev SlotsFramed (s t : State) : Prop :=
  ∀ c d, slot c d t =
    if (slot c d s).bound = true ∧ (half (slot c d s).ep.toNat d s).xs = .wait then { slot c d s with valid := true }
    else slot c d s

abbrev FrameReady (s : State) : Prop :=
  s.initDone = true ∧ (s.intEn.getLsbD 5 = true → s.evq.length < s.cfg.evqDepth)

abbrev FrameAfter (s t : State) : Prop :=
  (if s.role = .host then HalvesFramed s t ∧ SlotsFramed s t else t.eps = s.eps ∧ t.chans = s.chans) ∧
  SameAssociations s t ∧ t.evq = s.evq ++ (if s.intEn.getLsbD 5 then [0x70000000] else []) ∧ t.wire = s.wire ∧
  SameBytes s.mem t.mem ∧ SameBytes s.arena t.arena ∧ LinkFrame s t

/-- The words a device bus reset pushes (R290). -/
def busResetPushes (s : State) : List Word :=
  abortWords (fun _ => true) s ++ (if s.intEn.getLsbD 0 then [0x20000000] else [])

abbrev BusResetReady (s : State) : Prop :=
  s.initDone = true ∧ s.role = .device ∧ s.evq.length + (busResetPushes s).length ≤ s.cfg.evqDepth

abbrev BusResetAfter (s t : State) : Prop :=
  EntriesFreed (fun h => (entry h s).used) s t ∧ SlotsReleased (fun _ _ => true) s t ∧ AssociationsAfter s t ∧
  t.evq = s.evq ++ busResetPushes s ∧ t.wire = s.wire ∧ SameResults s t ∧ SameControls s t ∧ SameBytes s.mem t.mem ∧
  SameBytes s.arena t.arena

/-- The state after a bus event that only reports: one word if bit `b` of INT_EN's stored bits enables its class (R280). -/
def reported (b : Nat) (w : Word) (s : State) : State := { s with evq := s.evq ++ (if s.intEn.getLsbD b then [w] else []) }

/-- Room for the word of a class, if it is enabled (R282). -/
abbrev RoomFor (b : Nat) (s : State) : Prop := s.intEn.getLsbD b = true → s.evq.length < s.cfg.evqDepth

end Sys2Proof.Claims

open Sys2Proof Sys2Proof.Machine Sys2Proof.Safety Sys2Proof.Claims

/-! ### Encoding -/

/-- The worked words of R118, R121 and R126, read by the decoder and written by the operations. -/
def Obligations.WorkedWords : Prop :=
  decode 0 (.write 0x10 32 0x10000001) = .ok (.init 0 .host) ∧
  decode 0 (.write 0x10 32 0x28200102) = .ok (.epOpen .bulk 64 1 .out 0 2) ∧
  decode 0 (.write 0x10 32 0x50025800) = .ok (.xferSubmit false false 150 0 .out 0) ∧
  decode 0 (.write 0x10 32 0x58002000) = .ok (.xferSubmit true false 8 0 .out 0) ∧
  decode 0 (.write 0x10 32 0x30000103) = .ok (.epClose 0 .inn 3) ∧
  decode 0 (.link 0x10000000 []) = .ok (.linkTxAck 0 .out) ∧
  (∀ data : List Byte, data.length = 18 → decode 0 (.link 0x22C09000 data) = .ok (.linkRxData 2 .inn true 18 data)) ∧
  (∀ data : List Byte, data.length = 8 → decode 0 (.link 0x60004000 data) = .ok (.linkSetupRx 0 .out 8 data)) ∧
  decode 0 (.link 0x90000400 []) = .ok (.linkAttach true) ∧
  xferComplete .success .out 0 150 = 0x10000096 ∧ xferComplete .stalled .out 0 32 = 0x12000020 ∧ busResetWord = 0x20000000

/-- Decoding the encoding of a well-formed instruction gives it back, at any base address of the window. -/
def Obligations.DecodeOfEncode : Prop := ∀ base i, wellFormed i = true → decode base (encode base i) = .ok i

/-- Every raw form that decodes is the encoding of what it decodes to: no bit of it is dropped, and no two raw forms decode to
one instruction. -/
def Obligations.EncodeOfDecode : Prop := ∀ base r i, decode base r = .ok i → encode base i = r

/-- The link event words that decode to a well-formed instruction are those of R124, told by their numbers; every other one is
refused in every state. -/
def Obligations.LinkWellFormedness : Prop :=
  ∀ w payload,
    (∀ base, (∃ i, decode base (.link w payload) = .ok i ∧ wellFormed i = true) ↔ LinkOk w payload) ∧
    ∀ (s : State) (rest : List Stimulus), s.inbox = .act (.link w payload) :: rest → ¬ LinkOk w payload →
      step s = .refused .illFormedLink

/-- The register at each offset of the window, wherever its base lies. -/
def Obligations.RegisterMap : Prop :=
  ∀ base : Word,
    decode base (.read base 32) = .ok (.regCtrl .read) ∧ decode base (.read (base + 0x04) 32) = .ok (.regIntEn .read) ∧
    decode base (.read (base + 0x08) 32) = .ok (.regNakLimit .read) ∧
    decode base (.read (base + 0x0C) 32) = .ok (.regArg0 .read) ∧ decode base (.read (base + 0x10) 32) = .ok (.regCmd .read) ∧
    decode base (.read (base + 0x14) 32) = .ok (.regResult .read) ∧
    decode base (.read (base + 0x18) 32) = .ok (.regResult2 .read) ∧
    decode base (.read (base + 0x1C) 32) = .ok (.regEvqStatus .read) ∧
    decode base (.read (base + 0x20) 32) = .ok (.regEvqPop .read) ∧
    decode base (.read (base + 0x24) 32) = .ok (.regEvqPeek .read) ∧
    decode base (.read (base + 0x28) 32) = .ok (.regParam0 .read) ∧
    decode base (.read (base + 0x2C) 32) = .ok (.regParam1 .read) ∧
    decode base (.read (base + 0x30) 32) = .ok (.regParam2 .read) ∧
    decode base (.read (base + 0x34) 32) = .ok (.regReserved34 .read) ∧
    decode base (.read (base + 0x38) 32) = .ok (.regReserved38 .read) ∧
    decode base (.read (base + 0x3C) 32) = .ok (.regReserved3C .read) ∧
    ∀ w : Word, decode base (.write (base + 0x10) 32 w) = .ok (decodeCommand w)

/-- A register access that is not 32 bits wide at a multiple of 4 inside the window ends in the RegAccess fault with its offset,
width and direction (R83, R323); every other access decodes. That an aligned 32-bit access outside the window ends so too, and
that the offset is taken modulo 2^32, is the model's (log entries 10 and 17). -/
def Obligations.RegisterAccessRule : Prop :=
  ∀ (s : State) (rest : List Stimulus) (addr : Word) (width : Nat) (v : Word),
    (s.inbox = .act (.read addr width) :: rest → ¬ LegalAccess s.cfg.blockBase addr width →
      step s = .fault (.regAccess (addr - s.cfg.blockBase).toNat width false)) ∧
    (s.inbox = .act (.write addr width v) :: rest → ¬ LegalAccess s.cfg.blockBase addr width →
      step s = .fault (.regAccess (addr - s.cfg.blockBase).toNat width true)) ∧
    (LegalAccess s.cfg.blockBase addr width →
      (∃ i, decode s.cfg.blockBase (.read addr width) = .ok i ∧ isRead i = true) ∧
      ∃ i, decode s.cfg.blockBase (.write addr width v) = .ok i ∧ isRead i = false ∧ isLink i = false)

/-! ### The step -/

/-- When the next attempted step decodes to an instruction, the step runs it in the state without that attempt, and ends in the
invariant fault exactly where its next state breaks an invariant. -/
def Obligations.StepRunsDecoded : Prop :=
  ∀ (s : State) (r : RawInstr) (rest : List Stimulus) (i : Instr),
    s.inbox = .act r :: rest → decode s.cfg.blockBase r = .ok i →
    step s = checked (exec i { s with inbox := rest }) ∧
    (∀ t, exec i { s with inbox := rest } = .next t → Inv1 t → Inv2 t → Inv3 t → Inv4 t → Inv5 t → Inv6 t → Inv7 t → Inv8 t →
      step s = .next t)

/-- The other steps: a CPU store writes its bytes to system memory in one step, a CPU load returns what memory holds, neither does
anything else or faults (R325), and with no attempt the engine idles. Each access is atomic whatever its width (R90). That the
attempts stand in an inbox, and that an empty one is an idle step, is the model's choice (log entry 1); so is that an access may
be any list of bytes with their addresses, of two bytes at one address the later stays, and the loaded bytes stand in a field of
their own (log entry 12), and that no address is taken as one of the window (log entry 18). -/
def Obligations.StoreAndIdleSteps : Prop :=
  ∀ s : State, (s.inbox = [] → step s = .next s) ∧
    (∀ cells rest, Memory.wf s.mem → s.inbox = .store cells :: rest →
      ∃ t, step s = .next t ∧ t = { s with inbox := rest, mem := t.mem } ∧
        (∀ a, (∀ c ∈ cells, c.1.toNat ≠ a) → Memory.read t.mem a = Memory.read s.mem a) ∧
        ∀ before after a b, cells = before ++ (a, b) :: after → (∀ c ∈ after, c.1 ≠ a) → Memory.read t.mem a.toNat = b) ∧
    ∀ addrs rest, s.inbox = .load addrs :: rest →
      step s = .next { s with inbox := rest, loaded := addrs.map (fun a => Memory.read s.mem a.toNat) }

/-! ### The invariant -/

/-- Every instance with legal parameters starts in a good state. -/
def Obligations.ResetIsGood : Prop := ∀ c : Config, c.Legal → Good (State.resetWith c)

/-- Every instruction keeps the good states. -/
def Obligations.ExecKeepsGood : Prop := ∀ i s t, Good s → exec i s = .next t → Good t

/-- Every step keeps the good states, and from one of them no step ends in the invariant fault. -/
def Obligations.StepKeepsGood : Prop :=
  ∀ s, Good s → (∀ t, step s = .next t → Good t) ∧ ∀ n f, step s ≠ .fault (.invariant n f)

/-- The invariant fault names an invariant that fails in the state it carries, and that state has FATAL set. -/
def Obligations.InvariantFaultReport : Prop :=
  ∀ s n f, step s = .fault (.invariant n f) → f.fatal = true ∧ 1 ≤ n ∧ n ≤ 8 ∧ ¬ InvNumber n f

/-! ### Reset and the register window -/

/-- What the registers read right after reset, for every legal instance; and every entry, channel and the FIFO are free. -/
def Obligations.ResetReads : Prop :=
  ∀ c : Config, c.Legal →
    exec (.regCtrl .read) (State.resetWith c) = .next { State.resetWith c with rdata := 0 } ∧
    exec (.regIntEn .read) (State.resetWith c) = .next { State.resetWith c with rdata := 1 } ∧
    exec (.regNakLimit .read) (State.resetWith c) = .next { State.resetWith c with rdata := 0 } ∧
    exec (.regArg0 .read) (State.resetWith c) = .next { State.resetWith c with rdata := 0 } ∧
    exec (.regResult .read) (State.resetWith c) = .next { State.resetWith c with rdata := 0 } ∧
    exec (.regResult2 .read) (State.resetWith c) = .next { State.resetWith c with rdata := 0 } ∧
    exec (.regEvqStatus .read) (State.resetWith c) =
      .next { State.resetWith c with rdata := BitVec.ofNat 32 (c.evqDepth * 256) } ∧
    (∀ h, entry h (State.resetWith c) = Entry.free) ∧ (∀ k, chan k (State.resetWith c) = Channel.free) ∧
    (State.resetWith c).evq = []

/-- What a CPU read of each register returns, as a number; the read changes nothing else, but EVQ_POP removes the head word. The
returned word stands in the model's own field rdata (log entry 5). -/
def Obligations.RegisterReads : Prop :=
  ∀ s : State, s.cfg.Legal → s.evq.length ≤ s.cfg.evqDepth →
    exec (.regCtrl .read) s = .next { s with rdata := BitVec.ofNat 32 (s.gie.toNat + (if s.role = .host then 2 else 0) +
      s.initDone.toNat * 4 + (if s.gie = true ∧ 0 < s.evq.length then 8 else 0) + s.fatal.toNat * 16) } ∧
    exec (.regIntEn .read) s = .next { s with rdata := BitVec.ofNat 32 (s.intEn.toNat * 2 + 1) } ∧
    exec (.regNakLimit .read) s = .next { s with rdata := BitVec.ofNat 32 s.nakLimit.toNat } ∧
    exec (.regArg0 .read) s = .next { s with rdata := s.arg0 } ∧
    exec (.regCmd .read) s = .next { s with rdata := 0 } ∧
    exec (.regResult .read) s = .next { s with rdata := s.result } ∧
    exec (.regResult2 .read) s = .next { s with rdata := s.result2 } ∧
    exec (.regEvqStatus .read) s =
      .next { s with rdata := BitVec.ofNat 32 (s.cfg.evqDepth * 256 + s.evq.length) } ∧
    (s.evq = [] → exec (.regEvqPop .read) s = .next { s with rdata := 0 } ∧
      exec (.regEvqPeek .read) s = .next { s with rdata := 0 }) ∧
    (∀ w rest, s.evq = w :: rest → exec (.regEvqPop .read) s = .next { s with rdata := w, evq := rest } ∧
      exec (.regEvqPeek .read) s = .next { s with rdata := w }) ∧
    exec (.regParam0 .read) s = .next { s with rdata := BitVec.ofNat 32 (268435456 + s.cfg.errRetryMax * 16777216 +
      s.cfg.evqDepth * 65536 + s.cfg.epMax * 256 + s.cfg.numCh) } ∧
    exec (.regParam1 .read) s = .next { s with rdata := BitVec.ofNat 32 (s.cfg.arenaBase * 65536 + s.cfg.arenaSize) } ∧
    exec (.regParam2 .read) s = .next { s with rdata := BitVec.ofNat 32 s.cfg.arenaGran } ∧
    exec (.regReserved34 .read) s = .next { s with rdata := 0 } ∧
    exec (.regReserved38 .read) s = .next { s with rdata := 0 } ∧
    exec (.regReserved3C .read) s = .next { s with rdata := 0 }

/-- What a CPU write of each register does: the writable bits of four registers, a command for CMD, nothing for the rest. -/
def Obligations.RegisterWrites : Prop :=
  ∀ (s : State) (v : Word),
    exec (.regCtrl (.write v)) s = .next { s with gie := decide (v.toNat % 2 = 1) } ∧
    exec (.regIntEn (.write v)) s = .next { s with intEn := BitVec.ofNat 6 (v.toNat / 2) } ∧
    exec (.regNakLimit (.write v)) s = .next { s with nakLimit := BitVec.ofNat 16 v.toNat } ∧
    exec (.regArg0 (.write v)) s = .next { s with arg0 := v } ∧
    exec (.regCmd (.write v)) s = exec (decodeCommand v) s ∧
    (∀ i ∈ [Instr.regResult (.write v), .regResult2 (.write v), .regEvqStatus (.write v), .regEvqPop (.write v),
        .regEvqPeek (.write v), .regParam0 (.write v), .regParam1 (.write v), .regParam2 (.write v),
        .regReserved34 (.write v), .regReserved38 (.write v), .regReserved3C (.write v)], exec i s = .next s)

/-! ### Commands in general -/

/-- Before INIT every decoded command but INIT reports NOTINIT and does nothing else, and every link event is refused. -/
def Obligations.BeforeInitNothingRuns : Prop :=
  ∀ s : State, s.initDone = false →
    (∀ w : Word, 2 ≤ (w >>> 28).toNat → (w >>> 28).toNat ≤ 9 →
      exec (decodeCommand w) s = .next { s with result := 9, result2 := 0 }) ∧
    ∀ i, isLink i = true → ∃ e, exec i s = .refused e

/-- A reserved opcode reports ILLEGAL and changes nothing else, in every state. -/
def Obligations.ReservedOpcodes : Prop :=
  ∀ (s : State) (x : BitVec 28),
    (∀ i ∈ [Instr.illegal0 x, .illegalA x, .illegalB x, .illegalC x, .illegalD x, .illegalE x, .illegalF x],
      exec i s = .next { s with result := 6, result2 := 0 }) ∧
    ∀ w : Word, ((w >>> 28).toNat = 0 ∨ 10 ≤ (w >>> 28).toNat) →
      exec (decodeCommand w) s = .next { s with result := 6, result2 := 0 }

/-- INIT: the role and the role's event enables once; a reserved bit or a second INIT changes nothing. -/
def Obligations.InitRule : Prop :=
  ∀ (s : State) (z : BitVec 27) (role : Role),
    (z ≠ 0 → exec (.init z role) s = .next { s with result := 5, result2 := 0 }) ∧
    (s.initDone = true → exec (.init 0 role) s = .next { s with result := 14, result2 := 0 }) ∧
    (s.initDone = false → ∃ t, exec (.init 0 role) s = .next t ∧
      t = { s with role := role, initDone := true, intEn := t.intEn, result := 0, result2 := 0 } ∧
      (role = .device → exec (.regIntEn .read) t = .next { t with rdata := 0x33 }) ∧
      (role = .host → exec (.regIntEn .read) t = .next { t with rdata := 0x0D }))

/-- Of a command's checks the first that fails is reported, and nothing else happens; XFER_ABORT of an IDLE half is its OK with no
effect. -/
def Obligations.CheckOrder : Prop :=
  ∀ i s n, Good s → firstFailing (checks s i) = some n →
    exec i s = .next { s with result := BitVec.ofNat 32 n, result2 := 0 }

/-- A command that ends with a status other than OK changes RESULT and RESULT2 only. -/
def Obligations.RejectionsChangeNothing : Prop :=
  ∀ (w : Word) (s t : State), exec (decodeCommand w) s = .next t → t.result.toNat % 16 ≠ 0 →
    t.result.toNat < 15 ∧ t.result2 = 0 ∧ t = { s with result := t.result, result2 := t.result2 }

/-! ### Registry and allocators -/

/-- EP_OPEN in the host role opens the endpoint's halves in its entry and reserves nothing. -/
def Obligations.HostOpen : Prop :=
  ∀ type mps dev dir num h s, Good s → HostOpenReady type mps dev dir num h s →
    ∃ t, exec (.epOpen type mps dev dir 0 num) s = .next t ∧ HostOpenAfter type mps dev dir num h s t

/-- EP_OPEN of one half in the device role opens it and reserves the slot and range the allocators choose. -/
def Obligations.DeviceOpen : Prop :=
  ∀ type mps dir num h c o s, Good s → DeviceOpenReady type mps dir num h c o s →
    ∃ t, exec (.epOpen type mps 0 dir 0 num) s = .next t ∧ DeviceOpenAfter type mps dir num h c o s t

/-- EP_OPEN of a control endpoint in the device role reserves both slots of one channel. -/
def Obligations.DeviceControlOpen : Prop :=
  ∀ mps dir num h c o o2 s, Good s → ControlOpenReady mps num h c o o2 s →
    ∃ t, exec (.epOpen .ctrl mps 0 dir 0 num) s = .next t ∧ ControlOpenAfter mps num h c o o2 s t

/-- EP_CLOSE aborts, releases and closes the halves it names, and frees an entry without an open half. -/
def Obligations.CloseRule : Prop :=
  ∀ dir (handle : BitVec 8) s, Good s → CloseReady dir handle.toNat s →
    ∃ t, exec (.epClose 0 dir handle) s = .next t ∧ CloseAfter dir handle.toNat s t

/-- EP_FIND reports the handle of the open endpoint of an identity, or NOTFOUND, and changes nothing else. -/
def Obligations.FindRule : Prop :=
  ∀ (dev : BitVec 7) dir (num : BitVec 4) s, Good s → s.initDone = true →
    (∀ h < s.cfg.epMax, Identity h dev num s → (half h dir s).isOpen = true →
      exec (.epFind 0 dev dir 0 num) s = .next { s with result := BitVec.ofNat 32 (h * 256), result2 := 0 }) ∧
    ((∀ h < s.cfg.epMax, ¬ (Identity h dev num s ∧ (half h dir s).isOpen = true)) →
      exec (.epFind 0 dev dir 0 num) s = .next { s with result := 7, result2 := 0 })

/-- EP_CLEAR_STALL clears the halt and puts the toggle back to DATA0, of both halves of a control endpoint. -/
def Obligations.ClearStallRule : Prop :=
  ∀ dir (handle : BitVec 8) s, Good s → ClearStallReady dir handle.toNat s →
    ∃ t, exec (.epClearStall 0 dir handle) s = .next t ∧ ClearStallAfter dir handle.toNat s t

/-- DEV_CLOSE frees every entry of a device, its slots and its transfers, with one completion each in handle order. -/
def Obligations.DevCloseRule : Prop :=
  ∀ dev s, Good s → DevCloseReady dev s → ∃ t, exec (.devClose 0 dev 0) s = .next t ∧ DevCloseAfter dev s t

/-- EP_QUERY returns the fields of a half in their places and changes nothing else. -/
def Obligations.QueryRule : Prop :=
  ∀ dir (handle : BitVec 8) s, s.initDone = true → handle.toNat < s.cfg.epMax →
    exec (.epQuery 0 dir handle) s = .next { s with
      result := BitVec.ofNat 32 (queryNumber (half handle.toNat dir s))
      result2 := BitVec.ofNat 32 (queryNumber2 (half handle.toNat dir s)) }

/-- The channel ChAcquire gives: the lowest that serves the entry the other way, else the lowest that is fully free. -/
def Obligations.ChannelChoice : Prop :=
  ∀ h d s,
    (∀ c, chAcquire h d s = some c ↔
      c < s.cfg.numCh ∧
      ((servesOther h d c s = true ∧ ∀ c' < c, servesOther h d c' s = false) ∨
       ((∀ c' < s.cfg.numCh, servesOther h d c' s = false) ∧ fullyFree c s = true ∧ ∀ c' < c, fullyFree c' s = false))) ∧
    (∀ c, servesOther h d c s = true ↔ (slot c (otherDir d) s).bound = true ∧ (slot c (otherDir d) s).ep.toNat = h ∧
      (slot c d s).bound = false) ∧
    ∀ c, fullyFree c s = true ↔ (slot c .out s).bound = false ∧ (slot c .inn s).bound = false

/-- An offset ArenaAlloc may give: a step of the search, inside the arena, apart from every bound slot's range. -/
def Sys2Proof.Claims.Candidate (size o : Nat) (s : State) : Prop :=
  (∃ i, o = roundup s.cfg.arenaBase s.cfg.arenaGran + i * s.cfg.arenaGran) ∧ o + size ≤ s.cfg.arenaSize ∧
  ∀ c < s.cfg.numCh, ∀ d ∈ bothDirs, (slot c d s).bound = true →
    o + size ≤ (slot c d s).off.toNat ∨ (slot c d s).off.toNat + (slot c d s).size.toNat ≤ o

/-- The offset ArenaAlloc gives is the lowest that fits; it gives none exactly when none fits. -/
def Obligations.ArenaChoice : Prop :=
  ∀ size s, s.cfg.Legal →
    (∀ o, arenaAlloc size s = some o ↔ Candidate size o s ∧ ∀ o' < o, ¬ Candidate size o' s) ∧
    (arenaAlloc size s = none ↔ ∀ o, ¬ Candidate size o s)

/-! ### Transfers -/

/-- An accepted XFER_SUBMIT in the host role binds a slot, loads or opens the first packet, and starts the transfer. -/
def Obligations.HostSubmit : Prop :=
  ∀ setup zlp len dir (handle : BitVec 8) c o s, Good s → HostSubmitReady setup zlp len dir handle.toNat c o s →
    ∃ t, exec (.xferSubmit setup zlp len 0 dir handle) s = .next t ∧
      HostSubmitAfter setup zlp len dir handle.toNat c o s t

/-- An accepted XFER_SUBMIT in the device role uses the slot reserved at EP_OPEN. -/
def Obligations.DeviceSubmit : Prop :=
  ∀ setup zlp len dir (handle : BitVec 8) s, Good s → DeviceSubmitReady setup zlp len dir handle.toNat s →
    ∃ t, exec (.xferSubmit setup zlp len 0 dir handle) s = .next t ∧ DeviceSubmitAfter setup zlp len dir handle.toNat s t

/-- An accepted XFER_SUBMIT whose first packet's read MemAdmit refuses has no transition: the model stops under the name stuck (log
entry 7). -/
def Obligations.SubmitStuck : Prop :=
  ∀ setup zlp len dir (handle : BitVec 8) s, Good s → SubmitStuckReady setup zlp len dir handle.toNat s →
    exec (.xferSubmit setup zlp len 0 dir handle) s =
      .fault (.stuck s.arg0.toNat (firstCount len dir handle.toNat s))

/-- XFER_ABORT of a transfer in flight settles it with the acknowledged bytes; of an IDLE half it does nothing. -/
def Obligations.AbortRule : Prop :=
  ∀ dir (handle : BitVec 8) s, Good s →
    (s.initDone = true → handleOk handle.toNat dir s = true → (half handle.toNat dir s).xs = .idle →
      exec (.xferAbort 0 dir handle) s = .next { s with result := 0, result2 := 0 }) ∧
    (AbortReady dir handle.toNat s →
      ∃ t, exec (.xferAbort 0 dir handle) s = .next t ∧ AbortAfter dir handle.toNat s t)

/-- A second XFER_ABORT after an accepted one changes nothing at all: it never informs the Event Sink twice. -/
def Obligations.AbortTwice : Prop :=
  ∀ z dir handle s t, exec (.xferAbort z dir handle) s = .next t → t.result = 0 → exec (.xferAbort z dir handle) t = .next t

/-! ### Link events -/

/-- TX_ACK of a data packet: counted, the toggle advanced, the packet recorded on the wire (the model's own field, log entry 6); the
transfer settles when the packet completes it, else the next packet is loaded from the caller buffer, or the event is stuck where
MemAdmit refuses that read (log entry 7). -/
def Obligations.AckRule : Prop :=
  ∀ c d s, Good s → AckReady c d s →
    (AckCompletes c d s → ∃ t, exec (.linkTxAck c d) s = .next t ∧ AckSettleAfter c d s t) ∧
    (¬ AckCompletes c d s → memAdmits (nextAddr c d s) (nextCount c d s) s = true →
      ∃ t, exec (.linkTxAck c d) s = .next t ∧ AckNextAfter c d s t) ∧
    (¬ AckCompletes c d s → memAdmits (nextAddr c d s) (nextCount c d s) s = false →
      exec (.linkTxAck c d) s = .fault (.stuck (nextAddr c d s) (nextCount c d s)))

/-- TX_ACK of a SETUP packet settles the stage and forces both toggles to DATA1; the packet stands on the wire record (R213), a
field of the model's own (log entry 6). -/
def Obligations.AckSetup : Prop :=
  ∀ c d s, Good s → AckSetupReady c d s → ∃ t, exec (.linkTxAck c d) s = .next t ∧ AckSetupAfter c d s t

/-- An accepted RX_DATA: into the arena, the wanted part into the caller buffer, counted; settled when complete, else armed
again. Where MemAdmit refuses the write the event has no transition (R86): the model stops under the name stuck (log entry 7). -/
def Obligations.RxAccept : Prop :=
  ∀ c d pid n data s, Good s → RxAcceptReady c d pid n data s →
    (memAdmits (rxAddr c d s) (wanted c d data s) s = true →
      ∃ t, exec (.linkRxData c d pid n data) s = .next t ∧ RxAcceptAfter c d data s t) ∧
    (memAdmits (rxAddr c d s) (wanted c d data s) s = false →
      exec (.linkRxData c d pid n data) s = .fault (.stuck (rxAddr c d s) (wanted c d data s)))

/-- A received packet with the wrong PID resets the counters and nothing else. -/
def Obligations.RxDuplicate : Prop :=
  ∀ c d pid n data s, Good s → RxReady c d n data s → data.length ≤ (slot c.toNat d s).cnt.toNat →
    (slotHalf c d s).type ≠ .iso → pid ≠ (slotHalf c d s).toggle →
    ∃ t, exec (.linkRxData c d pid n data) s = .next t ∧
      OnlyHalf (slotHandle c d s) d { slotHalf c d s with nak := 0, err := 0 } s t ∧ t.wire = s.wire

/-- A packet longer than the slot accepts is a transmission error in the host role and nothing in the device role. -/
def Obligations.RxBabble : Prop :=
  ∀ c d pid n data s, Good s → RxReady c d n data s → (slot c.toNat d s).cnt.toNat < data.length →
    (s.role = .host → ∃ t, exec (.linkRxData c d pid n data) s = .next t ∧ ErrorAfter c d s t ∧ t.wire = s.wire) ∧
    (s.role = .device → exec (.linkRxData c d pid n data) s = .next s)

/-- SETUP_RX writes the 8 bytes, forces both toggles to DATA1 and settles the stage. Where MemAdmit refuses the write the event
has no transition (R86): the model stops under the name stuck (log entry 7). -/
def Obligations.SetupRxRule : Prop :=
  ∀ c data s, Good s → SetupRxReady c data s →
    (memAdmits (slotHalf c .out s).buf.toNat 8 s = true →
      ∃ t, exec (.linkSetupRx c .out 8 data) s = .next t ∧ SetupRxAfter c data s t) ∧
    (memAdmits (slotHalf c .out s).buf.toNat 8 s = false →
      exec (.linkSetupRx c .out 8 data) s = .fault (.stuck (slotHalf c .out s).buf.toNat 8))

/-- NAK: one more; a periodic half waits for the frame, a half whose budget is used up settles, any other stays armed. A sending
slot's attempt stands on the wire record (R213), a field of the model's own (log entry 6). -/
def Obligations.NakRule : Prop :=
  ∀ c d s, Good s → RetryReady c d s → ∃ t, exec (.linkNak c d) s = .next t ∧ NakAfter c d s t

/-- STALL halts the half and settles its transfer. A sending slot's attempt stands on the wire record (R213), a field of the
model's own (log entry 6). -/
def Obligations.StallRule : Prop :=
  ∀ c d s, Good s → RetryReady c d s →
    ∃ t, exec (.linkStall c d) s = .next t ∧ SettlesWith 1 c d { slotHalf c d s with halted := true } s t ∧
      WireAfter c d .stall s t

/-- XERR: one more consecutive error; beyond ERR_RETRY_MAX the transfer fails, else the same packet stays armed. A sending slot's
attempt stands on the wire record (R213), a field of the model's own (log entry 6). -/
def Obligations.XerrRule : Prop :=
  ∀ c d s, Good s → RetryReady c d s →
    ∃ t, exec (.linkXerr c d) s = .next t ∧ ErrorAfter c d s t ∧ WireAfter c d .xerr s t

/-- FRAME: in the host role the periodic halves' NAK counts restart and waiting packets are armed again; SOF is reported if
enabled. -/
def Obligations.FrameRule : Prop :=
  ∀ s, Good s → FrameReady s → ∃ t, exec .linkFrame s = .next t ∧ FrameAfter s t

/-- BUS_RESET frees every entry and every slot, with one completion per transfer in flight, then its own word. -/
def Obligations.BusResetRule : Prop :=
  ∀ s, Good s → BusResetReady s →
    ∃ t, exec .linkBusReset s = .next t ∧ BusResetAfter s t ∧ ∀ c < s.cfg.numCh, fullyFree c t = true

/-- ATTACH, DETACH, SUSPEND and RESUME report their word if their class is enabled and change nothing else. -/
def Obligations.BusReports : Prop :=
  ∀ (s : State) (speed : Bool), s.initDone = true →
    (s.role = .host → RoomFor 1 s →
      exec (.linkAttach speed) s = .next (reported 1 (BitVec.ofNat 32 (0x30000000 + speed.toNat)) s)) ∧
    (s.role = .host → RoomFor 2 s → exec .linkDetach s = .next (reported 2 0x40000000 s)) ∧
    (RoomFor 4 s → exec .linkSuspend s = .next (reported 4 0x60000000 s)) ∧
    (RoomFor 3 s → exec .linkResume s = .next (reported 3 0x50000000 s))

/-- A link event whose enabling condition fails is refused: slot conditions, role, retry state, room (how a model turns such an
event away is its own choice, log entry 9). -/
def Obligations.LinkEnabling : Prop :=
  ∀ (s : State) (c : BitVec 4) (d : Dir),
    (¬ (SlotReady c d s ∧ isSend s.role d = true) → exec (.linkTxAck c d) s = .refused .linkNotEnabled) ∧
    (∀ pid n data, ¬ RxReady c d n data s → data.length = n.toNat →
      exec (.linkRxData c d pid n data) s = .refused .linkNotEnabled) ∧
    (∀ data, data.length = 8 →
      ¬ (SlotReady c d s ∧ s.role = .device ∧ d = .out ∧ (slotHalf c d s).setup = true) →
      exec (.linkSetupRx c d 8 data) s = .refused .linkNotEnabled) ∧
    (¬ RetryReady c d s → exec (.linkNak c d) s = .refused .linkNotEnabled ∧
      exec (.linkStall c d) s = .refused .linkNotEnabled ∧ exec (.linkXerr c d) s = .refused .linkNotEnabled) ∧
    (¬ FrameReady s → exec .linkFrame s = .refused .linkNotEnabled) ∧
    (¬ BusResetReady s → exec .linkBusReset s = .refused .linkNotEnabled) ∧
    (¬ (s.initDone = true ∧ s.role = .host ∧ RoomFor 1 s) →
      ∀ speed, exec (.linkAttach speed) s = .refused .linkNotEnabled) ∧
    (¬ (s.initDone = true ∧ s.role = .host ∧ RoomFor 2 s) → exec .linkDetach s = .refused .linkNotEnabled) ∧
    (¬ (s.initDone = true ∧ RoomFor 4 s) → exec .linkSuspend s = .refused .linkNotEnabled) ∧
    (¬ (s.initDone = true ∧ RoomFor 3 s) → exec .linkResume s = .refused .linkNotEnabled)

/-- A reserved link kind is refused in every state; so is a payload of the wrong length. -/
def Obligations.ReservedLinkKinds : Prop :=
  ∀ (s : State) (x : BitVec 28) (data : List Byte),
    exec (.linkReserved0 x data) s = .refused .illFormedLink ∧ exec (.linkReservedD x data) s = .refused .illFormedLink ∧
    exec (.linkReservedE x data) s = .refused .illFormedLink ∧ exec (.linkReservedF x data) s = .refused .illFormedLink ∧
    (∀ c d pid (n : BitVec 11), data.length ≠ n.toNat → exec (.linkRxData c d pid n data) s = .refused .illFormedLink) ∧
    ∀ c d (n : BitVec 11), (n ≠ 8 ∨ data.length ≠ 8) → exec (.linkSetupRx c d n data) s = .refused .illFormedLink

/-! ### Whole-machine rules -/

/-- Which instructions write which register of the window; the parameters, FATAL, the loaded bytes and the inbox no instruction
writes. -/
def Obligations.WindowWriters : Prop :=
  ∀ i s t, exec i s = .next t →
    t.cfg = s.cfg ∧ t.fatal = s.fatal ∧ t.loaded = s.loaded ∧ t.inbox = s.inbox ∧
    (t.gie ≠ s.gie → ∃ v, i = .regCtrl (.write v)) ∧
    (t.role ≠ s.role ∨ t.initDone ≠ s.initDone → isInit (underlying i) = true) ∧
    (t.intEn ≠ s.intEn → isInit (underlying i) = true ∨ ∃ v, i = .regIntEn (.write v)) ∧
    (t.nakLimit ≠ s.nakLimit → ∃ v, i = .regNakLimit (.write v)) ∧
    (t.arg0 ≠ s.arg0 → ∃ v, i = .regArg0 (.write v)) ∧
    (t.result ≠ s.result ∨ t.result2 ≠ s.result2 → isCommand (underlying i) = true) ∧
    (t.rdata ≠ s.rdata → isRead i = true) ∧
    (t.wire ≠ s.wire → reportsAttempt i = true)

/-- A toggle moves only by an acknowledged or received packet, by EP_OPEN and EP_CLEAR_STALL, or by closing the half: submits,
aborts, NAK, STALL, XERR and frames leave every toggle alone. -/
def Obligations.ToggleKeepers : Prop :=
  ∀ i s t, exec i s = .next t → movesToggle (underlying i) = false →
    ∀ h d, (half h d t).toggle = (half h d s).toggle

/-- System memory changes only where RX_DATA or SETUP_RX writes inside the caller buffer of the half its slot serves. -/
def Obligations.MemoryWriters : Prop :=
  ∀ i s t a, Good s → exec i s = .next t → Memory.read t.mem a ≠ Memory.read s.mem a →
    ∃ c d, ((∃ pid n data, i = .linkRxData c d pid n data) ∨ ∃ n data, i = .linkSetupRx c d n data) ∧
      (slotHalf c d s).buf.toNat ≤ a ∧ a < (slotHalf c d s).buf.toNat + (slotHalf c d s).total.toNat

/-- No instruction corrupts a neighbour's buffer: the arena range of a bound slot that the step leaves as it was, with the half it
serves, keeps its bytes. -/
def Obligations.ArenaIsolation : Prop :=
  ∀ i s t c d, Good s → exec i s = .next t → c < s.cfg.numCh → (slot c d s).bound = true → slot c d t = slot c d s →
    half (slot c d s).ep.toNat d t = half (slot c d s).ep.toNat d s →
    ∀ k < (slot c d s).size.toNat,
      Memory.read t.arena ((slot c d s).off.toNat + k) = Memory.read s.arena ((slot c d s).off.toNat + k)

/-- Only XFER_SUBMIT and TX_ACK read system memory: any other instruction does the same whatever memory holds. -/
def Obligations.MemoryReaders : Prop :=
  ∀ i s t (m : Memory), Memory.wf s.mem → Memory.wf m → exec i s = .next t → isSubmit (underlying i) = false → (∀ c d, i ≠ .linkTxAck c d) →
    ∃ u, exec i { s with mem := m } = .next u ∧ { u with mem := t.mem } = t ∧
      ∀ a, Memory.read t.mem a ≠ Memory.read s.mem a → Memory.read u.mem a = Memory.read t.mem a

/-- Event words leave the FIFO at its head by EVQ_POP only, and enter at its tail: no word is dropped, merged or reordered. -/
def Obligations.EventOrder : Prop :=
  ∀ i s t, exec i s = .next t →
    (i = .regEvqPop .read → t.evq = s.evq.tail) ∧ (i ≠ .regEvqPop .read → s.evq <+: t.evq) ∧
    (Good s → t.evq.length ≤ s.cfg.evqDepth)

/-- Every transfer that ends pushes exactly one XFER_COMPLETE word, and only an accepted XFER_SUBMIT starts one: the transfers in
flight after a step and the completions it pushed add up to the transfers before and the one it started. -/
def Obligations.OneCompletionEach : Prop :=
  ∀ i s t, Good s → exec i s = .next t → i ≠ .regEvqPop .read →
    ∃ ws, t.evq = s.evq ++ ws ∧
      busyCount (fun _ => true) t + ws.countP isCompletion =
        busyCount (fun _ => true) s + (if isSubmit (underlying i) = true ∧ t.result = 0 then 1 else 0)

/-- The ways an instruction can end otherwise than in a next state: an access that MemAdmit refuses, of the four instructions that
perform one; and the refusal of a link event. A step adds to these the two faults of R325 and nothing else: RegAccess of a register
access, and Invariant. That a step that has no transition is reported as stuck, and a link event that is not enabled as refused, is
the model's (log entries 7 and 9). -/
def Obligations.OtherOutcomes : Prop :=
  ∀ i s,
    (∀ f, exec i s = .fault f → usesMemory (underlying i) = true ∧ ∃ a n, f = .stuck a n ∧ memAdmits a n s = false) ∧
    (∀ e, exec i s = .refused e → isLink i = true ∧ (e = .illFormedLink ∨ e = .linkNotEnabled)) ∧
    (∀ f, step s = .fault f → ∃ r rest, s.inbox = .act r :: rest ∧
      ((∃ o w isWrite, f = .regAccess o w isWrite ∧ ∀ word payload, r ≠ .link word payload) ∨ (∃ n t, f = .invariant n t) ∨
        ∃ a n, f = .stuck a n ∧ memAdmits a n s = false)) ∧
    ∀ e, step s = .refused e → ∃ word payload rest, s.inbox = .act (.link word payload) :: rest ∧
      (e = .illFormedLink ∨ e = .linkNotEnabled)

/-- The NAK budget is exact: with K NAKs allowed and j taken, the transfer of a non-periodic half is still in flight after any fewer
than K - j more, settles FAILED_NAK at the next, and after that no NAK is enabled. -/
def Obligations.NakBudgetExact : Prop :=
  ∀ (c : BitVec 4) (d : Dir) (s : State), Good s → RetryReady c d s → (slotHalf c d s).type ≠ .iso →
    (slotHalf c d s).type ≠ .intr → (slotHalf c d s).nak.toNat < s.nakLimit.toNat →
    (∀ k < s.nakLimit.toNat - (slotHalf c d s).nak.toNat,
      ∃ t, repeatExec (.linkNak c d) k s = .next t ∧ RetryReady c d t ∧ t.evq = s.evq ∧
        slotHalf c d t = { slotHalf c d s with nak := BitVec.ofNat 16 ((slotHalf c d s).nak.toNat + k) }) ∧
    (∃ t, repeatExec (.linkNak c d) (s.nakLimit.toNat - (slotHalf c d s).nak.toNat) s = .next t ∧
      (half (slotHandle c d s) d t).xs = .idle ∧
      t.evq = s.evq ++ [completion 3 d (slotHandle c d s) (slotHalf c d s).done.toNat]) ∧
    repeatExec (.linkNak c d) (s.nakLimit.toNat - (slotHalf c d s).nak.toNat + 1) s = .refused .linkNotEnabled

/-- The error bound is exact: a packet that has met no error is attempted ERR_RETRY_MAX + 1 times in all. -/
def Obligations.ErrorBoundExact : Prop :=
  ∀ (c : BitVec 4) (d : Dir) (s : State), Good s → RetryReady c d s → (slotHalf c d s).err = 0 →
    (∀ k ≤ s.cfg.errRetryMax,
      ∃ t, repeatExec (.linkXerr c d) k s = .next t ∧ RetryReady c d t ∧ t.evq = s.evq ∧
        slotHalf c d t = { slotHalf c d s with err := BitVec.ofNat 5 k }) ∧
    (∃ t, repeatExec (.linkXerr c d) (s.cfg.errRetryMax + 1) s = .next t ∧ (half (slotHandle c d s) d t).xs = .idle ∧
      t.evq = s.evq ++ [completion 2 d (slotHandle c d s) (slotHalf c d s).done.toNat]) ∧
    repeatExec (.linkXerr c d) (s.cfg.errRetryMax + 2) s = .refused .linkNotEnabled

/-- Packet counts of a sending transfer of N bytes at max packet size M, every packet acknowledged: how many packets it takes, how
long each is, and that it settles SUCCESS with N bytes at the last and not before. The lengths are read from the wire record, a
field of the model's own (log entry 6). -/
def Obligations.PacketCount : Prop :=
  ∀ (c : BitVec 4) (d : Dir) (s : State), Good s → AckReady c d s → (slotHalf c d s).done = 0 → s.cfg.memRefused = [] →
    ∀ k ≤ packets (slotHalf c d s).total.toNat (slotHalf c d s).mps.toNat (slotHalf c d s).zlp,
      ∃ t, repeatExec (.linkTxAck c d) k s = .next t ∧
        (t.wire.drop s.wire.length).map (fun p => p.data.length) =
          (List.range k).map (fun j =>
            min (slotHalf c d s).mps.toNat ((slotHalf c d s).total.toNat - j * (slotHalf c d s).mps.toNat)) ∧
        (k < packets (slotHalf c d s).total.toNat (slotHalf c d s).mps.toNat (slotHalf c d s).zlp →
          (half (slotHandle c d s) d t).xs = .inflight ∧ t.evq = s.evq) ∧
        (k = packets (slotHalf c d s).total.toNat (slotHalf c d s).mps.toNat (slotHalf c d s).zlp →
          (half (slotHandle c d s) d t).xs = .idle ∧
          t.evq = s.evq ++ [completion 0 d (slotHandle c d s) (slotHalf c d s).total.toNat])
end

