-- ==== Sys2Proof/Laws/Memory.lean ====
section
/-! SUPPORT. The laws of the byte memories: a read after a write, that every memory operation keeps the canonical form, and that
the canonical form makes equal memories equal data. -/

namespace Sys2Proof.Machine

@[simp] theorem Memory.read_nil (a : Nat) : Memory.read [] a = 0 := rfl

theorem Memory.read_cons (k : Nat) (v : Byte) (t : Memory) (a : Nat) :
    Memory.read ((k, v) :: t) a = if k = a then v else Memory.read t a := rfl

/-- The canonical form of a list's tail, and what it says of the head. -/
theorem Memory.wf_cons {k : Nat} {v : Byte} {t : Memory} :
    Memory.wf ((k, v) :: t) ↔ (∀ p ∈ t, k < p.1) ∧ v ≠ 0 ∧ Memory.wf t := by
  simp only [Memory.wf, List.pairwise_cons, List.mem_cons, forall_eq_or_imp]
  tauto

/-- An address below every listed one reads 0. -/
theorem Memory.read_below {m : Memory} {a : Nat} (h : ∀ p ∈ m, a < p.1) : Memory.read m a = 0 := by
  induction m with
  | nil => rfl
  | cons p t ih =>
    obtain ⟨k, v⟩ := p
    have hk : a < k := h (k, v) (by simp)
    rw [Memory.read_cons, if_neg (by omega)]
    exact ih fun q hq => h q (by simp [hq])

/-- Where the entries of a written memory come from. -/
theorem Memory.mem_write {m : Memory} {a : Nat} {b : Byte} {p : Host.Cell} (h : p ∈ Memory.write m a b) :
    p ∈ m ∨ p = (a, b) := by
  induction m with
  | nil =>
    simp only [Memory.write] at h
    split at h <;> simp_all
  | cons q t ih =>
    obtain ⟨k, v⟩ := q
    simp only [Memory.write] at h
    split at h
    · split at h
      · exact .inl h
      · rcases List.mem_cons.1 h with h | h
        · exact .inr h
        · exact .inl h
    · split at h
      · split at h
        · exact .inl (List.mem_cons_of_mem _ h)
        · rcases List.mem_cons.1 h with h | h
          · exact .inr h
          · exact .inl (List.mem_cons_of_mem _ h)
      · simp only [List.mem_cons] at h ⊢
        rcases h with h | h
        · exact .inl (.inl h)
        · rcases ih h with h | h
          · exact .inl (.inr h)
          · exact .inr h

/-- Writing a byte keeps the canonical form. -/
theorem Memory.write_wf {m : Memory} (a : Nat) (b : Byte) (h : Memory.wf m) : Memory.wf (Memory.write m a b) := by
  induction m with
  | nil =>
    simp only [Memory.write]
    split <;> simp_all [Memory.wf]
  | cons p t ih =>
    obtain ⟨k, v⟩ := p
    obtain ⟨hlt, hv, ht⟩ := Memory.wf_cons.1 h
    simp only [Memory.write]
    split
    · split
      · exact h
      · refine Memory.wf_cons.2 ⟨?_, ‹_›, h⟩
        intro q hq
        rcases List.mem_cons.1 hq with rfl | hq
        · assumption
        · exact lt_trans ‹a < k› (hlt q hq)
    · split
      · split
        · exact ht
        · subst_vars
          exact Memory.wf_cons.2 ⟨hlt, ‹_›, ht⟩
      · refine Memory.wf_cons.2 ⟨?_, hv, ih ht⟩
        intro q hq
        rcases Memory.mem_write hq with hq | rfl
        · exact hlt q hq
        · show k < a
          omega

/-- A read after a write gives the byte written, and any other address reads as before. -/
theorem Memory.read_write {m : Memory} (a : Nat) (b : Byte) (x : Nat) (h : Memory.wf m) :
    Memory.read (Memory.write m a b) x = if x = a then b else Memory.read m x := by
  induction m with
  | nil =>
    simp only [Memory.write]
    by_cases hb : b = 0
    · simp [hb]
    · rw [if_neg hb, Memory.read_cons, Memory.read_nil]
      by_cases hx : x = a
      · rw [if_pos hx, if_pos hx.symm]
      · rw [if_neg hx, if_neg (Ne.symm hx)]
  | cons p t ih =>
    obtain ⟨k, v⟩ := p
    obtain ⟨hlt, hv, ht⟩ := Memory.wf_cons.1 h
    have hbelow : ∀ y, y ≤ k → Memory.read t y = 0 := fun y hy =>
      Memory.read_below fun q hq => lt_of_le_of_lt hy (hlt q hq)
    simp only [Memory.write]
    by_cases hak : a < k
    · rw [if_pos hak]
      by_cases hb : b = 0
      · rw [if_pos hb]
        by_cases hx : x = a
        · rw [if_pos hx, hb, Memory.read_cons, if_neg (by omega), hbelow x (by omega)]
        · rw [if_neg hx]
      · rw [if_neg hb, Memory.read_cons]
        by_cases hx : x = a
        · rw [if_pos hx, if_pos hx.symm]
        · rw [if_neg hx, if_neg (Ne.symm hx)]
    · rw [if_neg hak]
      by_cases hka : a = k
      · rw [if_pos hka]
        by_cases hb : b = 0
        · rw [if_pos hb, Memory.read_cons]
          by_cases hx : x = a
          · rw [if_pos hx, hb, hbelow x (by omega)]
          · rw [if_neg hx, if_neg (by omega)]
        · rw [if_neg hb, Memory.read_cons, Memory.read_cons]
          by_cases hx : x = a
          · rw [if_pos hx, if_pos hx.symm]
          · rw [if_neg hx, if_neg (Ne.symm hx), if_neg (by omega)]
      · rw [if_neg hka, Memory.read_cons, Memory.read_cons, ih ht]
        by_cases hx : x = a
        · rw [if_neg (show ¬ k = x by omega), if_pos hx, if_pos hx]
        · rw [if_neg hx, if_neg hx]

/-- Writing bytes keeps the canonical form. -/
theorem Memory.writeBytes_wf (bs : List Byte) {m : Memory} (a : Nat) (h : Memory.wf m) :
    Memory.wf (Memory.writeBytes m a bs) := by
  induction bs generalizing m a with
  | nil => exact h
  | cons b bs ih => exact ih (a + 1) (Memory.write_wf a b h)

/-- Outside the written range a read is as before. -/
theorem Memory.read_writeBytes_outside (bs : List Byte) {m : Memory} (a x : Nat) (h : Memory.wf m)
    (hx : x < a ∨ a + bs.length ≤ x) : Memory.read (Memory.writeBytes m a bs) x = Memory.read m x := by
  induction bs generalizing m a with
  | nil => rfl
  | cons b bs ih =>
    simp only [List.length_cons] at hx
    rw [Memory.writeBytes, ih (a + 1) (Memory.write_wf a b h) (by omega), Memory.read_write a b x h, if_neg (by omega)]

/-- Inside the written range a read gives the byte written there. -/
theorem Memory.read_writeBytes_inside (bs : List Byte) {m : Memory} (a i : Nat) (h : Memory.wf m) (hi : i < bs.length) :
    Memory.read (Memory.writeBytes m a bs) (a + i) = bs[i] := by
  induction bs generalizing m a i with
  | nil => exact absurd hi (by simp)
  | cons b bs ih =>
    cases i with
    | zero =>
      rw [Memory.writeBytes, Memory.read_writeBytes_outside bs (a + 1) (a + 0) (Memory.write_wf a b h) (by omega),
        Memory.read_write a b (a + 0) h]
      simp
    | succ i =>
      have := ih (m := Memory.write m a b) (a + 1) i (Memory.write_wf a b h) (by simpa using hi)
      rw [Memory.writeBytes, show a + (i + 1) = a + 1 + i by omega, this]
      simp

/-- Where the entries of a memory come from after bytes were written. -/
theorem Memory.mem_writeBytes (bs : List Byte) {m : Memory} {a : Nat} {p : Host.Cell}
    (h : p ∈ Memory.writeBytes m a bs) : p ∈ m ∨ (a ≤ p.1 ∧ p.1 < a + bs.length) := by
  induction bs generalizing m a with
  | nil => exact .inl h
  | cons b bs ih =>
    rcases ih h with h | h
    · rcases Memory.mem_write h with h | rfl
      · exact .inl h
      · exact .inr (by simp)
    · exact .inr (by simp only [List.length_cons]; omega)

/-- Writing cells keeps the canonical form. -/
theorem Memory.writeCells_wf (cells : List (Word × Byte)) {m : Memory} (h : Memory.wf m) :
    Memory.wf (Memory.writeCells m cells) := by
  induction cells generalizing m with
  | nil => exact h
  | cons c cells ih => exact ih (Memory.write_wf c.1.toNat c.2 h)

/-- An address that no cell names reads as before. -/
theorem Memory.read_writeCells_outside (cells : List (Word × Byte)) {m : Memory} (x : Nat) (h : Memory.wf m)
    (hx : ∀ c ∈ cells, c.1.toNat ≠ x) : Memory.read (Memory.writeCells m cells) x = Memory.read m x := by
  induction cells generalizing m with
  | nil => rfl
  | cons c cells ih =>
    obtain ⟨hc, hx⟩ := List.forall_mem_cons.1 hx
    rw [Memory.writeCells, ih (Memory.write_wf _ _ h) hx, Memory.read_write _ _ x h, if_neg hc.symm]

/-- The address of a cell that no later cell names reads the cell's byte. -/
theorem Memory.read_writeCells_inside (before after : List (Word × Byte)) (a : Word) (b : Byte) {m : Memory} (h : Memory.wf m)
    (ha : ∀ c ∈ after, c.1 ≠ a) : Memory.read (Memory.writeCells m (before ++ (a, b) :: after)) a.toNat = b := by
  induction before generalizing m with
  | nil =>
    have hne : ∀ c ∈ after, c.1.toNat ≠ a.toNat := fun c hc e => ha c hc (BitVec.eq_of_toNat_eq e)
    rw [List.nil_append, Memory.writeCells, Memory.read_writeCells_outside after _ (Memory.write_wf _ _ h) hne,
      Memory.read_write _ _ _ h, if_pos rfl]
  | cons c before ih => exact ih (Memory.write_wf c.1.toNat c.2 h)

/-- Where the entries of a memory come from after cells were written: the new ones lie inside system memory (R80). -/
theorem Memory.mem_writeCells (cells : List (Word × Byte)) {m : Memory} {p : Host.Cell}
    (h : p ∈ Memory.writeCells m cells) : p ∈ m ∨ p.1 < 2 ^ 32 := by
  induction cells generalizing m with
  | nil => exact .inl h
  | cons c cells ih =>
    rcases ih h with h | h
    · rcases Memory.mem_write h with h | rfl
      · exact .inl h
      · exact .inr c.1.isLt
    · exact .inr h

@[simp] theorem Memory.length_readBytes (m : Memory) (a n : Nat) : (Memory.readBytes m a n).length = n := by
  simp [Memory.readBytes]

/-- The `i`-th byte read. -/
theorem Memory.getElem_readBytes (m : Memory) (a n i : Nat) (h : i < (Memory.readBytes m a n).length) :
    (Memory.readBytes m a n)[i] = Memory.read m (a + i) := by
  simp [Memory.readBytes]

/-- Two canonical memories that read alike everywhere are the same data. -/
theorem Memory.ext_of_wf {m n : Memory} (hm : Memory.wf m) (hn : Memory.wf n)
    (h : ∀ a, Memory.read m a = Memory.read n a) : m = n := by
  induction m generalizing n with
  | nil =>
    cases n with
    | nil => rfl
    | cons q t =>
      obtain ⟨k, v⟩ := q
      have := h k
      simp [Memory.read_cons] at this
      exact absurd this.symm (Memory.wf_cons.1 hn).2.1
  | cons p t ih =>
    obtain ⟨k, v⟩ := p
    obtain ⟨hlt, hv, ht⟩ := Memory.wf_cons.1 hm
    cases n with
    | nil =>
      have := h k
      simp [Memory.read_cons] at this
      exact absurd this hv
    | cons q u =>
      obtain ⟨k', v'⟩ := q
      obtain ⟨hlt', hv', hu⟩ := Memory.wf_cons.1 hn
      have hk : k = k' := by
        by_contra hne
        rcases Nat.lt_or_gt_of_ne hne with hlt'' | hgt
        · have := h k
          rw [Memory.read_cons, if_pos rfl, Memory.read_cons, if_neg (by omega),
            Memory.read_below fun q hq => lt_trans hlt'' (hlt' q hq)] at this
          exact hv this
        · have := h k'
          rw [Memory.read_cons, if_neg (by omega), Memory.read_cons, if_pos rfl,
            Memory.read_below fun q hq => lt_trans hgt (hlt q hq)] at this
          exact hv' this.symm
      subst hk
      have hvv : v = v' := by
        have := h k
        simpa [Memory.read_cons] using this
      subst hvv
      have htu : t = u := by
        refine ih ht hu fun a => ?_
        by_cases ha : a = k
        · rw [ha, Memory.read_below hlt, Memory.read_below hlt']
        · have := h a
          rwa [Memory.read_cons, if_neg (Ne.symm ha), Memory.read_cons, if_neg (Ne.symm ha)] at this
      rw [htu]

end Sys2Proof.Machine
end

