-- ==== Sys2Proof/Laws/State.lean ====
section
/-! SUPPORT. One lemma per field per update: what each named update of the state leaves alone, so that no later proof unfolds a
record update. -/

namespace Sys2Proof.Machine

/-! arenaWrite writes arena only. -/

@[simp] theorem arenaWrite_cfg (off : Nat) (bytes : List Byte) (s : State) : (arenaWrite off bytes s).cfg = s.cfg := rfl
@[simp] theorem arenaWrite_gie (off : Nat) (bytes : List Byte) (s : State) : (arenaWrite off bytes s).gie = s.gie := rfl
@[simp] theorem arenaWrite_role (off : Nat) (bytes : List Byte) (s : State) : (arenaWrite off bytes s).role = s.role := rfl
@[simp] theorem arenaWrite_initDone (off : Nat) (bytes : List Byte) (s : State) : (arenaWrite off bytes s).initDone = s.initDone := rfl
@[simp] theorem arenaWrite_fatal (off : Nat) (bytes : List Byte) (s : State) : (arenaWrite off bytes s).fatal = s.fatal := rfl
@[simp] theorem arenaWrite_intEn (off : Nat) (bytes : List Byte) (s : State) : (arenaWrite off bytes s).intEn = s.intEn := rfl
@[simp] theorem arenaWrite_nakLimit (off : Nat) (bytes : List Byte) (s : State) : (arenaWrite off bytes s).nakLimit = s.nakLimit := rfl
@[simp] theorem arenaWrite_arg0 (off : Nat) (bytes : List Byte) (s : State) : (arenaWrite off bytes s).arg0 = s.arg0 := rfl
@[simp] theorem arenaWrite_result (off : Nat) (bytes : List Byte) (s : State) : (arenaWrite off bytes s).result = s.result := rfl
@[simp] theorem arenaWrite_result2 (off : Nat) (bytes : List Byte) (s : State) : (arenaWrite off bytes s).result2 = s.result2 := rfl
@[simp] theorem arenaWrite_eps (off : Nat) (bytes : List Byte) (s : State) : (arenaWrite off bytes s).eps = s.eps := rfl
@[simp] theorem arenaWrite_chans (off : Nat) (bytes : List Byte) (s : State) : (arenaWrite off bytes s).chans = s.chans := rfl
@[simp] theorem arenaWrite_evq (off : Nat) (bytes : List Byte) (s : State) : (arenaWrite off bytes s).evq = s.evq := rfl
@[simp] theorem arenaWrite_mem (off : Nat) (bytes : List Byte) (s : State) : (arenaWrite off bytes s).mem = s.mem := rfl
@[simp] theorem arenaWrite_rdata (off : Nat) (bytes : List Byte) (s : State) : (arenaWrite off bytes s).rdata = s.rdata := rfl
@[simp] theorem arenaWrite_loaded (off : Nat) (bytes : List Byte) (s : State) : (arenaWrite off bytes s).loaded = s.loaded := rfl
@[simp] theorem arenaWrite_wire (off : Nat) (bytes : List Byte) (s : State) : (arenaWrite off bytes s).wire = s.wire := rfl
@[simp] theorem arenaWrite_inbox (off : Nat) (bytes : List Byte) (s : State) : (arenaWrite off bytes s).inbox = s.inbox := rfl

/-! memWrite writes mem only. -/

@[simp] theorem memWrite_cfg (a : Nat) (bytes : List Byte) (s : State) : (memWrite a bytes s).cfg = s.cfg := rfl
@[simp] theorem memWrite_gie (a : Nat) (bytes : List Byte) (s : State) : (memWrite a bytes s).gie = s.gie := rfl
@[simp] theorem memWrite_role (a : Nat) (bytes : List Byte) (s : State) : (memWrite a bytes s).role = s.role := rfl
@[simp] theorem memWrite_initDone (a : Nat) (bytes : List Byte) (s : State) : (memWrite a bytes s).initDone = s.initDone := rfl
@[simp] theorem memWrite_fatal (a : Nat) (bytes : List Byte) (s : State) : (memWrite a bytes s).fatal = s.fatal := rfl
@[simp] theorem memWrite_intEn (a : Nat) (bytes : List Byte) (s : State) : (memWrite a bytes s).intEn = s.intEn := rfl
@[simp] theorem memWrite_nakLimit (a : Nat) (bytes : List Byte) (s : State) : (memWrite a bytes s).nakLimit = s.nakLimit := rfl
@[simp] theorem memWrite_arg0 (a : Nat) (bytes : List Byte) (s : State) : (memWrite a bytes s).arg0 = s.arg0 := rfl
@[simp] theorem memWrite_result (a : Nat) (bytes : List Byte) (s : State) : (memWrite a bytes s).result = s.result := rfl
@[simp] theorem memWrite_result2 (a : Nat) (bytes : List Byte) (s : State) : (memWrite a bytes s).result2 = s.result2 := rfl
@[simp] theorem memWrite_eps (a : Nat) (bytes : List Byte) (s : State) : (memWrite a bytes s).eps = s.eps := rfl
@[simp] theorem memWrite_chans (a : Nat) (bytes : List Byte) (s : State) : (memWrite a bytes s).chans = s.chans := rfl
@[simp] theorem memWrite_arena (a : Nat) (bytes : List Byte) (s : State) : (memWrite a bytes s).arena = s.arena := rfl
@[simp] theorem memWrite_evq (a : Nat) (bytes : List Byte) (s : State) : (memWrite a bytes s).evq = s.evq := rfl
@[simp] theorem memWrite_rdata (a : Nat) (bytes : List Byte) (s : State) : (memWrite a bytes s).rdata = s.rdata := rfl
@[simp] theorem memWrite_loaded (a : Nat) (bytes : List Byte) (s : State) : (memWrite a bytes s).loaded = s.loaded := rfl
@[simp] theorem memWrite_wire (a : Nat) (bytes : List Byte) (s : State) : (memWrite a bytes s).wire = s.wire := rfl
@[simp] theorem memWrite_inbox (a : Nat) (bytes : List Byte) (s : State) : (memWrite a bytes s).inbox = s.inbox := rfl

/-! setEntry writes eps only. -/

@[simp] theorem setEntry_cfg (h : Nat) (e : Entry) (s : State) : (setEntry h e s).cfg = s.cfg := rfl
@[simp] theorem setEntry_gie (h : Nat) (e : Entry) (s : State) : (setEntry h e s).gie = s.gie := rfl
@[simp] theorem setEntry_role (h : Nat) (e : Entry) (s : State) : (setEntry h e s).role = s.role := rfl
@[simp] theorem setEntry_initDone (h : Nat) (e : Entry) (s : State) : (setEntry h e s).initDone = s.initDone := rfl
@[simp] theorem setEntry_fatal (h : Nat) (e : Entry) (s : State) : (setEntry h e s).fatal = s.fatal := rfl
@[simp] theorem setEntry_intEn (h : Nat) (e : Entry) (s : State) : (setEntry h e s).intEn = s.intEn := rfl
@[simp] theorem setEntry_nakLimit (h : Nat) (e : Entry) (s : State) : (setEntry h e s).nakLimit = s.nakLimit := rfl
@[simp] theorem setEntry_arg0 (h : Nat) (e : Entry) (s : State) : (setEntry h e s).arg0 = s.arg0 := rfl
@[simp] theorem setEntry_result (h : Nat) (e : Entry) (s : State) : (setEntry h e s).result = s.result := rfl
@[simp] theorem setEntry_result2 (h : Nat) (e : Entry) (s : State) : (setEntry h e s).result2 = s.result2 := rfl
@[simp] theorem setEntry_chans (h : Nat) (e : Entry) (s : State) : (setEntry h e s).chans = s.chans := rfl
@[simp] theorem setEntry_arena (h : Nat) (e : Entry) (s : State) : (setEntry h e s).arena = s.arena := rfl
@[simp] theorem setEntry_evq (h : Nat) (e : Entry) (s : State) : (setEntry h e s).evq = s.evq := rfl
@[simp] theorem setEntry_mem (h : Nat) (e : Entry) (s : State) : (setEntry h e s).mem = s.mem := rfl
@[simp] theorem setEntry_rdata (h : Nat) (e : Entry) (s : State) : (setEntry h e s).rdata = s.rdata := rfl
@[simp] theorem setEntry_loaded (h : Nat) (e : Entry) (s : State) : (setEntry h e s).loaded = s.loaded := rfl
@[simp] theorem setEntry_wire (h : Nat) (e : Entry) (s : State) : (setEntry h e s).wire = s.wire := rfl
@[simp] theorem setEntry_inbox (h : Nat) (e : Entry) (s : State) : (setEntry h e s).inbox = s.inbox := rfl

/-! modHalf writes eps only. -/

@[simp] theorem modHalf_cfg (h : Nat) (d : Dir) (f : Half → Half) (s : State) : (modHalf h d f s).cfg = s.cfg := rfl
@[simp] theorem modHalf_gie (h : Nat) (d : Dir) (f : Half → Half) (s : State) : (modHalf h d f s).gie = s.gie := rfl
@[simp] theorem modHalf_role (h : Nat) (d : Dir) (f : Half → Half) (s : State) : (modHalf h d f s).role = s.role := rfl
@[simp] theorem modHalf_initDone (h : Nat) (d : Dir) (f : Half → Half) (s : State) : (modHalf h d f s).initDone = s.initDone := rfl
@[simp] theorem modHalf_fatal (h : Nat) (d : Dir) (f : Half → Half) (s : State) : (modHalf h d f s).fatal = s.fatal := rfl
@[simp] theorem modHalf_intEn (h : Nat) (d : Dir) (f : Half → Half) (s : State) : (modHalf h d f s).intEn = s.intEn := rfl
@[simp] theorem modHalf_nakLimit (h : Nat) (d : Dir) (f : Half → Half) (s : State) : (modHalf h d f s).nakLimit = s.nakLimit := rfl
@[simp] theorem modHalf_arg0 (h : Nat) (d : Dir) (f : Half → Half) (s : State) : (modHalf h d f s).arg0 = s.arg0 := rfl
@[simp] theorem modHalf_result (h : Nat) (d : Dir) (f : Half → Half) (s : State) : (modHalf h d f s).result = s.result := rfl
@[simp] theorem modHalf_result2 (h : Nat) (d : Dir) (f : Half → Half) (s : State) : (modHalf h d f s).result2 = s.result2 := rfl
@[simp] theorem modHalf_chans (h : Nat) (d : Dir) (f : Half → Half) (s : State) : (modHalf h d f s).chans = s.chans := rfl
@[simp] theorem modHalf_arena (h : Nat) (d : Dir) (f : Half → Half) (s : State) : (modHalf h d f s).arena = s.arena := rfl
@[simp] theorem modHalf_evq (h : Nat) (d : Dir) (f : Half → Half) (s : State) : (modHalf h d f s).evq = s.evq := rfl
@[simp] theorem modHalf_mem (h : Nat) (d : Dir) (f : Half → Half) (s : State) : (modHalf h d f s).mem = s.mem := rfl
@[simp] theorem modHalf_rdata (h : Nat) (d : Dir) (f : Half → Half) (s : State) : (modHalf h d f s).rdata = s.rdata := rfl
@[simp] theorem modHalf_loaded (h : Nat) (d : Dir) (f : Half → Half) (s : State) : (modHalf h d f s).loaded = s.loaded := rfl
@[simp] theorem modHalf_wire (h : Nat) (d : Dir) (f : Half → Half) (s : State) : (modHalf h d f s).wire = s.wire := rfl
@[simp] theorem modHalf_inbox (h : Nat) (d : Dir) (f : Half → Half) (s : State) : (modHalf h d f s).inbox = s.inbox := rfl

/-! setXs writes eps only. -/

@[simp] theorem setXs_cfg (h : Nat) (d : Dir) (x : XferState) (s : State) : (setXs h d x s).cfg = s.cfg := rfl
@[simp] theorem setXs_gie (h : Nat) (d : Dir) (x : XferState) (s : State) : (setXs h d x s).gie = s.gie := rfl
@[simp] theorem setXs_role (h : Nat) (d : Dir) (x : XferState) (s : State) : (setXs h d x s).role = s.role := rfl
@[simp] theorem setXs_initDone (h : Nat) (d : Dir) (x : XferState) (s : State) : (setXs h d x s).initDone = s.initDone := rfl
@[simp] theorem setXs_fatal (h : Nat) (d : Dir) (x : XferState) (s : State) : (setXs h d x s).fatal = s.fatal := rfl
@[simp] theorem setXs_intEn (h : Nat) (d : Dir) (x : XferState) (s : State) : (setXs h d x s).intEn = s.intEn := rfl
@[simp] theorem setXs_nakLimit (h : Nat) (d : Dir) (x : XferState) (s : State) : (setXs h d x s).nakLimit = s.nakLimit := rfl
@[simp] theorem setXs_arg0 (h : Nat) (d : Dir) (x : XferState) (s : State) : (setXs h d x s).arg0 = s.arg0 := rfl
@[simp] theorem setXs_result (h : Nat) (d : Dir) (x : XferState) (s : State) : (setXs h d x s).result = s.result := rfl
@[simp] theorem setXs_result2 (h : Nat) (d : Dir) (x : XferState) (s : State) : (setXs h d x s).result2 = s.result2 := rfl
@[simp] theorem setXs_chans (h : Nat) (d : Dir) (x : XferState) (s : State) : (setXs h d x s).chans = s.chans := rfl
@[simp] theorem setXs_arena (h : Nat) (d : Dir) (x : XferState) (s : State) : (setXs h d x s).arena = s.arena := rfl
@[simp] theorem setXs_evq (h : Nat) (d : Dir) (x : XferState) (s : State) : (setXs h d x s).evq = s.evq := rfl
@[simp] theorem setXs_mem (h : Nat) (d : Dir) (x : XferState) (s : State) : (setXs h d x s).mem = s.mem := rfl
@[simp] theorem setXs_rdata (h : Nat) (d : Dir) (x : XferState) (s : State) : (setXs h d x s).rdata = s.rdata := rfl
@[simp] theorem setXs_loaded (h : Nat) (d : Dir) (x : XferState) (s : State) : (setXs h d x s).loaded = s.loaded := rfl
@[simp] theorem setXs_wire (h : Nat) (d : Dir) (x : XferState) (s : State) : (setXs h d x s).wire = s.wire := rfl
@[simp] theorem setXs_inbox (h : Nat) (d : Dir) (x : XferState) (s : State) : (setXs h d x s).inbox = s.inbox := rfl

/-! forceToggles writes eps only. -/

@[simp] theorem forceToggles_cfg (h : Nat) (s : State) : (forceToggles h s).cfg = s.cfg := rfl
@[simp] theorem forceToggles_gie (h : Nat) (s : State) : (forceToggles h s).gie = s.gie := rfl
@[simp] theorem forceToggles_role (h : Nat) (s : State) : (forceToggles h s).role = s.role := rfl
@[simp] theorem forceToggles_initDone (h : Nat) (s : State) : (forceToggles h s).initDone = s.initDone := rfl
@[simp] theorem forceToggles_fatal (h : Nat) (s : State) : (forceToggles h s).fatal = s.fatal := rfl
@[simp] theorem forceToggles_intEn (h : Nat) (s : State) : (forceToggles h s).intEn = s.intEn := rfl
@[simp] theorem forceToggles_nakLimit (h : Nat) (s : State) : (forceToggles h s).nakLimit = s.nakLimit := rfl
@[simp] theorem forceToggles_arg0 (h : Nat) (s : State) : (forceToggles h s).arg0 = s.arg0 := rfl
@[simp] theorem forceToggles_result (h : Nat) (s : State) : (forceToggles h s).result = s.result := rfl
@[simp] theorem forceToggles_result2 (h : Nat) (s : State) : (forceToggles h s).result2 = s.result2 := rfl
@[simp] theorem forceToggles_chans (h : Nat) (s : State) : (forceToggles h s).chans = s.chans := rfl
@[simp] theorem forceToggles_arena (h : Nat) (s : State) : (forceToggles h s).arena = s.arena := rfl
@[simp] theorem forceToggles_evq (h : Nat) (s : State) : (forceToggles h s).evq = s.evq := rfl
@[simp] theorem forceToggles_mem (h : Nat) (s : State) : (forceToggles h s).mem = s.mem := rfl
@[simp] theorem forceToggles_rdata (h : Nat) (s : State) : (forceToggles h s).rdata = s.rdata := rfl
@[simp] theorem forceToggles_loaded (h : Nat) (s : State) : (forceToggles h s).loaded = s.loaded := rfl
@[simp] theorem forceToggles_wire (h : Nat) (s : State) : (forceToggles h s).wire = s.wire := rfl
@[simp] theorem forceToggles_inbox (h : Nat) (s : State) : (forceToggles h s).inbox = s.inbox := rfl

/-! advanceToggle writes eps only. -/

@[simp] theorem advanceToggle_cfg (h : Nat) (d : Dir) (s : State) : (advanceToggle h d s).cfg = s.cfg := rfl
@[simp] theorem advanceToggle_gie (h : Nat) (d : Dir) (s : State) : (advanceToggle h d s).gie = s.gie := rfl
@[simp] theorem advanceToggle_role (h : Nat) (d : Dir) (s : State) : (advanceToggle h d s).role = s.role := rfl
@[simp] theorem advanceToggle_initDone (h : Nat) (d : Dir) (s : State) : (advanceToggle h d s).initDone = s.initDone := rfl
@[simp] theorem advanceToggle_fatal (h : Nat) (d : Dir) (s : State) : (advanceToggle h d s).fatal = s.fatal := rfl
@[simp] theorem advanceToggle_intEn (h : Nat) (d : Dir) (s : State) : (advanceToggle h d s).intEn = s.intEn := rfl
@[simp] theorem advanceToggle_nakLimit (h : Nat) (d : Dir) (s : State) : (advanceToggle h d s).nakLimit = s.nakLimit := rfl
@[simp] theorem advanceToggle_arg0 (h : Nat) (d : Dir) (s : State) : (advanceToggle h d s).arg0 = s.arg0 := rfl
@[simp] theorem advanceToggle_result (h : Nat) (d : Dir) (s : State) : (advanceToggle h d s).result = s.result := rfl
@[simp] theorem advanceToggle_result2 (h : Nat) (d : Dir) (s : State) : (advanceToggle h d s).result2 = s.result2 := rfl
@[simp] theorem advanceToggle_chans (h : Nat) (d : Dir) (s : State) : (advanceToggle h d s).chans = s.chans := rfl
@[simp] theorem advanceToggle_arena (h : Nat) (d : Dir) (s : State) : (advanceToggle h d s).arena = s.arena := rfl
@[simp] theorem advanceToggle_evq (h : Nat) (d : Dir) (s : State) : (advanceToggle h d s).evq = s.evq := rfl
@[simp] theorem advanceToggle_mem (h : Nat) (d : Dir) (s : State) : (advanceToggle h d s).mem = s.mem := rfl
@[simp] theorem advanceToggle_rdata (h : Nat) (d : Dir) (s : State) : (advanceToggle h d s).rdata = s.rdata := rfl
@[simp] theorem advanceToggle_loaded (h : Nat) (d : Dir) (s : State) : (advanceToggle h d s).loaded = s.loaded := rfl
@[simp] theorem advanceToggle_wire (h : Nat) (d : Dir) (s : State) : (advanceToggle h d s).wire = s.wire := rfl
@[simp] theorem advanceToggle_inbox (h : Nat) (d : Dir) (s : State) : (advanceToggle h d s).inbox = s.inbox := rfl

/-! countPacket writes eps only. -/

@[simp] theorem countPacket_cfg (h : Nat) (d : Dir) (k : Nat) (s : State) : (countPacket h d k s).cfg = s.cfg := rfl
@[simp] theorem countPacket_gie (h : Nat) (d : Dir) (k : Nat) (s : State) : (countPacket h d k s).gie = s.gie := rfl
@[simp] theorem countPacket_role (h : Nat) (d : Dir) (k : Nat) (s : State) : (countPacket h d k s).role = s.role := rfl
@[simp] theorem countPacket_initDone (h : Nat) (d : Dir) (k : Nat) (s : State) : (countPacket h d k s).initDone = s.initDone := rfl
@[simp] theorem countPacket_fatal (h : Nat) (d : Dir) (k : Nat) (s : State) : (countPacket h d k s).fatal = s.fatal := rfl
@[simp] theorem countPacket_intEn (h : Nat) (d : Dir) (k : Nat) (s : State) : (countPacket h d k s).intEn = s.intEn := rfl
@[simp] theorem countPacket_nakLimit (h : Nat) (d : Dir) (k : Nat) (s : State) : (countPacket h d k s).nakLimit = s.nakLimit := rfl
@[simp] theorem countPacket_arg0 (h : Nat) (d : Dir) (k : Nat) (s : State) : (countPacket h d k s).arg0 = s.arg0 := rfl
@[simp] theorem countPacket_result (h : Nat) (d : Dir) (k : Nat) (s : State) : (countPacket h d k s).result = s.result := rfl
@[simp] theorem countPacket_result2 (h : Nat) (d : Dir) (k : Nat) (s : State) : (countPacket h d k s).result2 = s.result2 := rfl
@[simp] theorem countPacket_chans (h : Nat) (d : Dir) (k : Nat) (s : State) : (countPacket h d k s).chans = s.chans := rfl
@[simp] theorem countPacket_arena (h : Nat) (d : Dir) (k : Nat) (s : State) : (countPacket h d k s).arena = s.arena := rfl
@[simp] theorem countPacket_evq (h : Nat) (d : Dir) (k : Nat) (s : State) : (countPacket h d k s).evq = s.evq := rfl
@[simp] theorem countPacket_mem (h : Nat) (d : Dir) (k : Nat) (s : State) : (countPacket h d k s).mem = s.mem := rfl
@[simp] theorem countPacket_rdata (h : Nat) (d : Dir) (k : Nat) (s : State) : (countPacket h d k s).rdata = s.rdata := rfl
@[simp] theorem countPacket_loaded (h : Nat) (d : Dir) (k : Nat) (s : State) : (countPacket h d k s).loaded = s.loaded := rfl
@[simp] theorem countPacket_wire (h : Nat) (d : Dir) (k : Nat) (s : State) : (countPacket h d k s).wire = s.wire := rfl
@[simp] theorem countPacket_inbox (h : Nat) (d : Dir) (k : Nat) (s : State) : (countPacket h d k s).inbox = s.inbox := rfl

/-! duplicatePacket writes eps only. -/

@[simp] theorem duplicatePacket_cfg (h : Nat) (d : Dir) (s : State) : (duplicatePacket h d s).cfg = s.cfg := rfl
@[simp] theorem duplicatePacket_gie (h : Nat) (d : Dir) (s : State) : (duplicatePacket h d s).gie = s.gie := rfl
@[simp] theorem duplicatePacket_role (h : Nat) (d : Dir) (s : State) : (duplicatePacket h d s).role = s.role := rfl
@[simp] theorem duplicatePacket_initDone (h : Nat) (d : Dir) (s : State) : (duplicatePacket h d s).initDone = s.initDone := rfl
@[simp] theorem duplicatePacket_fatal (h : Nat) (d : Dir) (s : State) : (duplicatePacket h d s).fatal = s.fatal := rfl
@[simp] theorem duplicatePacket_intEn (h : Nat) (d : Dir) (s : State) : (duplicatePacket h d s).intEn = s.intEn := rfl
@[simp] theorem duplicatePacket_nakLimit (h : Nat) (d : Dir) (s : State) : (duplicatePacket h d s).nakLimit = s.nakLimit := rfl
@[simp] theorem duplicatePacket_arg0 (h : Nat) (d : Dir) (s : State) : (duplicatePacket h d s).arg0 = s.arg0 := rfl
@[simp] theorem duplicatePacket_result (h : Nat) (d : Dir) (s : State) : (duplicatePacket h d s).result = s.result := rfl
@[simp] theorem duplicatePacket_result2 (h : Nat) (d : Dir) (s : State) : (duplicatePacket h d s).result2 = s.result2 := rfl
@[simp] theorem duplicatePacket_chans (h : Nat) (d : Dir) (s : State) : (duplicatePacket h d s).chans = s.chans := rfl
@[simp] theorem duplicatePacket_arena (h : Nat) (d : Dir) (s : State) : (duplicatePacket h d s).arena = s.arena := rfl
@[simp] theorem duplicatePacket_evq (h : Nat) (d : Dir) (s : State) : (duplicatePacket h d s).evq = s.evq := rfl
@[simp] theorem duplicatePacket_mem (h : Nat) (d : Dir) (s : State) : (duplicatePacket h d s).mem = s.mem := rfl
@[simp] theorem duplicatePacket_rdata (h : Nat) (d : Dir) (s : State) : (duplicatePacket h d s).rdata = s.rdata := rfl
@[simp] theorem duplicatePacket_loaded (h : Nat) (d : Dir) (s : State) : (duplicatePacket h d s).loaded = s.loaded := rfl
@[simp] theorem duplicatePacket_wire (h : Nat) (d : Dir) (s : State) : (duplicatePacket h d s).wire = s.wire := rfl
@[simp] theorem duplicatePacket_inbox (h : Nat) (d : Dir) (s : State) : (duplicatePacket h d s).inbox = s.inbox := rfl

/-! claimEntry writes eps only. -/

@[simp] theorem claimEntry_cfg (h : Nat) (dev : BitVec 7) (num : BitVec 4) (s : State) : (claimEntry h dev num s).cfg = s.cfg := rfl
@[simp] theorem claimEntry_gie (h : Nat) (dev : BitVec 7) (num : BitVec 4) (s : State) : (claimEntry h dev num s).gie = s.gie := rfl
@[simp] theorem claimEntry_role (h : Nat) (dev : BitVec 7) (num : BitVec 4) (s : State) : (claimEntry h dev num s).role = s.role := rfl
@[simp] theorem claimEntry_initDone (h : Nat) (dev : BitVec 7) (num : BitVec 4) (s : State) : (claimEntry h dev num s).initDone = s.initDone := rfl
@[simp] theorem claimEntry_fatal (h : Nat) (dev : BitVec 7) (num : BitVec 4) (s : State) : (claimEntry h dev num s).fatal = s.fatal := rfl
@[simp] theorem claimEntry_intEn (h : Nat) (dev : BitVec 7) (num : BitVec 4) (s : State) : (claimEntry h dev num s).intEn = s.intEn := rfl
@[simp] theorem claimEntry_nakLimit (h : Nat) (dev : BitVec 7) (num : BitVec 4) (s : State) : (claimEntry h dev num s).nakLimit = s.nakLimit := rfl
@[simp] theorem claimEntry_arg0 (h : Nat) (dev : BitVec 7) (num : BitVec 4) (s : State) : (claimEntry h dev num s).arg0 = s.arg0 := rfl
@[simp] theorem claimEntry_result (h : Nat) (dev : BitVec 7) (num : BitVec 4) (s : State) : (claimEntry h dev num s).result = s.result := rfl
@[simp] theorem claimEntry_result2 (h : Nat) (dev : BitVec 7) (num : BitVec 4) (s : State) : (claimEntry h dev num s).result2 = s.result2 := rfl
@[simp] theorem claimEntry_chans (h : Nat) (dev : BitVec 7) (num : BitVec 4) (s : State) : (claimEntry h dev num s).chans = s.chans := rfl
@[simp] theorem claimEntry_arena (h : Nat) (dev : BitVec 7) (num : BitVec 4) (s : State) : (claimEntry h dev num s).arena = s.arena := rfl
@[simp] theorem claimEntry_evq (h : Nat) (dev : BitVec 7) (num : BitVec 4) (s : State) : (claimEntry h dev num s).evq = s.evq := rfl
@[simp] theorem claimEntry_mem (h : Nat) (dev : BitVec 7) (num : BitVec 4) (s : State) : (claimEntry h dev num s).mem = s.mem := rfl
@[simp] theorem claimEntry_rdata (h : Nat) (dev : BitVec 7) (num : BitVec 4) (s : State) : (claimEntry h dev num s).rdata = s.rdata := rfl
@[simp] theorem claimEntry_loaded (h : Nat) (dev : BitVec 7) (num : BitVec 4) (s : State) : (claimEntry h dev num s).loaded = s.loaded := rfl
@[simp] theorem claimEntry_wire (h : Nat) (dev : BitVec 7) (num : BitVec 4) (s : State) : (claimEntry h dev num s).wire = s.wire := rfl
@[simp] theorem claimEntry_inbox (h : Nat) (dev : BitVec 7) (num : BitVec 4) (s : State) : (claimEntry h dev num s).inbox = s.inbox := rfl

/-! loadTransfer writes eps only. -/

@[simp] theorem loadTransfer_cfg (setup zlp : Bool) (len : BitVec 16) (h : Nat) (d : Dir) (s : State) : (loadTransfer setup zlp len h d s).cfg = s.cfg := rfl
@[simp] theorem loadTransfer_gie (setup zlp : Bool) (len : BitVec 16) (h : Nat) (d : Dir) (s : State) : (loadTransfer setup zlp len h d s).gie = s.gie := rfl
@[simp] theorem loadTransfer_role (setup zlp : Bool) (len : BitVec 16) (h : Nat) (d : Dir) (s : State) : (loadTransfer setup zlp len h d s).role = s.role := rfl
@[simp] theorem loadTransfer_initDone (setup zlp : Bool) (len : BitVec 16) (h : Nat) (d : Dir) (s : State) : (loadTransfer setup zlp len h d s).initDone = s.initDone := rfl
@[simp] theorem loadTransfer_fatal (setup zlp : Bool) (len : BitVec 16) (h : Nat) (d : Dir) (s : State) : (loadTransfer setup zlp len h d s).fatal = s.fatal := rfl
@[simp] theorem loadTransfer_intEn (setup zlp : Bool) (len : BitVec 16) (h : Nat) (d : Dir) (s : State) : (loadTransfer setup zlp len h d s).intEn = s.intEn := rfl
@[simp] theorem loadTransfer_nakLimit (setup zlp : Bool) (len : BitVec 16) (h : Nat) (d : Dir) (s : State) : (loadTransfer setup zlp len h d s).nakLimit = s.nakLimit := rfl
@[simp] theorem loadTransfer_arg0 (setup zlp : Bool) (len : BitVec 16) (h : Nat) (d : Dir) (s : State) : (loadTransfer setup zlp len h d s).arg0 = s.arg0 := rfl
@[simp] theorem loadTransfer_result (setup zlp : Bool) (len : BitVec 16) (h : Nat) (d : Dir) (s : State) : (loadTransfer setup zlp len h d s).result = s.result := rfl
@[simp] theorem loadTransfer_result2 (setup zlp : Bool) (len : BitVec 16) (h : Nat) (d : Dir) (s : State) : (loadTransfer setup zlp len h d s).result2 = s.result2 := rfl
@[simp] theorem loadTransfer_chans (setup zlp : Bool) (len : BitVec 16) (h : Nat) (d : Dir) (s : State) : (loadTransfer setup zlp len h d s).chans = s.chans := rfl
@[simp] theorem loadTransfer_arena (setup zlp : Bool) (len : BitVec 16) (h : Nat) (d : Dir) (s : State) : (loadTransfer setup zlp len h d s).arena = s.arena := rfl
@[simp] theorem loadTransfer_evq (setup zlp : Bool) (len : BitVec 16) (h : Nat) (d : Dir) (s : State) : (loadTransfer setup zlp len h d s).evq = s.evq := rfl
@[simp] theorem loadTransfer_mem (setup zlp : Bool) (len : BitVec 16) (h : Nat) (d : Dir) (s : State) : (loadTransfer setup zlp len h d s).mem = s.mem := rfl
@[simp] theorem loadTransfer_rdata (setup zlp : Bool) (len : BitVec 16) (h : Nat) (d : Dir) (s : State) : (loadTransfer setup zlp len h d s).rdata = s.rdata := rfl
@[simp] theorem loadTransfer_loaded (setup zlp : Bool) (len : BitVec 16) (h : Nat) (d : Dir) (s : State) : (loadTransfer setup zlp len h d s).loaded = s.loaded := rfl
@[simp] theorem loadTransfer_wire (setup zlp : Bool) (len : BitVec 16) (h : Nat) (d : Dir) (s : State) : (loadTransfer setup zlp len h d s).wire = s.wire := rfl
@[simp] theorem loadTransfer_inbox (setup zlp : Bool) (len : BitVec 16) (h : Nat) (d : Dir) (s : State) : (loadTransfer setup zlp len h d s).inbox = s.inbox := rfl

/-! setChan writes chans only. -/

@[simp] theorem setChan_cfg (c : Nat) (x : Channel) (s : State) : (setChan c x s).cfg = s.cfg := rfl
@[simp] theorem setChan_gie (c : Nat) (x : Channel) (s : State) : (setChan c x s).gie = s.gie := rfl
@[simp] theorem setChan_role (c : Nat) (x : Channel) (s : State) : (setChan c x s).role = s.role := rfl
@[simp] theorem setChan_initDone (c : Nat) (x : Channel) (s : State) : (setChan c x s).initDone = s.initDone := rfl
@[simp] theorem setChan_fatal (c : Nat) (x : Channel) (s : State) : (setChan c x s).fatal = s.fatal := rfl
@[simp] theorem setChan_intEn (c : Nat) (x : Channel) (s : State) : (setChan c x s).intEn = s.intEn := rfl
@[simp] theorem setChan_nakLimit (c : Nat) (x : Channel) (s : State) : (setChan c x s).nakLimit = s.nakLimit := rfl
@[simp] theorem setChan_arg0 (c : Nat) (x : Channel) (s : State) : (setChan c x s).arg0 = s.arg0 := rfl
@[simp] theorem setChan_result (c : Nat) (x : Channel) (s : State) : (setChan c x s).result = s.result := rfl
@[simp] theorem setChan_result2 (c : Nat) (x : Channel) (s : State) : (setChan c x s).result2 = s.result2 := rfl
@[simp] theorem setChan_eps (c : Nat) (x : Channel) (s : State) : (setChan c x s).eps = s.eps := rfl
@[simp] theorem setChan_arena (c : Nat) (x : Channel) (s : State) : (setChan c x s).arena = s.arena := rfl
@[simp] theorem setChan_evq (c : Nat) (x : Channel) (s : State) : (setChan c x s).evq = s.evq := rfl
@[simp] theorem setChan_mem (c : Nat) (x : Channel) (s : State) : (setChan c x s).mem = s.mem := rfl
@[simp] theorem setChan_rdata (c : Nat) (x : Channel) (s : State) : (setChan c x s).rdata = s.rdata := rfl
@[simp] theorem setChan_loaded (c : Nat) (x : Channel) (s : State) : (setChan c x s).loaded = s.loaded := rfl
@[simp] theorem setChan_wire (c : Nat) (x : Channel) (s : State) : (setChan c x s).wire = s.wire := rfl
@[simp] theorem setChan_inbox (c : Nat) (x : Channel) (s : State) : (setChan c x s).inbox = s.inbox := rfl

/-! modSlot writes chans only. -/

@[simp] theorem modSlot_cfg (c : Nat) (d : Dir) (f : Slot → Slot) (s : State) : (modSlot c d f s).cfg = s.cfg := rfl
@[simp] theorem modSlot_gie (c : Nat) (d : Dir) (f : Slot → Slot) (s : State) : (modSlot c d f s).gie = s.gie := rfl
@[simp] theorem modSlot_role (c : Nat) (d : Dir) (f : Slot → Slot) (s : State) : (modSlot c d f s).role = s.role := rfl
@[simp] theorem modSlot_initDone (c : Nat) (d : Dir) (f : Slot → Slot) (s : State) : (modSlot c d f s).initDone = s.initDone := rfl
@[simp] theorem modSlot_fatal (c : Nat) (d : Dir) (f : Slot → Slot) (s : State) : (modSlot c d f s).fatal = s.fatal := rfl
@[simp] theorem modSlot_intEn (c : Nat) (d : Dir) (f : Slot → Slot) (s : State) : (modSlot c d f s).intEn = s.intEn := rfl
@[simp] theorem modSlot_nakLimit (c : Nat) (d : Dir) (f : Slot → Slot) (s : State) : (modSlot c d f s).nakLimit = s.nakLimit := rfl
@[simp] theorem modSlot_arg0 (c : Nat) (d : Dir) (f : Slot → Slot) (s : State) : (modSlot c d f s).arg0 = s.arg0 := rfl
@[simp] theorem modSlot_result (c : Nat) (d : Dir) (f : Slot → Slot) (s : State) : (modSlot c d f s).result = s.result := rfl
@[simp] theorem modSlot_result2 (c : Nat) (d : Dir) (f : Slot → Slot) (s : State) : (modSlot c d f s).result2 = s.result2 := rfl
@[simp] theorem modSlot_eps (c : Nat) (d : Dir) (f : Slot → Slot) (s : State) : (modSlot c d f s).eps = s.eps := rfl
@[simp] theorem modSlot_arena (c : Nat) (d : Dir) (f : Slot → Slot) (s : State) : (modSlot c d f s).arena = s.arena := rfl
@[simp] theorem modSlot_evq (c : Nat) (d : Dir) (f : Slot → Slot) (s : State) : (modSlot c d f s).evq = s.evq := rfl
@[simp] theorem modSlot_mem (c : Nat) (d : Dir) (f : Slot → Slot) (s : State) : (modSlot c d f s).mem = s.mem := rfl
@[simp] theorem modSlot_rdata (c : Nat) (d : Dir) (f : Slot → Slot) (s : State) : (modSlot c d f s).rdata = s.rdata := rfl
@[simp] theorem modSlot_loaded (c : Nat) (d : Dir) (f : Slot → Slot) (s : State) : (modSlot c d f s).loaded = s.loaded := rfl
@[simp] theorem modSlot_wire (c : Nat) (d : Dir) (f : Slot → Slot) (s : State) : (modSlot c d f s).wire = s.wire := rfl
@[simp] theorem modSlot_inbox (c : Nat) (d : Dir) (f : Slot → Slot) (s : State) : (modSlot c d f s).inbox = s.inbox := rfl

/-! setValid writes chans only. -/

@[simp] theorem setValid_cfg (c : Nat) (d : Dir) (v : Bool) (s : State) : (setValid c d v s).cfg = s.cfg := rfl
@[simp] theorem setValid_gie (c : Nat) (d : Dir) (v : Bool) (s : State) : (setValid c d v s).gie = s.gie := rfl
@[simp] theorem setValid_role (c : Nat) (d : Dir) (v : Bool) (s : State) : (setValid c d v s).role = s.role := rfl
@[simp] theorem setValid_initDone (c : Nat) (d : Dir) (v : Bool) (s : State) : (setValid c d v s).initDone = s.initDone := rfl
@[simp] theorem setValid_fatal (c : Nat) (d : Dir) (v : Bool) (s : State) : (setValid c d v s).fatal = s.fatal := rfl
@[simp] theorem setValid_intEn (c : Nat) (d : Dir) (v : Bool) (s : State) : (setValid c d v s).intEn = s.intEn := rfl
@[simp] theorem setValid_nakLimit (c : Nat) (d : Dir) (v : Bool) (s : State) : (setValid c d v s).nakLimit = s.nakLimit := rfl
@[simp] theorem setValid_arg0 (c : Nat) (d : Dir) (v : Bool) (s : State) : (setValid c d v s).arg0 = s.arg0 := rfl
@[simp] theorem setValid_result (c : Nat) (d : Dir) (v : Bool) (s : State) : (setValid c d v s).result = s.result := rfl
@[simp] theorem setValid_result2 (c : Nat) (d : Dir) (v : Bool) (s : State) : (setValid c d v s).result2 = s.result2 := rfl
@[simp] theorem setValid_eps (c : Nat) (d : Dir) (v : Bool) (s : State) : (setValid c d v s).eps = s.eps := rfl
@[simp] theorem setValid_arena (c : Nat) (d : Dir) (v : Bool) (s : State) : (setValid c d v s).arena = s.arena := rfl
@[simp] theorem setValid_evq (c : Nat) (d : Dir) (v : Bool) (s : State) : (setValid c d v s).evq = s.evq := rfl
@[simp] theorem setValid_mem (c : Nat) (d : Dir) (v : Bool) (s : State) : (setValid c d v s).mem = s.mem := rfl
@[simp] theorem setValid_rdata (c : Nat) (d : Dir) (v : Bool) (s : State) : (setValid c d v s).rdata = s.rdata := rfl
@[simp] theorem setValid_loaded (c : Nat) (d : Dir) (v : Bool) (s : State) : (setValid c d v s).loaded = s.loaded := rfl
@[simp] theorem setValid_wire (c : Nat) (d : Dir) (v : Bool) (s : State) : (setValid c d v s).wire = s.wire := rfl
@[simp] theorem setValid_inbox (c : Nat) (d : Dir) (v : Bool) (s : State) : (setValid c d v s).inbox = s.inbox := rfl

/-! setCnt writes chans only. -/

@[simp] theorem setCnt_cfg (c : Nat) (d : Dir) (n : Nat) (s : State) : (setCnt c d n s).cfg = s.cfg := rfl
@[simp] theorem setCnt_gie (c : Nat) (d : Dir) (n : Nat) (s : State) : (setCnt c d n s).gie = s.gie := rfl
@[simp] theorem setCnt_role (c : Nat) (d : Dir) (n : Nat) (s : State) : (setCnt c d n s).role = s.role := rfl
@[simp] theorem setCnt_initDone (c : Nat) (d : Dir) (n : Nat) (s : State) : (setCnt c d n s).initDone = s.initDone := rfl
@[simp] theorem setCnt_fatal (c : Nat) (d : Dir) (n : Nat) (s : State) : (setCnt c d n s).fatal = s.fatal := rfl
@[simp] theorem setCnt_intEn (c : Nat) (d : Dir) (n : Nat) (s : State) : (setCnt c d n s).intEn = s.intEn := rfl
@[simp] theorem setCnt_nakLimit (c : Nat) (d : Dir) (n : Nat) (s : State) : (setCnt c d n s).nakLimit = s.nakLimit := rfl
@[simp] theorem setCnt_arg0 (c : Nat) (d : Dir) (n : Nat) (s : State) : (setCnt c d n s).arg0 = s.arg0 := rfl
@[simp] theorem setCnt_result (c : Nat) (d : Dir) (n : Nat) (s : State) : (setCnt c d n s).result = s.result := rfl
@[simp] theorem setCnt_result2 (c : Nat) (d : Dir) (n : Nat) (s : State) : (setCnt c d n s).result2 = s.result2 := rfl
@[simp] theorem setCnt_eps (c : Nat) (d : Dir) (n : Nat) (s : State) : (setCnt c d n s).eps = s.eps := rfl
@[simp] theorem setCnt_arena (c : Nat) (d : Dir) (n : Nat) (s : State) : (setCnt c d n s).arena = s.arena := rfl
@[simp] theorem setCnt_evq (c : Nat) (d : Dir) (n : Nat) (s : State) : (setCnt c d n s).evq = s.evq := rfl
@[simp] theorem setCnt_mem (c : Nat) (d : Dir) (n : Nat) (s : State) : (setCnt c d n s).mem = s.mem := rfl
@[simp] theorem setCnt_rdata (c : Nat) (d : Dir) (n : Nat) (s : State) : (setCnt c d n s).rdata = s.rdata := rfl
@[simp] theorem setCnt_loaded (c : Nat) (d : Dir) (n : Nat) (s : State) : (setCnt c d n s).loaded = s.loaded := rfl
@[simp] theorem setCnt_wire (c : Nat) (d : Dir) (n : Nat) (s : State) : (setCnt c d n s).wire = s.wire := rfl
@[simp] theorem setCnt_inbox (c : Nat) (d : Dir) (n : Nat) (s : State) : (setCnt c d n s).inbox = s.inbox := rfl

/-! armReceive writes chans only. -/

@[simp] theorem armReceive_cfg (h : Nat) (d : Dir) (s : State) : (armReceive h d s).cfg = s.cfg := rfl
@[simp] theorem armReceive_gie (h : Nat) (d : Dir) (s : State) : (armReceive h d s).gie = s.gie := rfl
@[simp] theorem armReceive_role (h : Nat) (d : Dir) (s : State) : (armReceive h d s).role = s.role := rfl
@[simp] theorem armReceive_initDone (h : Nat) (d : Dir) (s : State) : (armReceive h d s).initDone = s.initDone := rfl
@[simp] theorem armReceive_fatal (h : Nat) (d : Dir) (s : State) : (armReceive h d s).fatal = s.fatal := rfl
@[simp] theorem armReceive_intEn (h : Nat) (d : Dir) (s : State) : (armReceive h d s).intEn = s.intEn := rfl
@[simp] theorem armReceive_nakLimit (h : Nat) (d : Dir) (s : State) : (armReceive h d s).nakLimit = s.nakLimit := rfl
@[simp] theorem armReceive_arg0 (h : Nat) (d : Dir) (s : State) : (armReceive h d s).arg0 = s.arg0 := rfl
@[simp] theorem armReceive_result (h : Nat) (d : Dir) (s : State) : (armReceive h d s).result = s.result := rfl
@[simp] theorem armReceive_result2 (h : Nat) (d : Dir) (s : State) : (armReceive h d s).result2 = s.result2 := rfl
@[simp] theorem armReceive_eps (h : Nat) (d : Dir) (s : State) : (armReceive h d s).eps = s.eps := rfl
@[simp] theorem armReceive_arena (h : Nat) (d : Dir) (s : State) : (armReceive h d s).arena = s.arena := rfl
@[simp] theorem armReceive_evq (h : Nat) (d : Dir) (s : State) : (armReceive h d s).evq = s.evq := rfl
@[simp] theorem armReceive_mem (h : Nat) (d : Dir) (s : State) : (armReceive h d s).mem = s.mem := rfl
@[simp] theorem armReceive_rdata (h : Nat) (d : Dir) (s : State) : (armReceive h d s).rdata = s.rdata := rfl
@[simp] theorem armReceive_loaded (h : Nat) (d : Dir) (s : State) : (armReceive h d s).loaded = s.loaded := rfl
@[simp] theorem armReceive_wire (h : Nat) (d : Dir) (s : State) : (armReceive h d s).wire = s.wire := rfl
@[simp] theorem armReceive_inbox (h : Nat) (d : Dir) (s : State) : (armReceive h d s).inbox = s.inbox := rfl

/-! bindSlot writes eps, chans only. -/

@[simp] theorem bindSlot_cfg (c : Nat) (d : Dir) (h : Nat) (dev : BitVec 7) (num : BitVec 4) (o size : Nat) (s : State) : (bindSlot c d h dev num o size s).cfg = s.cfg := rfl
@[simp] theorem bindSlot_gie (c : Nat) (d : Dir) (h : Nat) (dev : BitVec 7) (num : BitVec 4) (o size : Nat) (s : State) : (bindSlot c d h dev num o size s).gie = s.gie := rfl
@[simp] theorem bindSlot_role (c : Nat) (d : Dir) (h : Nat) (dev : BitVec 7) (num : BitVec 4) (o size : Nat) (s : State) : (bindSlot c d h dev num o size s).role = s.role := rfl
@[simp] theorem bindSlot_initDone (c : Nat) (d : Dir) (h : Nat) (dev : BitVec 7) (num : BitVec 4) (o size : Nat) (s : State) : (bindSlot c d h dev num o size s).initDone = s.initDone := rfl
@[simp] theorem bindSlot_fatal (c : Nat) (d : Dir) (h : Nat) (dev : BitVec 7) (num : BitVec 4) (o size : Nat) (s : State) : (bindSlot c d h dev num o size s).fatal = s.fatal := rfl
@[simp] theorem bindSlot_intEn (c : Nat) (d : Dir) (h : Nat) (dev : BitVec 7) (num : BitVec 4) (o size : Nat) (s : State) : (bindSlot c d h dev num o size s).intEn = s.intEn := rfl
@[simp] theorem bindSlot_nakLimit (c : Nat) (d : Dir) (h : Nat) (dev : BitVec 7) (num : BitVec 4) (o size : Nat) (s : State) : (bindSlot c d h dev num o size s).nakLimit = s.nakLimit := rfl
@[simp] theorem bindSlot_arg0 (c : Nat) (d : Dir) (h : Nat) (dev : BitVec 7) (num : BitVec 4) (o size : Nat) (s : State) : (bindSlot c d h dev num o size s).arg0 = s.arg0 := rfl
@[simp] theorem bindSlot_result (c : Nat) (d : Dir) (h : Nat) (dev : BitVec 7) (num : BitVec 4) (o size : Nat) (s : State) : (bindSlot c d h dev num o size s).result = s.result := rfl
@[simp] theorem bindSlot_result2 (c : Nat) (d : Dir) (h : Nat) (dev : BitVec 7) (num : BitVec 4) (o size : Nat) (s : State) : (bindSlot c d h dev num o size s).result2 = s.result2 := rfl
@[simp] theorem bindSlot_arena (c : Nat) (d : Dir) (h : Nat) (dev : BitVec 7) (num : BitVec 4) (o size : Nat) (s : State) : (bindSlot c d h dev num o size s).arena = s.arena := rfl
@[simp] theorem bindSlot_evq (c : Nat) (d : Dir) (h : Nat) (dev : BitVec 7) (num : BitVec 4) (o size : Nat) (s : State) : (bindSlot c d h dev num o size s).evq = s.evq := rfl
@[simp] theorem bindSlot_mem (c : Nat) (d : Dir) (h : Nat) (dev : BitVec 7) (num : BitVec 4) (o size : Nat) (s : State) : (bindSlot c d h dev num o size s).mem = s.mem := rfl
@[simp] theorem bindSlot_rdata (c : Nat) (d : Dir) (h : Nat) (dev : BitVec 7) (num : BitVec 4) (o size : Nat) (s : State) : (bindSlot c d h dev num o size s).rdata = s.rdata := rfl
@[simp] theorem bindSlot_loaded (c : Nat) (d : Dir) (h : Nat) (dev : BitVec 7) (num : BitVec 4) (o size : Nat) (s : State) : (bindSlot c d h dev num o size s).loaded = s.loaded := rfl
@[simp] theorem bindSlot_wire (c : Nat) (d : Dir) (h : Nat) (dev : BitVec 7) (num : BitVec 4) (o size : Nat) (s : State) : (bindSlot c d h dev num o size s).wire = s.wire := rfl
@[simp] theorem bindSlot_inbox (c : Nat) (d : Dir) (h : Nat) (dev : BitVec 7) (num : BitVec 4) (o size : Nat) (s : State) : (bindSlot c d h dev num o size s).inbox = s.inbox := rfl

/-! periodicNak writes eps, chans only. -/

@[simp] theorem periodicNak_cfg (h : Nat) (d : Dir) (s : State) : (periodicNak h d s).cfg = s.cfg := rfl
@[simp] theorem periodicNak_gie (h : Nat) (d : Dir) (s : State) : (periodicNak h d s).gie = s.gie := rfl
@[simp] theorem periodicNak_role (h : Nat) (d : Dir) (s : State) : (periodicNak h d s).role = s.role := rfl
@[simp] theorem periodicNak_initDone (h : Nat) (d : Dir) (s : State) : (periodicNak h d s).initDone = s.initDone := rfl
@[simp] theorem periodicNak_fatal (h : Nat) (d : Dir) (s : State) : (periodicNak h d s).fatal = s.fatal := rfl
@[simp] theorem periodicNak_intEn (h : Nat) (d : Dir) (s : State) : (periodicNak h d s).intEn = s.intEn := rfl
@[simp] theorem periodicNak_nakLimit (h : Nat) (d : Dir) (s : State) : (periodicNak h d s).nakLimit = s.nakLimit := rfl
@[simp] theorem periodicNak_arg0 (h : Nat) (d : Dir) (s : State) : (periodicNak h d s).arg0 = s.arg0 := rfl
@[simp] theorem periodicNak_result (h : Nat) (d : Dir) (s : State) : (periodicNak h d s).result = s.result := rfl
@[simp] theorem periodicNak_result2 (h : Nat) (d : Dir) (s : State) : (periodicNak h d s).result2 = s.result2 := rfl
@[simp] theorem periodicNak_arena (h : Nat) (d : Dir) (s : State) : (periodicNak h d s).arena = s.arena := rfl
@[simp] theorem periodicNak_evq (h : Nat) (d : Dir) (s : State) : (periodicNak h d s).evq = s.evq := rfl
@[simp] theorem periodicNak_mem (h : Nat) (d : Dir) (s : State) : (periodicNak h d s).mem = s.mem := rfl
@[simp] theorem periodicNak_rdata (h : Nat) (d : Dir) (s : State) : (periodicNak h d s).rdata = s.rdata := rfl
@[simp] theorem periodicNak_loaded (h : Nat) (d : Dir) (s : State) : (periodicNak h d s).loaded = s.loaded := rfl
@[simp] theorem periodicNak_wire (h : Nat) (d : Dir) (s : State) : (periodicNak h d s).wire = s.wire := rfl
@[simp] theorem periodicNak_inbox (h : Nat) (d : Dir) (s : State) : (periodicNak h d s).inbox = s.inbox := rfl

/-! push writes evq only. -/

@[simp] theorem push_cfg (w : Word) (s : State) : (push w s).cfg = s.cfg := rfl
@[simp] theorem push_gie (w : Word) (s : State) : (push w s).gie = s.gie := rfl
@[simp] theorem push_role (w : Word) (s : State) : (push w s).role = s.role := rfl
@[simp] theorem push_initDone (w : Word) (s : State) : (push w s).initDone = s.initDone := rfl
@[simp] theorem push_fatal (w : Word) (s : State) : (push w s).fatal = s.fatal := rfl
@[simp] theorem push_intEn (w : Word) (s : State) : (push w s).intEn = s.intEn := rfl
@[simp] theorem push_nakLimit (w : Word) (s : State) : (push w s).nakLimit = s.nakLimit := rfl
@[simp] theorem push_arg0 (w : Word) (s : State) : (push w s).arg0 = s.arg0 := rfl
@[simp] theorem push_result (w : Word) (s : State) : (push w s).result = s.result := rfl
@[simp] theorem push_result2 (w : Word) (s : State) : (push w s).result2 = s.result2 := rfl
@[simp] theorem push_eps (w : Word) (s : State) : (push w s).eps = s.eps := rfl
@[simp] theorem push_chans (w : Word) (s : State) : (push w s).chans = s.chans := rfl
@[simp] theorem push_arena (w : Word) (s : State) : (push w s).arena = s.arena := rfl
@[simp] theorem push_mem (w : Word) (s : State) : (push w s).mem = s.mem := rfl
@[simp] theorem push_rdata (w : Word) (s : State) : (push w s).rdata = s.rdata := rfl
@[simp] theorem push_loaded (w : Word) (s : State) : (push w s).loaded = s.loaded := rfl
@[simp] theorem push_wire (w : Word) (s : State) : (push w s).wire = s.wire := rfl
@[simp] theorem push_inbox (w : Word) (s : State) : (push w s).inbox = s.inbox := rfl

/-! reject writes result, result2 only. -/

@[simp] theorem reject_cfg (code : Status) (s : State) : (reject code s).cfg = s.cfg := rfl
@[simp] theorem reject_gie (code : Status) (s : State) : (reject code s).gie = s.gie := rfl
@[simp] theorem reject_role (code : Status) (s : State) : (reject code s).role = s.role := rfl
@[simp] theorem reject_initDone (code : Status) (s : State) : (reject code s).initDone = s.initDone := rfl
@[simp] theorem reject_fatal (code : Status) (s : State) : (reject code s).fatal = s.fatal := rfl
@[simp] theorem reject_intEn (code : Status) (s : State) : (reject code s).intEn = s.intEn := rfl
@[simp] theorem reject_nakLimit (code : Status) (s : State) : (reject code s).nakLimit = s.nakLimit := rfl
@[simp] theorem reject_arg0 (code : Status) (s : State) : (reject code s).arg0 = s.arg0 := rfl
@[simp] theorem reject_eps (code : Status) (s : State) : (reject code s).eps = s.eps := rfl
@[simp] theorem reject_chans (code : Status) (s : State) : (reject code s).chans = s.chans := rfl
@[simp] theorem reject_arena (code : Status) (s : State) : (reject code s).arena = s.arena := rfl
@[simp] theorem reject_evq (code : Status) (s : State) : (reject code s).evq = s.evq := rfl
@[simp] theorem reject_mem (code : Status) (s : State) : (reject code s).mem = s.mem := rfl
@[simp] theorem reject_rdata (code : Status) (s : State) : (reject code s).rdata = s.rdata := rfl
@[simp] theorem reject_loaded (code : Status) (s : State) : (reject code s).loaded = s.loaded := rfl
@[simp] theorem reject_wire (code : Status) (s : State) : (reject code s).wire = s.wire := rfl
@[simp] theorem reject_inbox (code : Status) (s : State) : (reject code s).inbox = s.inbox := rfl

/-! accept writes result, result2 only. -/

@[simp] theorem accept_cfg (s : State) : (accept s).cfg = s.cfg := rfl
@[simp] theorem accept_gie (s : State) : (accept s).gie = s.gie := rfl
@[simp] theorem accept_role (s : State) : (accept s).role = s.role := rfl
@[simp] theorem accept_initDone (s : State) : (accept s).initDone = s.initDone := rfl
@[simp] theorem accept_fatal (s : State) : (accept s).fatal = s.fatal := rfl
@[simp] theorem accept_intEn (s : State) : (accept s).intEn = s.intEn := rfl
@[simp] theorem accept_nakLimit (s : State) : (accept s).nakLimit = s.nakLimit := rfl
@[simp] theorem accept_arg0 (s : State) : (accept s).arg0 = s.arg0 := rfl
@[simp] theorem accept_eps (s : State) : (accept s).eps = s.eps := rfl
@[simp] theorem accept_chans (s : State) : (accept s).chans = s.chans := rfl
@[simp] theorem accept_arena (s : State) : (accept s).arena = s.arena := rfl
@[simp] theorem accept_evq (s : State) : (accept s).evq = s.evq := rfl
@[simp] theorem accept_mem (s : State) : (accept s).mem = s.mem := rfl
@[simp] theorem accept_rdata (s : State) : (accept s).rdata = s.rdata := rfl
@[simp] theorem accept_loaded (s : State) : (accept s).loaded = s.loaded := rfl
@[simp] theorem accept_wire (s : State) : (accept s).wire = s.wire := rfl
@[simp] theorem accept_inbox (s : State) : (accept s).inbox = s.inbox := rfl

/-! acceptHandle writes result, result2 only. -/

@[simp] theorem acceptHandle_cfg (h : Nat) (s : State) : (acceptHandle h s).cfg = s.cfg := rfl
@[simp] theorem acceptHandle_gie (h : Nat) (s : State) : (acceptHandle h s).gie = s.gie := rfl
@[simp] theorem acceptHandle_role (h : Nat) (s : State) : (acceptHandle h s).role = s.role := rfl
@[simp] theorem acceptHandle_initDone (h : Nat) (s : State) : (acceptHandle h s).initDone = s.initDone := rfl
@[simp] theorem acceptHandle_fatal (h : Nat) (s : State) : (acceptHandle h s).fatal = s.fatal := rfl
@[simp] theorem acceptHandle_intEn (h : Nat) (s : State) : (acceptHandle h s).intEn = s.intEn := rfl
@[simp] theorem acceptHandle_nakLimit (h : Nat) (s : State) : (acceptHandle h s).nakLimit = s.nakLimit := rfl
@[simp] theorem acceptHandle_arg0 (h : Nat) (s : State) : (acceptHandle h s).arg0 = s.arg0 := rfl
@[simp] theorem acceptHandle_eps (h : Nat) (s : State) : (acceptHandle h s).eps = s.eps := rfl
@[simp] theorem acceptHandle_chans (h : Nat) (s : State) : (acceptHandle h s).chans = s.chans := rfl
@[simp] theorem acceptHandle_arena (h : Nat) (s : State) : (acceptHandle h s).arena = s.arena := rfl
@[simp] theorem acceptHandle_evq (h : Nat) (s : State) : (acceptHandle h s).evq = s.evq := rfl
@[simp] theorem acceptHandle_mem (h : Nat) (s : State) : (acceptHandle h s).mem = s.mem := rfl
@[simp] theorem acceptHandle_rdata (h : Nat) (s : State) : (acceptHandle h s).rdata = s.rdata := rfl
@[simp] theorem acceptHandle_loaded (h : Nat) (s : State) : (acceptHandle h s).loaded = s.loaded := rfl
@[simp] theorem acceptHandle_wire (h : Nat) (s : State) : (acceptHandle h s).wire = s.wire := rfl
@[simp] theorem acceptHandle_inbox (h : Nat) (s : State) : (acceptHandle h s).inbox = s.inbox := rfl

/-! returnRead writes rdata only. -/

@[simp] theorem returnRead_cfg (v : Word) (s : State) : (returnRead v s).cfg = s.cfg := rfl
@[simp] theorem returnRead_gie (v : Word) (s : State) : (returnRead v s).gie = s.gie := rfl
@[simp] theorem returnRead_role (v : Word) (s : State) : (returnRead v s).role = s.role := rfl
@[simp] theorem returnRead_initDone (v : Word) (s : State) : (returnRead v s).initDone = s.initDone := rfl
@[simp] theorem returnRead_fatal (v : Word) (s : State) : (returnRead v s).fatal = s.fatal := rfl
@[simp] theorem returnRead_intEn (v : Word) (s : State) : (returnRead v s).intEn = s.intEn := rfl
@[simp] theorem returnRead_nakLimit (v : Word) (s : State) : (returnRead v s).nakLimit = s.nakLimit := rfl
@[simp] theorem returnRead_arg0 (v : Word) (s : State) : (returnRead v s).arg0 = s.arg0 := rfl
@[simp] theorem returnRead_result (v : Word) (s : State) : (returnRead v s).result = s.result := rfl
@[simp] theorem returnRead_result2 (v : Word) (s : State) : (returnRead v s).result2 = s.result2 := rfl
@[simp] theorem returnRead_eps (v : Word) (s : State) : (returnRead v s).eps = s.eps := rfl
@[simp] theorem returnRead_chans (v : Word) (s : State) : (returnRead v s).chans = s.chans := rfl
@[simp] theorem returnRead_arena (v : Word) (s : State) : (returnRead v s).arena = s.arena := rfl
@[simp] theorem returnRead_evq (v : Word) (s : State) : (returnRead v s).evq = s.evq := rfl
@[simp] theorem returnRead_mem (v : Word) (s : State) : (returnRead v s).mem = s.mem := rfl
@[simp] theorem returnRead_loaded (v : Word) (s : State) : (returnRead v s).loaded = s.loaded := rfl
@[simp] theorem returnRead_wire (v : Word) (s : State) : (returnRead v s).wire = s.wire := rfl
@[simp] theorem returnRead_inbox (v : Word) (s : State) : (returnRead v s).inbox = s.inbox := rfl

/-! cpuStore writes mem only. -/

@[simp] theorem cpuStore_cfg (cells : List (Word × Byte)) (s : State) : (cpuStore cells s).cfg = s.cfg := rfl
@[simp] theorem cpuStore_gie (cells : List (Word × Byte)) (s : State) : (cpuStore cells s).gie = s.gie := rfl
@[simp] theorem cpuStore_role (cells : List (Word × Byte)) (s : State) : (cpuStore cells s).role = s.role := rfl
@[simp] theorem cpuStore_initDone (cells : List (Word × Byte)) (s : State) : (cpuStore cells s).initDone = s.initDone := rfl
@[simp] theorem cpuStore_fatal (cells : List (Word × Byte)) (s : State) : (cpuStore cells s).fatal = s.fatal := rfl
@[simp] theorem cpuStore_intEn (cells : List (Word × Byte)) (s : State) : (cpuStore cells s).intEn = s.intEn := rfl
@[simp] theorem cpuStore_nakLimit (cells : List (Word × Byte)) (s : State) : (cpuStore cells s).nakLimit = s.nakLimit := rfl
@[simp] theorem cpuStore_arg0 (cells : List (Word × Byte)) (s : State) : (cpuStore cells s).arg0 = s.arg0 := rfl
@[simp] theorem cpuStore_result (cells : List (Word × Byte)) (s : State) : (cpuStore cells s).result = s.result := rfl
@[simp] theorem cpuStore_result2 (cells : List (Word × Byte)) (s : State) : (cpuStore cells s).result2 = s.result2 := rfl
@[simp] theorem cpuStore_eps (cells : List (Word × Byte)) (s : State) : (cpuStore cells s).eps = s.eps := rfl
@[simp] theorem cpuStore_chans (cells : List (Word × Byte)) (s : State) : (cpuStore cells s).chans = s.chans := rfl
@[simp] theorem cpuStore_arena (cells : List (Word × Byte)) (s : State) : (cpuStore cells s).arena = s.arena := rfl
@[simp] theorem cpuStore_evq (cells : List (Word × Byte)) (s : State) : (cpuStore cells s).evq = s.evq := rfl
@[simp] theorem cpuStore_rdata (cells : List (Word × Byte)) (s : State) : (cpuStore cells s).rdata = s.rdata := rfl
@[simp] theorem cpuStore_loaded (cells : List (Word × Byte)) (s : State) : (cpuStore cells s).loaded = s.loaded := rfl
@[simp] theorem cpuStore_wire (cells : List (Word × Byte)) (s : State) : (cpuStore cells s).wire = s.wire := rfl
@[simp] theorem cpuStore_inbox (cells : List (Word × Byte)) (s : State) : (cpuStore cells s).inbox = s.inbox := rfl

/-! cpuLoad writes loaded only. -/

@[simp] theorem cpuLoad_cfg (addrs : List Word) (s : State) : (cpuLoad addrs s).cfg = s.cfg := rfl
@[simp] theorem cpuLoad_gie (addrs : List Word) (s : State) : (cpuLoad addrs s).gie = s.gie := rfl
@[simp] theorem cpuLoad_role (addrs : List Word) (s : State) : (cpuLoad addrs s).role = s.role := rfl
@[simp] theorem cpuLoad_initDone (addrs : List Word) (s : State) : (cpuLoad addrs s).initDone = s.initDone := rfl
@[simp] theorem cpuLoad_fatal (addrs : List Word) (s : State) : (cpuLoad addrs s).fatal = s.fatal := rfl
@[simp] theorem cpuLoad_intEn (addrs : List Word) (s : State) : (cpuLoad addrs s).intEn = s.intEn := rfl
@[simp] theorem cpuLoad_nakLimit (addrs : List Word) (s : State) : (cpuLoad addrs s).nakLimit = s.nakLimit := rfl
@[simp] theorem cpuLoad_arg0 (addrs : List Word) (s : State) : (cpuLoad addrs s).arg0 = s.arg0 := rfl
@[simp] theorem cpuLoad_result (addrs : List Word) (s : State) : (cpuLoad addrs s).result = s.result := rfl
@[simp] theorem cpuLoad_result2 (addrs : List Word) (s : State) : (cpuLoad addrs s).result2 = s.result2 := rfl
@[simp] theorem cpuLoad_eps (addrs : List Word) (s : State) : (cpuLoad addrs s).eps = s.eps := rfl
@[simp] theorem cpuLoad_chans (addrs : List Word) (s : State) : (cpuLoad addrs s).chans = s.chans := rfl
@[simp] theorem cpuLoad_arena (addrs : List Word) (s : State) : (cpuLoad addrs s).arena = s.arena := rfl
@[simp] theorem cpuLoad_evq (addrs : List Word) (s : State) : (cpuLoad addrs s).evq = s.evq := rfl
@[simp] theorem cpuLoad_mem (addrs : List Word) (s : State) : (cpuLoad addrs s).mem = s.mem := rfl
@[simp] theorem cpuLoad_rdata (addrs : List Word) (s : State) : (cpuLoad addrs s).rdata = s.rdata := rfl
@[simp] theorem cpuLoad_wire (addrs : List Word) (s : State) : (cpuLoad addrs s).wire = s.wire := rfl
@[simp] theorem cpuLoad_inbox (addrs : List Word) (s : State) : (cpuLoad addrs s).inbox = s.inbox := rfl

/-! initRole writes role, initDone, intEn only. -/

@[simp] theorem initRole_cfg (r : Role) (s : State) : (initRole r s).cfg = s.cfg := rfl
@[simp] theorem initRole_gie (r : Role) (s : State) : (initRole r s).gie = s.gie := rfl
@[simp] theorem initRole_fatal (r : Role) (s : State) : (initRole r s).fatal = s.fatal := rfl
@[simp] theorem initRole_nakLimit (r : Role) (s : State) : (initRole r s).nakLimit = s.nakLimit := rfl
@[simp] theorem initRole_arg0 (r : Role) (s : State) : (initRole r s).arg0 = s.arg0 := rfl
@[simp] theorem initRole_result (r : Role) (s : State) : (initRole r s).result = s.result := rfl
@[simp] theorem initRole_result2 (r : Role) (s : State) : (initRole r s).result2 = s.result2 := rfl
@[simp] theorem initRole_eps (r : Role) (s : State) : (initRole r s).eps = s.eps := rfl
@[simp] theorem initRole_chans (r : Role) (s : State) : (initRole r s).chans = s.chans := rfl
@[simp] theorem initRole_arena (r : Role) (s : State) : (initRole r s).arena = s.arena := rfl
@[simp] theorem initRole_evq (r : Role) (s : State) : (initRole r s).evq = s.evq := rfl
@[simp] theorem initRole_mem (r : Role) (s : State) : (initRole r s).mem = s.mem := rfl
@[simp] theorem initRole_rdata (r : Role) (s : State) : (initRole r s).rdata = s.rdata := rfl
@[simp] theorem initRole_loaded (r : Role) (s : State) : (initRole r s).loaded = s.loaded := rfl
@[simp] theorem initRole_wire (r : Role) (s : State) : (initRole r s).wire = s.wire := rfl
@[simp] theorem initRole_inbox (r : Role) (s : State) : (initRole r s).inbox = s.inbox := rfl

/-! recordTx writes wire only. -/

@[simp] theorem recordTx_cfg (c : BitVec 4) (d : Dir) (a : TxAnswer) (s : State) : (recordTx c d a s).cfg = s.cfg := by unfold recordTx; split <;> rfl
@[simp] theorem recordTx_gie (c : BitVec 4) (d : Dir) (a : TxAnswer) (s : State) : (recordTx c d a s).gie = s.gie := by unfold recordTx; split <;> rfl
@[simp] theorem recordTx_role (c : BitVec 4) (d : Dir) (a : TxAnswer) (s : State) : (recordTx c d a s).role = s.role := by unfold recordTx; split <;> rfl
@[simp] theorem recordTx_initDone (c : BitVec 4) (d : Dir) (a : TxAnswer) (s : State) : (recordTx c d a s).initDone = s.initDone := by unfold recordTx; split <;> rfl
@[simp] theorem recordTx_fatal (c : BitVec 4) (d : Dir) (a : TxAnswer) (s : State) : (recordTx c d a s).fatal = s.fatal := by unfold recordTx; split <;> rfl
@[simp] theorem recordTx_intEn (c : BitVec 4) (d : Dir) (a : TxAnswer) (s : State) : (recordTx c d a s).intEn = s.intEn := by unfold recordTx; split <;> rfl
@[simp] theorem recordTx_nakLimit (c : BitVec 4) (d : Dir) (a : TxAnswer) (s : State) : (recordTx c d a s).nakLimit = s.nakLimit := by unfold recordTx; split <;> rfl
@[simp] theorem recordTx_arg0 (c : BitVec 4) (d : Dir) (a : TxAnswer) (s : State) : (recordTx c d a s).arg0 = s.arg0 := by unfold recordTx; split <;> rfl
@[simp] theorem recordTx_result (c : BitVec 4) (d : Dir) (a : TxAnswer) (s : State) : (recordTx c d a s).result = s.result := by unfold recordTx; split <;> rfl
@[simp] theorem recordTx_result2 (c : BitVec 4) (d : Dir) (a : TxAnswer) (s : State) : (recordTx c d a s).result2 = s.result2 := by unfold recordTx; split <;> rfl
@[simp] theorem recordTx_eps (c : BitVec 4) (d : Dir) (a : TxAnswer) (s : State) : (recordTx c d a s).eps = s.eps := by unfold recordTx; split <;> rfl
@[simp] theorem recordTx_chans (c : BitVec 4) (d : Dir) (a : TxAnswer) (s : State) : (recordTx c d a s).chans = s.chans := by unfold recordTx; split <;> rfl
@[simp] theorem recordTx_arena (c : BitVec 4) (d : Dir) (a : TxAnswer) (s : State) : (recordTx c d a s).arena = s.arena := by unfold recordTx; split <;> rfl
@[simp] theorem recordTx_evq (c : BitVec 4) (d : Dir) (a : TxAnswer) (s : State) : (recordTx c d a s).evq = s.evq := by unfold recordTx; split <;> rfl
@[simp] theorem recordTx_mem (c : BitVec 4) (d : Dir) (a : TxAnswer) (s : State) : (recordTx c d a s).mem = s.mem := by unfold recordTx; split <;> rfl
@[simp] theorem recordTx_rdata (c : BitVec 4) (d : Dir) (a : TxAnswer) (s : State) : (recordTx c d a s).rdata = s.rdata := by unfold recordTx; split <;> rfl
@[simp] theorem recordTx_loaded (c : BitVec 4) (d : Dir) (a : TxAnswer) (s : State) : (recordTx c d a s).loaded = s.loaded := by unfold recordTx; split <;> rfl
@[simp] theorem recordTx_inbox (c : BitVec 4) (d : Dir) (a : TxAnswer) (s : State) : (recordTx c d a s).inbox = s.inbox := by unfold recordTx; split <;> rfl

/-! pushIf writes evq only. -/

@[simp] theorem pushIf_cfg (e : EventClass) (w : Word) (s : State) : (pushIf e w s).cfg = s.cfg := by unfold pushIf; split <;> rfl
@[simp] theorem pushIf_gie (e : EventClass) (w : Word) (s : State) : (pushIf e w s).gie = s.gie := by unfold pushIf; split <;> rfl
@[simp] theorem pushIf_role (e : EventClass) (w : Word) (s : State) : (pushIf e w s).role = s.role := by unfold pushIf; split <;> rfl
@[simp] theorem pushIf_initDone (e : EventClass) (w : Word) (s : State) : (pushIf e w s).initDone = s.initDone := by unfold pushIf; split <;> rfl
@[simp] theorem pushIf_fatal (e : EventClass) (w : Word) (s : State) : (pushIf e w s).fatal = s.fatal := by unfold pushIf; split <;> rfl
@[simp] theorem pushIf_intEn (e : EventClass) (w : Word) (s : State) : (pushIf e w s).intEn = s.intEn := by unfold pushIf; split <;> rfl
@[simp] theorem pushIf_nakLimit (e : EventClass) (w : Word) (s : State) : (pushIf e w s).nakLimit = s.nakLimit := by unfold pushIf; split <;> rfl
@[simp] theorem pushIf_arg0 (e : EventClass) (w : Word) (s : State) : (pushIf e w s).arg0 = s.arg0 := by unfold pushIf; split <;> rfl
@[simp] theorem pushIf_result (e : EventClass) (w : Word) (s : State) : (pushIf e w s).result = s.result := by unfold pushIf; split <;> rfl
@[simp] theorem pushIf_result2 (e : EventClass) (w : Word) (s : State) : (pushIf e w s).result2 = s.result2 := by unfold pushIf; split <;> rfl
@[simp] theorem pushIf_eps (e : EventClass) (w : Word) (s : State) : (pushIf e w s).eps = s.eps := by unfold pushIf; split <;> rfl
@[simp] theorem pushIf_chans (e : EventClass) (w : Word) (s : State) : (pushIf e w s).chans = s.chans := by unfold pushIf; split <;> rfl
@[simp] theorem pushIf_arena (e : EventClass) (w : Word) (s : State) : (pushIf e w s).arena = s.arena := by unfold pushIf; split <;> rfl
@[simp] theorem pushIf_mem (e : EventClass) (w : Word) (s : State) : (pushIf e w s).mem = s.mem := by unfold pushIf; split <;> rfl
@[simp] theorem pushIf_rdata (e : EventClass) (w : Word) (s : State) : (pushIf e w s).rdata = s.rdata := by unfold pushIf; split <;> rfl
@[simp] theorem pushIf_loaded (e : EventClass) (w : Word) (s : State) : (pushIf e w s).loaded = s.loaded := by unfold pushIf; split <;> rfl
@[simp] theorem pushIf_wire (e : EventClass) (w : Word) (s : State) : (pushIf e w s).wire = s.wire := by unfold pushIf; split <;> rfl
@[simp] theorem pushIf_inbox (e : EventClass) (w : Word) (s : State) : (pushIf e w s).inbox = s.inbox := by unfold pushIf; split <;> rfl

/-! dropAssociation writes chans only. -/

@[simp] theorem dropAssociation_cfg (c : Nat) (s : State) : (dropAssociation c s).cfg = s.cfg := by unfold dropAssociation; split <;> rfl
@[simp] theorem dropAssociation_gie (c : Nat) (s : State) : (dropAssociation c s).gie = s.gie := by unfold dropAssociation; split <;> rfl
@[simp] theorem dropAssociation_role (c : Nat) (s : State) : (dropAssociation c s).role = s.role := by unfold dropAssociation; split <;> rfl
@[simp] theorem dropAssociation_initDone (c : Nat) (s : State) : (dropAssociation c s).initDone = s.initDone := by unfold dropAssociation; split <;> rfl
@[simp] theorem dropAssociation_fatal (c : Nat) (s : State) : (dropAssociation c s).fatal = s.fatal := by unfold dropAssociation; split <;> rfl
@[simp] theorem dropAssociation_intEn (c : Nat) (s : State) : (dropAssociation c s).intEn = s.intEn := by unfold dropAssociation; split <;> rfl
@[simp] theorem dropAssociation_nakLimit (c : Nat) (s : State) : (dropAssociation c s).nakLimit = s.nakLimit := by unfold dropAssociation; split <;> rfl
@[simp] theorem dropAssociation_arg0 (c : Nat) (s : State) : (dropAssociation c s).arg0 = s.arg0 := by unfold dropAssociation; split <;> rfl
@[simp] theorem dropAssociation_result (c : Nat) (s : State) : (dropAssociation c s).result = s.result := by unfold dropAssociation; split <;> rfl
@[simp] theorem dropAssociation_result2 (c : Nat) (s : State) : (dropAssociation c s).result2 = s.result2 := by unfold dropAssociation; split <;> rfl
@[simp] theorem dropAssociation_eps (c : Nat) (s : State) : (dropAssociation c s).eps = s.eps := by unfold dropAssociation; split <;> rfl
@[simp] theorem dropAssociation_arena (c : Nat) (s : State) : (dropAssociation c s).arena = s.arena := by unfold dropAssociation; split <;> rfl
@[simp] theorem dropAssociation_evq (c : Nat) (s : State) : (dropAssociation c s).evq = s.evq := by unfold dropAssociation; split <;> rfl
@[simp] theorem dropAssociation_mem (c : Nat) (s : State) : (dropAssociation c s).mem = s.mem := by unfold dropAssociation; split <;> rfl
@[simp] theorem dropAssociation_rdata (c : Nat) (s : State) : (dropAssociation c s).rdata = s.rdata := by unfold dropAssociation; split <;> rfl
@[simp] theorem dropAssociation_loaded (c : Nat) (s : State) : (dropAssociation c s).loaded = s.loaded := by unfold dropAssociation; split <;> rfl
@[simp] theorem dropAssociation_wire (c : Nat) (s : State) : (dropAssociation c s).wire = s.wire := by unfold dropAssociation; split <;> rfl
@[simp] theorem dropAssociation_inbox (c : Nat) (s : State) : (dropAssociation c s).inbox = s.inbox := by unfold dropAssociation; split <;> rfl

/-! clearHaltedIf writes eps only. -/

@[simp] theorem clearHaltedIf_cfg (setup : Bool) (h : Nat) (s : State) : (clearHaltedIf setup h s).cfg = s.cfg := by unfold clearHaltedIf; split <;> rfl
@[simp] theorem clearHaltedIf_gie (setup : Bool) (h : Nat) (s : State) : (clearHaltedIf setup h s).gie = s.gie := by unfold clearHaltedIf; split <;> rfl
@[simp] theorem clearHaltedIf_role (setup : Bool) (h : Nat) (s : State) : (clearHaltedIf setup h s).role = s.role := by unfold clearHaltedIf; split <;> rfl
@[simp] theorem clearHaltedIf_initDone (setup : Bool) (h : Nat) (s : State) : (clearHaltedIf setup h s).initDone = s.initDone := by unfold clearHaltedIf; split <;> rfl
@[simp] theorem clearHaltedIf_fatal (setup : Bool) (h : Nat) (s : State) : (clearHaltedIf setup h s).fatal = s.fatal := by unfold clearHaltedIf; split <;> rfl
@[simp] theorem clearHaltedIf_intEn (setup : Bool) (h : Nat) (s : State) : (clearHaltedIf setup h s).intEn = s.intEn := by unfold clearHaltedIf; split <;> rfl
@[simp] theorem clearHaltedIf_nakLimit (setup : Bool) (h : Nat) (s : State) : (clearHaltedIf setup h s).nakLimit = s.nakLimit := by unfold clearHaltedIf; split <;> rfl
@[simp] theorem clearHaltedIf_arg0 (setup : Bool) (h : Nat) (s : State) : (clearHaltedIf setup h s).arg0 = s.arg0 := by unfold clearHaltedIf; split <;> rfl
@[simp] theorem clearHaltedIf_result (setup : Bool) (h : Nat) (s : State) : (clearHaltedIf setup h s).result = s.result := by unfold clearHaltedIf; split <;> rfl
@[simp] theorem clearHaltedIf_result2 (setup : Bool) (h : Nat) (s : State) : (clearHaltedIf setup h s).result2 = s.result2 := by unfold clearHaltedIf; split <;> rfl
@[simp] theorem clearHaltedIf_chans (setup : Bool) (h : Nat) (s : State) : (clearHaltedIf setup h s).chans = s.chans := by unfold clearHaltedIf; split <;> rfl
@[simp] theorem clearHaltedIf_arena (setup : Bool) (h : Nat) (s : State) : (clearHaltedIf setup h s).arena = s.arena := by unfold clearHaltedIf; split <;> rfl
@[simp] theorem clearHaltedIf_evq (setup : Bool) (h : Nat) (s : State) : (clearHaltedIf setup h s).evq = s.evq := by unfold clearHaltedIf; split <;> rfl
@[simp] theorem clearHaltedIf_mem (setup : Bool) (h : Nat) (s : State) : (clearHaltedIf setup h s).mem = s.mem := by unfold clearHaltedIf; split <;> rfl
@[simp] theorem clearHaltedIf_rdata (setup : Bool) (h : Nat) (s : State) : (clearHaltedIf setup h s).rdata = s.rdata := by unfold clearHaltedIf; split <;> rfl
@[simp] theorem clearHaltedIf_loaded (setup : Bool) (h : Nat) (s : State) : (clearHaltedIf setup h s).loaded = s.loaded := by unfold clearHaltedIf; split <;> rfl
@[simp] theorem clearHaltedIf_wire (setup : Bool) (h : Nat) (s : State) : (clearHaltedIf setup h s).wire = s.wire := by unfold clearHaltedIf; split <;> rfl
@[simp] theorem clearHaltedIf_inbox (setup : Bool) (h : Nat) (s : State) : (clearHaltedIf setup h s).inbox = s.inbox := by unfold clearHaltedIf; split <;> rfl

/-! freeIfClosed writes eps only. -/

@[simp] theorem freeIfClosed_cfg (h : Nat) (s : State) : (freeIfClosed h s).cfg = s.cfg := by unfold freeIfClosed; split <;> rfl
@[simp] theorem freeIfClosed_gie (h : Nat) (s : State) : (freeIfClosed h s).gie = s.gie := by unfold freeIfClosed; split <;> rfl
@[simp] theorem freeIfClosed_role (h : Nat) (s : State) : (freeIfClosed h s).role = s.role := by unfold freeIfClosed; split <;> rfl
@[simp] theorem freeIfClosed_initDone (h : Nat) (s : State) : (freeIfClosed h s).initDone = s.initDone := by unfold freeIfClosed; split <;> rfl
@[simp] theorem freeIfClosed_fatal (h : Nat) (s : State) : (freeIfClosed h s).fatal = s.fatal := by unfold freeIfClosed; split <;> rfl
@[simp] theorem freeIfClosed_intEn (h : Nat) (s : State) : (freeIfClosed h s).intEn = s.intEn := by unfold freeIfClosed; split <;> rfl
@[simp] theorem freeIfClosed_nakLimit (h : Nat) (s : State) : (freeIfClosed h s).nakLimit = s.nakLimit := by unfold freeIfClosed; split <;> rfl
@[simp] theorem freeIfClosed_arg0 (h : Nat) (s : State) : (freeIfClosed h s).arg0 = s.arg0 := by unfold freeIfClosed; split <;> rfl
@[simp] theorem freeIfClosed_result (h : Nat) (s : State) : (freeIfClosed h s).result = s.result := by unfold freeIfClosed; split <;> rfl
@[simp] theorem freeIfClosed_result2 (h : Nat) (s : State) : (freeIfClosed h s).result2 = s.result2 := by unfold freeIfClosed; split <;> rfl
@[simp] theorem freeIfClosed_chans (h : Nat) (s : State) : (freeIfClosed h s).chans = s.chans := by unfold freeIfClosed; split <;> rfl
@[simp] theorem freeIfClosed_arena (h : Nat) (s : State) : (freeIfClosed h s).arena = s.arena := by unfold freeIfClosed; split <;> rfl
@[simp] theorem freeIfClosed_evq (h : Nat) (s : State) : (freeIfClosed h s).evq = s.evq := by unfold freeIfClosed; split <;> rfl
@[simp] theorem freeIfClosed_mem (h : Nat) (s : State) : (freeIfClosed h s).mem = s.mem := by unfold freeIfClosed; split <;> rfl
@[simp] theorem freeIfClosed_rdata (h : Nat) (s : State) : (freeIfClosed h s).rdata = s.rdata := by unfold freeIfClosed; split <;> rfl
@[simp] theorem freeIfClosed_loaded (h : Nat) (s : State) : (freeIfClosed h s).loaded = s.loaded := by unfold freeIfClosed; split <;> rfl
@[simp] theorem freeIfClosed_wire (h : Nat) (s : State) : (freeIfClosed h s).wire = s.wire := by unfold freeIfClosed; split <;> rfl
@[simp] theorem freeIfClosed_inbox (h : Nat) (s : State) : (freeIfClosed h s).inbox = s.inbox := by unfold freeIfClosed; split <;> rfl

/-! chRelease writes eps, chans only. -/

@[simp] theorem chRelease_cfg (c : Nat) (d : Dir) (s : State) : (chRelease c d s).cfg = s.cfg := by simp [chRelease]
@[simp] theorem chRelease_gie (c : Nat) (d : Dir) (s : State) : (chRelease c d s).gie = s.gie := by simp [chRelease]
@[simp] theorem chRelease_role (c : Nat) (d : Dir) (s : State) : (chRelease c d s).role = s.role := by simp [chRelease]
@[simp] theorem chRelease_initDone (c : Nat) (d : Dir) (s : State) : (chRelease c d s).initDone = s.initDone := by simp [chRelease]
@[simp] theorem chRelease_fatal (c : Nat) (d : Dir) (s : State) : (chRelease c d s).fatal = s.fatal := by simp [chRelease]
@[simp] theorem chRelease_intEn (c : Nat) (d : Dir) (s : State) : (chRelease c d s).intEn = s.intEn := by simp [chRelease]
@[simp] theorem chRelease_nakLimit (c : Nat) (d : Dir) (s : State) : (chRelease c d s).nakLimit = s.nakLimit := by simp [chRelease]
@[simp] theorem chRelease_arg0 (c : Nat) (d : Dir) (s : State) : (chRelease c d s).arg0 = s.arg0 := by simp [chRelease]
@[simp] theorem chRelease_result (c : Nat) (d : Dir) (s : State) : (chRelease c d s).result = s.result := by simp [chRelease]
@[simp] theorem chRelease_result2 (c : Nat) (d : Dir) (s : State) : (chRelease c d s).result2 = s.result2 := by simp [chRelease]
@[simp] theorem chRelease_arena (c : Nat) (d : Dir) (s : State) : (chRelease c d s).arena = s.arena := by simp [chRelease]
@[simp] theorem chRelease_evq (c : Nat) (d : Dir) (s : State) : (chRelease c d s).evq = s.evq := by simp [chRelease]
@[simp] theorem chRelease_mem (c : Nat) (d : Dir) (s : State) : (chRelease c d s).mem = s.mem := by simp [chRelease]
@[simp] theorem chRelease_rdata (c : Nat) (d : Dir) (s : State) : (chRelease c d s).rdata = s.rdata := by simp [chRelease]
@[simp] theorem chRelease_loaded (c : Nat) (d : Dir) (s : State) : (chRelease c d s).loaded = s.loaded := by simp [chRelease]
@[simp] theorem chRelease_wire (c : Nat) (d : Dir) (s : State) : (chRelease c d s).wire = s.wire := by simp [chRelease]
@[simp] theorem chRelease_inbox (c : Nat) (d : Dir) (s : State) : (chRelease c d s).inbox = s.inbox := by simp [chRelease]

/-! releaseIfHost writes eps, chans only. -/

@[simp] theorem releaseIfHost_cfg (c : Nat) (d : Dir) (s : State) : (releaseIfHost c d s).cfg = s.cfg := by unfold releaseIfHost; split <;> simp
@[simp] theorem releaseIfHost_gie (c : Nat) (d : Dir) (s : State) : (releaseIfHost c d s).gie = s.gie := by unfold releaseIfHost; split <;> simp
@[simp] theorem releaseIfHost_role (c : Nat) (d : Dir) (s : State) : (releaseIfHost c d s).role = s.role := by unfold releaseIfHost; split <;> simp
@[simp] theorem releaseIfHost_initDone (c : Nat) (d : Dir) (s : State) : (releaseIfHost c d s).initDone = s.initDone := by unfold releaseIfHost; split <;> simp
@[simp] theorem releaseIfHost_fatal (c : Nat) (d : Dir) (s : State) : (releaseIfHost c d s).fatal = s.fatal := by unfold releaseIfHost; split <;> simp
@[simp] theorem releaseIfHost_intEn (c : Nat) (d : Dir) (s : State) : (releaseIfHost c d s).intEn = s.intEn := by unfold releaseIfHost; split <;> simp
@[simp] theorem releaseIfHost_nakLimit (c : Nat) (d : Dir) (s : State) : (releaseIfHost c d s).nakLimit = s.nakLimit := by unfold releaseIfHost; split <;> simp
@[simp] theorem releaseIfHost_arg0 (c : Nat) (d : Dir) (s : State) : (releaseIfHost c d s).arg0 = s.arg0 := by unfold releaseIfHost; split <;> simp
@[simp] theorem releaseIfHost_result (c : Nat) (d : Dir) (s : State) : (releaseIfHost c d s).result = s.result := by unfold releaseIfHost; split <;> simp
@[simp] theorem releaseIfHost_result2 (c : Nat) (d : Dir) (s : State) : (releaseIfHost c d s).result2 = s.result2 := by unfold releaseIfHost; split <;> simp
@[simp] theorem releaseIfHost_arena (c : Nat) (d : Dir) (s : State) : (releaseIfHost c d s).arena = s.arena := by unfold releaseIfHost; split <;> simp
@[simp] theorem releaseIfHost_evq (c : Nat) (d : Dir) (s : State) : (releaseIfHost c d s).evq = s.evq := by unfold releaseIfHost; split <;> simp
@[simp] theorem releaseIfHost_mem (c : Nat) (d : Dir) (s : State) : (releaseIfHost c d s).mem = s.mem := by unfold releaseIfHost; split <;> simp
@[simp] theorem releaseIfHost_rdata (c : Nat) (d : Dir) (s : State) : (releaseIfHost c d s).rdata = s.rdata := by unfold releaseIfHost; split <;> simp
@[simp] theorem releaseIfHost_loaded (c : Nat) (d : Dir) (s : State) : (releaseIfHost c d s).loaded = s.loaded := by unfold releaseIfHost; split <;> simp
@[simp] theorem releaseIfHost_wire (c : Nat) (d : Dir) (s : State) : (releaseIfHost c d s).wire = s.wire := by unfold releaseIfHost; split <;> simp
@[simp] theorem releaseIfHost_inbox (c : Nat) (d : Dir) (s : State) : (releaseIfHost c d s).inbox = s.inbox := by unfold releaseIfHost; split <;> simp

/-! settle writes eps, chans, evq only. -/

@[simp] theorem settle_cfg (h : Nat) (d : Dir) (o : XferOutcome) (s : State) : (settle h d o s).cfg = s.cfg := by simp [settle]
@[simp] theorem settle_gie (h : Nat) (d : Dir) (o : XferOutcome) (s : State) : (settle h d o s).gie = s.gie := by simp [settle]
@[simp] theorem settle_role (h : Nat) (d : Dir) (o : XferOutcome) (s : State) : (settle h d o s).role = s.role := by simp [settle]
@[simp] theorem settle_initDone (h : Nat) (d : Dir) (o : XferOutcome) (s : State) : (settle h d o s).initDone = s.initDone := by simp [settle]
@[simp] theorem settle_fatal (h : Nat) (d : Dir) (o : XferOutcome) (s : State) : (settle h d o s).fatal = s.fatal := by simp [settle]
@[simp] theorem settle_intEn (h : Nat) (d : Dir) (o : XferOutcome) (s : State) : (settle h d o s).intEn = s.intEn := by simp [settle]
@[simp] theorem settle_nakLimit (h : Nat) (d : Dir) (o : XferOutcome) (s : State) : (settle h d o s).nakLimit = s.nakLimit := by simp [settle]
@[simp] theorem settle_arg0 (h : Nat) (d : Dir) (o : XferOutcome) (s : State) : (settle h d o s).arg0 = s.arg0 := by simp [settle]
@[simp] theorem settle_result (h : Nat) (d : Dir) (o : XferOutcome) (s : State) : (settle h d o s).result = s.result := by simp [settle]
@[simp] theorem settle_result2 (h : Nat) (d : Dir) (o : XferOutcome) (s : State) : (settle h d o s).result2 = s.result2 := by simp [settle]
@[simp] theorem settle_arena (h : Nat) (d : Dir) (o : XferOutcome) (s : State) : (settle h d o s).arena = s.arena := by simp [settle]
@[simp] theorem settle_mem (h : Nat) (d : Dir) (o : XferOutcome) (s : State) : (settle h d o s).mem = s.mem := by simp [settle]
@[simp] theorem settle_rdata (h : Nat) (d : Dir) (o : XferOutcome) (s : State) : (settle h d o s).rdata = s.rdata := by simp [settle]
@[simp] theorem settle_loaded (h : Nat) (d : Dir) (o : XferOutcome) (s : State) : (settle h d o s).loaded = s.loaded := by simp [settle]
@[simp] theorem settle_wire (h : Nat) (d : Dir) (o : XferOutcome) (s : State) : (settle h d o s).wire = s.wire := by simp [settle]
@[simp] theorem settle_inbox (h : Nat) (d : Dir) (o : XferOutcome) (s : State) : (settle h d o s).inbox = s.inbox := by simp [settle]

/-! abortHalf writes eps, chans, evq only. -/

@[simp] theorem abortHalf_cfg (h : Nat) (d : Dir) (s : State) : (abortHalf h d s).cfg = s.cfg := by simp [abortHalf]
@[simp] theorem abortHalf_gie (h : Nat) (d : Dir) (s : State) : (abortHalf h d s).gie = s.gie := by simp [abortHalf]
@[simp] theorem abortHalf_role (h : Nat) (d : Dir) (s : State) : (abortHalf h d s).role = s.role := by simp [abortHalf]
@[simp] theorem abortHalf_initDone (h : Nat) (d : Dir) (s : State) : (abortHalf h d s).initDone = s.initDone := by simp [abortHalf]
@[simp] theorem abortHalf_fatal (h : Nat) (d : Dir) (s : State) : (abortHalf h d s).fatal = s.fatal := by simp [abortHalf]
@[simp] theorem abortHalf_intEn (h : Nat) (d : Dir) (s : State) : (abortHalf h d s).intEn = s.intEn := by simp [abortHalf]
@[simp] theorem abortHalf_nakLimit (h : Nat) (d : Dir) (s : State) : (abortHalf h d s).nakLimit = s.nakLimit := by simp [abortHalf]
@[simp] theorem abortHalf_arg0 (h : Nat) (d : Dir) (s : State) : (abortHalf h d s).arg0 = s.arg0 := by simp [abortHalf]
@[simp] theorem abortHalf_result (h : Nat) (d : Dir) (s : State) : (abortHalf h d s).result = s.result := by simp [abortHalf]
@[simp] theorem abortHalf_result2 (h : Nat) (d : Dir) (s : State) : (abortHalf h d s).result2 = s.result2 := by simp [abortHalf]
@[simp] theorem abortHalf_arena (h : Nat) (d : Dir) (s : State) : (abortHalf h d s).arena = s.arena := by simp [abortHalf]
@[simp] theorem abortHalf_mem (h : Nat) (d : Dir) (s : State) : (abortHalf h d s).mem = s.mem := by simp [abortHalf]
@[simp] theorem abortHalf_rdata (h : Nat) (d : Dir) (s : State) : (abortHalf h d s).rdata = s.rdata := by simp [abortHalf]
@[simp] theorem abortHalf_loaded (h : Nat) (d : Dir) (s : State) : (abortHalf h d s).loaded = s.loaded := by simp [abortHalf]
@[simp] theorem abortHalf_wire (h : Nat) (d : Dir) (s : State) : (abortHalf h d s).wire = s.wire := by simp [abortHalf]
@[simp] theorem abortHalf_inbox (h : Nat) (d : Dir) (s : State) : (abortHalf h d s).inbox = s.inbox := by simp [abortHalf]

/-! abortIfBusy writes eps, chans, evq only. -/

@[simp] theorem abortIfBusy_cfg (h : Nat) (d : Dir) (s : State) : (abortIfBusy h d s).cfg = s.cfg := by unfold abortIfBusy; split <;> simp
@[simp] theorem abortIfBusy_gie (h : Nat) (d : Dir) (s : State) : (abortIfBusy h d s).gie = s.gie := by unfold abortIfBusy; split <;> simp
@[simp] theorem abortIfBusy_role (h : Nat) (d : Dir) (s : State) : (abortIfBusy h d s).role = s.role := by unfold abortIfBusy; split <;> simp
@[simp] theorem abortIfBusy_initDone (h : Nat) (d : Dir) (s : State) : (abortIfBusy h d s).initDone = s.initDone := by unfold abortIfBusy; split <;> simp
@[simp] theorem abortIfBusy_fatal (h : Nat) (d : Dir) (s : State) : (abortIfBusy h d s).fatal = s.fatal := by unfold abortIfBusy; split <;> simp
@[simp] theorem abortIfBusy_intEn (h : Nat) (d : Dir) (s : State) : (abortIfBusy h d s).intEn = s.intEn := by unfold abortIfBusy; split <;> simp
@[simp] theorem abortIfBusy_nakLimit (h : Nat) (d : Dir) (s : State) : (abortIfBusy h d s).nakLimit = s.nakLimit := by unfold abortIfBusy; split <;> simp
@[simp] theorem abortIfBusy_arg0 (h : Nat) (d : Dir) (s : State) : (abortIfBusy h d s).arg0 = s.arg0 := by unfold abortIfBusy; split <;> simp
@[simp] theorem abortIfBusy_result (h : Nat) (d : Dir) (s : State) : (abortIfBusy h d s).result = s.result := by unfold abortIfBusy; split <;> simp
@[simp] theorem abortIfBusy_result2 (h : Nat) (d : Dir) (s : State) : (abortIfBusy h d s).result2 = s.result2 := by unfold abortIfBusy; split <;> simp
@[simp] theorem abortIfBusy_arena (h : Nat) (d : Dir) (s : State) : (abortIfBusy h d s).arena = s.arena := by unfold abortIfBusy; split <;> simp
@[simp] theorem abortIfBusy_mem (h : Nat) (d : Dir) (s : State) : (abortIfBusy h d s).mem = s.mem := by unfold abortIfBusy; split <;> simp
@[simp] theorem abortIfBusy_rdata (h : Nat) (d : Dir) (s : State) : (abortIfBusy h d s).rdata = s.rdata := by unfold abortIfBusy; split <;> simp
@[simp] theorem abortIfBusy_loaded (h : Nat) (d : Dir) (s : State) : (abortIfBusy h d s).loaded = s.loaded := by unfold abortIfBusy; split <;> simp
@[simp] theorem abortIfBusy_wire (h : Nat) (d : Dir) (s : State) : (abortIfBusy h d s).wire = s.wire := by unfold abortIfBusy; split <;> simp
@[simp] theorem abortIfBusy_inbox (h : Nat) (d : Dir) (s : State) : (abortIfBusy h d s).inbox = s.inbox := by unfold abortIfBusy; split <;> simp

/-! releaseIfBound writes eps, chans only. -/

@[simp] theorem releaseIfBound_cfg (h : Nat) (d : Dir) (s : State) : (releaseIfBound h d s).cfg = s.cfg := by unfold releaseIfBound; split <;> simp
@[simp] theorem releaseIfBound_gie (h : Nat) (d : Dir) (s : State) : (releaseIfBound h d s).gie = s.gie := by unfold releaseIfBound; split <;> simp
@[simp] theorem releaseIfBound_role (h : Nat) (d : Dir) (s : State) : (releaseIfBound h d s).role = s.role := by unfold releaseIfBound; split <;> simp
@[simp] theorem releaseIfBound_initDone (h : Nat) (d : Dir) (s : State) : (releaseIfBound h d s).initDone = s.initDone := by unfold releaseIfBound; split <;> simp
@[simp] theorem releaseIfBound_fatal (h : Nat) (d : Dir) (s : State) : (releaseIfBound h d s).fatal = s.fatal := by unfold releaseIfBound; split <;> simp
@[simp] theorem releaseIfBound_intEn (h : Nat) (d : Dir) (s : State) : (releaseIfBound h d s).intEn = s.intEn := by unfold releaseIfBound; split <;> simp
@[simp] theorem releaseIfBound_nakLimit (h : Nat) (d : Dir) (s : State) : (releaseIfBound h d s).nakLimit = s.nakLimit := by unfold releaseIfBound; split <;> simp
@[simp] theorem releaseIfBound_arg0 (h : Nat) (d : Dir) (s : State) : (releaseIfBound h d s).arg0 = s.arg0 := by unfold releaseIfBound; split <;> simp
@[simp] theorem releaseIfBound_result (h : Nat) (d : Dir) (s : State) : (releaseIfBound h d s).result = s.result := by unfold releaseIfBound; split <;> simp
@[simp] theorem releaseIfBound_result2 (h : Nat) (d : Dir) (s : State) : (releaseIfBound h d s).result2 = s.result2 := by unfold releaseIfBound; split <;> simp
@[simp] theorem releaseIfBound_arena (h : Nat) (d : Dir) (s : State) : (releaseIfBound h d s).arena = s.arena := by unfold releaseIfBound; split <;> simp
@[simp] theorem releaseIfBound_evq (h : Nat) (d : Dir) (s : State) : (releaseIfBound h d s).evq = s.evq := by unfold releaseIfBound; split <;> simp
@[simp] theorem releaseIfBound_mem (h : Nat) (d : Dir) (s : State) : (releaseIfBound h d s).mem = s.mem := by unfold releaseIfBound; split <;> simp
@[simp] theorem releaseIfBound_rdata (h : Nat) (d : Dir) (s : State) : (releaseIfBound h d s).rdata = s.rdata := by unfold releaseIfBound; split <;> simp
@[simp] theorem releaseIfBound_loaded (h : Nat) (d : Dir) (s : State) : (releaseIfBound h d s).loaded = s.loaded := by unfold releaseIfBound; split <;> simp
@[simp] theorem releaseIfBound_wire (h : Nat) (d : Dir) (s : State) : (releaseIfBound h d s).wire = s.wire := by unfold releaseIfBound; split <;> simp
@[simp] theorem releaseIfBound_inbox (h : Nat) (d : Dir) (s : State) : (releaseIfBound h d s).inbox = s.inbox := by unfold releaseIfBound; split <;> simp

/-! closeHalf writes eps, chans, evq only. -/

@[simp] theorem closeHalf_cfg (h : Nat) (d : Dir) (s : State) : (closeHalf h d s).cfg = s.cfg := by simp [closeHalf]
@[simp] theorem closeHalf_gie (h : Nat) (d : Dir) (s : State) : (closeHalf h d s).gie = s.gie := by simp [closeHalf]
@[simp] theorem closeHalf_role (h : Nat) (d : Dir) (s : State) : (closeHalf h d s).role = s.role := by simp [closeHalf]
@[simp] theorem closeHalf_initDone (h : Nat) (d : Dir) (s : State) : (closeHalf h d s).initDone = s.initDone := by simp [closeHalf]
@[simp] theorem closeHalf_fatal (h : Nat) (d : Dir) (s : State) : (closeHalf h d s).fatal = s.fatal := by simp [closeHalf]
@[simp] theorem closeHalf_intEn (h : Nat) (d : Dir) (s : State) : (closeHalf h d s).intEn = s.intEn := by simp [closeHalf]
@[simp] theorem closeHalf_nakLimit (h : Nat) (d : Dir) (s : State) : (closeHalf h d s).nakLimit = s.nakLimit := by simp [closeHalf]
@[simp] theorem closeHalf_arg0 (h : Nat) (d : Dir) (s : State) : (closeHalf h d s).arg0 = s.arg0 := by simp [closeHalf]
@[simp] theorem closeHalf_result (h : Nat) (d : Dir) (s : State) : (closeHalf h d s).result = s.result := by simp [closeHalf]
@[simp] theorem closeHalf_result2 (h : Nat) (d : Dir) (s : State) : (closeHalf h d s).result2 = s.result2 := by simp [closeHalf]
@[simp] theorem closeHalf_arena (h : Nat) (d : Dir) (s : State) : (closeHalf h d s).arena = s.arena := by simp [closeHalf]
@[simp] theorem closeHalf_mem (h : Nat) (d : Dir) (s : State) : (closeHalf h d s).mem = s.mem := by simp [closeHalf]
@[simp] theorem closeHalf_rdata (h : Nat) (d : Dir) (s : State) : (closeHalf h d s).rdata = s.rdata := by simp [closeHalf]
@[simp] theorem closeHalf_loaded (h : Nat) (d : Dir) (s : State) : (closeHalf h d s).loaded = s.loaded := by simp [closeHalf]
@[simp] theorem closeHalf_wire (h : Nat) (d : Dir) (s : State) : (closeHalf h d s).wire = s.wire := by simp [closeHalf]
@[simp] theorem closeHalf_inbox (h : Nat) (d : Dir) (s : State) : (closeHalf h d s).inbox = s.inbox := by simp [closeHalf]

/-! xErr writes eps, chans, evq only. -/

@[simp] theorem xErr_cfg (c : BitVec 4) (d : Dir) (s : State) : (xErr c d s).cfg = s.cfg := by unfold xErr; dsimp only; repeat (first | split | simp)
@[simp] theorem xErr_gie (c : BitVec 4) (d : Dir) (s : State) : (xErr c d s).gie = s.gie := by unfold xErr; dsimp only; repeat (first | split | simp)
@[simp] theorem xErr_role (c : BitVec 4) (d : Dir) (s : State) : (xErr c d s).role = s.role := by unfold xErr; dsimp only; repeat (first | split | simp)
@[simp] theorem xErr_initDone (c : BitVec 4) (d : Dir) (s : State) : (xErr c d s).initDone = s.initDone := by unfold xErr; dsimp only; repeat (first | split | simp)
@[simp] theorem xErr_fatal (c : BitVec 4) (d : Dir) (s : State) : (xErr c d s).fatal = s.fatal := by unfold xErr; dsimp only; repeat (first | split | simp)
@[simp] theorem xErr_intEn (c : BitVec 4) (d : Dir) (s : State) : (xErr c d s).intEn = s.intEn := by unfold xErr; dsimp only; repeat (first | split | simp)
@[simp] theorem xErr_nakLimit (c : BitVec 4) (d : Dir) (s : State) : (xErr c d s).nakLimit = s.nakLimit := by unfold xErr; dsimp only; repeat (first | split | simp)
@[simp] theorem xErr_arg0 (c : BitVec 4) (d : Dir) (s : State) : (xErr c d s).arg0 = s.arg0 := by unfold xErr; dsimp only; repeat (first | split | simp)
@[simp] theorem xErr_result (c : BitVec 4) (d : Dir) (s : State) : (xErr c d s).result = s.result := by unfold xErr; dsimp only; repeat (first | split | simp)
@[simp] theorem xErr_result2 (c : BitVec 4) (d : Dir) (s : State) : (xErr c d s).result2 = s.result2 := by unfold xErr; dsimp only; repeat (first | split | simp)
@[simp] theorem xErr_arena (c : BitVec 4) (d : Dir) (s : State) : (xErr c d s).arena = s.arena := by unfold xErr; dsimp only; repeat (first | split | simp)
@[simp] theorem xErr_mem (c : BitVec 4) (d : Dir) (s : State) : (xErr c d s).mem = s.mem := by unfold xErr; dsimp only; repeat (first | split | simp)
@[simp] theorem xErr_rdata (c : BitVec 4) (d : Dir) (s : State) : (xErr c d s).rdata = s.rdata := by unfold xErr; dsimp only; repeat (first | split | simp)
@[simp] theorem xErr_loaded (c : BitVec 4) (d : Dir) (s : State) : (xErr c d s).loaded = s.loaded := by unfold xErr; dsimp only; repeat (first | split | simp)
@[simp] theorem xErr_wire (c : BitVec 4) (d : Dir) (s : State) : (xErr c d s).wire = s.wire := by unfold xErr; dsimp only; repeat (first | split | simp)
@[simp] theorem xErr_inbox (c : BitVec 4) (d : Dir) (s : State) : (xErr c d s).inbox = s.inbox := by unfold xErr; dsimp only; repeat (first | split | simp)

/-! nakPacket writes eps, chans, evq, wire only. -/

@[simp] theorem nakPacket_cfg (c : BitVec 4) (d : Dir) (s : State) : (nakPacket c d s).cfg = s.cfg := by unfold nakPacket; dsimp only; repeat (first | split | simp)
@[simp] theorem nakPacket_gie (c : BitVec 4) (d : Dir) (s : State) : (nakPacket c d s).gie = s.gie := by unfold nakPacket; dsimp only; repeat (first | split | simp)
@[simp] theorem nakPacket_role (c : BitVec 4) (d : Dir) (s : State) : (nakPacket c d s).role = s.role := by unfold nakPacket; dsimp only; repeat (first | split | simp)
@[simp] theorem nakPacket_initDone (c : BitVec 4) (d : Dir) (s : State) : (nakPacket c d s).initDone = s.initDone := by unfold nakPacket; dsimp only; repeat (first | split | simp)
@[simp] theorem nakPacket_fatal (c : BitVec 4) (d : Dir) (s : State) : (nakPacket c d s).fatal = s.fatal := by unfold nakPacket; dsimp only; repeat (first | split | simp)
@[simp] theorem nakPacket_intEn (c : BitVec 4) (d : Dir) (s : State) : (nakPacket c d s).intEn = s.intEn := by unfold nakPacket; dsimp only; repeat (first | split | simp)
@[simp] theorem nakPacket_nakLimit (c : BitVec 4) (d : Dir) (s : State) : (nakPacket c d s).nakLimit = s.nakLimit := by unfold nakPacket; dsimp only; repeat (first | split | simp)
@[simp] theorem nakPacket_arg0 (c : BitVec 4) (d : Dir) (s : State) : (nakPacket c d s).arg0 = s.arg0 := by unfold nakPacket; dsimp only; repeat (first | split | simp)
@[simp] theorem nakPacket_result (c : BitVec 4) (d : Dir) (s : State) : (nakPacket c d s).result = s.result := by unfold nakPacket; dsimp only; repeat (first | split | simp)
@[simp] theorem nakPacket_result2 (c : BitVec 4) (d : Dir) (s : State) : (nakPacket c d s).result2 = s.result2 := by unfold nakPacket; dsimp only; repeat (first | split | simp)
@[simp] theorem nakPacket_arena (c : BitVec 4) (d : Dir) (s : State) : (nakPacket c d s).arena = s.arena := by unfold nakPacket; dsimp only; repeat (first | split | simp)
@[simp] theorem nakPacket_mem (c : BitVec 4) (d : Dir) (s : State) : (nakPacket c d s).mem = s.mem := by unfold nakPacket; dsimp only; repeat (first | split | simp)
@[simp] theorem nakPacket_rdata (c : BitVec 4) (d : Dir) (s : State) : (nakPacket c d s).rdata = s.rdata := by unfold nakPacket; dsimp only; repeat (first | split | simp)
@[simp] theorem nakPacket_loaded (c : BitVec 4) (d : Dir) (s : State) : (nakPacket c d s).loaded = s.loaded := by unfold nakPacket; dsimp only; repeat (first | split | simp)
@[simp] theorem nakPacket_inbox (c : BitVec 4) (d : Dir) (s : State) : (nakPacket c d s).inbox = s.inbox := by unfold nakPacket; dsimp only; repeat (first | split | simp)

/-! stallPacket writes eps, chans, evq, wire only. -/

@[simp] theorem stallPacket_cfg (c : BitVec 4) (d : Dir) (s : State) : (stallPacket c d s).cfg = s.cfg := by simp [stallPacket]
@[simp] theorem stallPacket_gie (c : BitVec 4) (d : Dir) (s : State) : (stallPacket c d s).gie = s.gie := by simp [stallPacket]
@[simp] theorem stallPacket_role (c : BitVec 4) (d : Dir) (s : State) : (stallPacket c d s).role = s.role := by simp [stallPacket]
@[simp] theorem stallPacket_initDone (c : BitVec 4) (d : Dir) (s : State) : (stallPacket c d s).initDone = s.initDone := by simp [stallPacket]
@[simp] theorem stallPacket_fatal (c : BitVec 4) (d : Dir) (s : State) : (stallPacket c d s).fatal = s.fatal := by simp [stallPacket]
@[simp] theorem stallPacket_intEn (c : BitVec 4) (d : Dir) (s : State) : (stallPacket c d s).intEn = s.intEn := by simp [stallPacket]
@[simp] theorem stallPacket_nakLimit (c : BitVec 4) (d : Dir) (s : State) : (stallPacket c d s).nakLimit = s.nakLimit := by simp [stallPacket]
@[simp] theorem stallPacket_arg0 (c : BitVec 4) (d : Dir) (s : State) : (stallPacket c d s).arg0 = s.arg0 := by simp [stallPacket]
@[simp] theorem stallPacket_result (c : BitVec 4) (d : Dir) (s : State) : (stallPacket c d s).result = s.result := by simp [stallPacket]
@[simp] theorem stallPacket_result2 (c : BitVec 4) (d : Dir) (s : State) : (stallPacket c d s).result2 = s.result2 := by simp [stallPacket]
@[simp] theorem stallPacket_arena (c : BitVec 4) (d : Dir) (s : State) : (stallPacket c d s).arena = s.arena := by simp [stallPacket]
@[simp] theorem stallPacket_mem (c : BitVec 4) (d : Dir) (s : State) : (stallPacket c d s).mem = s.mem := by simp [stallPacket]
@[simp] theorem stallPacket_rdata (c : BitVec 4) (d : Dir) (s : State) : (stallPacket c d s).rdata = s.rdata := by simp [stallPacket]
@[simp] theorem stallPacket_loaded (c : BitVec 4) (d : Dir) (s : State) : (stallPacket c d s).loaded = s.loaded := by simp [stallPacket]
@[simp] theorem stallPacket_inbox (c : BitVec 4) (d : Dir) (s : State) : (stallPacket c d s).inbox = s.inbox := by simp [stallPacket]

/-! frameHalf writes eps, chans only. -/

@[simp] theorem frameHalf_cfg (h : Nat) (d : Dir) (s : State) : (frameHalf h d s).cfg = s.cfg := by unfold frameHalf; dsimp only; repeat (first | split | simp)
@[simp] theorem frameHalf_gie (h : Nat) (d : Dir) (s : State) : (frameHalf h d s).gie = s.gie := by unfold frameHalf; dsimp only; repeat (first | split | simp)
@[simp] theorem frameHalf_role (h : Nat) (d : Dir) (s : State) : (frameHalf h d s).role = s.role := by unfold frameHalf; dsimp only; repeat (first | split | simp)
@[simp] theorem frameHalf_initDone (h : Nat) (d : Dir) (s : State) : (frameHalf h d s).initDone = s.initDone := by unfold frameHalf; dsimp only; repeat (first | split | simp)
@[simp] theorem frameHalf_fatal (h : Nat) (d : Dir) (s : State) : (frameHalf h d s).fatal = s.fatal := by unfold frameHalf; dsimp only; repeat (first | split | simp)
@[simp] theorem frameHalf_intEn (h : Nat) (d : Dir) (s : State) : (frameHalf h d s).intEn = s.intEn := by unfold frameHalf; dsimp only; repeat (first | split | simp)
@[simp] theorem frameHalf_nakLimit (h : Nat) (d : Dir) (s : State) : (frameHalf h d s).nakLimit = s.nakLimit := by unfold frameHalf; dsimp only; repeat (first | split | simp)
@[simp] theorem frameHalf_arg0 (h : Nat) (d : Dir) (s : State) : (frameHalf h d s).arg0 = s.arg0 := by unfold frameHalf; dsimp only; repeat (first | split | simp)
@[simp] theorem frameHalf_result (h : Nat) (d : Dir) (s : State) : (frameHalf h d s).result = s.result := by unfold frameHalf; dsimp only; repeat (first | split | simp)
@[simp] theorem frameHalf_result2 (h : Nat) (d : Dir) (s : State) : (frameHalf h d s).result2 = s.result2 := by unfold frameHalf; dsimp only; repeat (first | split | simp)
@[simp] theorem frameHalf_arena (h : Nat) (d : Dir) (s : State) : (frameHalf h d s).arena = s.arena := by unfold frameHalf; dsimp only; repeat (first | split | simp)
@[simp] theorem frameHalf_evq (h : Nat) (d : Dir) (s : State) : (frameHalf h d s).evq = s.evq := by unfold frameHalf; dsimp only; repeat (first | split | simp)
@[simp] theorem frameHalf_mem (h : Nat) (d : Dir) (s : State) : (frameHalf h d s).mem = s.mem := by unfold frameHalf; dsimp only; repeat (first | split | simp)
@[simp] theorem frameHalf_rdata (h : Nat) (d : Dir) (s : State) : (frameHalf h d s).rdata = s.rdata := by unfold frameHalf; dsimp only; repeat (first | split | simp)
@[simp] theorem frameHalf_loaded (h : Nat) (d : Dir) (s : State) : (frameHalf h d s).loaded = s.loaded := by unfold frameHalf; dsimp only; repeat (first | split | simp)
@[simp] theorem frameHalf_wire (h : Nat) (d : Dir) (s : State) : (frameHalf h d s).wire = s.wire := by unfold frameHalf; dsimp only; repeat (first | split | simp)
@[simp] theorem frameHalf_inbox (h : Nat) (d : Dir) (s : State) : (frameHalf h d s).inbox = s.inbox := by unfold frameHalf; dsimp only; repeat (first | split | simp)

/-! The primitive updates' own fields. -/

@[simp] theorem arenaWrite_arena (off : Nat) (bytes : List Byte) (s : State) :
    (arenaWrite off bytes s).arena = Memory.writeBytes s.arena off bytes := rfl
@[simp] theorem memWrite_mem (a : Nat) (bytes : List Byte) (s : State) :
    (memWrite a bytes s).mem = Memory.writeBytes s.mem a bytes := rfl
@[simp] theorem setEntry_eps (h : Nat) (e : Entry) (s : State) : (setEntry h e s).eps = s.eps.set h e := rfl
@[simp] theorem setChan_chans (c : Nat) (x : Channel) (s : State) : (setChan c x s).chans = s.chans.set c x := rfl
@[simp] theorem push_evq (w : Word) (s : State) : (push w s).evq = s.evq ++ [w] := rfl
@[simp] theorem reject_result (code : Status) (s : State) : (reject code s).result = field 0 code.code := rfl
@[simp] theorem reject_result2 (code : Status) (s : State) : (reject code s).result2 = 0 := rfl
@[simp] theorem accept_result (s : State) : (accept s).result = 0 := rfl
@[simp] theorem accept_result2 (s : State) : (accept s).result2 = 0 := rfl
@[simp] theorem acceptHandle_result (h : Nat) (s : State) : (acceptHandle h s).result = field 8 (BitVec.ofNat 8 h) := rfl
@[simp] theorem acceptHandle_result2 (h : Nat) (s : State) : (acceptHandle h s).result2 = 0 := rfl
@[simp] theorem returnRead_rdata (v : Word) (s : State) : (returnRead v s).rdata = v := rfl
@[simp] theorem cpuStore_mem (cells : List (Word × Byte)) (s : State) :
    (cpuStore cells s).mem = Memory.writeCells s.mem cells := rfl
@[simp] theorem cpuLoad_loaded (addrs : List Word) (s : State) :
    (cpuLoad addrs s).loaded = addrs.map (fun a => Memory.read s.mem a.toNat) := rfl

end Sys2Proof.Machine
end

