-- ==== Sys2Proof/Laws/Tables.lean ====
section
/-! SUPPORT. What the registry and the channel table read after an update: one lemma per reader per primitive update. -/

namespace Sys2Proof.Machine

@[simp] theorem otherDir_otherDir (d : Dir) : otherDir (otherDir d) = d := by cases d <;> rfl
@[simp] theorem mem_bothDirs (d : Dir) : d ∈ bothDirs := by cases d <;> simp [bothDirs]

/-! ### Entries and halves -/

@[simp] theorem Entry.half_setHalf (e : Entry) (x : Half) (d d' : Dir) :
    (e.setHalf x d).half d' = if d' = d then x else e.half d' := by
  cases d <;> cases d' <;> rfl
@[simp] theorem Entry.setHalf_used (e : Entry) (x : Half) (d : Dir) : (e.setHalf x d).used = e.used := by cases d <;> rfl
@[simp] theorem Entry.setHalf_dev (e : Entry) (x : Half) (d : Dir) : (e.setHalf x d).dev = e.dev := by cases d <;> rfl
@[simp] theorem Entry.setHalf_num (e : Entry) (x : Half) (d : Dir) : (e.setHalf x d).num = e.num := by cases d <;> rfl
@[simp] theorem Entry.half_free (d : Dir) : Entry.free.half d = Half.closed := by cases d <;> rfl

/-- An entry depends on the registry alone. -/
theorem entry_congr {s t : State} (e : t.eps = s.eps) (h : Nat) : entry h t = entry h s := by simp only [entry, e]
/-- A half depends on the registry alone. -/
theorem half_congr {s t : State} (e : t.eps = s.eps) (h : Nat) (d : Dir) : half h d t = half h d s := by
  simp only [half, entry_congr e]

/-- An index outside the registry reads as a free entry. -/
theorem entry_outside {h : Nat} {s : State} (hh : s.eps.length ≤ h) : entry h s = Entry.free := by
  simp [entry, List.getD_eq_getElem?_getD, List.getElem?_eq_none hh]

theorem entry_setEntry (h h' : Nat) (e : Entry) (s : State) :
    entry h' (setEntry h e s) = if h' = h ∧ h < s.eps.length then e else entry h' s := by
  simp only [entry, setEntry, List.getD_eq_getElem?_getD, List.getElem?_set]
  by_cases hh : h = h'
  · subst hh
    by_cases hl : h < s.eps.length
    · simp [hl]
    · simp [hl]
  · simp [hh, Ne.symm hh]

@[simp] theorem eps_length_setEntry (h : Nat) (e : Entry) (s : State) : (setEntry h e s).eps.length = s.eps.length := by simp
@[simp] theorem eps_length_modHalf (h : Nat) (d : Dir) (f : Half → Half) (s : State) :
    (modHalf h d f s).eps.length = s.eps.length := by simp [modHalf]

theorem half_setEntry (h h' : Nat) (d : Dir) (e : Entry) (s : State) :
    half h' d (setEntry h e s) = if h' = h ∧ h < s.eps.length then e.half d else half h' d s := by
  simp only [half, entry_setEntry]
  split <;> rfl

/-- A half after another, or the same, half was changed. -/
theorem half_modHalf (h h' : Nat) (d d' : Dir) (f : Half → Half) (s : State) :
    half h' d' (modHalf h d f s) = if h' = h ∧ d' = d ∧ h < s.eps.length then f (half h d s) else half h' d' s := by
  simp only [modHalf, half_setEntry, Entry.half_setHalf]
  by_cases h1 : h' = h
  · subst h1
    by_cases h2 : d' = d
    · subst h2; simp
    · simp only [h2, ↓reduceIte, false_and, and_false]
      split <;> rfl
  · simp [h1]

/-- The half that was changed. -/
theorem half_modHalf_self {h : Nat} (d : Dir) (f : Half → Half) {s : State} (hh : h < s.eps.length) :
    half h d (modHalf h d f s) = f (half h d s) := by simp [half_modHalf, hh]

/-- Any other half. -/
theorem half_modHalf_other {h h' : Nat} {d d' : Dir} (f : Half → Half) (s : State) (ne : h' ≠ h ∨ d' ≠ d) :
    half h' d' (modHalf h d f s) = half h' d' s := by
  rw [half_modHalf, if_neg]
  rintro ⟨h1, h2, -⟩
  exact ne.elim (· h1) (· h2)

/-- Changing a half changes no identity. -/
theorem entry_modHalf_fields (h h' : Nat) (d : Dir) (f : Half → Half) (s : State) :
    (entry h' (modHalf h d f s)).used = (entry h' s).used ∧ (entry h' (modHalf h d f s)).dev = (entry h' s).dev ∧
    (entry h' (modHalf h d f s)).num = (entry h' s).num := by
  simp only [modHalf, entry_setEntry]
  split
  · obtain ⟨rfl, -⟩ := ‹_›
    simp
  · simp

@[simp] theorem entry_modHalf_used (h h' : Nat) (d : Dir) (f : Half → Half) (s : State) :
    (entry h' (modHalf h d f s)).used = (entry h' s).used := (entry_modHalf_fields h h' d f s).1
@[simp] theorem entry_modHalf_dev (h h' : Nat) (d : Dir) (f : Half → Half) (s : State) :
    (entry h' (modHalf h d f s)).dev = (entry h' s).dev := (entry_modHalf_fields h h' d f s).2.1
@[simp] theorem entry_modHalf_num (h h' : Nat) (d : Dir) (f : Half → Half) (s : State) :
    (entry h' (modHalf h d f s)).num = (entry h' s).num := (entry_modHalf_fields h h' d f s).2.2

/-! ### Channels and slots -/

@[simp] theorem Channel.slot_setSlot (x : Channel) (y : Slot) (d d' : Dir) :
    (x.setSlot y d).slot d' = if d' = d then y else x.slot d' := by
  cases d <;> cases d' <;> rfl
@[simp] theorem Channel.setSlot_adev (x : Channel) (y : Slot) (d : Dir) : (x.setSlot y d).adev = x.adev := by cases d <;> rfl
@[simp] theorem Channel.setSlot_anum (x : Channel) (y : Slot) (d : Dir) : (x.setSlot y d).anum = x.anum := by cases d <;> rfl
@[simp] theorem Channel.slot_free (d : Dir) : Channel.free.slot d = Slot.free := by cases d <;> rfl

/-- A channel depends on the channel table alone. -/
theorem chan_congr {s t : State} (e : t.chans = s.chans) (c : Nat) : chan c t = chan c s := by simp only [chan, e]
/-- A slot depends on the channel table alone. -/
theorem slot_congr {s t : State} (e : t.chans = s.chans) (c : Nat) (d : Dir) : slot c d t = slot c d s := by
  simp only [slot, chan_congr e]

/-- An index outside the table reads as a free channel. -/
theorem chan_outside {c : Nat} {s : State} (hc : s.chans.length ≤ c) : chan c s = Channel.free := by
  simp [chan, List.getD_eq_getElem?_getD, List.getElem?_eq_none hc]

theorem chan_setChan (c c' : Nat) (x : Channel) (s : State) :
    chan c' (setChan c x s) = if c' = c ∧ c < s.chans.length then x else chan c' s := by
  simp only [chan, setChan, List.getD_eq_getElem?_getD, List.getElem?_set]
  by_cases hh : c = c'
  · subst hh
    by_cases hl : c < s.chans.length
    · simp [hl]
    · simp [hl]
  · simp [hh, Ne.symm hh]

@[simp] theorem chans_length_setChan (c : Nat) (x : Channel) (s : State) : (setChan c x s).chans.length = s.chans.length := by
  simp
@[simp] theorem chans_length_modSlot (c : Nat) (d : Dir) (f : Slot → Slot) (s : State) :
    (modSlot c d f s).chans.length = s.chans.length := by simp [modSlot]

theorem slot_setChan (c c' : Nat) (d : Dir) (x : Channel) (s : State) :
    slot c' d (setChan c x s) = if c' = c ∧ c < s.chans.length then x.slot d else slot c' d s := by
  simp only [slot, chan_setChan]
  split <;> rfl

/-- A slot after another, or the same, slot was changed. -/
theorem slot_modSlot (c c' : Nat) (d d' : Dir) (f : Slot → Slot) (s : State) :
    slot c' d' (modSlot c d f s) = if c' = c ∧ d' = d ∧ c < s.chans.length then f (slot c d s) else slot c' d' s := by
  simp only [modSlot, slot_setChan, Channel.slot_setSlot]
  by_cases h1 : c' = c
  · subst h1
    by_cases h2 : d' = d
    · subst h2; simp
    · simp only [h2, ↓reduceIte, false_and, and_false]
      split <;> rfl
  · simp [h1]

/-- The slot that was changed. -/
theorem slot_modSlot_self {c : Nat} (d : Dir) (f : Slot → Slot) {s : State} (hc : c < s.chans.length) :
    slot c d (modSlot c d f s) = f (slot c d s) := by simp [slot_modSlot, hc]

/-- Any other slot. -/
theorem slot_modSlot_other {c c' : Nat} {d d' : Dir} (f : Slot → Slot) (s : State) (ne : c' ≠ c ∨ d' ≠ d) :
    slot c' d' (modSlot c d f s) = slot c' d' s := by
  rw [slot_modSlot, if_neg]
  rintro ⟨h1, h2, -⟩
  exact ne.elim (· h1) (· h2)

/-! ### Registry and channel table do not disturb each other -/

@[simp] theorem entry_setChan (h c : Nat) (x : Channel) (s : State) : entry h (setChan c x s) = entry h s := rfl
@[simp] theorem half_setChan (h c : Nat) (d : Dir) (x : Channel) (s : State) : half h d (setChan c x s) = half h d s := rfl
@[simp] theorem entry_modSlot (h c : Nat) (d : Dir) (f : Slot → Slot) (s : State) : entry h (modSlot c d f s) = entry h s := rfl
@[simp] theorem half_modSlot (h c : Nat) (d d' : Dir) (f : Slot → Slot) (s : State) :
    half h d' (modSlot c d f s) = half h d' s := rfl
@[simp] theorem chan_setEntry (h c : Nat) (e : Entry) (s : State) : chan c (setEntry h e s) = chan c s := rfl
@[simp] theorem slot_setEntry (h c : Nat) (d : Dir) (e : Entry) (s : State) : slot c d (setEntry h e s) = slot c d s := rfl
@[simp] theorem chan_modHalf (h c : Nat) (d : Dir) (f : Half → Half) (s : State) : chan c (modHalf h d f s) = chan c s := rfl
@[simp] theorem slot_modHalf (h c : Nat) (d d' : Dir) (f : Half → Half) (s : State) :
    slot c d' (modHalf h d f s) = slot c d' s := rfl
@[simp] theorem half_push (h : Nat) (d : Dir) (w : Word) (s : State) : half h d (push w s) = half h d s := rfl
@[simp] theorem slot_push (c : Nat) (d : Dir) (w : Word) (s : State) : slot c d (push w s) = slot c d s := rfl

end Sys2Proof.Machine
end

