-- ==== Sys2Proof/Laws/Ops.lean ====
section
/-! SUPPORT. One lemma per shared operation that says once everything it can answer; the meanings' proofs cite these. -/

namespace Sys2Proof.Machine

/-- andThen answers a next state exactly when both halves do. -/
theorem andThen_next {r : Result} {f : State → Result} {t : State} :
    andThen r f = .next t ↔ ∃ u, r = .next u ∧ f u = .next t := by
  cases r <;> simp [andThen]

/-- An admitted access goes on; a refused one is stuck (R86). -/
theorem whenAdmitted_next {a n : Nat} {s t : State} {r : Result} :
    whenAdmitted a n s r = .next t ↔ memAdmits a n s = true ∧ r = .next t := by
  unfold whenAdmitted
  split <;> simp_all

/-- A link event answers a next state exactly when it is enabled and its effect does (R125). -/
theorem whenEnabled_next {c : Bool} {r : Result} {t : State} : whenEnabled c r = .next t ↔ c = true ∧ r = .next t := by
  cases c <;> simp [whenEnabled]

/-- An access of no byte is always admitted (R12). -/
@[simp] theorem memAdmits_zero (a : Nat) (s : State) : memAdmits a 0 s = true := rfl

/-- An admitted access lies inside the address space (R80, R85). -/
theorem memAdmits_inside {a n : Nat} {s : State} (h : memAdmits a n s = true) (hn : n ≠ 0) : a + n ≤ 2 ^ 32 := by
  simp [memAdmits, hn] at h
  simpa using h.1

/-- The check at the end of a step answers a next state only when every invariant of R54 holds in it (R324). -/
theorem checked_next {r : Result} {t : State} : checked r = .next t ↔ r = .next t ∧ firstBroken t = none := by
  cases r with
  | next s =>
    simp only [checked]
    cases h : firstBroken s with
    | none =>
      simp only [Host.Outcome.next.injEq]
      constructor
      · rintro rfl; exact ⟨rfl, h⟩
      · exact fun h => h.1
    | some n =>
      simp only [Host.Outcome.next.injEq, reduceCtorEq, false_iff, not_and]
      rintro rfl
      simp [h]
  | fault e => simp [checked]
  | refused e => simp [checked]

/-- No invariant is broken exactly when all eight hold (R54). -/
theorem firstBroken_none {s : State} :
    firstBroken s = none ↔ Inv1 s ∧ Inv2 s ∧ Inv3 s ∧ Inv4 s ∧ Inv5 s ∧ Inv6 s ∧ Inv7 s ∧ Inv8 s := by
  have guard (p : Prop) [Decidable p] (n : Nat) (o : Option Nat) : (if ¬ p then some n else o) = none ↔ p ∧ o = none := by
    by_cases h : p <;> simp [h]
  simp only [firstBroken, guard, and_true]

/-- A channel that ChAcquire gives exists, and its slot is free: it serves the entry the other way, or is fully free (R170). -/
theorem chAcquire_some {h c : Nat} {d : Dir} {s : State} (e : chAcquire h d s = some c) :
    c < s.cfg.numCh ∧ (servesOther h d c s = true ∨ fullyFree c s = true) := by
  unfold chAcquire at e
  split at e
  · cases e
    rename_i hf
    exact ⟨List.mem_range.1 (List.mem_of_find?_eq_some hf), .inl (List.find?_some (p := fun c => servesOther h d c s) hf)⟩
  · exact ⟨List.mem_range.1 (List.mem_of_find?_eq_some e), .inr (List.find?_some (p := fun c => fullyFree c s) e)⟩

/-- The slot of an acquired channel is not bound (R170). -/
theorem chAcquire_slot_free {h c : Nat} {d : Dir} {s : State} (e : chAcquire h d s = some c) :
    (slot c d s).bound = false := by
  rcases (chAcquire_some e).2 with h | h
  · simp only [servesOther, Bool.and_eq_true, Bool.not_eq_true'] at h
    exact h.2
  · simp only [fullyFree, Bool.and_eq_true, Bool.not_eq_true'] at h
    cases d
    · exact h.1
    · exact h.2

/-- What the search of R171 finds: an offset reached in steps of the granularity, whose range fits and is free. -/
theorem firstFit_some {size : Nat} {s : State} {fuel o r : Nat} (e : firstFit size s fuel o = some r) :
    r + size ≤ s.cfg.arenaSize ∧ rangeFree r size s = true ∧ ∃ i, r = o + i * s.cfg.arenaGran := by
  induction fuel generalizing o with
  | zero => simp [firstFit] at e
  | succ n ih =>
    simp only [firstFit] at e
    split at e
    · split at e
      · cases e
        exact ⟨‹_›, ‹_›, 0, by simp⟩
      · obtain ⟨h1, h2, i, h3⟩ := ih e
        exact ⟨h1, h2, i + 1, by rw [h3]; ring⟩
    · simp at e

/-- What ArenaAlloc gives: an aligned range inside the arena, disjoint from every bound slot's (R171). -/
theorem arenaAlloc_some {size o : Nat} {s : State} (e : arenaAlloc size s = some o) :
    o + size ≤ s.cfg.arenaSize ∧ rangeFree o size s = true ∧
      ∃ i, o = roundup s.cfg.arenaBase s.cfg.arenaGran + i * s.cfg.arenaGran := firstFit_some e

/-- A free range is apart from every bound slot of the table (R171). -/
theorem rangeFree_apart {o size c : Nat} {d : Dir} {s : State} (e : rangeFree o size s = true) (hc : c < s.cfg.numCh)
    (hb : (slot c d s).bound = true) :
    o + size ≤ (slot c d s).off.toNat ∨ (slot c d s).off.toNat + (slot c d s).size.toNat ≤ o := by
  have h := List.all_eq_true.1 e c (List.mem_range.2 hc)
  simp only [Bool.and_eq_true, clearOf, Bool.or_eq_true, Bool.not_eq_true', decide_eq_true_eq] at h
  cases d
  · rcases h.1 with (h | h) | h
    · simp [hb] at h
    · exact .inl h
    · exact .inr h
  · rcases h.2 with (h | h) | h
    · simp [hb] at h
    · exact .inl h
    · exact .inr h

/-- One round of Reserve, and StartHost: everything it can answer (R153, R202). -/
theorem reserveHalf_ok {h mps : Nat} {dev : BitVec 7} {num : BitVec 4} {d : Dir} {s t : State}
    (e : reserveHalf h dev num mps d s = .ok t) :
    ∃ c o, chAcquire h d s = some c ∧ arenaAlloc (roundup mps s.cfg.arenaGran) s = some o ∧
      t = bindSlot c d h dev num o (roundup mps s.cfg.arenaGran) s := by
  unfold reserveHalf at e
  split at e
  · cases e
  · split at e
    · cases e
    · cases e
      exact ⟨_, _, ‹_›, ‹_›, rfl⟩

/-- The only statuses of a failed reservation are NOCHAN and NOMEM (R153, R202). -/
theorem reserveHalf_error {h mps : Nat} {dev : BitVec 7} {num : BitVec 4} {d : Dir} {s : State} {x : Status}
    (e : reserveHalf h dev num mps d s = .error x) : x = .nochan ∨ x = .nomem := by
  unfold reserveHalf at e
  split at e
  · cases e; exact .inl rfl
  · split at e
    · cases e; exact .inr rfl
    · cases e

/-- Settlement appends exactly one word, the completion of the half with its count (R230). -/
@[simp] theorem settle_evq (h : Nat) (d : Dir) (o : XferOutcome) (s : State) :
    (settle h d o s).evq = s.evq ++ [xferComplete o d h (half h d s).done] := by simp [settle]

@[simp] theorem abortHalf_evq (h : Nat) (d : Dir) (s : State) :
    (abortHalf h d s).evq = s.evq ++ [xferComplete .failedAbort d h (half h d s).done] := by
  simp [abortHalf, half_congr (setValid_eps _ _ _ s)]

/-- What arming a sending half answers: only an admitted access, and then the packet in the arena (R210). -/
theorem armSend_next {h : Nat} {d : Dir} {s t : State} (e : armSend h d s = .next t) :
    memAdmits ((half h d s).buf.toNat + (half h d s).done.toNat) (nextLen (half h d s)) s = true ∧
    t = setValid (half h d s).ch.toNat d true (setCnt (half h d s).ch.toNat d (nextLen (half h d s))
      (arenaWrite (slot (half h d s).ch.toNat d s).off.toNat
        (Memory.readBytes s.mem ((half h d s).buf.toNat + (half h d s).done.toNat) (nextLen (half h d s))) s)) := by
  obtain ⟨h1, h2⟩ := whenAdmitted_next.1 e
  exact ⟨h1, (Host.Outcome.next.inj h2).symm⟩

/-- What arming answers, in either direction (R210, R211). -/
theorem arm_next {h : Nat} {d : Dir} {s t : State} (e : arm h d s = .next t) :
    (isSend s.role d = true ∧ armSend h d s = .next t) ∨ (isSend s.role d = false ∧ t = armReceive h d s) := by
  unfold arm at e
  cases hs : isSend s.role d
  · rw [hs, if_neg Bool.false_ne_true] at e
    exact .inr ⟨rfl, (Host.Outcome.next.inj e).symm⟩
  · rw [hs, if_pos rfl] at e
    exact .inl ⟨rfl, e⟩

/-- A command word decodes to a command: executeCommand never refuses for want of one (R115, R325). -/
theorem executeCommand_eq_exec (w : Word) (s : State) : executeCommand w s = exec (decodeCommand w) s := by
  unfold executeCommand decodeCommand
  split <;> rfl

/-- Doing something for every entry keeps what each round keeps. -/
theorem forEntries_keeps {α : Type} (g : State → α) {f : Nat → State → State} (hf : ∀ h s, g (f h s) = g s) (s : State) :
    g (forEntries f s) = g s := by
  unfold forEntries
  generalize List.range s.cfg.epMax = l
  induction l generalizing s with
  | nil => rfl
  | cons h l ih => rw [List.foldl_cons, ih, hf]

end Sys2Proof.Machine
end

