-- ==== Sys2Proof/Laws/Good.lean ====
section
/-! SUPPORT. A good state put together from three questions: the tables and memories, the invariants of R54 as the machine itself
checks them, and the facts about endpoints and transfers. -/

namespace Sys2Proof.Safety

open Sys2Proof.Machine

/-- The facts of Good about what is open, beside the invariants of R54. -/
abbrev EndpointFacts (s : State) : Prop := BeforeInit s ∧ ClosedHalves s ∧ OpenSizes s ∧ CoLocated s

/-- The facts of Good about what is in flight, but for the armed counts. -/
abbrev TransferFacts (s : State) : Prop := SetupTransfers s ∧ Buffers s ∧ RetryCounts s

/-- A good state passes the machine's own check of R54 (R324). -/
theorem firstBroken_of_good {s : State} (g : Good s) : firstBroken s = none :=
  firstBroken_none.2 ⟨g.inv1, g.inv2, g.inv3, g.inv4, g.inv5, g.inv6, g.inv7, g.inv8Used, g.inv8Pair, g.inv8Unique⟩

/-- A state with its tables in shape that passes the machine's own check of R54, and whose endpoints and transfers meet the
facts the rules imply, is good. -/
theorem good_of_parts {s : State} (data : Shape s ∧ Memories s ∧ s.fatal = false) (r54 : firstBroken s = none)
    (endpoints : EndpointFacts s) (transfers : TransferFacts s) (armedCounts : ArmedCounts s) : Good s := by
  obtain ⟨shape, memories, notFatal⟩ := data
  obtain ⟨inv1, inv2, inv3, inv4, inv5, inv6, inv7, inv8Used, inv8Pair, inv8Unique⟩ := firstBroken_none.1 r54
  obtain ⟨beforeInit, closedHalves, openSizes, coLocated⟩ := endpoints
  obtain ⟨setupTransfers, buffers, retryCounts⟩ := transfers
  exact { shape, memories, inv1, inv2, inv3, inv4, inv5, inv6, inv7, inv8Used, inv8Pair, inv8Unique, beforeInit, closedHalves,
          openSizes, setupTransfers, armedCounts, buffers, retryCounts, coLocated, notFatal }

end Sys2Proof.Safety
end

