-- ==== Sys2Proof/Laws/Words.lean ====
section
/-! SUPPORT. The bits of a word put together from fields, and the fields of a word taken apart. -/

namespace Sys2Proof

/-- A bit of a field placed in a word. -/
@[simp] theorem getLsbD_field {n : Nat} (lo : Nat) (v : BitVec n) (i : Nat) :
    (field lo v).getLsbD i = (decide (i < 32) && decide (lo ≤ i) && v.getLsbD (i - lo)) := by
  unfold field
  rw [BitVec.getLsbD_shiftLeft, BitVec.getLsbD_setWidth]
  by_cases h : i < lo
  · simp [h, show ¬ lo ≤ i by omega]
  · by_cases hi : i < 32
    · simp [h, hi, show lo ≤ i by omega, show i - lo < 32 by omega]
    · simp [hi]

/-- A bit of a flag placed in a word. -/
@[simp] theorem getLsbD_flag (k : Nat) (b : Bool) (i : Nat) :
    (flag k b).getLsbD i = (decide (i < 32) && decide (i = k) && b) := by
  unfold flag
  rw [getLsbD_field, BitVec.getLsbD_ofBool]
  by_cases h : i = k
  · subst h; simp
  · by_cases hk : k ≤ i
    · simp [h, show ¬ i - k = 0 by omega]
    · simp [h, hk]

@[simp] theorem getElem_field {n : Nat} (lo : Nat) (v : BitVec n) (i : Nat) (hi : i < 32) :
    (field lo v)[i]'hi = (decide (lo ≤ i) && v.getLsbD (i - lo)) := by
  rw [← BitVec.getLsbD_eq_getElem, getLsbD_field]
  simp [hi]

@[simp] theorem getElem_flag (k : Nat) (b : Bool) (i : Nat) (hi : i < 32) :
    (flag k b)[i]'hi = (decide (i = k) && b) := by
  rw [← BitVec.getLsbD_eq_getElem, getLsbD_flag]
  simp [hi]

/-- A bit of a field taken from a word. -/
@[simp] theorem getLsbD_bits (w : Word) (lo n i : Nat) : (bits w lo n).getLsbD i = (decide (i < n) && w.getLsbD (lo + i)) := by
  simp [bits, BitVec.getLsbD_extractLsb']

/-- Words are equal when their bits are. -/
theorem word_ext {v w : Word} (h : ∀ i, i < 32 → v.getLsbD i = w.getLsbD i) : v = w := BitVec.eq_of_getLsbD_eq h

@[simp] theorem dirOfBit_toBit (d : Dir) : dirOfBit (d.toBit.getLsbD 0) = d := by cases d <;> rfl
@[simp] theorem roleOfBit_toBit (r : Role) : roleOfBit (r.toBit.getLsbD 0) = r := by cases r <;> rfl
@[simp] theorem typeOfBits_toBits (t : XferType) : typeOfBits t.toBits = t := by cases t <;> rfl
@[simp] theorem toBit_dirOfBit (b : Bool) : (dirOfBit b).toBit = BitVec.ofBool b := by cases b <;> rfl
@[simp] theorem toBit_roleOfBit (b : Bool) : (roleOfBit b).toBit = BitVec.ofBool b := by cases b <;> rfl
@[simp] theorem toBits_typeOfBits (b : BitVec 2) : (typeOfBits b).toBits = b := by
  have : ∀ b : BitVec 2, (typeOfBits b).toBits = b := by decide
  exact this b

end Sys2Proof
end

