-- ==== Sys2Proof/Laws/PerInstr.lean ====
section
/-! SUPPORT. One family of statements about every instruction as syntax: its encoding lies in its own row of
spec/opcode_table.json, whose mask and match are copied here from the table's text. -/

namespace Sys2Proof.Laws.TableRow

/-- The three classes of rows: a word written to CMD, a link event word, a register offset. -/
inductive RowClass where
  | command
  | link
  | register
deriving DecidableEq, Repr

/-- A row's class, mask and match. -/
structure Row where
  cls   : RowClass
  mask  : Word
  value : Word
deriving DecidableEq, Repr

/-- The rows of spec/opcode_table.json. -/
def row : Instr → Row
  | .init _ _ => ⟨.command, 0xF0000000, 0x10000000⟩
  | .epOpen _ _ _ _ _ _ => ⟨.command, 0xF0000000, 0x20000000⟩
  | .epClose _ _ _ => ⟨.command, 0xF0000000, 0x30000000⟩
  | .epFind _ _ _ _ _ => ⟨.command, 0xF0000000, 0x40000000⟩
  | .xferSubmit _ _ _ _ _ _ => ⟨.command, 0xF0000000, 0x50000000⟩
  | .xferAbort _ _ _ => ⟨.command, 0xF0000000, 0x60000000⟩
  | .epClearStall _ _ _ => ⟨.command, 0xF0000000, 0x70000000⟩
  | .devClose _ _ _ => ⟨.command, 0xF0000000, 0x80000000⟩
  | .epQuery _ _ _ => ⟨.command, 0xF0000000, 0x90000000⟩
  | .illegal0 _ => ⟨.command, 0xF0000000, 0x00000000⟩
  | .illegalA _ => ⟨.command, 0xF0000000, 0xA0000000⟩
  | .illegalB _ => ⟨.command, 0xF0000000, 0xB0000000⟩
  | .illegalC _ => ⟨.command, 0xF0000000, 0xC0000000⟩
  | .illegalD _ => ⟨.command, 0xF0000000, 0xD0000000⟩
  | .illegalE _ => ⟨.command, 0xF0000000, 0xE0000000⟩
  | .illegalF _ => ⟨.command, 0xF0000000, 0xF0000000⟩
  | .linkTxAck _ _ => ⟨.link, 0xF07FFFFF, 0x10000000⟩
  | .linkRxData _ _ _ _ _ => ⟨.link, 0xF00007FF, 0x20000000⟩
  | .linkNak _ _ => ⟨.link, 0xF07FFFFF, 0x30000000⟩
  | .linkStall _ _ => ⟨.link, 0xF07FFFFF, 0x40000000⟩
  | .linkXerr _ _ => ⟨.link, 0xF07FFFFF, 0x50000000⟩
  | .linkSetupRx _ _ _ _ => ⟨.link, 0xF04007FF, 0x60000000⟩
  | .linkFrame => ⟨.link, 0xFFFFFFFF, 0x70000000⟩
  | .linkBusReset => ⟨.link, 0xFFFFFFFF, 0x80000000⟩
  | .linkAttach _ => ⟨.link, 0xFFFFFBFF, 0x90000000⟩
  | .linkDetach => ⟨.link, 0xFFFFFFFF, 0xA0000000⟩
  | .linkSuspend => ⟨.link, 0xFFFFFFFF, 0xB0000000⟩
  | .linkResume => ⟨.link, 0xFFFFFFFF, 0xC0000000⟩
  | .linkReserved0 _ _ => ⟨.link, 0xF0000000, 0x00000000⟩
  | .linkReservedD _ _ => ⟨.link, 0xF0000000, 0xD0000000⟩
  | .linkReservedE _ _ => ⟨.link, 0xF0000000, 0xE0000000⟩
  | .linkReservedF _ _ => ⟨.link, 0xF0000000, 0xF0000000⟩
  | .regCtrl _ => ⟨.register, 0x0000003F, 0x00000000⟩
  | .regIntEn _ => ⟨.register, 0x0000003F, 0x00000004⟩
  | .regNakLimit _ => ⟨.register, 0x0000003F, 0x00000008⟩
  | .regArg0 _ => ⟨.register, 0x0000003F, 0x0000000C⟩
  | .regCmd _ => ⟨.register, 0x0000003F, 0x00000010⟩
  | .regResult _ => ⟨.register, 0x0000003F, 0x00000014⟩
  | .regResult2 _ => ⟨.register, 0x0000003F, 0x00000018⟩
  | .regEvqStatus _ => ⟨.register, 0x0000003F, 0x0000001C⟩
  | .regEvqPop _ => ⟨.register, 0x0000003F, 0x00000020⟩
  | .regEvqPeek _ => ⟨.register, 0x0000003F, 0x00000024⟩
  | .regParam0 _ => ⟨.register, 0x0000003F, 0x00000028⟩
  | .regParam1 _ => ⟨.register, 0x0000003F, 0x0000002C⟩
  | .regParam2 _ => ⟨.register, 0x0000003F, 0x00000030⟩
  | .regReserved34 _ => ⟨.register, 0x0000003F, 0x00000034⟩
  | .regReserved38 _ => ⟨.register, 0x0000003F, 0x00000038⟩
  | .regReserved3C _ => ⟨.register, 0x0000003F, 0x0000003C⟩

/-- A raw instruction matches a row: the command word is written to CMD, the link event word is reported, or the register is
accessed at the row's offset. -/
def fits (base : Word) (r : Row) : RawInstr → Prop
  | .read addr width => r.cls = .register ∧ width = 32 ∧ (addr - base) &&& r.mask = r.value
  | .write addr width v =>
    width = 32 ∧ ((r.cls = .register ∧ (addr - base) &&& r.mask = r.value) ∨
      (r.cls = .command ∧ addr - base = 0x10 ∧ v &&& r.mask = r.value))
  | .link w _ => r.cls = .link ∧ w &&& r.mask = r.value

/-- The encoding of a well-formed instruction lies in the instruction's own row (R112, R122, R30). -/
def Statement (i : Instr) : Prop := wellFormed i = true → ∀ base, fits base (row i) (encode base i)

theorem offset_eq (base o : Word) : base + o - base = o := by
  rw [BitVec.add_comm, BitVec.add_sub_cancel]

theorem fits_command {base v mask value : Word} (h : v &&& mask = value) :
    fits base ⟨.command, mask, value⟩ (encodeCommand base v) :=
  ⟨rfl, .inr ⟨rfl, offset_eq base 0x10, h⟩⟩

theorem fits_link {base w mask value : Word} {data : List Byte} (h : w &&& mask = value) :
    fits base ⟨.link, mask, value⟩ (.link w data) := ⟨rfl, h⟩

theorem fits_register {base o mask value : Word} (a : RegAccess) (h : o &&& mask = value) :
    fits base ⟨.register, mask, value⟩ (encodeReg base o a) := by
  cases a
  · exact ⟨rfl, rfl, by rw [offset_eq]; exact h⟩
  · exact ⟨rfl, .inl ⟨rfl, by rw [offset_eq]; exact h⟩⟩

theorem init (z : BitVec 27) (role : Role) : Statement (.init z role) := fun _ base => fits_command (word_ext (by
  intro i hi; interval_cases i <;> simp))
theorem epOpen (type : XferType) (mps : BitVec 11) (dev : BitVec 7) (dir : Dir) (z : BitVec 3) (num : BitVec 4) : Statement (.epOpen type mps dev dir z num) := fun _ base => fits_command (word_ext (by
  intro i hi; interval_cases i <;> simp))
theorem epClose (z : BitVec 19) (dir : Dir) (handle : BitVec 8) : Statement (.epClose z dir handle) := fun _ base => fits_command (word_ext (by
  intro i hi; interval_cases i <;> simp))
theorem epFind (z : BitVec 13) (dev : BitVec 7) (dir : Dir) (z2 : BitVec 3) (num : BitVec 4) : Statement (.epFind z dev dir z2 num) := fun _ base => fits_command (word_ext (by
  intro i hi; interval_cases i <;> simp))
theorem xferSubmit (setup zlp : Bool) (len : BitVec 16) (z : BitVec 1) (dir : Dir) (handle : BitVec 8) : Statement (.xferSubmit setup zlp len z dir handle) := fun _ base => fits_command (word_ext (by
  intro i hi; interval_cases i <;> simp))
theorem xferAbort (z : BitVec 19) (dir : Dir) (handle : BitVec 8) : Statement (.xferAbort z dir handle) := fun _ base => fits_command (word_ext (by
  intro i hi; interval_cases i <;> simp))
theorem epClearStall (z : BitVec 19) (dir : Dir) (handle : BitVec 8) : Statement (.epClearStall z dir handle) := fun _ base => fits_command (word_ext (by
  intro i hi; interval_cases i <;> simp))
theorem devClose (z : BitVec 13) (dev : BitVec 7) (z2 : BitVec 8) : Statement (.devClose z dev z2) := fun _ base => fits_command (word_ext (by
  intro i hi; interval_cases i <;> simp))
theorem epQuery (z : BitVec 19) (dir : Dir) (handle : BitVec 8) : Statement (.epQuery z dir handle) := fun _ base => fits_command (word_ext (by
  intro i hi; interval_cases i <;> simp))
theorem illegal0 (x : BitVec 28) : Statement (.illegal0 x) := fun _ base => fits_command (word_ext (by
  intro i hi; interval_cases i <;> simp))
theorem illegalA (x : BitVec 28) : Statement (.illegalA x) := fun _ base => fits_command (word_ext (by
  intro i hi; interval_cases i <;> simp))
theorem illegalB (x : BitVec 28) : Statement (.illegalB x) := fun _ base => fits_command (word_ext (by
  intro i hi; interval_cases i <;> simp))
theorem illegalC (x : BitVec 28) : Statement (.illegalC x) := fun _ base => fits_command (word_ext (by
  intro i hi; interval_cases i <;> simp))
theorem illegalD (x : BitVec 28) : Statement (.illegalD x) := fun _ base => fits_command (word_ext (by
  intro i hi; interval_cases i <;> simp))
theorem illegalE (x : BitVec 28) : Statement (.illegalE x) := fun _ base => fits_command (word_ext (by
  intro i hi; interval_cases i <;> simp))
theorem illegalF (x : BitVec 28) : Statement (.illegalF x) := fun _ base => fits_command (word_ext (by
  intro i hi; interval_cases i <;> simp))
theorem linkTxAck (ch : BitVec 4) (dir : Dir) : Statement (.linkTxAck ch dir) := fun _ base => fits_link (word_ext (by
  intro i hi; interval_cases i <;> simp [slotKindWord]))
theorem linkRxData (ch : BitVec 4) (dir : Dir) (pid : Bool) (n : BitVec 11) (data : List Byte) : Statement (.linkRxData ch dir pid n data) := fun _ base => fits_link (word_ext (by
  intro i hi; interval_cases i <;> simp [slotKindWord]))
theorem linkNak (ch : BitVec 4) (dir : Dir) : Statement (.linkNak ch dir) := fun _ base => fits_link (word_ext (by
  intro i hi; interval_cases i <;> simp [slotKindWord]))
theorem linkStall (ch : BitVec 4) (dir : Dir) : Statement (.linkStall ch dir) := fun _ base => fits_link (word_ext (by
  intro i hi; interval_cases i <;> simp [slotKindWord]))
theorem linkXerr (ch : BitVec 4) (dir : Dir) : Statement (.linkXerr ch dir) := fun _ base => fits_link (word_ext (by
  intro i hi; interval_cases i <;> simp [slotKindWord]))
theorem linkSetupRx (ch : BitVec 4) (dir : Dir) (n : BitVec 11) (data : List Byte) : Statement (.linkSetupRx ch dir n data) := fun _ base => fits_link (word_ext (by
  intro i hi; interval_cases i <;> simp [slotKindWord]))
theorem linkFrame : Statement (.linkFrame) := fun _ base => fits_link (word_ext (by
  intro i hi; interval_cases i <;> simp))
theorem linkBusReset : Statement (.linkBusReset) := fun _ base => fits_link (word_ext (by
  intro i hi; interval_cases i <;> simp))
theorem linkAttach (speed : Bool) : Statement (.linkAttach speed) := fun _ base => fits_link (word_ext (by
  intro i hi; interval_cases i <;> simp))
theorem linkDetach : Statement (.linkDetach) := fun _ base => fits_link (word_ext (by
  intro i hi; interval_cases i <;> simp))
theorem linkSuspend : Statement (.linkSuspend) := fun _ base => fits_link (word_ext (by
  intro i hi; interval_cases i <;> simp))
theorem linkResume : Statement (.linkResume) := fun _ base => fits_link (word_ext (by
  intro i hi; interval_cases i <;> simp))
theorem linkReserved0 (x : BitVec 28) (data : List Byte) : Statement (.linkReserved0 x data) := fun h => nomatch h
theorem linkReservedD (x : BitVec 28) (data : List Byte) : Statement (.linkReservedD x data) := fun h => nomatch h
theorem linkReservedE (x : BitVec 28) (data : List Byte) : Statement (.linkReservedE x data) := fun h => nomatch h
theorem linkReservedF (x : BitVec 28) (data : List Byte) : Statement (.linkReservedF x data) := fun h => nomatch h
theorem regCtrl (a : RegAccess) : Statement (.regCtrl a) := fun _ base => fits_register a (by decide)
theorem regIntEn (a : RegAccess) : Statement (.regIntEn a) := fun _ base => fits_register a (by decide)
theorem regNakLimit (a : RegAccess) : Statement (.regNakLimit a) := fun _ base => fits_register a (by decide)
theorem regArg0 (a : RegAccess) : Statement (.regArg0 a) := fun _ base => fits_register a (by decide)
theorem regCmd (a : RegAccess) : Statement (.regCmd a) := fun _ base => fits_register a (by decide)
theorem regResult (a : RegAccess) : Statement (.regResult a) := fun _ base => fits_register a (by decide)
theorem regResult2 (a : RegAccess) : Statement (.regResult2 a) := fun _ base => fits_register a (by decide)
theorem regEvqStatus (a : RegAccess) : Statement (.regEvqStatus a) := fun _ base => fits_register a (by decide)
theorem regEvqPop (a : RegAccess) : Statement (.regEvqPop a) := fun _ base => fits_register a (by decide)
theorem regEvqPeek (a : RegAccess) : Statement (.regEvqPeek a) := fun _ base => fits_register a (by decide)
theorem regParam0 (a : RegAccess) : Statement (.regParam0 a) := fun _ base => fits_register a (by decide)
theorem regParam1 (a : RegAccess) : Statement (.regParam1 a) := fun _ base => fits_register a (by decide)
theorem regParam2 (a : RegAccess) : Statement (.regParam2 a) := fun _ base => fits_register a (by decide)
theorem regReserved34 (a : RegAccess) : Statement (.regReserved34 a) := fun _ base => fits_register a (by decide)
theorem regReserved38 (a : RegAccess) : Statement (.regReserved38 a) := fun _ base => fits_register a (by decide)
theorem regReserved3C (a : RegAccess) : Statement (.regReserved3C a) := fun _ base => fits_register a (by decide)

end Sys2Proof.Laws.TableRow
end

