-- ==== Sys2Proof/Tests/Slice0.lean ====
section
/-! SUPPORT. The model's own tests. Expected values come from the spec's worked encodings (R118, R121, R126), its opcode table
and its vectors and examples (95_test_vectors.md, the rules' Example lines). The witness theorems show states and operands that
meet the hypotheses of each statement in Certificates/Slice0/Obligations.lean. -/

namespace Sys2Proof.Tests

open Sys2Proof.Machine Sys2Proof.Safety Sys2Proof.Claims

/-! ### Well-formedness: an ill-formed term for each check -/

theorem test_wf_rx_short : wellFormed (.linkRxData 0 .inn false 3 [1, 2]) = false := by decide
theorem test_wf_rx_fits : wellFormed (.linkRxData 0 .inn false 2 [1, 2]) = true := by decide
theorem test_wf_setup_count : wellFormed (.linkSetupRx 0 .out 7 [1, 2, 3, 4, 5, 6, 7]) = false := by decide
theorem test_wf_setup_payload : wellFormed (.linkSetupRx 0 .out 8 [1, 2, 3, 4, 5, 6, 7]) = false := by decide
theorem test_wf_setup_fits : wellFormed (.linkSetupRx 0 .out 8 [1, 2, 3, 4, 5, 6, 7, 8]) = true := by decide
theorem test_wf_reserved_0 : wellFormed (.linkReserved0 0 []) = false := by decide
theorem test_wf_reserved_D : wellFormed (.linkReservedD 0 []) = false := by decide
theorem test_wf_reserved_E : wellFormed (.linkReservedE 0 []) = false := by decide
theorem test_wf_reserved_F : wellFormed (.linkReservedF 0 []) = false := by decide
theorem test_wf_cmd_write : wellFormed (.regCmd (.write 0x10000001)) = false := by decide

/-! ### Decoding: a word per constructor, written out from the field layouts -/

theorem test_decode_init : decode 0 (.write 0x10 32 0x10000001) = .ok (.init 0 .host) := by decide
theorem test_decode_init_reserved : decode 0 (.write 0x10 32 0x10000003) = .ok (.init 1 .host) := by decide
theorem test_decode_ep_open : decode 0 (.write 0x10 32 0x2C0483A5) = .ok (.epOpen .intr 9 3 .inn 2 5) := by decide
theorem test_decode_ep_open_118 : decode 0 (.write 0x10 32 0x28200102) = .ok (.epOpen .bulk 64 1 .out 0 2) := by decide
theorem test_decode_ep_close : decode 0 (.write 0x10 32 0x30000103) = .ok (.epClose 0 .inn 3) := by decide
theorem test_decode_ep_find : decode 0 (.write 0x10 32 0x40000181) = .ok (.epFind 0 1 .inn 0 1) := by decide
theorem test_decode_xfer_submit : decode 0 (.write 0x10 32 0x58002000) = .ok (.xferSubmit true false 8 0 .out 0) := by decide
theorem test_decode_xfer_submit_zlp : decode 0 (.write 0x10 32 0x54010101) = .ok (.xferSubmit false true 64 0 .inn 1) := by decide
theorem test_decode_xfer_abort : decode 0 (.write 0x10 32 0x60000107) = .ok (.xferAbort 0 .inn 7) := by decide
theorem test_decode_ep_clear_stall : decode 0 (.write 0x10 32 0x70000200) = .ok (.epClearStall 1 .out 0) := by decide
theorem test_decode_dev_close : decode 0 (.write 0x10 32 0x80000100) = .ok (.devClose 0 1 0) := by decide
theorem test_decode_ep_query : decode 0 (.write 0x10 32 0x900001FF) = .ok (.epQuery 0 .inn 255) := by decide
theorem test_decode_illegal_0 : decode 0 (.write 0x10 32 0x01234567) = .ok (.illegal0 0x1234567) := by decide
theorem test_decode_illegal_A : decode 0 (.write 0x10 32 0xA1234567) = .ok (.illegalA 0x1234567) := by decide
theorem test_decode_illegal_B : decode 0 (.write 0x10 32 0xB1234567) = .ok (.illegalB 0x1234567) := by decide
theorem test_decode_illegal_C : decode 0 (.write 0x10 32 0xC1234567) = .ok (.illegalC 0x1234567) := by decide
theorem test_decode_illegal_D : decode 0 (.write 0x10 32 0xD1234567) = .ok (.illegalD 0x1234567) := by decide
theorem test_decode_illegal_E : decode 0 (.write 0x10 32 0xE1234567) = .ok (.illegalE 0x1234567) := by decide
theorem test_decode_illegal_F : decode 0 (.write 0x10 32 0xF1234567) = .ok (.illegalF 0x1234567) := by decide
theorem test_decode_tx_ack : decode 0 (.link 0x10800000 []) = .ok (.linkTxAck 0 .inn) := by decide
theorem test_decode_rx_data : decode 0 (.link 0x22C01000 [7, 9]) = .ok (.linkRxData 2 .inn true 2 [7, 9]) := by decide
theorem test_decode_nak : decode 0 (.link 0x30800000 []) = .ok (.linkNak 0 .inn) := by decide
theorem test_decode_stall : decode 0 (.link 0x4F000000 []) = .ok (.linkStall 15 .out) := by decide
theorem test_decode_xerr : decode 0 (.link 0x51000000 []) = .ok (.linkXerr 1 .out) := by decide
theorem test_decode_setup_rx : decode 0 (.link 0x60004000 [0x80, 6, 0, 1, 0, 0, 0x40, 0]) = .ok (.linkSetupRx 0 .out 8 [0x80, 6, 0, 1, 0, 0, 0x40, 0]) := by decide
theorem test_decode_frame : decode 0 (.link 0x70000000 []) = .ok (.linkFrame) := by decide
theorem test_decode_bus_reset : decode 0 (.link 0x80000000 []) = .ok (.linkBusReset) := by decide
theorem test_decode_attach : decode 0 (.link 0x90000400 []) = .ok (.linkAttach true) := by decide
theorem test_decode_detach : decode 0 (.link 0xA0000000 []) = .ok (.linkDetach) := by decide
theorem test_decode_suspend : decode 0 (.link 0xB0000000 []) = .ok (.linkSuspend) := by decide
theorem test_decode_resume : decode 0 (.link 0xC0000000 []) = .ok (.linkResume) := by decide
theorem test_decode_reserved_0 : decode 0 (.link 0x01234567 [5]) = .ok (.linkReserved0 0x1234567 [5]) := by decide
theorem test_decode_reserved_D : decode 0 (.link 0xD1234567 [5]) = .ok (.linkReservedD 0x1234567 [5]) := by decide
theorem test_decode_reserved_E : decode 0 (.link 0xE1234567 [5]) = .ok (.linkReservedE 0x1234567 [5]) := by decide
theorem test_decode_reserved_F : decode 0 (.link 0xF1234567 [5]) = .ok (.linkReservedF 0x1234567 [5]) := by decide
theorem test_decode_tx_ack_junk : decode 0 (.link 0x10000001 []) = .error (.illFormedLink 0x10000001) := by decide
theorem test_decode_rx_short : decode 0 (.link 0x22C01000 [7]) = .error (.illFormedLink 0x22C01000) := by decide
theorem test_decode_setup_seven : decode 0 (.link 0x60003800 [1, 2, 3, 4, 5, 6, 7]) = .error (.illFormedLink 0x60003800) := by
  decide
theorem test_decode_frame_junk : decode 0 (.link 0x70000001 []) = .error (.illFormedLink 0x70000001) := by decide
theorem test_decode_read_ctrl : decode 0x100 (.read 0x100 32) = .ok (.regCtrl .read) := by decide
theorem test_decode_read_inten : decode 0x100 (.read 0x104 32) = .ok (.regIntEn .read) := by decide
theorem test_decode_read_naklimit : decode 0x100 (.read 0x108 32) = .ok (.regNakLimit .read) := by decide
theorem test_decode_read_arg0 : decode 0x100 (.read 0x10C 32) = .ok (.regArg0 .read) := by decide
theorem test_decode_read_cmd : decode 0x100 (.read 0x110 32) = .ok (.regCmd .read) := by decide
theorem test_decode_read_result : decode 0x100 (.read 0x114 32) = .ok (.regResult .read) := by decide
theorem test_decode_read_result2 : decode 0x100 (.read 0x118 32) = .ok (.regResult2 .read) := by decide
theorem test_decode_read_evqstatus : decode 0x100 (.read 0x11C 32) = .ok (.regEvqStatus .read) := by decide
theorem test_decode_read_evqpop : decode 0x100 (.read 0x120 32) = .ok (.regEvqPop .read) := by decide
theorem test_decode_read_evqpeek : decode 0x100 (.read 0x124 32) = .ok (.regEvqPeek .read) := by decide
theorem test_decode_read_param0 : decode 0x100 (.read 0x128 32) = .ok (.regParam0 .read) := by decide
theorem test_decode_read_param1 : decode 0x100 (.read 0x12C 32) = .ok (.regParam1 .read) := by decide
theorem test_decode_read_param2 : decode 0x100 (.read 0x130 32) = .ok (.regParam2 .read) := by decide
theorem test_decode_read_reserved34 : decode 0x100 (.read 0x134 32) = .ok (.regReserved34 .read) := by decide
theorem test_decode_read_reserved38 : decode 0x100 (.read 0x138 32) = .ok (.regReserved38 .read) := by decide
theorem test_decode_read_reserved3c : decode 0x100 (.read 0x13C 32) = .ok (.regReserved3C .read) := by decide
theorem test_decode_write_arg0 : decode 0 (.write 0x0C 32 0x20000000) = .ok (.regArg0 (.write 0x20000000)) := by decide
theorem test_decode_read_narrow : decode 0 (.read 0 16) = .error (.regAccess 0 16 false) := by decide
theorem test_decode_read_misaligned : decode 0 (.read 2 32) = .error (.regAccess 2 32 false) := by decide
theorem test_decode_write_outside : decode 0 (.write 0x40 32 5) = .error (.regAccess 64 32 true) := by decide
theorem test_decode_table_command : decodeTableWord 32 0x10000000 = some (.init 0 .device) := by decide
theorem test_decode_table_register : decodeTableWord 8 0x28 = some (.regParam0 .read) := by decide

/-! ### Small states -/

/-- A small legal instance: two channels, two entries, eight arena granules. -/
def small : Config :=
  { numCh := 2, epMax := 2, arenaSize := 64, arenaBase := 0, arenaGran := 8, evqDepth := 5, errRetryMax := 3, blockBase := 0,
    memRefused := [] }

/-- An open, idle half. -/
def openOf (type : XferType) : Half := { Half.closed with isOpen := true, type := type, mps := 8 }

/-- An open half with a transfer of 20 bytes at 0x100 in flight on channel 0. -/
def busyOf (type : XferType) : Half :=
  { openOf type with bound := true, ch := 0, xs := .inflight, buf := 0x100, total := 20 }

/-- The armed slot of entry 0 at arena offset `off`. -/
def armed (off : BitVec 16) : Slot := { bound := true, ep := 0, valid := true, off := off, size := 8, cnt := 8 }

/-- The bytes 1 to 24 at 0x100. -/
def bytes : Memory := (List.range 24).map (fun i => (0x100 + i, BitVec.ofNat 8 (i + 1)))

/-- The host role after INIT, nothing open. -/
def hostEmpty : State := { State.resetWith small with role := .host, initDone := true, intEn := 0x06, mem := bytes, arg0 := 0x100 }

/-- The device role after INIT, nothing open. -/
def deviceEmpty : State :=
  { State.resetWith small with role := .device, initDone := true, intEn := 0x19, mem := bytes, arg0 := 0x100 }

/-- The host role with entry 0 open as (1, 2) by its halves. -/
def hostWith (o i : Half) : State := { hostEmpty with eps := [⟨true, 1, 2, o, i⟩, Entry.free] }

/-- The same with channel 0 bound to entry 0. -/
def hostOn (o i : Half) (so si : Slot) : State := { hostWith o i with chans := [⟨1, 2, so, si⟩, Channel.free] }

/-- The device role with entry 0 open as (0, 2) by its halves, channel 0 bound to it. -/
def deviceOn (o i : Half) (so si : Slot) : State :=
  { deviceEmpty with eps := [⟨true, 0, 2, o, i⟩, Entry.free], chans := [⟨0, 2, so, si⟩, Channel.free] }

def hostIdle : State := hostWith (openOf .bulk) Half.closed
def hostSending : State := hostOn (busyOf .bulk) Half.closed (armed 0) Slot.free
def hostReceiving : State := hostOn Half.closed (busyOf .bulk) Slot.free (armed 0)
def hostSetup : State :=
  hostOn { busyOf .ctrl with setup := true, total := 8 } (openOf .ctrl) (armed 0) Slot.free
def hostInterrupt : State := hostOn Half.closed (busyOf .intr) Slot.free (armed 0)
def hostWaiting : State :=
  hostOn Half.closed { busyOf .intr with xs := .wait, nak := 1 } Slot.free { armed 0 with valid := false }
def hostHalted : State := hostWith { openOf .bulk with halted := true, toggle := true } Half.closed
def deviceIdle : State :=
  deviceOn Half.closed { openOf .bulk with bound := true } Slot.free { armed 0 with valid := false, cnt := 0 }
def deviceReceiving : State := deviceOn (busyOf .bulk) Half.closed (armed 0) Slot.free
def deviceSetup : State :=
  deviceOn { busyOf .ctrl with setup := true, total := 8 } { openOf .ctrl with bound := true } (armed 0)
    { armed 8 with valid := false, cnt := 0 }

def hostIdleIn : State := hostWith Half.closed (openOf .bulk)
def hostControl : State := hostWith (openOf .ctrl) (openOf .ctrl)
def hostLast : State :=
  hostOn { busyOf .bulk with done := 16, toggle := false } Half.closed { armed 0 with cnt := 4 } Slot.free
def hostTired : State := hostOn { busyOf .bulk with err := 3 } Half.closed (armed 0) Slot.free
def hostBudget : State := { hostReceiving with nakLimit := 1 }
def hostRefused : State := { hostIdle with cfg := { small with memRefused := [(0x100, 8)] } }
def hostSendRefused : State := { hostSending with cfg := { small with memRefused := [(0x108, 8)] } }
def hostReceiveRefused : State := { hostReceiving with cfg := { small with memRefused := [(0x100, 8)] } }
def deviceSetupRefused : State := { deviceSetup with cfg := { small with memRefused := [(0x100, 8)] } }

/-- The same state with a full event FIFO. -/
def full (s : State) : State := { s with evq := List.replicate 5 0x70000000 }

/-- One instruction at a state; a stop leaves the state as it was. -/
def after (i : Instr) (s : State) : State :=
  match exec i s with
  | .next t => t
  | .fault _ => s
  | .refused _ => s

/-- Whether an instruction answers a next state. -/
def completes (i : Instr) (s : State) : Bool :=
  match exec i s with
  | .next _ => true
  | .fault _ => false
  | .refused _ => false

theorem exec_after {i : Instr} {s : State} (h : completes i s = true) : exec i s = .next (after i s) := by
  unfold completes at h
  unfold after
  split at h
  · simp [*]
  · cases h
  · cases h

/-- Whether a link event is not enabled. -/
def notEnabled (i : Instr) (s : State) : Bool :=
  match exec i s with
  | .next _ => false
  | .fault _ => false
  | .refused e => e == .linkNotEnabled

theorem good_hostEmpty : Good hostEmpty :=
  good_of_parts (by decide) (by decide) (by decide) (by decide) (by unfold ArmedCounts EveryHalf; decide)

theorem good_deviceEmpty : Good deviceEmpty :=
  good_of_parts (by decide) (by decide) (by decide) (by decide) (by unfold ArmedCounts EveryHalf; decide)

theorem good_hostIdle : Good hostIdle :=
  good_of_parts (by decide) (by decide) (by decide) (by decide) (by unfold ArmedCounts EveryHalf; decide)

theorem good_hostSending : Good hostSending :=
  good_of_parts (by decide) (by decide) (by decide) (by decide) (by unfold ArmedCounts EveryHalf; decide)

theorem good_hostReceiving : Good hostReceiving :=
  good_of_parts (by decide) (by decide) (by decide) (by decide) (by unfold ArmedCounts EveryHalf; decide)

theorem good_hostSetup : Good hostSetup :=
  good_of_parts (by decide) (by decide) (by decide) (by decide) (by unfold ArmedCounts EveryHalf; decide)

theorem good_hostInterrupt : Good hostInterrupt :=
  good_of_parts (by decide) (by decide) (by decide) (by decide) (by unfold ArmedCounts EveryHalf; decide)

theorem good_hostWaiting : Good hostWaiting :=
  good_of_parts (by decide) (by decide) (by decide) (by decide) (by unfold ArmedCounts EveryHalf; decide)

theorem good_hostHalted : Good hostHalted :=
  good_of_parts (by decide) (by decide) (by decide) (by decide) (by unfold ArmedCounts EveryHalf; decide)

theorem good_deviceIdle : Good deviceIdle :=
  good_of_parts (by decide) (by decide) (by decide) (by decide) (by unfold ArmedCounts EveryHalf; decide)

theorem good_deviceReceiving : Good deviceReceiving :=
  good_of_parts (by decide) (by decide) (by decide) (by decide) (by unfold ArmedCounts EveryHalf; decide)

theorem good_deviceSetup : Good deviceSetup :=
  good_of_parts (by decide) (by decide) (by decide) (by decide) (by unfold ArmedCounts EveryHalf; decide)

theorem good_hostIdleIn : Good hostIdleIn :=
  good_of_parts (by decide) (by decide) (by decide) (by decide) (by unfold ArmedCounts EveryHalf; decide)

theorem good_hostControl : Good hostControl :=
  good_of_parts (by decide) (by decide) (by decide) (by decide) (by unfold ArmedCounts EveryHalf; decide)

theorem good_hostLast : Good hostLast :=
  good_of_parts (by decide) (by decide) (by decide) (by decide) (by unfold ArmedCounts EveryHalf; decide)

theorem good_hostTired : Good hostTired :=
  good_of_parts (by decide) (by decide) (by decide) (by decide) (by unfold ArmedCounts EveryHalf; decide)

theorem good_hostBudget : Good hostBudget :=
  good_of_parts (by decide) (by decide) (by decide) (by decide) (by unfold ArmedCounts EveryHalf; decide)

theorem good_hostRefused : Good hostRefused :=
  good_of_parts (by decide) (by decide) (by decide) (by decide) (by unfold ArmedCounts EveryHalf; decide)

theorem good_hostSendRefused : Good hostSendRefused :=
  good_of_parts (by decide) (by decide) (by decide) (by decide) (by unfold ArmedCounts EveryHalf; decide)

theorem good_hostReceiveRefused : Good hostReceiveRefused :=
  good_of_parts (by decide) (by decide) (by decide) (by decide) (by unfold ArmedCounts EveryHalf; decide)

theorem good_deviceSetupRefused : Good deviceSetupRefused :=
  good_of_parts (by decide) (by decide) (by decide) (by decide) (by unfold ArmedCounts EveryHalf; decide)

theorem good_reset : Good (State.resetWith small) :=
  good_of_parts (by decide) (by decide) (by decide) (by decide) (by unfold ArmedCounts EveryHalf; decide)

theorem good_fullSending : Good (full hostSending) :=
  good_of_parts (by decide) (by decide) (by decide) (by decide) (by unfold ArmedCounts EveryHalf; decide)

/-! ### One step of each instruction -/

/-- R150's example: INIT host gives CTRL 6 and INT_EN 0x0D. -/
theorem test_init_host :
    ctrlWord (after (.init 0 .host) (State.resetWith small)) = 6 ∧
    intEnWord (after (.init 0 .host) (State.resetWith small)) = 0x0D := by decide
/-- V13: a second INIT is ALREADY. -/
theorem test_init_again : (after (.init 0 .host) deviceEmpty).result = 0x0E ∧ ctrlWord (after (.init 0 .host) deviceEmpty) = 4 := by
  decide
/-- R151's example in small: the first device-role endpoint gets channel 0 and offset 0. -/
theorem test_ep_open_device :
    (after (.epOpen .bulk 8 0 .inn 0 1) deviceEmpty).result = 0 ∧
    slot 0 .inn (after (.epOpen .bulk 8 0 .inn 0 1) deviceEmpty) =
      { bound := true, ep := 0, valid := false, off := 0, size := 8, cnt := 0 } := by decide
/-- V25: the same identity again is EXISTS. -/
theorem test_ep_open_exists : (after (.epOpen .bulk 64 1 .out 0 2) hostIdle).result = 8 := by decide
/-- V33: closing a transfer in flight pushes its abort and frees the entry. -/
theorem test_ep_close_busy :
    (after (.epClose 0 .out 0) hostSending).evq = [0x18000000] ∧ entry 0 (after (.epClose 0 .out 0) hostSending) = Entry.free := by
  decide
/-- V34: no room for the completion. -/
theorem test_ep_close_full : (after (.epClose 0 .out 0) (full hostSending)).result = 0x0D := by decide
/-- V31. -/
theorem test_ep_find : (after (.epFind 0 1 .out 0 2) hostIdle).result = 0 ∧ (after (.epFind 0 1 .inn 0 2) hostIdle).result = 7 := by
  decide
/-- R201's example in small: the first 8 bytes are in the arena, the slot is armed with 8. -/
theorem test_submit_loads :
    Memory.readBytes (after (.xferSubmit false false 20 0 .out 0) hostIdle).arena 0 8 = [1, 2, 3, 4, 5, 6, 7, 8] ∧
    slot 0 .out (after (.xferSubmit false false 20 0 .out 0) hostIdle) = armed 0 := by decide
/-- V42: a buffer past 2^32 is BADARG. -/
theorem test_submit_past_top :
    (after (.xferSubmit false false 17 0 .inn 0) { hostIdleIn with arg0 := 0xFFFFFFF0 }).result = 5 ∧
    (after (.xferSubmit false false 16 0 .inn 0) { hostIdleIn with arg0 := 0xFFFFFFF0 }).result = 0 := by decide
/-- V45. -/
theorem test_abort : (after (.xferAbort 0 .out 0) hostSending).evq = [0x18000000] := by decide
theorem test_abort_idle : after (.xferAbort 0 .out 0) hostIdle = hostIdle := by decide
/-- R158's example. -/
theorem test_clear_stall :
    (half 0 .out (after (.epClearStall 0 .out 0) hostHalted)).halted = false ∧
    (half 0 .out (after (.epClearStall 0 .out 0) hostHalted)).toggle = false := by decide
/-- V47. -/
theorem test_clear_stall_busy : (after (.epClearStall 0 .out 0) hostSending).result = 1 := by decide
/-- P5, step 12 in small. -/
theorem test_dev_close : (after (.devClose 0 1 0) hostSending).evq = [0x18000000] := by decide
/-- V48. -/
theorem test_dev_close_device : (after (.devClose 0 0 0) deviceEmpty).result = 0x0B := by decide
/-- The fields of R162 by hand: OPEN, XS 1, BOUND, TYPE 2, and MPS 8. -/
theorem test_ep_query :
    (after (.epQuery 0 .out 0) hostSending).result = 0x8290 ∧ (after (.epQuery 0 .out 0) hostSending).result2 = 0x01000000 := by
  decide
/-- V35. -/
theorem test_ep_query_range : (after (.epQuery 0 .inn 16) hostIdle).result = 4 := by decide
/-- V10. -/
theorem test_illegal : (after (.illegal0 0) hostIdle).result = 6 ∧ (after (.illegalF 0x1234567) hostIdle).result = 6 := by decide
theorem test_illegal_before_init : (after (.illegalA 0) (State.resetWith small)).result = 6 := by decide
/-- R214's example in small: 8 of 20 bytes done, toggle 1, the next 8 bytes armed. -/
theorem test_tx_ack_next :
    (half 0 .out (after (.linkTxAck 0 .out) hostSending)).done = 8 ∧
    Memory.readBytes (after (.linkTxAck 0 .out) hostSending).arena 0 8 = [9, 10, 11, 12, 13, 14, 15, 16] := by decide
/-- The SETUP stage of section 1.2: the completion, and both toggles at DATA1. -/
theorem test_tx_ack_setup :
    (after (.linkTxAck 0 .out) hostSetup).evq = [0x10000008] ∧ (half 0 .inn (after (.linkTxAck 0 .out) hostSetup)).toggle = true := by
  decide
/-- R216: a short packet settles with its bytes. -/
theorem test_rx_short :
    (after (.linkRxData 0 .inn false 3 [7, 8, 9]) hostReceiving).evq = [0x11000003] ∧
    Memory.readBytes (after (.linkRxData 0 .inn false 3 [7, 8, 9]) hostReceiving).mem 0x100 4 = [7, 8, 9, 4] := by decide
/-- V60: babble in the device role has no effect. -/
theorem test_rx_babble_device :
    after (.linkRxData 0 .out false 9 [1, 2, 3, 4, 5, 6, 7, 8, 9]) deviceReceiving = deviceReceiving := by decide
/-- V74: a periodic NAK waits, with the slot bound and not valid. -/
theorem test_nak_periodic :
    (half 0 .inn (after (.linkNak 0 .inn) hostInterrupt)).xs = .wait ∧
    slot 0 .inn (after (.linkNak 0 .inn) hostInterrupt) = { armed 0 with valid := false } := by decide
/-- V70 with K = 1. -/
theorem test_nak_budget : (after (.linkNak 0 .inn) hostBudget).evq = [0x17000000] := by decide
/-- Section 1.3. -/
theorem test_stall :
    (after (.linkStall 0 .out) hostSending).evq = [0x12000000] ∧ fullyFree 0 (after (.linkStall 0 .out) hostSending) = true := by
  decide
/-- V75: the first error stays, the fourth fails the transfer. -/
theorem test_xerr_first : (half 0 .out (after (.linkXerr 0 .out) hostSending)).err = 1 := by decide
theorem test_xerr_last : (after (.linkXerr 0 .out) hostTired).evq = [0x14000000] := by decide
/-- P2, step 6 in small. -/
theorem test_setup_rx :
    (after (.linkSetupRx 0 .out 8 [0x80, 6, 0, 1, 0, 0, 0x40, 0]) deviceSetup).evq = [0x10000008] ∧
    Memory.readBytes (after (.linkSetupRx 0 .out 8 [0x80, 6, 0, 1, 0, 0, 0x40, 0]) deviceSetup).mem 0x100 8 =
      [0x80, 6, 0, 1, 0, 0, 0x40, 0] := by decide
/-- V74: the frame arms the waiting packet again. -/
theorem test_frame :
    slot 0 .inn (after .linkFrame hostWaiting) = armed 0 ∧ (half 0 .inn (after .linkFrame hostWaiting)).nak = 0 := by decide
/-- V81: with the FIFO full a frame is enabled only while SOF is off. -/
theorem test_frame_full :
    completes .linkFrame (full hostIdle) = true ∧ notEnabled .linkFrame { full hostIdle with intEn := 0x20 } = true := by decide
/-- V84 in small: the abort, then the bus reset's own word. -/
theorem test_bus_reset : (after .linkBusReset deviceReceiving).evq = [0x18000000, 0x20000000] := by decide
/-- V87. -/
theorem test_bus_reset_host : notEnabled .linkBusReset hostIdle = true ∧ notEnabled (.linkTxAck 0 .out) hostIdle = true := by decide
/-- V82. -/
theorem test_attach : (after (.linkAttach true) hostEmpty).evq = [0x30000001] := by decide
theorem test_detach : (after .linkDetach hostEmpty).evq = [0x40000000] := by decide
/-- V83, and V82's disabled class. -/
theorem test_suspend : (after .linkSuspend deviceEmpty).evq = [0x60000000] ∧ (after .linkSuspend hostEmpty).evq = [] := by decide
theorem test_resume : (after .linkResume deviceEmpty).evq = [0x50000000] ∧ (after .linkResume hostEmpty).evq = [] := by decide
/-- V1, V2 and V3. -/
theorem test_reset_ctrl : (after (.regCtrl .read) State.reset).rdata = 0 := by decide
theorem test_reset_int_en : (after (.regIntEn .read) State.reset).rdata = 1 := by decide
theorem test_reset_nak_limit : (after (.regNakLimit .read) State.reset).rdata = 0 := by decide
theorem test_reset_evq_status : (after (.regEvqStatus .read) State.reset).rdata = 0x2000 := by decide
theorem test_reset_param0 : (after (.regParam0 .read) State.reset).rdata = 0x13201008 := by decide
theorem test_reset_param1 : (after (.regParam1 .read) State.reset).rdata = 0x400 := by decide
theorem test_reset_param2 : (after (.regParam2 .read) State.reset).rdata = 8 := by decide
theorem test_reset_cmd : (after (.regCmd .read) State.reset).rdata = 0 := by decide
/-- V4, V5, V6 and V8. -/
theorem test_write_int_en : intEnWord (after (.regIntEn (.write 0xFFFFFFFF)) hostEmpty) = 0x7F := by decide
theorem test_write_ctrl : ctrlWord (after (.regCtrl (.write 0xFFFFFFFF)) (State.resetWith small)) = 1 := by decide
theorem test_write_nak_limit : (after (.regNakLimit (.write 0x12345678)) hostEmpty).nakLimit = 0x5678 := by decide
theorem test_write_arg0 : (after (.regArg0 (.write 0x20000000)) hostEmpty).arg0 = 0x20000000 := by decide
theorem test_write_result : after (.regResult (.write 5)) hostEmpty = hostEmpty := by decide
theorem test_write_reserved : after (.regReserved3C (.write 5)) hostEmpty = hostEmpty := by decide
theorem test_write_cmd : ctrlWord (after (.regCmd (.write 0x10000001)) (State.resetWith small)) = 6 := by decide
/-- P1, steps 12 and 13 in small, and V3's empty FIFO. -/
theorem test_evq_pop :
    (after (.regEvqPop .read) { hostIdle with evq := [0x10000096] }).rdata = 0x10000096 ∧
    (after (.regEvqPop .read) { hostIdle with evq := [0x10000096] }).evq = [] := by decide
theorem test_evq_pop_empty : (after (.regEvqPop .read) hostIdle).rdata = 0 := by decide
theorem test_evq_peek : (after (.regEvqPeek .read) { hostIdle with evq := [5, 6] }).rdata = 5 := by decide
theorem test_evq_status : (after (.regEvqStatus .read) { hostIdle with evq := [5, 6] }).rdata = 0x0502 := by decide
/-- V7: a misaligned read ends in the fault of R323. -/
theorem test_step_reg_access : step (offer (.read 2 32) hostIdle) = .fault (.regAccess 2 32 false) := by rfl
/-- A table word placed for the next step runs as the next step: INIT host right after reset. -/
theorem test_step_init : completes (.init 0 .host) State.reset = true ∧
    (match step (State.reset.withFetchWord 32 0x10000001) with
      | .next t => ctrlWord t == 6
      | .fault _ => false
      | .refused _ => false) = true := by decide

/-! ### Witnesses: a state and operands for the hypotheses of each statement -/

theorem test_witness_DecodeOfEncode : wellFormed (.linkRxData 15 .inn true 2 [0xFF, 0]) = true := by decide
theorem test_witness_EncodeOfDecode : decode 0xFFFFFFF0 (.write 0 32 0xFFFFFFFF) = .ok (.illegalF 0xFFFFFFF) := by decide
theorem test_witness_LinkWellFormedness : decode 0 (.link 0xC0000000 []) = .ok .linkResume ∧ wellFormed .linkResume = true := by
  decide
theorem test_witness_LinkWellFormedness_refused :
    (offer (.link 0x10000001 []) hostIdle).inbox = .act (.link 0x10000001 []) :: [] ∧ ¬ LinkOk 0x10000001 [] := by
  unfold LinkOk; decide
theorem test_witness_RegisterAccessRule :
    (offer (.read 0x40 32) hostEmpty).inbox = .act (.read 0x40 32) :: [] ∧ ¬ LegalAccess 0 0x40 32 ∧
    (offer (.write 0x3E 32 1) hostEmpty).inbox = .act (.write 0x3E 32 1) :: [] ∧ ¬ LegalAccess 0 0x3E 32 ∧ ¬ LegalAccess 0 0 8 ∧
    LegalAccess 0 0x3C 32 ∧ LegalAccess 0 0 32 := by decide
theorem test_witness_StepRunsDecoded :
    (offer (.link 0x10000000 []) hostSending).inbox = .act (.link 0x10000000 []) :: [] ∧
    decode hostSending.cfg.blockBase (.link 0x10000000 []) = .ok (.linkTxAck 0 .out) := by decide
theorem test_witness_StepRunsDecoded_next :
    exec (.regCtrl .read) { hostIdle with inbox := [] } = .next (after (.regCtrl .read) hostIdle) ∧
    Inv1 (after (.regCtrl .read) hostIdle) ∧ Inv2 (after (.regCtrl .read) hostIdle) ∧ Inv3 (after (.regCtrl .read) hostIdle) ∧
    Inv4 (after (.regCtrl .read) hostIdle) ∧ Inv5 (after (.regCtrl .read) hostIdle) ∧ Inv6 (after (.regCtrl .read) hostIdle) ∧
    Inv7 (after (.regCtrl .read) hostIdle) ∧ Inv8 (after (.regCtrl .read) hostIdle) :=
  ⟨rfl, by decide, by decide, by decide, by decide, by decide, by decide, by decide, by decide⟩
theorem test_witness_StoreAndIdleSteps :
    hostEmpty.inbox = [] ∧ Memory.wf { hostEmpty with inbox := [.store [(0xFFFFFFFF, 1), (0, 2)]] }.mem ∧
    { hostEmpty with inbox := [.store [(0xFFFFFFFF, 1), (0, 2)]] }.inbox = .store [(0xFFFFFFFF, 1), (0, 2)] :: [] ∧
    [((0xFFFFFFFF : Word), (1 : Byte)), (0, 2)] = [] ++ (0xFFFFFFFF, 1) :: [(0, 2)] ∧
    (∀ c ∈ [((0 : Word), (2 : Byte))], c.1 ≠ 0xFFFFFFFF) ∧
    ∀ c ∈ [((0xFFFFFFFF : Word), (1 : Byte)), (0, 2)], c.1.toNat ≠ 1 :=
  ⟨rfl, by decide, rfl, rfl, by simp, by simp⟩
theorem test_witness_StoreAndIdleSteps_load :
    { hostEmpty with inbox := [.load [0xFFFFFFFF, 0]] }.inbox = .load [0xFFFFFFFF, 0] :: [] := rfl
/-- R90: a wide store is one step, and a load after it sees every byte of it, also at the ends of the address space. -/
theorem test_store_then_load :
    (match step { hostEmpty with inbox := [.store [(0xFFFFFFFF, 1), (0, 2)], .load [0, 0xFFFFFFFF, 1]] } with
      | .next t => step t
      | r => r) = .next { hostEmpty with mem := (0, 2) :: bytes ++ [(0xFFFFFFFF, 1)], loaded := [2, 1, 0] } := rfl
theorem test_witness_ResetIsGood : Config.default.Legal ∧ small.Legal ∧
    Config.Legal { numCh := 16, epMax := 255, arenaSize := 65535, arenaBase := 65534, arenaGran := 256, evqDepth := 255, errRetryMax := 15, blockBase := 0xFFFFFFFF, memRefused := [(0, 1)] } ∧
    Config.Legal { numCh := 1, epMax := 1, arenaSize := 1, arenaBase := 0, arenaGran := 1, evqDepth := 3, errRetryMax := 0, blockBase := 0, memRefused := [] } := by
  decide
theorem test_witness_ExecKeepsGood :
    Good hostSending ∧ exec (.linkTxAck 0 .out) hostSending = .next (after (.linkTxAck 0 .out) hostSending) :=
  ⟨good_hostSending, exec_after (by decide)⟩
theorem test_witness_StepKeepsGood : Good deviceSetup := good_deviceSetup
theorem test_witness_InvariantFaultReport :
    ∃ f, step { hostWith Half.closed Half.closed with inbox := [.act (.read 0 32)] } = .fault (.invariant 8 f) := ⟨_, rfl⟩
theorem test_witness_ResetReads : small.Legal := by decide
theorem test_witness_RegisterReads :
    (full hostIdle).cfg.Legal ∧ (full hostIdle).evq.length ≤ (full hostIdle).cfg.evqDepth ∧ (full hostIdle).evq ≠ [] ∧
    hostIdle.evq = [] := by decide
theorem test_witness_BeforeInitNothingRuns :
    (State.resetWith small).initDone = false ∧ 2 ≤ ((0x20000000 : Word) >>> 28).toNat ∧ ((0x9FFFFFFF : Word) >>> 28).toNat ≤ 9 ∧
    isLink .linkFrame = true := by decide
theorem test_witness_ReservedOpcodes : ((0x0FFFFFFF : Word) >>> 28).toNat = 0 ∧ 10 ≤ ((0xA0000000 : Word) >>> 28).toNat := by decide
theorem test_witness_InitRule :
    (1 : BitVec 27) ≠ 0 ∧ hostEmpty.initDone = true ∧ (State.resetWith small).initDone = false := by decide
theorem test_witness_CheckOrder :
    Good (State.resetWith small) ∧ firstFailing (checks (State.resetWith small) (.epQuery 1 .out 9)) = some 9 :=
  ⟨good_reset, by decide⟩
theorem test_witness_CheckOrder_open :
    Good hostIdle ∧ firstFailing (checks hostIdle (.epOpen .bulk 0 1 .out 0 2)) = some 5 ∧
    firstFailing (checks hostIdle (.epOpen .bulk 8 1 .out 0 2)) = some 8 ∧
    firstFailing (checks hostHalted (.xferSubmit false false 8 0 .out 0)) = some 12 ∧
    firstFailing (checks hostIdle (.xferAbort 0 .out 0)) = some 0 := ⟨good_hostIdle, by decide⟩
theorem test_witness_CheckOrder_busy :
    Good (full hostSending) ∧ firstFailing (checks (full hostSending) (.xferSubmit false false 8 0 .out 0)) = some 1 ∧
    firstFailing (checks (full hostSending) (.xferAbort 0 .out 0)) = some 13 ∧
    firstFailing (checks (full hostSending) (.epClose 0 .out 0)) = some 13 ∧
    firstFailing (checks (full hostSending) (.devClose 0 1 0)) = some 13 := ⟨good_fullSending, by decide⟩
theorem test_witness_RejectionsChangeNothing :
    exec (decodeCommand 0) hostIdle = .next (after (decodeCommand 0) hostIdle) ∧
    (after (decodeCommand 0) hostIdle).result.toNat % 16 ≠ 0 := ⟨exec_after (by decide), by decide⟩
theorem test_witness_HostOpen :
    Good hostEmpty ∧ HostOpenReady .ctrl 8 127 .inn 15 0 hostEmpty ∧ HostOpenReady .iso 1023 0 .out 0 0 hostEmpty :=
  ⟨good_hostEmpty, by decide, by decide⟩
theorem test_witness_HostOpen_join : Good hostIdle ∧ HostOpenReady .intr 1 1 .inn 2 0 hostIdle := ⟨good_hostIdle, by decide⟩
theorem test_witness_DeviceOpen : Good deviceEmpty ∧ DeviceOpenReady .bulk 64 .inn 1 0 0 0 deviceEmpty :=
  ⟨good_deviceEmpty, by decide⟩
theorem test_witness_DeviceOpen_join : Good deviceIdle ∧ DeviceOpenReady .bulk 8 .out 2 0 0 8 deviceIdle :=
  ⟨good_deviceIdle, by decide⟩
theorem test_witness_DeviceControlOpen : Good deviceEmpty ∧ ControlOpenReady 8 0 0 0 0 8 deviceEmpty :=
  ⟨good_deviceEmpty, by decide⟩
theorem test_witness_CloseRule : Good hostSending ∧ CloseReady .out 0 hostSending := ⟨good_hostSending, by decide⟩
theorem test_witness_FindRule :
    Good hostIdle ∧ hostIdle.initDone = true ∧ (Identity 0 1 2 hostIdle ∧ (half 0 .out hostIdle).isOpen = true) ∧
    ∀ h < hostIdle.cfg.epMax, ¬ (Identity h 1 2 hostIdle ∧ (half h .inn hostIdle).isOpen = true) :=
  ⟨good_hostIdle, by decide⟩
theorem test_witness_ClearStallRule : Good hostHalted ∧ ClearStallReady .out 0 hostHalted := ⟨good_hostHalted, by decide⟩
theorem test_witness_DevCloseRule : Good hostSending ∧ DevCloseReady 1 hostSending := ⟨good_hostSending, by decide⟩
theorem test_witness_QueryRule : hostIdle.initDone = true ∧ (1 : BitVec 8).toNat < hostIdle.cfg.epMax := by decide
theorem test_witness_ArenaChoice : hostIdle.cfg.Legal ∧ arenaAlloc 8 hostSending = some 8 ∧ arenaAlloc 65 hostIdle = none := by decide
theorem test_witness_HostSubmit :
    Good hostIdle ∧ HostSubmitReady false true 16 .out 0 0 0 hostIdle ∧ HostSubmitReady false false 0 .out 0 0 0 hostIdle :=
  ⟨good_hostIdle, by decide, by decide⟩
theorem test_witness_HostSubmit_receive : Good hostIdleIn ∧ HostSubmitReady false false 20 .inn 0 0 0 hostIdleIn :=
  ⟨good_hostIdleIn, by decide⟩
theorem test_witness_HostSubmit_setup : Good hostControl ∧ HostSubmitReady true false 8 .out 0 0 0 hostControl :=
  ⟨good_hostControl, by decide⟩
theorem test_witness_DeviceSubmit : Good deviceIdle ∧ DeviceSubmitReady false false 20 .inn 0 deviceIdle :=
  ⟨good_deviceIdle, by decide⟩
theorem test_witness_SubmitStuck : Good hostRefused ∧ SubmitStuckReady false false 20 .out 0 hostRefused :=
  ⟨good_hostRefused, by decide⟩
theorem test_witness_AbortRule :
    Good hostIdle ∧ (handleOk 0 .out hostIdle = true ∧ (half 0 .out hostIdle).xs = .idle) ∧ Good hostSending ∧
    AbortReady .out 0 hostSending := ⟨good_hostIdle, by decide, good_hostSending, by decide⟩
theorem test_witness_AbortTwice :
    exec (.xferAbort 0 .out 0) hostSending = .next (after (.xferAbort 0 .out 0) hostSending) ∧
    (after (.xferAbort 0 .out 0) hostSending).result = 0 := ⟨exec_after (by decide), by decide⟩
theorem test_witness_AckRule :
    Good hostSending ∧ AckReady 0 .out hostSending ∧ ¬ AckCompletes 0 .out hostSending ∧
    memAdmits (nextAddr 0 .out hostSending) (nextCount 0 .out hostSending) hostSending = true := ⟨good_hostSending, by decide⟩
theorem test_witness_AckRule_last : Good hostLast ∧ AckReady 0 .out hostLast ∧ AckCompletes 0 .out hostLast :=
  ⟨good_hostLast, by decide⟩
theorem test_witness_AckRule_stuck :
    Good hostSendRefused ∧ AckReady 0 .out hostSendRefused ∧ ¬ AckCompletes 0 .out hostSendRefused ∧
    memAdmits (nextAddr 0 .out hostSendRefused) (nextCount 0 .out hostSendRefused) hostSendRefused = false :=
  ⟨good_hostSendRefused, by decide⟩
theorem test_witness_AckSetup : Good hostSetup ∧ AckSetupReady 0 .out hostSetup := ⟨good_hostSetup, by decide⟩
theorem test_witness_RxAccept :
    Good hostReceiving ∧ RxAcceptReady 0 .inn false 8 [1, 2, 3, 4, 5, 6, 7, 8] hostReceiving ∧
    memAdmits (rxAddr 0 .inn hostReceiving) (wanted 0 .inn [1, 2, 3, 4, 5, 6, 7, 8] hostReceiving) hostReceiving = true ∧
    ¬ RxCompletes 0 .inn [1, 2, 3, 4, 5, 6, 7, 8] hostReceiving := ⟨good_hostReceiving, by decide⟩
theorem test_witness_RxAccept_empty :
    Good hostReceiving ∧ RxAcceptReady 0 .inn false 0 [] hostReceiving ∧
    memAdmits (rxAddr 0 .inn hostReceiving) (wanted 0 .inn [] hostReceiving) hostReceiving = true ∧
    RxCompletes 0 .inn [] hostReceiving := ⟨good_hostReceiving, by decide⟩
theorem test_witness_RxAccept_stuck :
    Good hostReceiveRefused ∧ RxAcceptReady 0 .inn false 8 [1, 2, 3, 4, 5, 6, 7, 8] hostReceiveRefused ∧
    memAdmits (rxAddr 0 .inn hostReceiveRefused) (wanted 0 .inn [1, 2, 3, 4, 5, 6, 7, 8] hostReceiveRefused)
      hostReceiveRefused = false := ⟨good_hostReceiveRefused, by decide⟩
theorem test_witness_RxDuplicate :
    Good hostReceiving ∧ RxReady 0 .inn 1 [5] hostReceiving ∧ [(5 : Byte)].length ≤ (slot 0 .inn hostReceiving).cnt.toNat ∧
    (slotHalf 0 .inn hostReceiving).type ≠ .iso ∧ true ≠ (slotHalf 0 .inn hostReceiving).toggle :=
  ⟨good_hostReceiving, by decide⟩
theorem test_witness_RxBabble :
    (Good hostReceiving ∧ RxReady 0 .inn 9 [1, 2, 3, 4, 5, 6, 7, 8, 9] hostReceiving ∧
      (slot 0 .inn hostReceiving).cnt.toNat < 9 ∧ hostReceiving.role = .host) ∧
    Good deviceReceiving ∧ RxReady 0 .out 9 [1, 2, 3, 4, 5, 6, 7, 8, 9] deviceReceiving ∧
    (slot 0 .out deviceReceiving).cnt.toNat < 9 ∧ deviceReceiving.role = .device :=
  ⟨⟨good_hostReceiving, by decide⟩, good_deviceReceiving, by decide⟩
theorem test_witness_SetupRxRule :
    Good deviceSetup ∧ SetupRxReady 0 [0x80, 6, 0, 1, 0, 0, 0x40, 0] deviceSetup ∧
    memAdmits (slotHalf 0 .out deviceSetup).buf.toNat 8 deviceSetup = true := ⟨good_deviceSetup, by decide⟩
theorem test_witness_SetupRxRule_stuck :
    Good deviceSetupRefused ∧ SetupRxReady 0 [0x80, 6, 0, 1, 0, 0, 0x40, 0] deviceSetupRefused ∧
    memAdmits (slotHalf 0 .out deviceSetupRefused).buf.toNat 8 deviceSetupRefused = false :=
  ⟨good_deviceSetupRefused, by decide⟩
theorem test_witness_NakRule :
    Good hostReceiving ∧ RetryReady 0 .inn hostReceiving ∧ Good hostInterrupt ∧ RetryReady 0 .inn hostInterrupt ∧
    Good hostBudget ∧ RetryReady 0 .inn hostBudget :=
  ⟨good_hostReceiving, by decide, good_hostInterrupt, by decide, good_hostBudget, by decide⟩
theorem test_witness_StallRule : Good hostSending ∧ RetryReady 0 .out hostSending := ⟨good_hostSending, by decide⟩
theorem test_witness_XerrRule : Good hostTired ∧ RetryReady 0 .out hostTired := ⟨good_hostTired, by decide⟩
theorem test_witness_FrameRule : Good hostWaiting ∧ FrameReady hostWaiting ∧ Good deviceIdle ∧ FrameReady deviceIdle :=
  ⟨good_hostWaiting, by decide, good_deviceIdle, by decide⟩
theorem test_witness_BusResetRule : Good deviceReceiving ∧ BusResetReady deviceReceiving := ⟨good_deviceReceiving, by decide⟩
theorem test_witness_BusReports :
    hostEmpty.initDone = true ∧ hostEmpty.role = .host ∧ RoomFor 1 hostEmpty ∧ RoomFor 2 hostEmpty ∧ RoomFor 4 deviceEmpty ∧
    RoomFor 3 deviceEmpty := by decide
theorem test_witness_LinkEnabling :
    ¬ (SlotReady 0 .out hostIdle ∧ isSend hostIdle.role .out = true) ∧
    ¬ (SlotReady 0 .out (full hostSending) ∧ isSend (full hostSending).role .out = true) ∧
    ¬ RxReady 0 .out 0 [] deviceSetup ∧
    ¬ (SlotReady 0 .out deviceReceiving ∧ deviceReceiving.role = .device ∧ Dir.out = .out ∧
      (slotHalf 0 .out deviceReceiving).setup = true) ∧
    ¬ RetryReady 0 .out deviceReceiving ∧ ¬ FrameReady { full hostIdle with intEn := 0x20 } := by decide
theorem test_witness_LinkEnabling_bus :
    ¬ BusResetReady { deviceReceiving with evq := [1, 2, 3, 4] } ∧
    ¬ (hostIdle.initDone = true ∧ hostIdle.role = .host ∧ RoomFor 1 (full hostIdle)) ∧
    ¬ (deviceIdle.initDone = true ∧ deviceIdle.role = .host ∧ RoomFor 2 deviceIdle) ∧
    ¬ ((full deviceIdle).initDone = true ∧ RoomFor 4 (full deviceIdle)) ∧
    ¬ ((State.resetWith small).initDone = true ∧ RoomFor 3 (State.resetWith small)) := by decide
theorem test_witness_ReservedLinkKinds :
    [(1 : Byte)].length ≠ (2 : BitVec 11).toNat ∧ ((7 : BitVec 11) ≠ 8 ∨ [(1 : Byte)].length ≠ 8) := by decide
theorem test_witness_WindowWriters :
    exec (.regCtrl (.write 1)) hostIdle = .next (after (.regCtrl (.write 1)) hostIdle) ∧
    (after (.regCtrl (.write 1)) hostIdle).gie ≠ hostIdle.gie := ⟨exec_after (by decide), by decide⟩
theorem test_witness_WindowWriters_init :
    exec (.init 0 .host) (State.resetWith small) = .next (after (.init 0 .host) (State.resetWith small)) ∧
    (after (.init 0 .host) (State.resetWith small)).role ≠ (State.resetWith small).role ∧
    (after (.init 0 .host) (State.resetWith small)).intEn ≠ (State.resetWith small).intEn := ⟨exec_after (by decide), by decide⟩
theorem test_witness_ToggleKeepers :
    exec (.linkStall 0 .out) hostSending = .next (after (.linkStall 0 .out) hostSending) ∧
    movesToggle (underlying (.linkStall 0 .out)) = false := ⟨exec_after (by decide), by decide⟩
theorem test_witness_MemoryWriters :
    Good hostReceiving ∧
    exec (.linkRxData 0 .inn false 1 [7]) hostReceiving = .next (after (.linkRxData 0 .inn false 1 [7]) hostReceiving) ∧
    Memory.read (after (.linkRxData 0 .inn false 1 [7]) hostReceiving).mem 0x100 ≠ Memory.read hostReceiving.mem 0x100 :=
  ⟨good_hostReceiving, exec_after (by decide), by decide⟩
theorem test_witness_ArenaIsolation :
    Good hostSending ∧ exec .linkDetach hostSending = .next (after .linkDetach hostSending) ∧ 0 < hostSending.cfg.numCh ∧
    (slot 0 .out hostSending).bound = true ∧ slot 0 .out (after .linkDetach hostSending) = slot 0 .out hostSending ∧
    half (slot 0 .out hostSending).ep.toNat .out (after .linkDetach hostSending) =
      half (slot 0 .out hostSending).ep.toNat .out hostSending ∧ 0 < (slot 0 .out hostSending).size.toNat :=
  ⟨good_hostSending, exec_after (by decide), by decide⟩
theorem test_witness_MemoryReaders :
    Memory.wf hostReceiving.mem ∧ Memory.wf [(5, 6)] ∧
    exec (.linkRxData 0 .inn false 1 [7]) hostReceiving = .next (after (.linkRxData 0 .inn false 1 [7]) hostReceiving) ∧
    isSubmit (underlying (.linkRxData 0 .inn false 1 [7])) = false ∧
    ∀ c d, Instr.linkRxData 0 .inn false 1 [7] ≠ .linkTxAck c d :=
  ⟨by decide, by decide, exec_after (by decide), by decide, fun _ _ h => by cases h⟩
theorem test_witness_EventOrder :
    exec (.regEvqPop .read) (full hostIdle) = .next (after (.regEvqPop .read) (full hostIdle)) ∧ Good hostSending ∧
    exec (.linkStall 0 .out) hostSending = .next (after (.linkStall 0 .out) hostSending) :=
  ⟨exec_after (by decide), good_hostSending, exec_after (by decide)⟩
theorem test_witness_OneCompletionEach :
    Good hostIdle ∧
    exec (.xferSubmit false false 20 0 .out 0) hostIdle = .next (after (.xferSubmit false false 20 0 .out 0) hostIdle) ∧
    Instr.xferSubmit false false 20 0 .out 0 ≠ .regEvqPop .read := ⟨good_hostIdle, exec_after (by decide), by decide⟩
theorem test_witness_OtherOutcomes :
    exec (.xferSubmit false false 20 0 .out 0) hostRefused = .fault (.stuck 0x100 8) ∧
    exec .linkFrame (State.resetWith small) = .refused .linkNotEnabled := ⟨rfl, rfl⟩
theorem test_witness_OtherOutcomes_step :
    step (offer (.write 0x10 16 0) hostIdle) = .fault (.regAccess 0x10 16 true) ∧
    step (offer (.write 0x10 32 0x50005000) hostRefused) = .fault (.stuck 0x100 8) ∧
    step (offer (.link 0x70000001 []) hostIdle) = .refused .illFormedLink := ⟨rfl, rfl, rfl⟩
theorem test_witness_NakBudgetExact :
    Good hostBudget ∧ RetryReady 0 .inn hostBudget ∧ (slotHalf 0 .inn hostBudget).type ≠ .iso ∧
    (slotHalf 0 .inn hostBudget).type ≠ .intr ∧ (slotHalf 0 .inn hostBudget).nak.toNat < hostBudget.nakLimit.toNat :=
  ⟨good_hostBudget, by decide⟩
theorem test_witness_ErrorBoundExact :
    Good hostSending ∧ RetryReady 0 .out hostSending ∧ (slotHalf 0 .out hostSending).err = 0 := ⟨good_hostSending, by decide⟩
theorem test_witness_PacketCount :
    Good hostSending ∧ AckReady 0 .out hostSending ∧ (slotHalf 0 .out hostSending).done = 0 ∧ hostSending.cfg.memRefused = [] ∧
    3 ≤ packets (slotHalf 0 .out hostSending).total.toNat (slotHalf 0 .out hostSending).mps.toNat
      (slotHalf 0 .out hostSending).zlp := ⟨good_hostSending, by decide⟩

end Sys2Proof.Tests
end

