-- ==== Sys2Proof/Proofs/RegisterWrites.lean ====
section
/-! SUPPORT. What a CPU write of each register does (R31, R33, R35 to R38, R43, R285). -/

namespace Sys2Proof

/-- Bit 0 of a word is the parity of the number it stands for. -/
theorem bit_zero_eq_decide (w : Word) : bit w 0 = decide (w.toNat % 2 = 1) := Nat.testBit_zero w.toNat

/-- A field of a word is the number left when the bits below the field are divided away, cut to the field's width. -/
theorem bits_eq_ofNat (w : Word) (lo n : Nat) : bits w lo n = BitVec.ofNat n (w.toNat / 2 ^ lo) := by
  rw [← Nat.shiftRight_eq_div_pow]
  rfl

end Sys2Proof

namespace Sys2Proof.Machine

@[simp] theorem readOnly_read (v : Word) (s : State) : readOnly v .read s = .next (returnRead v s) := rfl
@[simp] theorem readOnly_write (v w : Word) (s : State) : readOnly v (.write w) s = .next s := rfl

section
variable (a : RegAccess) (s : State)

/-! The registers of which a write changes nothing: the read-only ones (R31), EVQ_POP in its writes (R31), and the reserved
offsets (R43). -/

@[simp] theorem exec_regResult : exec (.regResult a) s = readOnly s.result a s := rfl
@[simp] theorem exec_regResult2 : exec (.regResult2 a) s = readOnly s.result2 a s := rfl
@[simp] theorem exec_regEvqStatus : exec (.regEvqStatus a) s = readOnly (evqStatusWord s) a s := rfl
@[simp] theorem exec_regEvqPop_write (v : Word) : exec (.regEvqPop (.write v)) s = .next s := rfl
@[simp] theorem exec_regEvqPeek : exec (.regEvqPeek a) s = readOnly (evqHead s) a s := rfl
@[simp] theorem exec_regParam0 : exec (.regParam0 a) s = readOnly (param0Word s.cfg) a s := rfl
@[simp] theorem exec_regParam1 : exec (.regParam1 a) s = readOnly (param1Word s.cfg) a s := rfl
@[simp] theorem exec_regParam2 : exec (.regParam2 a) s = readOnly (param2Word s.cfg) a s := rfl
@[simp] theorem exec_regReserved34 : exec (.regReserved34 a) s = readOnly 0 a s := rfl
@[simp] theorem exec_regReserved38 : exec (.regReserved38 a) s = readOnly 0 a s := rfl
@[simp] theorem exec_regReserved3C : exec (.regReserved3C a) s = readOnly 0 a s := rfl

end

section
variable (v : Word) (s : State)

/-! The registers with writable bits, and CMD. -/

theorem exec_regCtrl_write : exec (.regCtrl (.write v)) s = .next { s with gie := bit v 0 } := rfl
theorem exec_regIntEn_write : exec (.regIntEn (.write v)) s = .next { s with intEn := bits v 1 6 } := rfl
theorem exec_regNakLimit_write : exec (.regNakLimit (.write v)) s = .next { s with nakLimit := bits v 0 16 } := rfl
theorem exec_regArg0_write : exec (.regArg0 (.write v)) s = .next { s with arg0 := v } := rfl

/-- A write of CMD is the command its value encodes (R38, R115). -/
theorem exec_regCmd_write : exec (.regCmd (.write v)) s = exec (decodeCommand v) s := executeCommand_eq_exec v s

end

end Sys2Proof.Machine

open Sys2Proof Sys2Proof.Machine

/-- Settles O15: each conjunct is the register's own equation; the fields a write stores are read as numbers. -/
theorem registerWrites : Obligations.RegisterWrites := by
  intro s v
  refine ⟨?ctrl, ?intEn, ?nakLimit, exec_regArg0_write v s, exec_regCmd_write v s, ?ignored⟩
  case ctrl => rw [exec_regCtrl_write, bit_zero_eq_decide]
  case intEn => rw [exec_regIntEn_write, bits_eq_ofNat, Nat.pow_one]
  case nakLimit => rw [exec_regNakLimit_write, bits_eq_ofNat, Nat.pow_zero, Nat.div_one]
  case ignored => simp [List.forall_mem_cons]

end

