-- ==== Sys2Proof/Proofs/Settlement.lean ====
section
/-! SUPPORT. What settlement does to the half, its slot and the channel's association, and what it leaves unchanged (R172, R174,
R230); with it the rules by which the frames of the claims compose. -/

namespace Sys2Proof

/-- A field above the bits of a word is added to it. -/
theorem toNat_field_or {n : Nat} (lo : Nat) (v : BitVec n) {w : Word} {k : Nat} (hw : w.toNat = k) (hv : n + lo ≤ 32)
    (hk : k < 2 ^ lo) : (field lo v ||| w).toNat = v.toNat * 2 ^ lo + k := by
  have hlt : v.toNat * 2 ^ lo < 2 ^ 32 :=
    calc v.toNat * 2 ^ lo < 2 ^ n * 2 ^ lo := Nat.mul_lt_mul_of_pos_right v.isLt (Nat.two_pow_pos lo)
      _ = 2 ^ (n + lo) := (Nat.pow_add 2 n lo).symm
      _ ≤ 2 ^ 32 := Nat.pow_le_pow_right (by decide) hv
  have hfield : (field lo v).toNat = v.toNat <<< lo := by
    rw [field, BitVec.toNat_shiftLeft, BitVec.toNat_setWidth_of_le (by omega), Nat.shiftLeft_eq, Nat.mod_eq_of_lt hlt]
  rw [BitVec.toNat_or, hfield, hw, ← Nat.shiftLeft_add_eq_or_of_lt hk, Nat.shiftLeft_eq]

end Sys2Proof

namespace Sys2Proof.Machine

open Sys2Proof.Safety Sys2Proof.Claims

/-- The completion word is the sum of its fields, for every handle of the registry (R120). -/
theorem xferComplete_eq_completion (o : XferOutcome) (d : Dir) {h : Nat} (done : BitVec 16) (hh : h < 256) :
    xferComplete o d h done = completion o.code.toNat d h done.toNat := by
  have ho := o.code.isLt
  have hd := d.toBit.isLt
  have hdone := done.isLt
  have hdir : d.toBit.toNat = dirNum d := by cases d <;> rfl
  have hhandle : (BitVec.ofNat 8 h).toNat = h := Nat.mod_eq_of_lt hh
  have e0 : (field 0 done).toNat = done.toNat := by simp [field]; omega
  have e16 := toNat_field_or 16 (BitVec.ofNat 8 h) e0 (by decide) (by omega)
  have e24 := toNat_field_or 24 d.toBit e16 (by decide) (by omega)
  have e25 := toNat_field_or 25 o.code e24 (by decide) (by omega)
  have e28 := toNat_field_or 28 0x1#4 e25 (by decide) (by omega)
  have hcode : (0x1#4).toNat = 1 := rfl
  apply BitVec.eq_of_toNat_eq
  simp only [xferComplete, completion, BitVec.or_assoc, BitVec.toNat_ofNat, e28]
  omega

/-! ### Frames compose -/

section
variable {s u t : State} {h c : Nat} {ds : List Dir}

theorem otherHalves_trans (a : OtherHalves h ds s u) (b : OtherHalves h ds u t) : OtherHalves h ds s t :=
  fun h' d' ne => (b h' d' ne).trans (a h' d' ne)

theorem sameIdentities_trans (a : SameIdentities s u) (b : SameIdentities u t) : SameIdentities s t := fun h' => by
  simp only [b h', a h', and_self]

theorem linkFrame_trans (a : LinkFrame s u) (b : LinkFrame u t) : LinkFrame s t := by
  obtain ⟨ra, ca, ia⟩ := a
  obtain ⟨rb, cb, ib⟩ := b
  exact ⟨by simp only [SameResults, rb, ra, and_self], by simp only [SameControls, cb, ca, and_self],
    sameIdentities_trans ia ib⟩

theorem sameIdentities_of_eps (e : t.eps = s.eps) : SameIdentities s t := fun h' => by simp only [entry_congr e, and_self]

theorem modHalf_sameIdentities (d : Dir) (f : Half → Half) : SameIdentities s (modHalf h d f s) :=
  fun h' => entry_modHalf_fields h h' d f s

end

/-! ### One slot changes -/

/-- Of the channel table only slot `d` of channel `c` changed, and is now `y`. -/
abbrev SlotBecomes (c : Nat) (d : Dir) (y : Slot) (s t : State) : Prop :=
  slot c d t = y ∧ OtherSlots c [d] s t ∧ SameAssociations s t

/-- Slot `d` of channel `c` is now `y`, and a channel that became fully free lost its association (R172). -/
abbrev SlotEnds (c : Nat) (d : Dir) (y : Slot) (s t : State) : Prop :=
  slot c d t = y ∧ OtherSlots c [d] s t ∧ AssociationsAfter s t

section
variable {s u t : State} {c : Nat} {d : Dir} {y z : Slot}

theorem slotBecomes_trans (a : SlotBecomes c d y s u) (b : SlotBecomes c d z u t) : SlotBecomes c d z s t := by
  obtain ⟨-, othersA, assocA⟩ := a
  obtain ⟨slotB, othersB, assocB⟩ := b
  refine ⟨slotB, fun c' d' ne => (othersB c' d' ne).trans (othersA c' d' ne), fun c' => ?_⟩
  simp only [assocB c', assocA c', and_self]

theorem modSlot_slotBecomes (f : Slot → Slot) (hc : c < s.chans.length) :
    SlotBecomes c d (f (slot c d s)) s (modSlot c d f s) := by
  refine ⟨slot_modSlot_self d f hc, fun c' d' ne => ?others, fun c' => ?assoc⟩
  case others =>
    rw [slot_modSlot, if_neg]
    rintro ⟨rfl, rfl, -⟩
    simp at ne
  case assoc =>
    simp only [modSlot, chan_setChan]
    split
    · obtain ⟨rfl, -⟩ := ‹_›
      simp
    · simp

/-- Which channels are fully free depends on the bound bits alone. -/
theorem slotBecomes_fullyFree (a : SlotBecomes c d y s u) (hy : y.bound = (slot c d s).bound) (c' : Nat) :
    fullyFree c' u = fullyFree c' s := by
  obtain ⟨slotA, othersA, -⟩ := a
  have hbound (d' : Dir) : (slot c' d' u).bound = (slot c' d' s).bound := by
    by_cases e : c' = c ∧ d' ∈ [d]
    · obtain ⟨rfl, hd⟩ := e
      rw [List.mem_singleton.1 hd, slotA, hy]
    · rw [othersA c' d' e]
  simp only [fullyFree, hbound]

/-- An end of a slot, seen from before a change that kept it bound. -/
theorem slotEnds_of_becomes (a : SlotBecomes c d y s u) (hy : y.bound = (slot c d s).bound) (b : SlotEnds c d z u t) :
    SlotEnds c d z s t := by
  have hfree := slotBecomes_fullyFree a hy
  obtain ⟨-, othersA, assocA⟩ := a
  obtain ⟨slotB, othersB, assocB⟩ := b
  refine ⟨slotB, fun c' d' ne => (othersB c' d' ne).trans (othersA c' d' ne), fun c' => ?_⟩
  rw [assocB c', hfree c', (assocA c').1, (assocA c').2]

/-- A change of a slot that keeps it bound ends no association. -/
theorem slotEnds_of_bound (a : SlotBecomes c d y s t) (hy : y.bound = (slot c d s).bound) : SlotEnds c d y s t :=
  slotEnds_of_becomes a hy ⟨a.1, fun _ _ _ => rfl, fun c' => by simp⟩

end

/-! ### A slot and the half it serves -/

/-- Slot `d` of channel `c` serves half `d` of entry `h`, and both are in their tables (R54, INV2). -/
structure Serves (c h : Nat) (d : Dir) (s : State) : Prop where
  chan_lt : c < s.chans.length
  entry_lt : h < s.eps.length
  bound : (slot c d s).bound = true
  ep : (slot c d s).ep.toNat = h
  ch : (half h d s).ch.toNat = c

/-- In a good state a bound slot serves the half its handle names. -/
theorem serves_of_good {c : BitVec 4} {d : Dir} {s : State} (g : Good s) (r : SlotReady c d s) :
    Serves c.toNat (slotHandle c d s) d s := by
  obtain ⟨-, hEps, hChans⟩ := g.shape
  obtain ⟨hc, hb, -⟩ := r
  obtain ⟨hh, -, hch⟩ := g.inv2.1 _ hc d (mem_bothDirs d) hb
  exact ⟨hChans ▸ hc, hEps ▸ hh, hb, rfl, hch⟩

/-- Handles fit the 8 bits of an event word (R7, R120). -/
theorem slotHandle_lt (c : BitVec 4) (d : Dir) (s : State) : slotHandle c d s < 256 := (slot c.toNat d s).ep.isLt

/-- A slot that keeps its handle serves the half it served. -/
theorem serves_of_becomes {c h : Nat} {d : Dir} {y : Slot} {s u : State} (sv : Serves c h d s) (a : SlotBecomes c d y s u)
    (hBound : y.bound = (slot c d s).bound) (hEp : y.ep = (slot c d s).ep) (hCh : (half h d u).ch = (half h d s).ch)
    (hEps : u.eps.length = s.eps.length) (hChans : u.chans.length = s.chans.length) : Serves c h d u := by
  obtain ⟨chan_lt, entry_lt, bound, ep, ch⟩ := sv
  exact ⟨hChans ▸ chan_lt, hEps ▸ entry_lt, by rw [a.1, hBound, bound], by rw [a.1, hEp, ep], by rw [hCh, ch]⟩

/-! ### ChRelease (R172) -/

theorem chan_dropAssociation {c : Nat} (c' : Nat) {s : State} (hc : c < s.chans.length) :
    chan c' (dropAssociation c s) =
      if c' = c ∧ fullyFree c s = true then { chan c s with adev := 0, anum := 0 } else chan c' s := by
  unfold dropAssociation
  by_cases hf : fullyFree c s = true
  · simp [hf, chan_setChan, hc]
  · simp [hf]

@[simp] theorem slot_dropAssociation (c c' : Nat) (d : Dir) (s : State) : slot c' d (dropAssociation c s) = slot c' d s := by
  unfold dropAssociation
  split
  · rw [slot_setChan]
    split
    · obtain ⟨rfl, -⟩ := ‹_›
      cases d <;> rfl
    · rfl
  · rfl

/-- The association goes exactly when the channel, which was not fully free, became so. -/
theorem dropAssociation_slotEnds {c : Nat} {d : Dir} {y : Slot} {s u : State} (a : SlotBecomes c d y s u)
    (hc : c < u.chans.length) (hb : (slot c d s).bound = true) : SlotEnds c d y s (dropAssociation c u) := by
  obtain ⟨slotA, othersA, assocA⟩ := a
  refine ⟨by rw [slot_dropAssociation, slotA], fun c' d' ne => by rw [slot_dropAssociation, othersA c' d' ne], fun c' => ?_⟩
  have hdrop : fullyFree c' (dropAssociation c u) = fullyFree c' u := by simp only [fullyFree, slot_dropAssociation]
  rw [chan_dropAssociation c' hc, hdrop]
  by_cases e : c' = c
  · subst e
    have hwas : fullyFree c' s = false := by cases d <;> simp [fullyFree, hb]
    cases hf : fullyFree c' u <;> simp [hwas, assocA c']
  · have hkeep : fullyFree c' u = fullyFree c' s := by
      simp only [fullyFree, othersA c' _ (fun x => e x.1)]
    simp [e, hkeep, assocA c']

section
variable {s : State} {c h : Nat} {d : Dir}

theorem chRelease_slotEnds (hc : c < s.chans.length) (hb : (slot c d s).bound = true) :
    SlotEnds c d Slot.free s (chRelease c d s) :=
  dropAssociation_slotEnds (modSlot_slotBecomes (fun _ => Slot.free) hc) (by simpa using hc) hb

theorem half_chRelease (h' : Nat) (d' : Dir) (sv : Serves c h d s) :
    half h' d' (chRelease c d s) =
      if h' = h ∧ d' = d then { half h d s with bound := false, ch := 0 } else half h' d' s := by
  rw [chRelease, half_congr (dropAssociation_eps c _), sv.ep, half_modHalf]
  simp [sv.entry_lt]

theorem chRelease_sameIdentities : SameIdentities s (chRelease c d s) := fun h' => by
  rw [chRelease, entry_congr (dropAssociation_eps c _)]
  exact modHalf_sameIdentities d _ h'

end

/-! ### Settle (R230) -/

/-- The transfer of a half is over, its slot no longer valid, and nothing released yet: the first half of Settle (R230). -/
def endTransfer (c h : Nat) (d : Dir) (s : State) : State := setXs h d .idle (setValid c d false s)

section
variable {s : State} {c h : Nat} {d : Dir} (o : XferOutcome)

theorem settle_eq (sv : Serves c h d s) :
    settle h d o s = push (xferComplete o d h (half h d s).done) (releaseIfHost c d (endTransfer c h d s)) := by
  rw [settle, sv.ch, endTransfer]

theorem endTransfer_slotBecomes (hc : c < s.chans.length) :
    SlotBecomes c d { slot c d s with valid := false } s (endTransfer c h d s) :=
  modSlot_slotBecomes (fun x => { x with valid := false }) hc

theorem half_endTransfer (h' : Nat) (d' : Dir) (hh : h < s.eps.length) :
    half h' d' (endTransfer c h d s) = if h' = h ∧ d' = d then { half h d s with xs := .idle } else half h' d' s := by
  simp [endTransfer, setXs, half_modHalf, hh, half_congr (setValid_eps c d false s)]

theorem endTransfer_serves (sv : Serves c h d s) : Serves c h d (endTransfer c h d s) :=
  serves_of_becomes sv (endTransfer_slotBecomes sv.chan_lt) rfl rfl (by rw [half_endTransfer h d sv.entry_lt]; simp)
    (by simp [endTransfer, setXs]) (by simp [endTransfer, setValid])

/-- The settled half is idle, in the host role released; every other half is as before. -/
theorem half_settle (h' : Nat) (d' : Dir) (sv : Serves c h d s) :
    half h' d' (settle h d o s) = if h' = h ∧ d' = d then settledHalf s.role (half h d s) else half h' d' s := by
  have hrole : (endTransfer c h d s).role = s.role := rfl
  rw [settle_eq o sv, half_push, releaseIfHost, hrole, settledHalf]
  split
  · rw [half_chRelease h' d' (endTransfer_serves sv), half_endTransfer h d sv.entry_lt, half_endTransfer h' d' sv.entry_lt]
    split <;> simp
  · exact half_endTransfer h' d' sv.entry_lt

theorem settle_otherHalves {ds : List Dir} (hd : d ∈ ds) (sv : Serves c h d s) : OtherHalves h ds s (settle h d o s) := by
  intro h' d' ne
  rw [half_settle o h' d' sv, if_neg]
  rintro ⟨rfl, rfl⟩
  exact ne ⟨rfl, hd⟩

/-- The slot of the settled half is freed in the host role and no longer valid in the device role. -/
theorem settle_slotSettled (sv : Serves c h d s) : SlotSettled c d (slot c d s).cnt s (settle h d o s) := by
  have hend := endTransfer_slotBecomes (h := h) (d := d) sv.chan_lt
  have hrole : (endTransfer c h d s).role = s.role := rfl
  obtain ⟨chan_lt, -, bound, -, -⟩ := endTransfer_serves sv
  rw [settle_eq o sv, releaseIfHost, hrole, SlotSettled]
  split
  · exact slotEnds_of_becomes hend rfl (chRelease_slotEnds chan_lt bound)
  · exact slotEnds_of_bound hend rfl

/-- The same, seen from before the slot's byte count became `k`. -/
theorem settle_slotSettled_of_counted {u : State} {k : BitVec 16} (sv : Serves c h d u) (role : u.role = s.role)
    (a : SlotBecomes c d { slot c d s with cnt := k } s u) : SlotSettled c d k s (settle h d o u) := by
  have b : SlotEnds _ _ _ _ _ := slotEnds_of_becomes a rfl (settle_slotSettled o sv)
  rwa [a.1, role] at b

theorem settle_sameIdentities (sv : Serves c h d s) : SameIdentities s (settle h d o s) := by
  have hend : SameIdentities s (endTransfer c h d s) := modHalf_sameIdentities (s := setValid c d false s) d _
  rw [settle_eq o sv, releaseIfHost]
  split
  · exact sameIdentities_trans hend chRelease_sameIdentities
  · exact hend

theorem settle_linkFrame (sv : Serves c h d s) : LinkFrame s (settle h d o s) :=
  ⟨by simp [SameResults], by simp [SameControls], settle_sameIdentities o sv⟩

/-- The word a settlement appends, in the numbers of R120. -/
theorem settle_evq_completion (hh : h < 256) :
    (settle h d o s).evq = s.evq ++ [completion o.code.toNat d h (half h d s).done.toNat] := by
  rw [settle_evq, xferComplete_eq_completion o d _ hh]

end

end Sys2Proof.Machine
end

