-- ==== Sys2Proof/Proofs/ReceivedPackets.lean ====
section
/-! SUPPORT. What an accepted RX_DATA and a SETUP_RX do (R216, R218): the packet goes to the arena and to the caller buffer, the
half counts it, and then the transfer settles or the slot is armed again. -/

namespace Sys2Proof.Machine

open Sys2Proof.Safety Sys2Proof.Claims

/-! ### Byte memories -/

section
variable {m : Memory}

/-- Bytes read where bytes were written are the ones written. -/
theorem Memory.readBytes_writeBytes (bs : List Byte) (a : Nat) {n : Nat} (hm : Memory.wf m) (hn : n ≤ bs.length) :
    Memory.readBytes (Memory.writeBytes m a bs) a n = bs.take n := by
  apply List.ext_getElem
  · simp [hn]
  · intro i hi _
    have hlt : i < bs.length := by
      rw [Memory.length_readBytes] at hi
      omega
    rw [Memory.getElem_readBytes, Memory.read_writeBytes_inside bs a i hm hlt, List.getElem_take]

theorem Memory.writeBytes_bytesAt (a : Nat) (bs : List Byte) (hm : Memory.wf m) : BytesAt (Memory.writeBytes m a bs) a bs := by
  rw [BytesAt, Memory.readBytes_writeBytes bs a hm le_rfl, List.take_length]

theorem Memory.writeBytes_sameBytesOutside (a : Nat) (bs : List Byte) {n : Nat} (hm : Memory.wf m) (hn : bs.length = n) :
    SameBytesOutside a n m (Memory.writeBytes m a bs) :=
  fun x hx => Memory.read_writeBytes_outside bs a x hm (hn ▸ hx)

end

/-! ### Enabling and admission -/

theorem whenAdmitted_of_admits {a n : Nat} {s : State} (r : Result) (h : memAdmits a n s = true) :
    whenAdmitted a n s r = r := if_pos h

theorem whenAdmitted_of_refuses {a n : Nat} {s : State} (r : Result) (h : memAdmits a n s = false) :
    whenAdmitted a n s r = .fault (.stuck a n) := if_neg (by simp [h])

theorem slotEnabled_iff {c : BitVec 4} {d : Dir} {s : State} : slotEnabled c d s = true ↔ SlotReady c d s := by
  simp [slotEnabled, SlotReady, room, and_assoc]

theorem payloadFits_iff {n : BitVec 11} {data : List Byte} : payloadFits n data = true ↔ data.length = n.toNat := beq_iff_eq

/-- An enabled RX_DATA whose packet fits and whose PID is expected is accepted (R216). -/
theorem exec_linkRxData_of_accepts {c : BitVec 4} {d : Dir} {pid : Bool} {n : BitVec 11} {data : List Byte} {s : State}
    (r : RxAcceptReady c d pid n data s) : exec (.linkRxData c d pid n data) s = acceptPacket c d data s := by
  obtain ⟨⟨ready, receives, noSetup, len⟩, fits, expected⟩ := r
  have enabled : rxEnabled c d s = true := by
    have noSetup' : (s.role == .device && (slotHalf c d s).setup) = false := by simpa using noSetup
    simp [rxEnabled, slotEnabled_iff.2 ready, receives, noSetup']
  have hpid : pidMatches (slotHalf c d s) pid = true := by simpa [pidMatches] using expected
  show execLinkRxData c d pid n data s = _
  simp [execLinkRxData, payloadFits_iff.2 len, whenEnabled, enabled, receivePacket, hpid, Nat.not_lt.2 fits]

/-- An enabled SETUP_RX of 8 bytes is accepted (R218). -/
theorem exec_linkSetupRx_of_ready {c : BitVec 4} {data : List Byte} {s : State} (r : SetupRxReady c data s) :
    exec (.linkSetupRx c .out 8 data) s = acceptSetup c data s := by
  obtain ⟨ready, device, setup, len⟩ := r
  have enabled : setupEnabled c .out s = true := by simp [setupEnabled, slotEnabled_iff.2 ready, device, setup]
  have hlen : payloadFits 8#11 data = true := payloadFits_iff.2 len
  show execLinkSetupRx c .out 8 data s = _
  simp [execLinkSetupRx, hlen, whenEnabled, enabled]

/-! ### The packet's bytes -/

/-- A packet stored: its bytes in the slot's range, their number in the slot, `bytes` in the caller buffer at `a`. -/
def storePacket (c : Nat) (d : Dir) (data : List Byte) (a : Nat) (bytes : List Byte) (s : State) : State :=
  memWrite a bytes (setCnt c d data.length (arenaWrite (slot c d s).off.toNat data s))

@[simp] theorem half_storePacket (c h : Nat) (d d' : Dir) (data bytes : List Byte) (a : Nat) (s : State) :
    half h d' (storePacket c d data a bytes s) = half h d' s := rfl

@[simp] theorem entry_storePacket (c h : Nat) (d : Dir) (data bytes : List Byte) (a : Nat) (s : State) :
    entry h (storePacket c d data a bytes s) = entry h s := rfl

@[simp] theorem storePacket_eps (c : Nat) (d : Dir) (data bytes : List Byte) (a : Nat) (s : State) :
    (storePacket c d data a bytes s).eps = s.eps := rfl

theorem storePacket_slotBecomes {c : Nat} (d : Dir) (data : List Byte) (a : Nat) (bytes : List Byte) {s : State}
    (hc : c < s.chans.length) :
    SlotBecomes c d { slot c d s with cnt := BitVec.ofNat 16 data.length } s (storePacket c d data a bytes s) :=
  modSlot_slotBecomes (s := s) (fun x => { x with cnt := BitVec.ofNat 16 data.length }) hc

/-- Both memories after a packet was stored, and the wire record, which keeps only packets that were sent (R213, R216). -/
abbrev PacketStored (c : Nat) (d : Dir) (data : List Byte) (a : Nat) (bytes : List Byte) (s t : State) : Prop :=
  BytesAt t.mem a bytes ∧ SameBytesOutside a bytes.length s.mem t.mem ∧ BytesAt t.arena (slot c d s).off.toNat data ∧
  SameBytesOutside (slot c d s).off.toNat data.length s.arena t.arena ∧ t.wire = s.wire

/-- A state whose memories and wire are those of the stored packet. -/
theorem packetStored_of_eq {c : Nat} {d : Dir} {data bytes : List Byte} {a : Nat} {s t : State} (g : Good s)
    (hmem : t.mem = (storePacket c d data a bytes s).mem) (harena : t.arena = (storePacket c d data a bytes s).arena)
    (hwire : t.wire = s.wire) : PacketStored c d data a bytes s t := by
  obtain ⟨arenaWf, memWf, -⟩ := g.memories
  rw [PacketStored, hmem, harena]
  exact ⟨Memory.writeBytes_bytesAt a bytes memWf, Memory.writeBytes_sameBytesOutside a bytes memWf rfl,
    Memory.writeBytes_bytesAt _ data arenaWf, Memory.writeBytes_sameBytesOutside _ data arenaWf rfl, hwire⟩

/-! ### Arming a receiving slot again (R211) -/

section
variable {c h : Nat} {d : Dir} {s : State}

theorem armReceive_slotBecomes (sv : Serves c h d s) (valid : (slot c d s).valid = true) :
    SlotBecomes c d { slot c d s with cnt := BitVec.ofNat 16 (half h d s).mps.toNat } s (armReceive h d s) := by
  have counted := modSlot_slotBecomes (d := d) (fun x => { x with cnt := BitVec.ofNat 16 (half h d s).mps.toNat }) sv.chan_lt
  have armed := modSlot_slotBecomes (s := setCnt c d (half h d s).mps.toNat s) (d := d)
    (fun x => { x with valid := true }) (by simpa [setCnt] using sv.chan_lt)
  rw [armReceive, sv.ch]
  have both : SlotBecomes _ _ _ _ _ := slotBecomes_trans counted armed
  exact ⟨both.1.trans (by rw [setCnt, counted.1]; simp [valid]), both.2⟩

@[simp] theorem half_armReceive (h' : Nat) (d' : Dir) : half h' d' (armReceive h d s) = half h' d' s :=
  half_congr (armReceive_eps h d s) h' d'

theorem armReceive_linkFrame : LinkFrame s (armReceive h d s) :=
  ⟨by simp [SameResults], by simp [SameControls], sameIdentities_of_eps (armReceive_eps h d s)⟩

end

/-! ### RX_DATA -/

/-- The state after an accepted packet is stored and counted (R216). -/
def receivedState (c : BitVec 4) (d : Dir) (data : List Byte) (s : State) : State :=
  advanceToggle (slotHandle c d s) d (countPacket (slotHandle c d s) d (wanted c d data s)
    (storePacket c.toNat d data (rxAddr c d s) (data.take (wanted c d data s)) s))

section
variable {c : BitVec 4} {d : Dir} {data : List Byte} {s : State}

theorem wanted_le_length : wanted c d data s ≤ data.length := min_le_left _ _

/-- Accepting a packet is storing and counting it, where MemAdmit admits the write. -/
theorem acceptPacket_eq (g : Good s) :
    acceptPacket c d data s = whenAdmitted (rxAddr c d s) (wanted c d data s) s
      (finishReceive (slotHandle c d s) d data.length (receivedState c d data s)) := by
  have hbytes : arenaRead (slot c.toNat d s).off.toNat (wanted c d data s)
      (setCnt c.toNat d data.length (arenaWrite (slot c.toNat d s).off.toNat data s)) = data.take (wanted c d data s) :=
    Memory.readBytes_writeBytes data _ g.memories.1 wanted_le_length
  rw [receivedState, ← hbytes]
  rfl

/-! Counting a packet changes the registry only. -/

@[simp] theorem receivedState_mem : (receivedState c d data s).mem =
    (storePacket c.toNat d data (rxAddr c d s) (data.take (wanted c d data s)) s).mem := by simp [receivedState]
@[simp] theorem receivedState_arena : (receivedState c d data s).arena =
    (storePacket c.toNat d data (rxAddr c d s) (data.take (wanted c d data s)) s).arena := by simp [receivedState]
@[simp] theorem receivedState_wire : (receivedState c d data s).wire = s.wire := by simp [receivedState, storePacket]
@[simp] theorem receivedState_evq : (receivedState c d data s).evq = s.evq := by simp [receivedState, storePacket]
@[simp] theorem receivedState_role : (receivedState c d data s).role = s.role := by simp [receivedState, storePacket]

theorem half_receivedState (h' : Nat) (d' : Dir) (hh : slotHandle c d s < s.eps.length) :
    half h' d' (receivedState c d data s) =
      if h' = slotHandle c d s ∧ d' = d then progressed (wanted c d data s) (slotHalf c d s) else half h' d' s := by
  simp only [receivedState, advanceToggle, countPacket, half_modHalf, eps_length_modHalf, storePacket_eps, hh, and_true,
    half_storePacket]
  split <;> rfl

theorem half_receivedState_self (hh : slotHandle c d s < s.eps.length) :
    half (slotHandle c d s) d (receivedState c d data s) = progressed (wanted c d data s) (slotHalf c d s) := by
  rw [half_receivedState _ _ hh, if_pos ⟨rfl, rfl⟩]

theorem receivedState_slotBecomes (hc : c.toNat < s.chans.length) :
    SlotBecomes c.toNat d { slot c.toNat d s with cnt := BitVec.ofNat 16 data.length } s (receivedState c d data s) :=
  storePacket_slotBecomes d data (rxAddr c d s) (data.take (wanted c d data s)) hc

theorem receivedState_serves (sv : Serves c.toNat (slotHandle c d s) d s) :
    Serves c.toNat (slotHandle c d s) d (receivedState c d data s) :=
  serves_of_becomes sv (receivedState_slotBecomes sv.chan_lt) rfl rfl
    (by rw [half_receivedState_self sv.entry_lt]; rfl)
    (by simp [receivedState, advanceToggle, countPacket]) (by simp [receivedState, storePacket, setCnt])

theorem receivedState_otherHalves (hh : slotHandle c d s < s.eps.length) :
    OtherHalves (slotHandle c d s) [d] s (receivedState c d data s) := by
  intro h' d' ne
  rw [half_receivedState h' d' hh, if_neg (by simpa using ne)]

theorem receivedState_linkFrame : LinkFrame s (receivedState c d data s) := by
  refine ⟨?results, ?controls, fun h' => ?identities⟩
  case results => simp [SameResults, receivedState, storePacket]
  case controls => simp [SameControls, receivedState, storePacket]
  case identities => simp [receivedState, advanceToggle, countPacket]

/-- No more bytes are taken than the transfer still wants (R54, INV4). -/
theorem done_add_wanted_le (g : Good s) (r : SlotReady c d s) :
    (slotHalf c d s).done.toNat + wanted c d data s ≤ (slotHalf c d s).total.toNat := by
  have hh : slotHandle c d s < s.cfg.epMax := g.shape.2.1 ▸ (serves_of_good g r).entry_lt
  have hdone : (slotHalf c d s).done.toNat ≤ (slotHalf c d s).total.toNat := g.inv4.1 _ hh d (mem_bothDirs d)
  have hk : wanted c d data s ≤ (slotHalf c d s).total.toNat - (slotHalf c d s).done.toNat := min_le_right _ _
  omega

/-- The count of bytes done does not wrap. -/
theorem progressed_done (g : Good s) (r : SlotReady c d s) :
    (progressed (wanted c d data s) (slotHalf c d s)).done.toNat = (slotHalf c d s).done.toNat + wanted c d data s := by
  have hle := done_add_wanted_le (data := data) g r
  have hlt := (slotHalf c d s).total.isLt
  exact Nat.mod_eq_of_lt (by omega)

/-- The model's test for the last packet is that of R215. -/
theorem finishReceive_receivedState (g : Good s) (r : SlotReady c d s) :
    finishReceive (slotHandle c d s) d data.length (receivedState c d data s) =
      if RxCompletes c d data s then .next (settle (slotHandle c d s) d .success (receivedState c d data s))
      else arm (slotHandle c d s) d (receivedState c d data s) := by
  have hlast : ((progressed (wanted c d data s) (slotHalf c d s)).done == (slotHalf c d s).total) = true ↔
      (slotHalf c d s).done.toNat + wanted c d data s = (slotHalf c d s).total.toNat := by
    rw [beq_iff_eq, ← BitVec.toNat_inj, progressed_done g r]
  simp only [finishReceive, half_receivedState_self (serves_of_good g r).entry_lt]
  refine if_congr ?_ rfl rfl
  rw [Bool.or_eq_true, decide_eq_true_eq]
  exact or_congr Iff.rfl hlast

/-- What an accepted packet leaves whether or not it completes its transfer: the other halves, both memories, the wire and the
registers (R216). -/
abbrev RxFrame (c : BitVec 4) (d : Dir) (data : List Byte) (s t : State) : Prop :=
  OtherHalves (slotHandle c d s) [d] s t ∧ BytesAt t.mem (rxAddr c d s) (data.take (wanted c d data s)) ∧
  SameBytesOutside (rxAddr c d s) (wanted c d data s) s.mem t.mem ∧ BytesAt t.arena (slot c.toNat d s).off.toNat data ∧
  SameBytesOutside (slot c.toNat d s).off.toNat data.length s.arena t.arena ∧ t.wire = s.wire ∧ LinkFrame s t

/-- Either end of an accepted packet keeps what storing and counting it left. -/
theorem rxFrame_of_received {t : State} (g : Good s) (r : SlotReady c d s)
    (halves : OtherHalves (slotHandle c d s) [d] (receivedState c d data s) t)
    (hmem : t.mem = (receivedState c d data s).mem) (harena : t.arena = (receivedState c d data s).arena)
    (hwire : t.wire = (receivedState c d data s).wire) (frame : LinkFrame (receivedState c d data s) t) :
    RxFrame c d data s t := by
  obtain ⟨bytes, bytesOut, range, rangeOut, wire⟩ := packetStored_of_eq g (hmem.trans receivedState_mem)
    (harena.trans receivedState_arena) (hwire.trans receivedState_wire)
  rw [List.length_take_of_le wanted_le_length] at bytesOut
  exact ⟨otherHalves_trans (receivedState_otherHalves (serves_of_good g r).entry_lt) halves, bytes, bytesOut, range, rangeOut,
    wire, linkFrame_trans receivedState_linkFrame frame⟩

/-- A completing packet settles the transfer with SUCCESS and all its bytes (R215, R230). -/
theorem rxAccept_settles (g : Good s) (r : SlotReady c d s) (done : RxCompletes c d data s) :
    RxAcceptAfter c d data s (settle (slotHandle c d s) d .success (receivedState c d data s)) := by
  have sv := serves_of_good g r
  have svU := receivedState_serves (data := data) sv
  have hhalf := half_receivedState_self (data := data) sv.entry_lt
  refine ⟨?tables, rxFrame_of_received g r (settle_otherHalves .success (by simp) svU) (by simp) (by simp) (by simp)
    (settle_linkFrame .success svU)⟩
  rw [if_pos done]
  refine ⟨?half, settle_slotSettled_of_counted .success svU receivedState_role (receivedState_slotBecomes sv.chan_lt), ?word⟩
  case half => rw [half_settle .success _ _ svU, if_pos ⟨rfl, rfl⟩, hhalf, receivedState_role]
  case word =>
    rw [settle_evq_completion .success (slotHandle_lt c d s), hhalf, progressed_done g r, receivedState_evq]
    rfl

/-- Any other packet leaves the transfer in flight and the slot armed for mps bytes again (R211, R216). -/
theorem rxAccept_arms (g : Good s) (r : SlotReady c d s) (more : ¬ RxCompletes c d data s) :
    RxAcceptAfter c d data s (armReceive (slotHandle c d s) d (receivedState c d data s)) := by
  have sv := serves_of_good g r
  have svU := receivedState_serves (data := data) sv
  have counted := receivedState_slotBecomes (d := d) (data := data) sv.chan_lt
  have hhalf := half_receivedState_self (data := data) sv.entry_lt
  have hvalid : (slot c.toNat d (receivedState c d data s)).valid = true := by
    rw [counted.1]
    exact r.2.2.1
  have armed : SlotBecomes _ _ _ _ _ := slotBecomes_trans counted (armReceive_slotBecomes svU hvalid)
  rw [counted.1, hhalf] at armed
  refine ⟨?tables, rxFrame_of_received g r (fun h' d' _ => half_armReceive h' d') (by simp) (by simp) (by simp)
    armReceive_linkFrame⟩
  rw [if_neg more, half_armReceive, hhalf]
  exact ⟨rfl, armed.1, armed.2.1, armed.2.2, by simp⟩

/-- One of the two ends, where MemAdmit admits the write. -/
theorem finishReceive_accepts (g : Good s) (r : SlotReady c d s) (receives : isSend s.role d = false) :
    ∃ t, finishReceive (slotHandle c d s) d data.length (receivedState c d data s) = .next t ∧
      RxAcceptAfter c d data s t := by
  rw [finishReceive_receivedState g r]
  by_cases done : RxCompletes c d data s
  · exact ⟨_, if_pos done, rxAccept_settles g r done⟩
  · refine ⟨_, ?_, rxAccept_arms g r done⟩
    rw [if_neg done, arm, receivedState_role, receives, if_neg Bool.false_ne_true]

end

/-! ### SETUP_RX -/

/-- The state after a SETUP packet is stored and counted and both toggles are DATA1 (R218, R220). -/
def setupState (c : BitVec 4) (data : List Byte) (s : State) : State :=
  forceToggles (slotHandle c .out s)
    (modHalf (slotHandle c .out s) .out (fun x => { x with done := 8, nak := 0, err := 0 })
      (storePacket c.toNat .out data (slotHalf c .out s).buf.toNat data s))

section
variable {c : BitVec 4} {data : List Byte} {s : State}

/-- Accepting a SETUP packet is storing and counting it and settling, where MemAdmit admits the write. -/
theorem acceptSetup_eq (r : SetupRxReady c data s) :
    acceptSetup c data s = whenAdmitted (slotHalf c .out s).buf.toNat 8 s
      (.next (settle (slotHandle c .out s) .out .success (setupState c data s))) := by
  obtain ⟨-, -, -, len⟩ := r
  rw [setupState, storePacket, len]
  rfl

/-! Counting a SETUP packet changes the registry only. -/

@[simp] theorem setupState_mem : (setupState c data s).mem =
    (storePacket c.toNat .out data (slotHalf c .out s).buf.toNat data s).mem := by simp [setupState]
@[simp] theorem setupState_arena : (setupState c data s).arena =
    (storePacket c.toNat .out data (slotHalf c .out s).buf.toNat data s).arena := by simp [setupState]
@[simp] theorem setupState_wire : (setupState c data s).wire = s.wire := by simp [setupState, storePacket]
@[simp] theorem setupState_evq : (setupState c data s).evq = s.evq := by simp [setupState, storePacket]
@[simp] theorem setupState_role : (setupState c data s).role = s.role := by simp [setupState, storePacket]

/-- The half of the SETUP stage has its 8 bytes and DATA1. -/
theorem half_setupState_out (hh : slotHandle c .out s < s.eps.length) :
    half (slotHandle c .out s) .out (setupState c data s) =
      { slotHalf c .out s with done := 8, nak := 0, err := 0, toggle := true } := by
  simp [setupState, forceToggles, half_modHalf, hh, slotHalf]

/-- The other half of the control endpoint has DATA1 too. -/
theorem half_setupState_inn (hh : slotHandle c .out s < s.eps.length) :
    half (slotHandle c .out s) .inn (setupState c data s) = { half (slotHandle c .out s) .inn s with toggle := true } := by
  simp [setupState, forceToggles, half_modHalf, hh]

theorem setupState_otherHalves : OtherHalves (slotHandle c .out s) bothDirs s (setupState c data s) := by
  intro h' d' ne
  have ne' : h' ≠ slotHandle c .out s := by simpa using ne
  simp [setupState, forceToggles, half_modHalf, ne']

theorem setupState_slotBecomes (hc : c.toNat < s.chans.length) :
    SlotBecomes c.toNat .out { slot c.toNat .out s with cnt := BitVec.ofNat 16 data.length } s (setupState c data s) :=
  storePacket_slotBecomes .out data (slotHalf c .out s).buf.toNat data hc

theorem setupState_serves (sv : Serves c.toNat (slotHandle c .out s) .out s) :
    Serves c.toNat (slotHandle c .out s) .out (setupState c data s) :=
  serves_of_becomes sv (setupState_slotBecomes sv.chan_lt) rfl rfl
    (by rw [half_setupState_out sv.entry_lt]; rfl)
    (by simp [setupState, forceToggles]) (by simp [setupState, storePacket, setCnt])

theorem setupState_linkFrame : LinkFrame s (setupState c data s) := by
  refine ⟨?results, ?controls, fun h' => ?identities⟩
  case results => simp [SameResults, setupState, storePacket]
  case controls => simp [SameControls, setupState, storePacket]
  case identities => simp [setupState, forceToggles]

/-- A SETUP packet settles the stage with SUCCESS and 8 bytes, both toggles DATA1 (R218, R220, R230). -/
theorem setupRx_settles (g : Good s) (r : SetupRxReady c data s) :
    SetupRxAfter c data s (settle (slotHandle c .out s) .out .success (setupState c data s)) := by
  obtain ⟨ready, device, -, len⟩ := r
  have sv := serves_of_good g ready
  have svU := setupState_serves (data := data) sv
  have hhalf := half_setupState_out (data := data) sv.entry_lt
  have counted := setupState_slotBecomes (data := data) sv.chan_lt
  rw [len] at counted
  obtain ⟨hmem, hmemOut, harena, harenaOut, hwire⟩ : PacketStored c.toNat .out data (slotHalf c .out s).buf.toNat data s
      (settle (slotHandle c .out s) .out .success (setupState c data s)) :=
    packetStored_of_eq g (by simp) (by simp) (by simp)
  rw [len] at hmemOut harenaOut
  refine ⟨?out, ?inn,
    otherHalves_trans setupState_otherHalves (settle_otherHalves .success (mem_bothDirs .out) svU),
    settle_slotSettled_of_counted .success svU setupState_role counted, ?word, hmem, hmemOut, harena, harenaOut, hwire,
    linkFrame_trans setupState_linkFrame (settle_linkFrame .success svU)⟩
  case out =>
    rw [half_settle .success _ _ svU, if_pos ⟨rfl, rfl⟩, hhalf, setupState_role, device]
    rfl
  case inn => rw [half_settle .success _ _ svU, if_neg (by simp), half_setupState_inn sv.entry_lt]
  case word =>
    rw [settle_evq_completion .success (slotHandle_lt c .out s), hhalf, setupState_evq]
    rfl

end

end Sys2Proof.Machine

open Sys2Proof Sys2Proof.Machine

/-- Settles O38: the event is the accepted packet under MemAdmit, and an accepted packet takes one of its two ends. -/
theorem rxAccept : Obligations.RxAccept := by
  intro c d pid n data s g r
  obtain ⟨ready, receives, -⟩ := r.1
  rw [exec_linkRxData_of_accepts r, acceptPacket_eq g]
  refine ⟨fun admits => ?_, whenAdmitted_of_refuses _⟩
  rw [whenAdmitted_of_admits _ admits]
  exact finishReceive_accepts g ready receives

/-- Settles O41: the event is the stored SETUP packet under MemAdmit, and then the settlement. -/
theorem setupRxRule : Obligations.SetupRxRule := by
  intro c data s g r
  rw [exec_linkSetupRx_of_ready r, acceptSetup_eq r]
  exact ⟨fun admits => ⟨_, whenAdmitted_of_admits _ admits, setupRx_settles g r⟩, whenAdmitted_of_refuses _⟩

end

