-- ==== Sys2Proof/Proofs/LinkWords.lean ====
section
/-! SUPPORT. Which link event words are well formed (R122 to R124): each bit a kind leaves 0, read as a field; what the decoder
answers for each kind; and the refusal of every other word. -/

namespace Sys2Proof

open Sys2Proof.Machine Sys2Proof.Claims

section
variable (w : Word)

/-! ### Fields and masks -/

/-- A field of a word as a number. -/
theorem toNat_bits (lo n : Nat) : (bits w lo n).toNat = w.toNat / 2 ^ lo % 2 ^ n := by
  rw [bits_eq_ofNat, BitVec.toNat_ofNat]

/-- A field's value is seen through the field's mask. -/
theorem and_mask_eq_field_iff (lo : Nat) {n : Nat} (v : BitVec n) (h : lo + n ≤ 32) :
    w &&& field lo (BitVec.allOnes n) = field lo v ↔ bits w lo n = v := by
  constructor
  · intro masked
    apply BitVec.eq_of_getLsbD_eq
    intro i hi
    have bit_eq := congrArg (·.getLsbD (lo + i)) masked
    simpa only [BitVec.getLsbD_and, getLsbD_field, getLsbD_bits, BitVec.getLsbD_allOnes, Nat.add_sub_cancel_left, hi,
      show lo + i < 32 by omega, Nat.le_add_right, decide_true, Bool.true_and, Bool.and_true] using bit_eq
  · rintro rfl
    apply word_ext
    intro i hi
    by_cases hlo : lo ≤ i
    · simp [hi, hlo, Bool.and_comm]
    · simp [hlo]

/-- The bits below DIR, 22 to 0 (R122). -/
theorem and_belowDir_eq_iff (v : BitVec 23) : w &&& 0x007FFFFF = field 0 v ↔ bits w 0 23 = v :=
  and_mask_eq_field_iff w 0 v (by decide)

/-- The bits below N, 10 to 0 (R122). -/
theorem and_belowN_eq_zero_iff : w &&& 0x7FF = 0 ↔ bits w 0 11 = 0#11 := and_mask_eq_field_iff w 0 0#11 (by decide)

/-- The bits below KIND, 27 to 0 (R122). -/
theorem and_belowKind_eq_zero_iff : w &&& 0x0FFFFFFF = 0 ↔ bits w 0 28 = 0#28 :=
  and_mask_eq_field_iff w 0 0#28 (by decide)

/-- The bits below KIND but SPEED, bit 10 (R122). -/
theorem and_besideSpeed_eq_zero_iff : w &&& 0x0FFFFBFF = 0 ↔ bits w 0 10 = 0#10 ∧ bits w 11 17 = 0#17 := by
  have twoFields : (0x0FFFFBFF : Word) = field 0 (BitVec.allOnes 10) ||| field 11 (BitVec.allOnes 17) := by decide
  rw [twoFields, BitVec.and_or_distrib_left]
  exact BitVec.or_eq_zero_iff.trans
    (and_congr (and_mask_eq_field_iff w 0 0#10 (by decide)) (and_mask_eq_field_iff w 11 0#17 (by decide)))

/-- The bits of SETUP_RX below DIR: PID 0, N = 8, the rest 0 (R122, R124). -/
theorem and_belowDir_eq_setup_iff :
    w &&& 0x007FFFFF = 0x4000 ↔ bits w 0 11 = 0#11 ∧ bits w 22 1 = 0#1 ∧ bits w 11 11 = 8#11 := by
  refine (and_belowDir_eq_iff w 0x4000#23).trans ?_
  simp only [← BitVec.toNat_inj, toNat_bits, BitVec.toNat_ofNat]
  omega

/-- KIND is what is left when the word is shifted down by 28 bits (R122). -/
theorem toNat_kind : (w >>> 28).toNat = (bits w 28 4).toNat := by
  have := w.isLt
  rw [toNat_bits, BitVec.toNat_ushiftRight, Nat.shiftRight_eq_div_pow]
  omega

/-- KIND compared as a shifted word (R122). -/
theorem kind_eq_iff {k : Nat} (hk : k < 2 ^ 32) : w >>> 28 = BitVec.ofNat 32 k ↔ (bits w 28 4).toNat = k := by
  rw [← BitVec.toNat_inj, toNat_kind, BitVec.toNat_ofNat, Nat.mod_eq_of_lt hk]

/-- N, shifted down and masked (R122). -/
theorem toNat_lengthField : ((w >>> 11) &&& 0x7FF).toNat = (bits w 11 11).toNat := by
  rw [toNat_bits, BitVec.toNat_and, BitVec.toNat_ushiftRight, Nat.shiftRight_eq_div_pow]
  exact Nat.and_two_pow_sub_one_eq_mod _ 11

end

section
variable {w : Word} {payload : List Byte}

/-! ### The decoder's tests -/

theorem slotKindOnly_iff : slotKindOnly w payload = true ↔ w &&& 0x007FFFFF = 0 ∧ payload = [] := by
  rw [← List.isEmpty_iff, slotKindOnly, Bool.and_eq_true, beq_iff_eq]
  exact and_congr_left' (and_belowDir_eq_iff w 0#23).symm

theorem busKindOnly_iff : busKindOnly w payload = true ↔ w &&& 0x0FFFFFFF = 0 ∧ payload = [] := by
  rw [← List.isEmpty_iff, busKindOnly, Bool.and_eq_true, beq_iff_eq, and_belowKind_eq_zero_iff]

/-- The well-formed words in the decoder's own tests, by the kind's class (R124). -/
theorem linkOk_iff : LinkOk w payload ↔
    ((bits w 28 4).toNat ∈ [1, 3, 4, 5] ∧ slotKindOnly w payload = true) ∨
    ((bits w 28 4).toNat = 2 ∧ bits w 0 11 = 0#11 ∧ payload.length = (bits w 11 11).toNat) ∨
    ((bits w 28 4).toNat = 6 ∧ (bits w 0 11 = 0#11 ∧ bits w 22 1 = 0#1 ∧ bits w 11 11 = 8#11) ∧ payload.length = 8) ∨
    ((bits w 28 4).toNat ∈ [7, 8, 10, 11, 12] ∧ busKindOnly w payload = true) ∨
    ((bits w 28 4).toNat = 9 ∧ (bits w 0 10 = 0#10 ∧ bits w 11 17 = 0#17) ∧ payload = []) := by
  rw [LinkOk, slotKindOnly_iff, busKindOnly_iff, toNat_kind, ← and_belowDir_eq_setup_iff, ← and_besideSpeed_eq_zero_iff,
    ← and_belowN_eq_zero_iff, toNat_lengthField, ← kind_eq_iff w (k := 2) (by decide), ← kind_eq_iff w (k := 6) (by decide),
    ← kind_eq_iff w (k := 9) (by decide)]
  rfl

end

/-! ### What the decoder answers -/

/-- The decoder answers an instruction of the Link under a test, and the test with the instruction's own well-formedness
is R124. -/
theorem decodeLink_eq_whenFits (w : Word) (payload : List Byte) :
    ∃ ok i, decodeLink w payload = whenFits ok i ∧ isLink i = true ∧
      (ok = true ∧ wellFormed i = true ↔ LinkOk w payload) := by
  have hlt : (bits w 28 4).toNat < 16 := (bits w 28 4).isLt
  rw [linkOk_iff]
  unfold decodeLink
  generalize (bits w 28 4).toNat = k at *
  match k, hlt with
  | 0, _ | 13, _ | 14, _ | 15, _ => exact ⟨true, _, rfl, rfl, by simp [wellFormed]⟩
  | 1, _ | 3, _ | 4, _ | 5, _ | 7, _ | 8, _ | 9, _ | 10, _ | 11, _ | 12, _ => exact ⟨_, _, rfl, rfl, by simp [wellFormed]⟩
  | 2, _ => exact ⟨_, _, rfl, rfl, by simp [wellFormed, payloadFits_iff]⟩
  | 6, _ => exact ⟨_, _, rfl, rfl, by simp +contextual [wellFormed, payloadFits_iff, and_assoc]⟩
  | k + 16, h => omega

/-- The link events among the ill-formed instructions are refused in every state (R124). -/
theorem exec_of_isLink_of_not_wellFormed {i : Instr} (hl : isLink i = true) (hw : wellFormed i = false) (s : State) :
    exec i s = .refused .illFormedLink := by
  cases i with
  | linkRxData c d pid n data => exact if_pos (congrArg not hw)
  | linkSetupRx c d n data => exact if_pos (congrArg not hw)
  | linkReserved0 x data => rfl
  | linkReservedD x data => rfl
  | linkReservedE x data => rfl
  | linkReservedF x data => rfl
  | _ => simp [isLink, wellFormed] at hl hw

theorem whenFits_eq_some {ok : Bool} {i j : Instr} : whenFits ok i = some j ↔ ok = true ∧ i = j := by
  cases ok <;> simp [whenFits]

theorem decode_link_eq_ok {base w : Word} {payload : List Byte} {i : Instr} :
    decode base (.link w payload) = .ok i ↔ decodeLink w payload = some i := by
  simp only [decode]
  cases decodeLink w payload <;> simp

/-- A step offered a link event word runs what it decodes to, and refuses a word that decodes to nothing (R6, R124). -/
theorem step_link {s : State} {w payload rest} (h : s.inbox = .act (.link w payload) :: rest) :
    step s = (decodeLink w payload).elim (.refused .illFormedLink) (fun i => checked (exec i { s with inbox := rest })) := by
  simp only [step, fetch, h, decodeAt, decode]
  cases decodeLink w payload <;> rfl

end Sys2Proof

open Sys2Proof Sys2Proof.Machine

/-- Settles O4: the decoder's test and the instruction's own well-formedness are together R124, and where one of them fails
the word decodes to nothing or to a link event that every state refuses. -/
theorem linkWellFormedness : Obligations.LinkWellFormedness := by
  intro w payload
  obtain ⟨ok, i, answer, link, test⟩ := decodeLink_eq_whenFits w payload
  refine ⟨fun base => ?decodes, fun s rest offered bad => ?refused⟩
  case decodes =>
    simp only [← test, decode_link_eq_ok, answer, whenFits_eq_some, and_assoc, exists_and_left, exists_eq_left']
  case refused =>
    rw [← test] at bad
    rw [step_link offered, answer]
    cases ok with
    | false => rfl
    | true =>
      have illFormed : wellFormed i = false := by simpa using bad
      exact congrArg checked (exec_of_isLink_of_not_wellFormed link illFormed _)

end

