-- ==== Sys2Proof/Proofs/WorkedWords.lean ====
section
/-! SUPPORT. The reserved opcodes (R114), and the worked words of R118, R121 and R126. -/

namespace Sys2Proof

open Sys2Proof.Machine

/-! ### Reserved opcodes -/

/-- The reserved opcodes with the 28 bits they leave (R114). -/
def reservedCommands (x : BitVec 28) : List Instr :=
  [.illegal0 x, .illegalA x, .illegalB x, .illegalC x, .illegalD x, .illegalE x, .illegalF x]

/-- Opcodes 0x0 and 0xA to 0xF decode to a reserved command (R115). -/
theorem decodeCommand_mem_reservedCommands {w : Word} (h : (bits w 28 4).toNat = 0 ∨ 10 ≤ (bits w 28 4).toNat) :
    decodeCommand w ∈ reservedCommands (bits w 0 28) := by
  have hlt : (bits w 28 4).toNat < 16 := (bits w 28 4).isLt
  unfold decodeCommand
  generalize (bits w 28 4).toNat = k at *
  match k, h with
  | 0, _ | 10, _ | 11, _ | 12, _ | 13, _ | 14, _ | 15, _ => simp [reservedCommands]
  | 1, h | 2, h | 3, h | 4, h | 5, h | 6, h | 7, h | 8, h | 9, h => omega
  | k + 16, _ => omega

/-- A reserved command is rejected with ILLEGAL in every state (R114, R321). -/
theorem exec_reservedCommands {x : BitVec 28} {i : Instr} (h : i ∈ reservedCommands x) (s : State) :
    exec i s = .next { s with result := 6, result2 := 0 } := by
  have answer : illegalCommand s = .next { s with result := 6, result2 := 0 } := rfl
  rw [← answer]
  simp only [reservedCommands, List.mem_cons, List.not_mem_nil, or_false] at h
  obtain rfl | rfl | rfl | rfl | rfl | rfl | rfl := h <;> rfl

/-! ### Worked words -/

section
variable {w : Word} {payload : List Byte}

/-- A 32-bit write at offset 0x10 is the command of its word (R38, R110). -/
theorem decode_write_cmd (w : Word) : decode 0 (.write 0x10 32 w) = .ok (decodeCommand w) := rfl

/-- A word of kind RX_DATA with its N bytes decodes to its fields (R122 to R124). -/
theorem decodeLink_rxData (kind : (bits w 28 4).toNat = 2) (low : bits w 0 11 = 0#11)
    (len : payload.length = (bits w 11 11).toNat) :
    decodeLink w payload = some (.linkRxData (bits w 24 4) (dirOfBit (bit w 23)) (bit w 22) (bits w 11 11) payload) := by
  simp [decodeLink, kind, whenFits, low, payloadFits_iff.2 len]

/-- A word of kind SETUP_RX with its 8 bytes decodes to its fields (R122 to R124). -/
theorem decodeLink_setupRx (kind : (bits w 28 4).toNat = 6) (setup : w &&& 0x007FFFFF = 0x4000)
    (len : payload.length = 8) :
    decodeLink w payload = some (.linkSetupRx (bits w 24 4) (dirOfBit (bit w 23)) 8#11 payload) := by
  obtain ⟨low, pid, n⟩ := (and_belowDir_eq_setup_iff w).1 setup
  have fits : payloadFits 8#11 payload = true := payloadFits_iff.2 len
  simp [decodeLink, kind, whenFits, low, pid, n, fits]

end

end Sys2Proof

open Sys2Proof Sys2Proof.Machine

/-- Settles O17: the words of R114 decode to the reserved commands, and each of those answers ILLEGAL. -/
theorem reservedOpcodes : Obligations.ReservedOpcodes := by
  intro s x
  refine ⟨fun i reserved => exec_reservedCommands (x := x) reserved s, fun w opcode => ?_⟩
  rw [toNat_kind] at opcode
  exact exec_reservedCommands (decodeCommand_mem_reservedCommands opcode) s

/-- Settles O1: the fields of each worked word are read off its number; the two payloads are any bytes of the stated number. -/
theorem workedWords : Obligations.WorkedWords := by
  refine ⟨?init, ?epOpen, ?submit, ?submitSetup, ?epClose, ?txAck, ?rxData, ?setupRx, ?attach, ?success, ?stalled, ?busReset⟩
  case rxData => exact fun data len => decode_link_eq_ok.2 (decodeLink_rxData (by decide) (by decide) len)
  case setupRx => exact fun data len => decode_link_eq_ok.2 (decodeLink_setupRx (by decide) (by decide) len)
  case txAck | attach => exact decode_link_eq_ok.2 rfl
  case init | epOpen | submit | submitSetup | epClose =>
    exact (decode_write_cmd _).trans (congrArg Except.ok (by decide))
  case success | stalled | busReset => decide

end

