-- ==== Sys2Proof/Proofs/QueryWords.lean ====
section
/-! SUPPORT. The two words EP_QUERY answers, read as the sums of their fields (R162). -/

namespace Sys2Proof

/-- A field put above the bits of a word is added to it; the fields are written from the lowest up. -/
theorem toNat_or_field {n : Nat} (lo : Nat) (v : BitVec n) {w : Word} {k : Nat} (hw : w.toNat = k) (hv : n + lo ≤ 32)
    (hk : k < 2 ^ lo) : (w ||| field lo v).toNat = k + v.toNat * 2 ^ lo := by
  rw [BitVec.or_comm, toNat_field_or lo v hw hv hk, Nat.add_comm]

/-- A flag put above the bits of a word is added to it. -/
theorem toNat_or_flag (i : Nat) (b : Bool) {w : Word} {k : Nat} (hw : w.toNat = k) (hi : 1 + i ≤ 32) (hk : k < 2 ^ i) :
    (w ||| flag i b).toNat = k + b.toNat * 2 ^ i := by
  rw [flag, toNat_or_field i _ hw hi hk, BitVec.toNat_ofBool]

end Sys2Proof

namespace Sys2Proof.Machine

open Sys2Proof.Claims

section
variable (x : Half)

/-- The number of RESULT by the codes of XS and TYPE, and by CH as the word holds it, 0 when not bound (R162). -/
theorem queryNumber_eq_codes :
    queryNumber x = x.isOpen.toNat * 2 ^ 4 + x.halted.toNat * 2 ^ 5 + x.toggle.toNat * 2 ^ 6 + x.xs.toBits.toNat * 2 ^ 7 +
      x.bound.toNat * 2 ^ 9 + (if x.bound then x.ch else 0#4).toNat * 2 ^ 10 + x.type.toBits.toNat * 2 ^ 14 +
      x.done.toNat * 2 ^ 16 := by
  have hxs : x.xs.toBits.toNat = match x.xs with | .idle => 0 | .inflight => 1 | .wait => 2 := by cases x.xs <;> rfl
  have htype : x.type.toBits.toNat = match x.type with | .ctrl => 0 | .iso => 1 | .bulk => 2 | .intr => 3 := by
    cases x.type <;> rfl
  have hch : (if x.bound then x.ch else 0#4).toNat = if x.bound then x.ch.toNat else 0 := by cases x.bound <;> rfl
  rw [hxs, htype, hch]
  rfl

/-- RESULT of EP_QUERY is the number of its fields in their places (R162). -/
theorem queryWord_eq_ofNat : queryWord x = BitVec.ofNat 32 (queryNumber x) := by
  have hopen := x.isOpen.toNat_lt
  have hhalted := x.halted.toNat_lt
  have htoggle := x.toggle.toNat_lt
  have hxs := x.xs.toBits.isLt
  have hbound := x.bound.toNat_lt
  have hch := (if x.bound then x.ch else 0#4).isLt
  have htype := x.type.toBits.isLt
  have e4 : (flag 4 x.isOpen).toNat = x.isOpen.toNat * 2 ^ 4 := by cases x.isOpen <;> rfl
  have e5 := toNat_or_flag 5 x.halted e4 (by decide) (by omega)
  have e6 := toNat_or_flag 6 x.toggle e5 (by decide) (by omega)
  have e7 := toNat_or_field 7 x.xs.toBits e6 (by decide) (by omega)
  have e9 := toNat_or_flag 9 x.bound e7 (by decide) (by omega)
  have e10 := toNat_or_field 10 (if x.bound then x.ch else 0#4) e9 (by decide) (by omega)
  have e14 := toNat_or_field 14 x.type.toBits e10 (by decide) (by omega)
  have e16 := toNat_or_field 16 x.done e14 (by decide) (by omega)
  rw [queryNumber_eq_codes, ← e16, BitVec.ofNat_toNat, BitVec.setWidth_eq, queryWord]

/-- RESULT2 of EP_QUERY is the number of its fields in their places (R162). -/
theorem queryWord2_eq_ofNat : queryWord2 x = BitVec.ofNat 32 (queryNumber2 x) := by
  have hnak := x.nak.isLt
  have herr := x.err.isLt
  have e0 : (field 0 x.nak).toNat = x.nak.toNat := by simp [field]; omega
  have e16 := toNat_or_field 16 x.err e0 (by decide) hnak
  have e21 := toNat_or_field 21 x.mps e16 (by decide) (by omega)
  have number : queryNumber2 x = (queryWord2 x).toNat := e21.symm
  rw [number, BitVec.ofNat_toNat, BitVec.setWidth_eq]

end

/-- An EP_QUERY that passes its checks answers the two query words of the half (R161, R162). -/
theorem exec_epQuery_of_accepts (dir : Dir) {handle : BitVec 8} {s : State} (init : s.initDone = true)
    (hh : handle.toNat < s.cfg.epMax) :
    exec (.epQuery 0 dir handle) s = .next { s with
      result := queryWord (half handle.toNat dir s)
      result2 := queryWord2 (half handle.toNat dir s) } := by
  change execEpQuery 0 dir handle s = _
  rw [execEpQuery, if_neg (by simp [init]), if_neg (by decide), if_neg (Nat.not_le.2 hh)]

end Sys2Proof.Machine

open Sys2Proof Sys2Proof.Machine

/-- Settles O28: no check of EP_QUERY fails, and the two words it answers are the sums of the half's fields. -/
theorem queryRule : Obligations.QueryRule := by
  intro dir handle s init hh
  rw [exec_epQuery_of_accepts dir init hh, queryWord_eq_ofNat, queryWord2_eq_ofNat]

end

