-- ==== Sys2Proof/Proofs/HalfChanges.lean ====
section
/-! SUPPORT. Steps that change one half of the registry: how such changes compose, the wire record of an attempt (R213), and
the settlement of a transfer whose half changed (R230). -/

namespace Sys2Proof.Machine

open Sys2Proof.Safety Sys2Proof.Claims

/-! ### One half changes -/

section
variable {s u t : State} {h : Nat} {d : Dir} {y z : Half}

theorem onlyHalf_trans (a : OnlyHalf h d y s u) (b : OnlyHalf h d z u t) : OnlyHalf h d z s t := by
  obtain ⟨-, halvesA, chansA, evqA, memA, arenaA, frameA⟩ := a
  obtain ⟨halfB, halvesB, chansB, evqB, memB, arenaB, frameB⟩ := b
  exact ⟨halfB, otherHalves_trans halvesA halvesB, chansB.trans chansA, evqB.trans evqA,
    fun x => (memB x).trans (memA x), fun x => (arenaB x).trans (arenaA x), linkFrame_trans frameA frameB⟩

theorem role_of_linkFrame (frame : LinkFrame s u) : u.role = s.role := by
  obtain ⟨-, ⟨-, -, role, -⟩, -⟩ := frame
  exact role

theorem modHalf_linkFrame (f : Half → Half) : LinkFrame s (modHalf h d f s) :=
  ⟨by simp [SameResults], by simp [SameControls], modHalf_sameIdentities d f⟩

theorem modHalf_otherHalves (f : Half → Half) {ds : List Dir} (hd : d ∈ ds) : OtherHalves h ds s (modHalf h d f s) := by
  intro h' d' ne
  rw [half_modHalf, if_neg]
  rintro ⟨rfl, rfl, -⟩
  exact ne ⟨rfl, hd⟩

theorem modHalf_onlyHalf (f : Half → Half) (hh : h < s.eps.length) :
    OnlyHalf h d (f (half h d s)) s (modHalf h d f s) :=
  ⟨half_modHalf_self d f hh, modHalf_otherHalves f (by simp), rfl, rfl, fun _ => rfl, fun _ => rfl, modHalf_linkFrame f⟩

/-- A half that keeps its channel is served by the slot that served it. -/
theorem serves_of_onlyHalf {c : Nat} (sv : Serves c h d s) (a : OnlyHalf h d y s u) (hCh : y.ch = (half h d s).ch)
    (hEps : u.eps.length = s.eps.length) : Serves c h d u := by
  obtain ⟨chan_lt, entry_lt, bound, ep, ch⟩ := sv
  obtain ⟨halfU, -, chans, -⟩ := a
  exact ⟨chans ▸ chan_lt, hEps ▸ entry_lt, by rw [slot_congr chans, bound], by rw [slot_congr chans, ep],
    by rw [halfU, hCh, ch]⟩

end

/-- The handle a ready slot names lies in the registry (R54, INV2). -/
theorem slotHandle_lt_epMax {c : BitVec 4} {d : Dir} {s : State} (g : Good s) (r : SlotReady c d s) :
    slotHandle c d s < s.cfg.epMax := by
  obtain ⟨-, hEps, -⟩ := g.shape
  exact hEps ▸ (serves_of_good g r).entry_lt

/-! ### The wire record -/

/-- The wire after an attempt: the packet of a sending slot is added (R213). -/
def recordedWire (c : BitVec 4) (d : Dir) (answer : TxAnswer) (s : State) : List WirePacket :=
  if isSend s.role d then s.wire ++ [packet c d answer s] else s.wire

theorem txPacket_eq_packet (c : BitVec 4) (d : Dir) (answer : TxAnswer) (s : State) :
    txPacket c d answer s = packet c d answer s := by
  have hpid : txPid (slotHalf c d s) = (packet c d answer s).pid := by
    unfold txPid packet
    cases (slotHalf c d s).setup <;> cases (slotHalf c d s).toggle <;> cases (slotHalf c d s).type <;> rfl
  exact congrArg (fun p => { packet c d answer s with pid := p }) hpid

/-- Recording an attempt changes the wire and nothing else. -/
theorem recordTx_eq (c : BitVec 4) (d : Dir) (answer : TxAnswer) (s : State) :
    recordTx c d answer s = { s with wire := recordedWire c d answer s } := by
  rw [recordTx, recordedWire, txPacket_eq_packet]
  split <;> rfl

/-- The attempt recorded and then half `d` of the slot's entry changed by `f`. -/
def attempted (c : BitVec 4) (d : Dir) (answer : TxAnswer) (f : Half → Half) (s : State) : State :=
  modHalf (slotHandle c d s) d f (recordTx c d answer s)

section
variable {c : BitVec 4} {d : Dir} {s : State} (answer : TxAnswer) (f : Half → Half)

theorem attempted_onlyHalf (sv : Serves c.toNat (slotHandle c d s) d s) :
    OnlyHalf (slotHandle c d s) d (f (slotHalf c d s)) s (attempted c d answer f s) := by
  rw [attempted, recordTx_eq]
  exact modHalf_onlyHalf (s := { s with wire := recordedWire c d answer s }) f sv.entry_lt

theorem attempted_serves (sv : Serves c.toNat (slotHandle c d s) d s) (hCh : (f (slotHalf c d s)).ch = (slotHalf c d s).ch) :
    Serves c.toNat (slotHandle c d s) d (attempted c d answer f s) :=
  serves_of_onlyHalf sv (attempted_onlyHalf answer f sv) hCh (by simp [attempted])

@[simp] theorem attempted_wire : (attempted c d answer f s).wire = recordedWire c d answer s := by
  rw [attempted, recordTx_eq]
  rfl

theorem wireAfter_of_wire {t : State} (e : t.wire = recordedWire c d answer s) : WireAfter c d answer s t := e

end

/-! ### Settlement after a half changed -/

theorem modSlot_outside {c : Nat} (d : Dir) (f : Slot → Slot) {s : State} (hc : s.chans.length ≤ c) :
    modSlot c d f s = s := by
  simp [modSlot, setChan, List.set_eq_of_length_le hc]

theorem modSlot_modSlot (c : Nat) (d : Dir) (f g : Slot → Slot) (s : State) :
    modSlot c d f (modSlot c d g s) = modSlot c d (fun x => f (g x)) s := by
  by_cases hc : c < s.chans.length
  · have hchan : chan c (modSlot c d g s) = (chan c s).setSlot (g (slot c d s)) d := by simp [modSlot, chan_setChan, hc]
    have htwice (x y : Channel) : setChan c x (setChan c y s) = setChan c x s := by simp [setChan]
    calc modSlot c d f (modSlot c d g s)
        = setChan c (((chan c s).setSlot (g (slot c d s)) d).setSlot (f (g (slot c d s))) d) (modSlot c d g s) := by
          rw [← hchan, ← slot_modSlot_self d g hc]
          rfl
      _ = setChan c (((chan c s).setSlot (g (slot c d s)) d).setSlot (f (g (slot c d s))) d) s := htwice _ _
      _ = modSlot c d (fun x => f (g x)) s := by cases d <;> rfl
  · have hc' : s.chans.length ≤ c := Nat.not_lt.1 hc
    rw [modSlot_outside d g hc', modSlot_outside d f hc', modSlot_outside d _ hc']

theorem setValid_setValid (c : Nat) (d : Dir) (v w : Bool) (s : State) :
    setValid c d w (setValid c d v s) = setValid c d w s := modSlot_modSlot c d _ _ s

/-- Settlement clears `valid` itself, so to clear it before changes nothing (R230). -/
theorem settle_setValid {c h : Nat} {d : Dir} (o : XferOutcome) {s : State} (sv : Serves c h d s) :
    settle h d o (setValid c d false s) = settle h d o s := by
  simp only [settle, half_congr (setValid_eps c d false s), sv.ch, setValid_setValid]

theorem slotBecomes_of_chans {c : Nat} {d : Dir} {s t : State} (e : t.chans = s.chans) :
    SlotBecomes c d (slot c d s) s t :=
  ⟨slot_congr e c d, fun c' d' _ => slot_congr e c' d', fun c' => by simp only [chan_congr e, and_self]⟩

/-- A transfer whose half became `y`, keeping the bytes done, settles. -/
theorem settle_settlesWith {c : BitVec 4} {d : Dir} {s u : State} {y : Half} (o : XferOutcome)
    (a : OnlyHalf (slotHandle c d s) d y s u) (sv : Serves c.toNat (slotHandle c d s) d u)
    (hDone : y.done = (slotHalf c d s).done) :
    SettlesWith o.code.toNat c d y s (settle (slotHandle c d s) d o u) := by
  obtain ⟨halfU, halves, chans, evq, mem, arena, frame⟩ := a
  have hrole := role_of_linkFrame frame
  refine ⟨?half, otherHalves_trans halves (settle_otherHalves o (by simp) sv),
    settle_slotSettled_of_counted o sv hrole (slotBecomes_of_chans chans), ?word, by simpa using mem, by simpa using arena,
    linkFrame_trans frame (settle_linkFrame o sv)⟩
  case half => rw [half_settle o _ _ sv, if_pos ⟨rfl, rfl⟩, halfU, hrole]
  case word => rw [settle_evq_completion o (slotHandle_lt c d s), halfU, evq, hDone]

end Sys2Proof.Machine

end

