-- ==== Sys2Proof/Proofs/RetryAnswers.lean ====
section
/-! SUPPORT. The answers that acknowledge nothing: NAK, STALL and XERR (R250 to R255), and the packet with the wrong PID
(R217). Each counts in one half, and then the slot stays armed, waits, or its transfer settles. -/

namespace Sys2Proof.Machine

open Sys2Proof.Safety Sys2Proof.Claims

/-! ### NAK, STALL and XERR are enabled -/

theorem retryEnabled_iff {c : BitVec 4} {d : Dir} {s : State} : retryEnabled c d s = true ↔ RetryReady c d s := by
  rw [retryEnabled, Bool.and_eq_true, Bool.and_eq_true, slotEnabled_iff, beq_iff_eq, beq_iff_eq, and_assoc]

theorem whenEnabled_of_enabled {e : Bool} (r : Result) (h : e = true) : whenEnabled e r = r := if_pos h

/-- An enabled RX_DATA with its N bytes is taken by `receivePacket` (R216). -/
theorem exec_linkRxData_of_ready {c : BitVec 4} {d : Dir} {pid : Bool} {n : BitVec 11} {data : List Byte} {s : State}
    (r : RxReady c d n data s) : exec (.linkRxData c d pid n data) s = receivePacket c d pid data s := by
  obtain ⟨ready, receives, noSetup, len⟩ := r
  have enabled : rxEnabled c d s = true := by
    have noSetup' : (s.role == .device && (slotHalf c d s).setup) = false := by simpa using noSetup
    simp [rxEnabled, slotEnabled_iff.2 ready, receives, noSetup']
  show execLinkRxData c d pid n data s = _
  rw [execLinkRxData, payloadFits_iff.2 len]
  exact whenEnabled_of_enabled _ enabled

section
variable {c : BitVec 4} {d : Dir} {s : State}

theorem exec_linkNak_of_ready (r : RetryReady c d s) : exec (.linkNak c d) s = .next (nakPacket c d s) :=
  whenEnabled_of_enabled _ (retryEnabled_iff.2 r)

theorem exec_linkStall_of_ready (r : RetryReady c d s) : exec (.linkStall c d) s = .next (stallPacket c d s) :=
  whenEnabled_of_enabled _ (retryEnabled_iff.2 r)

theorem exec_linkXerr_of_ready (r : RetryReady c d s) :
    exec (.linkXerr c d) s = .next (xErr c d (recordTx c d .xerr s)) :=
  whenEnabled_of_enabled _ (retryEnabled_iff.2 r)

end

/-! ### NAK (R251, R252) -/

section
variable {c : BitVec 4} {d : Dir} {s : State}

theorem periodic_iff (x : XferType) : periodic x = true ↔ x = .iso ∨ x = .intr := by cases x <;> decide

/-- The count saturates by `sat16` or by the case split of the claim, which is the same (R12). -/
theorem naked_eq : naked = fun x => { x with nak := sat16 (x.nak.toNat + 1) } := by
  funext x
  have hlt := x.nak.isLt
  have hmin : min (x.nak.toNat + 1) 0xFFFF = if x.nak.toNat = 65535 then 65535 else x.nak.toNat + 1 := by
    split <;> omega
  rw [naked, sat16, hmin]

theorem budgetGone_iff {x : Half} :
    budgetGone x s = true ↔ s.nakLimit.toNat ≠ 0 ∧ s.nakLimit.toNat ≤ x.nak.toNat := by
  simp [budgetGone, ← BitVec.toNat_inj]

/-- A NAK is recorded and counted; then a periodic half waits, an exhausted one settles, any other goes on. -/
theorem nakPacket_eq (sv : Serves c.toNat (slotHandle c d s) d s) :
    nakPacket c d s =
      if (slotHalf c d s).type = .iso ∨ (slotHalf c d s).type = .intr then
        periodicNak (slotHandle c d s) d (attempted c d .nak naked s)
      else if s.nakLimit.toNat ≠ 0 ∧ s.nakLimit.toNat ≤ (naked (slotHalf c d s)).nak.toNat then
        settle (slotHandle c d s) d .failedNak (attempted c d .nak naked s)
      else attempted c d .nak naked s := by
  have svU : Serves c.toNat (slotHandle c d s) d (attempted c d .nak naked s) := attempted_serves .nak naked sv rfl
  have hhalf : half (slotHandle c d s) d (attempted c d .nak naked s) = naked (slotHalf c d s) :=
    (attempted_onlyHalf .nak naked sv).1
  have hlimit : (attempted c d .nak naked s).nakLimit = s.nakLimit := by simp [attempted]
  have branches : nakPacket c d s =
      if periodic (naked (slotHalf c d s)).type then periodicNak (slotHandle c d s) d (attempted c d .nak naked s)
      else if budgetGone (naked (slotHalf c d s)) (attempted c d .nak naked s) then
        settle (slotHandle c d s) d .failedNak (attempted c d .nak naked s)
      else attempted c d .nak naked s := by
    rw [← settle_setValid .failedNak svU, ← hhalf, attempted, naked_eq]
    rfl
  rw [branches]
  exact if_congr (periodic_iff _) rfl (if_congr (by rw [budgetGone_iff, hlimit]) rfl rfl)

end

section
variable {c h : Nat} {d : Dir} {s : State}

theorem half_periodicNak (h' : Nat) (d' : Dir) (sv : Serves c h d s) :
    half h' d' (periodicNak h d s) = if h' = h ∧ d' = d then { half h d s with xs := .wait } else half h' d' s := by
  simp [periodicNak, setXs, half_modHalf, sv.entry_lt, half_congr (setValid_eps _ d false s)]

theorem periodicNak_slotBecomes (sv : Serves c h d s) :
    SlotBecomes c d { slot c d s with valid := false } s (periodicNak h d s) := by
  rw [periodicNak, sv.ch]
  exact modSlot_slotBecomes (fun x => { x with valid := false }) sv.chan_lt

theorem periodicNak_linkFrame : LinkFrame s (periodicNak h d s) :=
  ⟨by simp [SameResults], by simp [SameControls], modHalf_sameIdentities (s := setValid _ d false s) d _⟩

end

section
variable {c : BitVec 4} {d : Dir} {s : State}

/-- A periodic half waits for the next frame with its slot bound (R252). -/
theorem nak_waits (sv : Serves c.toNat (slotHandle c d s) d s)
    (per : (slotHalf c d s).type = .iso ∨ (slotHalf c d s).type = .intr) :
    NakAfter c d s (periodicNak (slotHandle c d s) d (attempted c d .nak naked s)) := by
  have svU : Serves c.toNat (slotHandle c d s) d (attempted c d .nak naked s) := attempted_serves .nak naked sv rfl
  obtain ⟨halfU, halves, chans, evq, mem, arena, frame⟩ := attempted_onlyHalf .nak naked sv
  have waits := periodicNak_slotBecomes svU
  rw [slot_congr chans] at waits
  obtain ⟨slotT, othersT, assocT⟩ : SlotBecomes _ _ _ _ _ := slotBecomes_trans (slotBecomes_of_chans chans) waits
  refine ⟨?tables, wireAfter_of_wire .nak (by simp)⟩
  rw [if_pos per]
  refine ⟨?half, ?others, slotT, othersT, assocT, by simpa using evq, by simpa using mem, by simpa using arena,
    linkFrame_trans frame periodicNak_linkFrame⟩
  case half => rw [half_periodicNak _ _ svU, if_pos ⟨rfl, rfl⟩, halfU]
  case others =>
    intro h' d' ne
    rw [half_periodicNak _ _ svU, if_neg (by simpa using ne)]
    exact halves h' d' ne

theorem nakPacket_nakAfter (sv : Serves c.toNat (slotHandle c d s) d s) : NakAfter c d s (nakPacket c d s) := by
  have svU : Serves c.toNat (slotHandle c d s) d (attempted c d .nak naked s) := attempted_serves .nak naked sv rfl
  have counted := attempted_onlyHalf .nak naked sv
  rw [nakPacket_eq sv]
  split
  case isTrue per => exact nak_waits sv per
  case isFalse more =>
    split
    case isTrue gone =>
      refine ⟨?_, wireAfter_of_wire .nak (by simp)⟩
      rw [if_neg more, if_pos gone]
      exact settle_settlesWith .failedNak counted svU rfl
    case isFalse stays =>
      refine ⟨?_, wireAfter_of_wire .nak (by simp)⟩
      rw [if_neg more, if_neg stays]
      exact counted

end

/-! ### STALL (R254) -/

/-- The half that answered STALL. -/
def stalledHalf (x : Half) : Half := { x with halted := true }

section
variable {c : BitVec 4} {d : Dir} {s : State}

theorem stallPacket_eq (sv : Serves c.toNat (slotHandle c d s) d s) :
    stallPacket c d s = settle (slotHandle c d s) d .stalled (attempted c d .stall stalledHalf s) :=
  settle_setValid .stalled (attempted_serves .stall stalledHalf sv rfl)

theorem stallPacket_settlesWith (sv : Serves c.toNat (slotHandle c d s) d s) :
    SettlesWith 1 c d { slotHalf c d s with halted := true } s (stallPacket c d s) := by
  rw [stallPacket_eq sv]
  exact settle_settlesWith .stalled (attempted_onlyHalf .stall stalledHalf sv) (attempted_serves .stall stalledHalf sv rfl) rfl

theorem stallPacket_wire (sv : Serves c.toNat (slotHandle c d s) d s) : WireAfter c d .stall s (stallPacket c d s) := by
  rw [stallPacket_eq sv]
  exact wireAfter_of_wire .stall (by simp)

end

/-! ### XErr (R255) -/

/-- The half after one more consecutive transmission error. -/
def erredHalf (x : Half) : Half := { x with err := BitVec.ofNat 5 (x.err.toNat + 1) }

/-- One more error within ERR_RETRY_MAX changes the count alone; beyond it the transfer fails. The count of a packet that is
still tried does not wrap. -/
theorem xErr_errorAfter {c : BitVec 4} {d : Dir} {s : State} (sv : Serves c.toNat (slotHandle c d s) d s)
    (count : (slotHalf c d s).err.toNat + 1 < 32) : ErrorAfter c d s (xErr c d s) := by
  have counted : OnlyHalf (slotHandle c d s) d (erredHalf (slotHalf c d s)) s (modHalf (slotHandle c d s) d erredHalf s) :=
    modHalf_onlyHalf erredHalf sv.entry_lt
  have svU := serves_of_onlyHalf sv counted rfl (by simp)
  have herr : (erredHalf (slotHalf c d s)).err.toNat = (slotHalf c d s).err.toNat + 1 := Nat.mod_eq_of_lt count
  have hxErr : xErr c d s =
      if s.cfg.errRetryMax < (slotHalf c d s).err.toNat + 1 then
        settle (slotHandle c d s) d .failedXact (modHalf (slotHandle c d s) d erredHalf s)
      else modHalf (slotHandle c d s) d erredHalf s := by
    rw [← herr, ← counted.1, ← settle_setValid .failedXact svU]
    rfl
  rw [hxErr, ErrorAfter]
  by_cases within : (slotHalf c d s).err.toNat + 1 ≤ s.cfg.errRetryMax
  · rw [if_pos within, if_neg (Nat.not_lt.2 within)]
    exact counted
  · rw [if_neg within, if_pos (Nat.not_le.1 within)]
    exact settle_settlesWith .failedXact counted svU rfl

/-- XErr reads nothing of the wire: it does after the record of the attempt what it does before it. -/
theorem xErr_recordTx_errorAfter {c : BitVec 4} {d : Dir} {s : State} (answer : TxAnswer)
    (sv : Serves c.toNat (slotHandle c d s) d s) (count : (slotHalf c d s).err.toNat + 1 < 32) :
    ErrorAfter c d s (xErr c d (recordTx c d answer s)) := by
  obtain ⟨chan_lt, entry_lt, bound, ep, ch⟩ := sv
  rw [recordTx_eq]
  exact xErr_errorAfter (s := { s with wire := recordedWire c d answer s }) ⟨chan_lt, entry_lt, bound, ep, ch⟩ count

/-- The bound of ERR_RETRY_MAX keeps the error count of a transfer in flight from wrapping (R7, R255). -/
theorem err_succ_lt_of_good {c : BitVec 4} {d : Dir} {s : State} (g : Good s) (r : SlotReady c d s)
    (busy : (slotHalf c d s).xs ≠ .idle) : (slotHalf c d s).err.toNat + 1 < 32 := by
  obtain ⟨⟨-, -, -, -, -, -, hmax⟩, -⟩ := g.shape
  obtain ⟨-, hbusy, -⟩ := g.retryCounts _ (slotHandle_lt_epMax g r) d (mem_bothDirs d)
  have hle : (slotHalf c d s).err.toNat ≤ s.cfg.errRetryMax := hbusy busy
  omega

/-! ### A repeated packet (R217) -/

/-- An enabled RX_DATA that fits but has the wrong PID is a duplicate. -/
theorem exec_linkRxData_of_duplicate {c : BitVec 4} {d : Dir} {pid : Bool} {n : BitVec 11} {data : List Byte} {s : State}
    (r : RxReady c d n data s) (fits : data.length ≤ (slot c.toNat d s).cnt.toNat) (notIso : (slotHalf c d s).type ≠ .iso)
    (wrong : pid ≠ (slotHalf c d s).toggle) :
    exec (.linkRxData c d pid n data) s = .next (duplicatePacket (slotHandle c d s) d s) := by
  have hpid : pidMatches (slotHalf c d s) pid = false := by simp [pidMatches, notIso, wrong]
  rw [exec_linkRxData_of_ready r, receivePacket, if_neg (Nat.not_lt.2 fits), hpid]
  rfl

end Sys2Proof.Machine

open Sys2Proof Sys2Proof.Machine

/-- Settles O39: the event is `duplicatePacket`, which changes one half. -/
theorem rxDuplicate : Obligations.RxDuplicate := by
  intro c d pid n data s g r fits notIso wrong
  have ⟨ready, _⟩ := r
  exact ⟨_, exec_linkRxData_of_duplicate r fits notIso wrong, modHalf_onlyHalf _ (serves_of_good g ready).entry_lt, by simp⟩

/-- Settles O42: the three ends of a NAK, each one of the branches of `nakPacket`. -/
theorem nakRule : Obligations.NakRule := by
  intro c d s g r
  have ⟨_, ready, _⟩ := r
  exact ⟨_, exec_linkNak_of_ready r, nakPacket_nakAfter (serves_of_good g ready)⟩

/-- Settles O43: the event is a settlement of the half with its halt set. -/
theorem stallRule : Obligations.StallRule := by
  intro c d s g r
  have ⟨_, ready, _⟩ := r
  have sv := serves_of_good g ready
  exact ⟨_, exec_linkStall_of_ready r, stallPacket_settlesWith sv, stallPacket_wire sv⟩

/-- Settles O44: the event is XErr after the record of the attempt. -/
theorem xerrRule : Obligations.XerrRule := by
  intro c d s g r
  have ⟨_, ready, inflight⟩ := r
  have count := err_succ_lt_of_good g ready (by simp [inflight])
  exact ⟨_, exec_linkXerr_of_ready r, xErr_recordTx_errorAfter .xerr (serves_of_good g ready) count,
    wireAfter_of_wire .xerr (by simp [recordTx_eq])⟩

end

