-- ==== Sys2Proof/Proofs/AcknowledgedPackets.lean ====
section
/-! SUPPORT. What TX_ACK does (R214): the packet is recorded and counted, and then the transfer settles or the next packet is
loaded from the caller buffer (R210); a SETUP packet settles its stage with both toggles DATA1 (R220). -/

namespace Sys2Proof.Machine

open Sys2Proof.Safety Sys2Proof.Claims

/-! ### A slot that sends -/

/-- Slot `d` of channel `c` has a packet armed for a sending transfer in flight: what TX_ACK needs of a good state, and keeps. -/
structure Sends (c : BitVec 4) (d : Dir) (s : State) : Prop where
  ready : SlotReady c d s
  serves : Serves c.toNat (slotHandle c d s) d s
  sending : isSend s.role d = true
  inflight : (slotHalf c d s).xs = .inflight
  count : (slot c.toNat d s).cnt.toNat = nextLen (slotHalf c d s)
  done_le : (slotHalf c d s).done.toNat ≤ (slotHalf c d s).total.toNat
  arenaWf : Memory.wf s.arena

/-- The half of a bound and valid slot is in flight (R54, INV5). -/
theorem inflight_of_good {c : BitVec 4} {d : Dir} {s : State} (g : Good s) (r : SlotReady c d s) :
    (slotHalf c d s).xs = .inflight := by
  obtain ⟨hc, bound, valid, -⟩ := r
  obtain ⟨hh, halfBound, hch⟩ := g.inv2.1 _ hc d (mem_bothDirs d) bound
  refine (g.inv5.2 _ hh d (mem_bothDirs d)).1.2 ⟨halfBound, ?_⟩
  rw [hch]
  exact valid

theorem sends_of_good {c : BitVec 4} {d : Dir} {s : State} (g : Good s) (r : SlotReady c d s) (sending : isSend s.role d = true) :
    Sends c d s := by
  have sv := serves_of_good g r
  have inflight := inflight_of_good g r
  have hh := slotHandle_lt_epMax g r
  have armed := g.armedCounts _ hh d (mem_bothDirs d) (show (slotHalf c d s).xs ≠ .idle by simp [inflight])
  rw [sv.ch, if_pos sending] at armed
  exact ⟨r, sv, sending, inflight, armed, g.inv4.1 _ hh d (mem_bothDirs d), g.memories.1⟩

section
variable {c : BitVec 4} {d : Dir} {s : State}

/-- The armed packet is a part of the transfer (R210). -/
theorem Sends.done_add_cnt_le (p : Sends c d s) :
    (slotHalf c d s).done.toNat + (slot c.toNat d s).cnt.toNat ≤ (slotHalf c d s).total.toNat := by
  have hle := p.done_le
  have hcnt : (slot c.toNat d s).cnt.toNat ≤ (slotHalf c d s).total.toNat - (slotHalf c d s).done.toNat :=
    p.count ▸ min_le_right _ _
  omega

/-- The count of bytes done does not wrap. -/
theorem Sends.toNat_done_add_cnt (p : Sends c d s) :
    (BitVec.ofNat 16 ((slotHalf c d s).done.toNat + (slot c.toNat d s).cnt.toNat)).toNat =
      (slotHalf c d s).done.toNat + (slot c.toNat d s).cnt.toNat := by
  have hle := p.done_add_cnt_le
  have hlt := (slotHalf c d s).total.isLt
  exact Nat.mod_eq_of_lt (by omega)

end

/-! ### Arming a sending slot (R210) -/

/-- `n` bytes of the caller buffer at `a` loaded into the slot's range, and the slot valid with that count. -/
def loadPacket (c : Nat) (d : Dir) (a n : Nat) (s : State) : State :=
  setValid c d true (setCnt c d n (arenaWrite (slot c d s).off.toNat (Memory.readBytes s.mem a n) s))

section
variable {c h : Nat} {d : Dir} {a n : Nat} {s : State}

theorem armSend_eq (sv : Serves c h d s) :
    armSend h d s =
      whenAdmitted ((half h d s).buf.toNat + (half h d s).done.toNat) (nextLen (half h d s)) s
        (.next (loadPacket c d ((half h d s).buf.toNat + (half h d s).done.toNat) (nextLen (half h d s)) s)) := by
  simp only [armSend, sv.ch, loadPacket]

theorem loadPacket_slotBecomes (hc : c < s.chans.length) :
    SlotBecomes c d { slot c d s with cnt := BitVec.ofNat 16 n, valid := true } s (loadPacket c d a n s) := by
  have counted := modSlot_slotBecomes (s := arenaWrite (slot c d s).off.toNat (Memory.readBytes s.mem a n) s) (d := d)
    (fun x => { x with cnt := BitVec.ofNat 16 n }) hc
  have armed := modSlot_slotBecomes (d := d) (fun x => { x with valid := true })
    (show c < (setCnt c d n (arenaWrite (slot c d s).off.toNat (Memory.readBytes s.mem a n) s)).chans.length by
      simpa [setCnt] using hc)
  rw [setCnt, counted.1] at armed
  exact slotBecomes_trans (s := s) counted armed

@[simp] theorem loadPacket_eps : (loadPacket c d a n s).eps = s.eps := rfl
@[simp] theorem loadPacket_evq : (loadPacket c d a n s).evq = s.evq := rfl
@[simp] theorem loadPacket_wire : (loadPacket c d a n s).wire = s.wire := rfl
@[simp] theorem loadPacket_mem : (loadPacket c d a n s).mem = s.mem := rfl
@[simp] theorem loadPacket_arena : (loadPacket c d a n s).arena =
    Memory.writeBytes s.arena (slot c d s).off.toNat (Memory.readBytes s.mem a n) := rfl
@[simp] theorem half_loadPacket (h : Nat) (d' : Dir) : half h d' (loadPacket c d a n s) = half h d' s := rfl

theorem loadPacket_chans_length : (loadPacket c d a n s).chans.length = s.chans.length := by
  simp [loadPacket, setValid, setCnt]

theorem loadPacket_linkFrame : LinkFrame s (loadPacket c d a n s) :=
  ⟨by simp [SameResults, loadPacket], by simp [SameControls, loadPacket], sameIdentities_of_eps loadPacket_eps⟩

end

/-! ### TX_ACK (R214) -/

/-- The half after `k` more bytes were acknowledged, its toggle not yet moved. -/
def countedHalf (k : Nat) (x : Half) : Half := { x with done := BitVec.ofNat 16 (x.done.toNat + k), nak := 0, err := 0 }

/-- The state after an acknowledged packet is recorded and counted. -/
def countedState (c : BitVec 4) (d : Dir) (s : State) : State :=
  attempted c d .ack (countedHalf (slot c.toNat d s).cnt.toNat) s

/-- The same with the toggle advanced: a data packet (R214, R221). -/
def ackedState (c : BitVec 4) (d : Dir) (s : State) : State := advanceToggle (slotHandle c d s) d (countedState c d s)

section
variable {c : BitVec 4} {d : Dir} {s : State}

theorem exec_linkTxAck_of_ready (r : SlotReady c d s) (sending : isSend s.role d = true) :
    exec (.linkTxAck c d) s = ackPacket c d s :=
  whenEnabled_of_enabled _ (by rw [slotEnabled_iff.2 r, sending]; rfl)

theorem countedState_onlyHalf (sv : Serves c.toNat (slotHandle c d s) d s) :
    OnlyHalf (slotHandle c d s) d (countedHalf (slot c.toNat d s).cnt.toNat (slotHalf c d s)) s (countedState c d s) :=
  attempted_onlyHalf .ack _ sv

theorem countedState_serves (sv : Serves c.toNat (slotHandle c d s) d s) :
    Serves c.toNat (slotHandle c d s) d (countedState c d s) := attempted_serves .ack _ sv rfl

theorem ackedState_onlyHalf (sv : Serves c.toNat (slotHandle c d s) d s) :
    OnlyHalf (slotHandle c d s) d (progressed (slot c.toNat d s).cnt.toNat (slotHalf c d s)) s (ackedState c d s) := by
  have counted := countedState_onlyHalf sv
  have advanced := modHalf_onlyHalf (d := d) (fun x => { x with toggle := nextToggle x }) (countedState_serves sv).entry_lt
  rw [counted.1] at advanced
  exact onlyHalf_trans counted advanced

theorem ackedState_serves (sv : Serves c.toNat (slotHandle c d s) d s) :
    Serves c.toNat (slotHandle c d s) d (ackedState c d s) :=
  serves_of_onlyHalf sv (ackedState_onlyHalf sv) rfl (by simp [ackedState, advanceToggle, countedState, attempted])

theorem recordedWire_of_sends {answer : TxAnswer} (sending : isSend s.role d = true) :
    recordedWire c d answer s = s.wire ++ [packet c d answer s] := if_pos sending

/-- The two meanings of TX_ACK: of a SETUP packet and of a data packet. -/
theorem ackPacket_eq (sv : Serves c.toNat (slotHandle c d s) d s) :
    ackPacket c d s =
      if (slotHalf c d s).setup then
        .next (settle (slotHandle c d s) d .success (forceToggles (slotHandle c d s) (countedState c d s)))
      else finishSend (slotHandle c d s) d (slot c.toNat d s).cnt.toNat (ackedState c d s) := by
  have hsetup : (half (slotHandle c d s) d (countedState c d s)).setup = (slotHalf c d s).setup := by
    rw [(countedState_onlyHalf sv).1]
    rfl
  rw [← hsetup]
  rfl

/-- The model's test for the last packet is that of R215. -/
theorem finishSend_ackedState (p : Sends c d s) :
    finishSend (slotHandle c d s) d (slot c.toNat d s).cnt.toNat (ackedState c d s) =
      if AckCompletes c d s then .next (settle (slotHandle c d s) d .success (ackedState c d s))
      else arm (slotHandle c d s) d (ackedState c d s) := by
  have hlast : ((progressed (slot c.toNat d s).cnt.toNat (slotHalf c d s)).done == (slotHalf c d s).total) = true ↔
      (slotHalf c d s).done.toNat + (slot c.toNat d s).cnt.toNat = (slotHalf c d s).total.toNat := by
    rw [beq_iff_eq, ← BitVec.toNat_inj, progressed, p.toNat_done_add_cnt]
  simp only [finishSend, (ackedState_onlyHalf p.serves).1]
  refine if_congr ?_ rfl rfl
  rw [Bool.or_eq_true, decide_eq_true_eq, Bool.and_eq_true, Bool.not_eq_true']
  exact or_congr Iff.rfl (and_congr hlast Iff.rfl)

/-- The state after the next packet is loaded. -/
def nextArmed (c : BitVec 4) (d : Dir) (s : State) : State :=
  loadPacket c.toNat d (nextAddr c d s) (nextCount c d s) (ackedState c d s)

theorem half_nextArmed (h : Nat) (d' : Dir) : half h d' (nextArmed c d s) = half h d' (ackedState c d s) :=
  half_loadPacket h d'

theorem arm_ackedState (p : Sends c d s) :
    arm (slotHandle c d s) d (ackedState c d s) =
      whenAdmitted (nextAddr c d s) (nextCount c d s) s (.next (nextArmed c d s)) := by
  obtain ⟨acked, -, -, -, -, -, -, ⟨hcfg, -, hrole, -⟩, -⟩ := ackedState_onlyHalf p.serves
  have haddr : (half (slotHandle c d s) d (ackedState c d s)).buf.toNat +
      (half (slotHandle c d s) d (ackedState c d s)).done.toNat = nextAddr c d s := by
    rw [acked, progressed, p.toNat_done_add_cnt, nextAddr]
  have hcount : nextLen (half (slotHandle c d s) d (ackedState c d s)) = nextCount c d s := by
    rw [acked, nextLen, progressed, p.toNat_done_add_cnt, nextCount]
  have hadmits : memAdmits (nextAddr c d s) (nextCount c d s) (ackedState c d s) =
      memAdmits (nextAddr c d s) (nextCount c d s) s := by rw [memAdmits, memAdmits, hcfg]
  rw [arm, hrole, p.sending, if_pos rfl, armSend_eq (ackedState_serves p.serves), haddr, hcount, whenAdmitted, hadmits]
  rfl

/-- The meaning of TX_ACK of a data packet: the transfer settles, or the next packet is loaded where MemAdmit admits the read. -/
theorem exec_linkTxAck_of_data (p : Sends c d s) (noSetup : (slotHalf c d s).setup = false) :
    exec (.linkTxAck c d) s =
      if AckCompletes c d s then .next (settle (slotHandle c d s) d .success (ackedState c d s))
      else whenAdmitted (nextAddr c d s) (nextCount c d s) s (.next (nextArmed c d s)) := by
  rw [exec_linkTxAck_of_ready p.ready p.sending, ackPacket_eq p.serves, noSetup, if_neg Bool.false_ne_true,
    finishSend_ackedState p, arm_ackedState p]

/-- Either end of an acknowledged data packet keeps what counting it left. -/
theorem ackFrame_of_acked {t : State} (p : Sends c d s)
    (halves : OtherHalves (slotHandle c d s) [d] (ackedState c d s) t) (hwire : t.wire = (ackedState c d s).wire)
    (hmem : t.mem = (ackedState c d s).mem) (frame : LinkFrame (ackedState c d s) t) : AckFrame c d s t := by
  obtain ⟨-, halvesU, -, -, mem, -, frameU⟩ := ackedState_onlyHalf p.serves
  refine ⟨otherHalves_trans halvesU halves, ?wire, fun a => hmem ▸ mem a, linkFrame_trans frameU frame⟩
  rw [hwire, ← recordedWire_of_sends p.sending]
  simp [ackedState, countedState]

theorem ack_settles (p : Sends c d s) :
    AckSettleAfter c d s (settle (slotHandle c d s) d .success (ackedState c d s)) := by
  have svU := ackedState_serves p.serves
  obtain ⟨halfU, -, chans, evq, -, arena, frame⟩ := ackedState_onlyHalf p.serves
  refine ⟨?half, settle_slotSettled_of_counted .success svU (role_of_linkFrame frame) (slotBecomes_of_chans chans), ?word,
    by simpa using arena,
    ackFrame_of_acked p (settle_otherHalves .success (by simp) svU) (by simp) (by simp) (settle_linkFrame .success svU)⟩
  case half => rw [half_settle .success _ _ svU, if_pos ⟨rfl, rfl⟩, halfU, role_of_linkFrame frame]
  case word =>
    rw [settle_evq_completion .success (slotHandle_lt c d s), halfU, evq, progressed, p.toNat_done_add_cnt]
    rfl

theorem nextArmed_slotBecomes (p : Sends c d s) :
    SlotBecomes c.toNat d { slot c.toNat d s with cnt := BitVec.ofNat 16 (nextCount c d s) } s (nextArmed c d s) := by
  obtain ⟨-, -, chans, -⟩ := ackedState_onlyHalf p.serves
  have loaded := loadPacket_slotBecomes (d := d) (a := nextAddr c d s) (n := nextCount c d s)
    (ackedState_serves p.serves).chan_lt
  rw [slot_congr chans] at loaded
  have both : SlotBecomes _ _ _ _ _ := slotBecomes_trans (slotBecomes_of_chans chans) loaded
  obtain ⟨-, -, valid, -⟩ := p.ready
  exact ⟨both.1.trans (by simp [valid]), both.2⟩

theorem ack_arms (p : Sends c d s) : AckNextAfter c d s (nextArmed c d s) := by
  obtain ⟨halfU, -, chans, evq, mem, arena, -⟩ := ackedState_onlyHalf p.serves
  have harena : (ackedState c d s).arena = s.arena := by simp [ackedState, countedState, attempted]
  have hmem : (ackedState c d s).mem = s.mem := by simp [ackedState, countedState, attempted]
  have hloaded : (nextArmed c d s).arena = Memory.writeBytes s.arena (slot c.toNat d s).off.toNat
      (Memory.readBytes s.mem (nextAddr c d s) (nextCount c d s)) := by
    rw [nextArmed, loadPacket_arena, harena, hmem, slot_congr chans]
  obtain ⟨slotT, others, assoc⟩ := nextArmed_slotBecomes p
  refine ⟨(half_nextArmed _ d).trans halfU, slotT, others, assoc, by rw [nextArmed, loadPacket_evq, evq], ?bytes, ?outside,
    ackFrame_of_acked p (fun h' d' _ => half_nextArmed h' d') loadPacket_wire loadPacket_mem loadPacket_linkFrame⟩
  case bytes =>
    have written := Memory.writeBytes_bytesAt (slot c.toNat d s).off.toNat
      (Memory.readBytes s.mem (nextAddr c d s) (nextCount c d s)) p.arenaWf
    rwa [← hloaded] at written
  case outside =>
    rw [hloaded]
    exact Memory.writeBytes_sameBytesOutside _ _ p.arenaWf (Memory.length_readBytes _ _ _)

end

/-! ### A SETUP packet acknowledged (R214, R220) -/

/-- A SETUP stage in flight is on the OUT half (R201, R203). -/
theorem dir_of_setup {c : BitVec 4} {d : Dir} {s : State} (g : Good s) (r : AckSetupReady c d s) : d = .out := by
  obtain ⟨ready, -, setup⟩ := r
  have busy : (slotHalf c d s).xs ≠ .idle := by simp [inflight_of_good g ready]
  obtain ⟨-, hd, -⟩ := g.setupTransfers _ (slotHandle_lt_epMax g ready) d (mem_bothDirs d) busy setup
  exact hd

section
variable {h : Nat} {s : State}

/-- Both toggles are DATA1, and nothing else of a half changed. -/
theorem half_forceToggles (h' : Nat) (d : Dir) (hh : h < s.eps.length) :
    half h' d (forceToggles h s) = if h' = h then { half h d s with toggle := true } else half h' d s := by
  by_cases e : h' = h
  · subst e
    cases d <;> simp [forceToggles, half_modHalf, hh]
  · simp [forceToggles, half_modHalf, e]

theorem forceToggles_linkFrame : LinkFrame s (forceToggles h s) :=
  linkFrame_trans (modHalf_linkFrame _) (modHalf_linkFrame _)

theorem forceToggles_serves {c : Nat} {d : Dir} (sv : Serves c h d s) : Serves c h d (forceToggles h s) := by
  obtain ⟨chan_lt, entry_lt, bound, ep, ch⟩ := sv
  refine ⟨chan_lt, by simpa [forceToggles] using entry_lt, bound, ep, ?_⟩
  rw [half_forceToggles h d entry_lt, if_pos rfl]
  exact ch

end

section
variable {c : BitVec 4} {s : State}

theorem ackSetup_settles (p : Sends c .out s) :
    AckSetupAfter c .out s (settle (slotHandle c .out s) .out .success
      (forceToggles (slotHandle c .out s) (countedState c .out s))) := by
  have svC := countedState_serves p.serves
  have svU := forceToggles_serves svC
  obtain ⟨halfC, halvesC, chans, evq, mem, arena, frameC⟩ := countedState_onlyHalf p.serves
  have frame := linkFrame_trans frameC (forceToggles_linkFrame (h := slotHandle c .out s))
  have hhalf (h' : Nat) (d' : Dir) := half_forceToggles h' d' svC.entry_lt
  have halves : OtherHalves (slotHandle c .out s) bothDirs s
      (forceToggles (slotHandle c .out s) (countedState c .out s)) := by
    intro h' d' ne
    have ne' : h' ≠ slotHandle c .out s := by simpa using ne
    rw [hhalf, if_neg ne']
    exact halvesC h' d' (fun e => ne' e.1)
  refine ⟨rfl, ?out, ?inn, otherHalves_trans halves (settle_otherHalves .success (mem_bothDirs .out) svU),
    settle_slotSettled_of_counted .success svU (role_of_linkFrame frame) (slotBecomes_of_chans chans), ?word, ?wire,
    by simpa using mem, by simpa using arena, linkFrame_trans frame (settle_linkFrame .success svU)⟩
  case out =>
    rw [half_settle .success _ _ svU, if_pos ⟨rfl, rfl⟩, hhalf, if_pos rfl, halfC, role_of_linkFrame frame]
    rfl
  case inn => rw [half_settle .success _ _ svU, if_neg (by simp), hhalf, if_pos rfl, halvesC _ _ (by simp)]
  case word =>
    rw [settle_evq_completion .success (slotHandle_lt c .out s), hhalf, if_pos rfl, halfC, countedHalf, p.toNat_done_add_cnt,
      forceToggles_evq, evq]
    rfl
  case wire =>
    rw [← recordedWire_of_sends p.sending]
    simp [countedState]

end

end Sys2Proof.Machine

open Sys2Proof Sys2Proof.Machine

/-- Settles O36: a completing packet settles, any other one loads the next where MemAdmit admits the read. -/
theorem ackRule : Obligations.AckRule := by
  intro c d s g r
  obtain ⟨ready, sending, noSetup⟩ := r
  have p := sends_of_good g ready sending
  rw [exec_linkTxAck_of_data p noSetup]
  refine ⟨fun done => ⟨_, if_pos done, ack_settles p⟩, fun more admits => ⟨_, ?_, ack_arms p⟩, fun more refuses => ?_⟩
  · rw [if_neg more, whenAdmitted_of_admits _ admits]
  · rw [if_neg more, whenAdmitted_of_refuses _ refuses]

/-- Settles O37: the SETUP stage is on the OUT half, and its packet settles it with both toggles forced. -/
theorem ackSetup : Obligations.AckSetup := by
  intro c d s g r
  have ⟨ready, sending, setup⟩ := r
  obtain rfl := dir_of_setup g r
  have p := sends_of_good g ready sending
  refine ⟨_, ?_, ackSetup_settles p⟩
  rw [exec_linkTxAck_of_ready ready sending, ackPacket_eq p.serves, if_pos setup]

end

