-- ==== Sys2Proof/Proofs/PacketCounts.lean ====
section
/-! SUPPORT. A whole sending transfer, every packet acknowledged (R204): a sending slot stays one from packet to packet, and the
count of packets is the number of acknowledgements until the one that completes the transfer. -/

namespace Sys2Proof.Machine

open Sys2Proof.Safety Sys2Proof.Claims

/-! ### The count of R204 -/

theorem packets_pos (n : Nat) {m : Nat} (zlp : Bool) (hm : 0 < m) : 0 < packets n m zlp := by
  by_cases whole : n % m = 0
  · have hq : n ≠ 0 → 0 < n / m := fun hn => Nat.div_pos (Nat.le_of_dvd (by omega) (Nat.dvd_of_mod_eq_zero whole)) hm
    cases zlp <;> by_cases hn : n = 0 <;> simp [packets, whole, hn, hq]
  · have hn : n ≠ 0 := fun e => whole (by simp [e])
    simp [packets, whole, hn]

/-- Packet `k` of a transfer completes it exactly when it is the last one of the count (R204, R215). -/
theorem last_packet_iff {n m k : Nat} {zlp : Bool} (hm : 0 < m) (hk : k < packets n m zlp) (hle : k * m ≤ n) :
    (min m (n - k * m) < m ∨ (k * m + min m (n - k * m) = n ∧ zlp = false)) ↔ packets n m zlp = k + 1 := by
  have hkq : k ≤ n / m := (Nat.le_div_iff_mul_le hm).2 hle
  have hshort : min m (n - k * m) < m ↔ n / m ≤ k := by
    rw [← Nat.lt_succ_iff, Nat.div_lt_iff_lt_mul hm, Nat.succ_mul]
    omega
  have hexact : n = k * m + m ↔ n % m = 0 ∧ n / m = k + 1 := by
    rw [← Nat.add_one_mul]
    constructor
    · rintro rfl
      exact ⟨Nat.mul_mod_left _ _, Nat.mul_div_cancel _ hm⟩
    · rintro ⟨hr, hq⟩
      rw [← hq, Nat.div_mul_cancel (Nat.dvd_of_mod_eq_zero hr)]
  have hlast : k * m + min m (n - k * m) = n ↔ n / m ≤ k ∨ (n % m = 0 ∧ n / m = k + 1) := by
    rw [← hshort, ← hexact]
    omega
  rw [hshort, hlast]
  by_cases hn : n = 0
  · have hq : n / m = 0 := by simp [hn]
    simp only [packets, hn, if_true] at hk ⊢
    rw [hn] at hq
    omega
  · simp only [packets, hn, if_false] at hk ⊢
    generalize n / m = q at *
    generalize n % m = r at *
    by_cases hr : r = 0 <;> cases zlp <;> simp [hr] at hk ⊢ <;> omega

/-! ### TX_ACK keeps a sending slot sending -/

section
variable {c : BitVec 4} {d : Dir} {s : State}

theorem slotHandle_nextArmed (p : Sends c d s) : slotHandle c d (nextArmed c d s) = slotHandle c d s := by
  rw [slotHandle, (nextArmed_slotBecomes p).1, slotHandle]

theorem slotHalf_nextArmed (p : Sends c d s) :
    slotHalf c d (nextArmed c d s) = progressed (slot c.toNat d s).cnt.toNat (slotHalf c d s) := by
  rw [slotHalf, slotHandle_nextArmed p, half_nextArmed, (ackedState_onlyHalf p.serves).1]

/-- A packet length fits the slot's count (R46, R49). -/
theorem toNat_nextCount : (BitVec.ofNat 16 (nextCount c d s)).toNat = nextCount c d s := by
  have hle : nextCount c d s ≤ (slotHalf c d s).mps.toNat := min_le_left _ _
  have hlt := (slotHalf c d s).mps.isLt
  exact Nat.mod_eq_of_lt (by omega)

theorem nextArmed_sends (p : Sends c d s) : Sends c d (nextArmed c d s) := by
  have becomes := nextArmed_slotBecomes p
  have halfT := slotHalf_nextArmed p
  obtain ⟨-, -, -, -, evq, -, -, -, -, -, -, ⟨cfg, -, role, init, -⟩, -⟩ := ack_arms p
  obtain ⟨hc, bound, valid, initS, room⟩ := p.ready
  refine ⟨⟨cfg ▸ hc, by rw [becomes.1, bound], by rw [becomes.1, valid], by rw [init, initS], by rwa [evq, cfg]⟩, ?serves,
    by rw [role, p.sending], by rw [halfT, progressed, p.inflight], ?count, ?done, Memory.writeBytes_wf _ _ ?arena⟩
  case serves =>
    rw [slotHandle_nextArmed p]
    refine serves_of_becomes p.serves becomes rfl rfl ?_
      (by simp [nextArmed, ackedState, advanceToggle, countedState, attempted])
      (by simp [nextArmed, loadPacket_chans_length, ackedState, countedState, attempted])
    rw [half_nextArmed, (ackedState_onlyHalf p.serves).1, progressed, slotHalf]
  case count =>
    rw [becomes.1, halfT, nextLen, progressed, p.toNat_done_add_cnt]
    exact toNat_nextCount
  case done =>
    rw [halfT, progressed, p.toNat_done_add_cnt]
    exact p.done_add_cnt_le
  case arena => simpa [ackedState, countedState, attempted] using p.arenaWf

/-- A platform that refuses no access admits the next packet's read: the caller buffer lies in the address space (R85, R86). -/
theorem memAdmits_next (p : Sends c d s) (all : s.cfg.memRefused = [])
    (buffer : (slotHalf c d s).total ≠ 0 → (slotHalf c d s).buf.toNat + (slotHalf c d s).total.toNat ≤ 2 ^ 32) :
    memAdmits (nextAddr c d s) (nextCount c d s) s = true := by
  have hle := p.done_add_cnt_le
  have hcount : nextCount c d s ≤
      (slotHalf c d s).total.toNat - ((slotHalf c d s).done.toNat + (slot c.toNat d s).cnt.toNat) := min_le_right _ _
  by_cases empty : nextCount c d s = 0
  · simp [empty]
  · have hpos : (slotHalf c d s).total ≠ 0 := by
      intro e
      have hzero : (slotHalf c d s).total.toNat = 0 := by simp [e]
      omega
    have hbuf := buffer hpos
    have inside : nextAddr c d s + nextCount c d s ≤ 2 ^ 32 := by
      rw [nextAddr]
      omega
    simpa [memAdmits, all, empty] using inside

end

/-! ### A whole sending transfer (R204) -/

/-- How many packets the transfer of a slot takes. -/
abbrev transferPackets (c : BitVec 4) (d : Dir) (s : State) : Nat :=
  packets (slotHalf c d s).total.toNat (slotHalf c d s).mps.toNat (slotHalf c d s).zlp

/-- The lengths of the first `k` packets of a transfer. -/
abbrev packetLengths (c : BitVec 4) (d : Dir) (s : State) (k : Nat) : List Nat :=
  (List.range k).map (fun j =>
    min (slotHalf c d s).mps.toNat ((slotHalf c d s).total.toNat - j * (slotHalf c d s).mps.toNat))

/-- A sending transfer at its first packet, on a platform that refuses no access. -/
structure FirstPacket (c : BitVec 4) (d : Dir) (s : State) : Prop where
  sends : Sends c d s
  noSetup : (slotHalf c d s).setup = false
  done : (slotHalf c d s).done = 0
  mps_pos : 0 < (slotHalf c d s).mps.toNat
  buffer : (slotHalf c d s).total ≠ 0 → (slotHalf c d s).buf.toNat + (slotHalf c d s).total.toNat ≤ 2 ^ 32
  admitted : s.cfg.memRefused = []

/-- The wire record grew by the first `k` packets of the transfer. -/
def SentLengths (c : BitVec 4) (d : Dir) (s : State) (k : Nat) (t : State) : Prop :=
  ∃ ps, t.wire = s.wire ++ ps ∧ ps.map (fun p => p.data.length) = packetLengths c d s k

/-- The operands of a transfer, which no packet changes (R201). -/
abbrev SameTransfer (x y : Half) : Prop :=
  y.mps = x.mps ∧ y.total = x.total ∧ y.zlp = x.zlp ∧ y.buf = x.buf ∧ y.setup = x.setup

/-- The transfer of `s` after `k` acknowledged packets, still in flight in `t`. -/
structure AcksTaken (c : BitVec 4) (d : Dir) (s : State) (k : Nat) (t : State) : Prop where
  sends : Sends c d t
  handle : slotHandle c d t = slotHandle c d s
  cfg : t.cfg = s.cfg
  evq : t.evq = s.evq
  done : (slotHalf c d t).done.toNat = k * (slotHalf c d s).mps.toNat
  transfer : SameTransfer (slotHalf c d s) (slotHalf c d t)
  lengths : SentLengths c d s k t

/-- A half that is not idle is open, so its packets hold at least one byte (R46, R151). -/
theorem mps_pos_of_good {c : BitVec 4} {d : Dir} {s : State} (g : Good s) (r : SlotReady c d s) :
    0 < (slotHalf c d s).mps.toNat := by
  have hh := slotHandle_lt_epMax g r
  have isOpen : (slotHalf c d s).isOpen = true := by
    by_contra shut
    have closed := g.closedHalves _ hh d (mem_bothDirs d) (Bool.eq_false_of_not_eq_true shut)
    have inflight := inflight_of_good g r
    rw [slotHalf, closed] at inflight
    cases inflight
  exact (g.openSizes _ hh d (mem_bothDirs d) isOpen).1

theorem firstPacket_of_good {c : BitVec 4} {d : Dir} {s : State} (g : Good s) (r : AckReady c d s)
    (done : (slotHalf c d s).done = 0) (admitted : s.cfg.memRefused = []) : FirstPacket c d s := by
  obtain ⟨ready, sending, noSetup⟩ := r
  have busy : (slotHalf c d s).xs ≠ .idle := by simp [inflight_of_good g ready]
  exact ⟨sends_of_good g ready sending, noSetup, done, mps_pos_of_good g ready,
    g.buffers _ (slotHandle_lt_epMax g ready) d (mem_bothDirs d) busy, admitted⟩

section
variable {c : BitVec 4} {d : Dir} {s t u : State} {k : Nat}

theorem sentLengths_drop (a : SentLengths c d s k t) :
    (t.wire.drop s.wire.length).map (fun p => p.data.length) = packetLengths c d s k := by
  obtain ⟨ps, wire, lengths⟩ := a
  rw [wire, List.drop_left, lengths]

/-- The armed packet is number `k` of the transfer (R210). -/
theorem AcksTaken.cnt (a : AcksTaken c d s k t) :
    (slot c.toNat d t).cnt.toNat =
      min (slotHalf c d s).mps.toNat ((slotHalf c d s).total.toNat - k * (slotHalf c d s).mps.toNat) := by
  obtain ⟨mps, total, -⟩ := a.transfer
  rw [a.sends.count, nextLen, a.done, mps, total]

/-- Either end of the next acknowledgement adds packet `k` to the wire record. -/
theorem AcksTaken.sentLengths_succ (a : AcksTaken c d s k t) (wire : u.wire = t.wire ++ [packet c d .ack t]) :
    SentLengths c d s (k + 1) u := by
  obtain ⟨ps, wireT, lengths⟩ := a.lengths
  refine ⟨ps ++ [packet c d .ack t], by rw [wire, wireT, List.append_assoc], ?_⟩
  simp [lengths, packetLengths, List.range_succ, packet, a.cnt]

/-- The next packet completes the transfer exactly when it is the last of the count (R204, R215). -/
theorem AcksTaken.completes_iff (a : AcksTaken c d s k t) (p : FirstPacket c d s) (hk : k < transferPackets c d s) :
    AckCompletes c d t ↔ transferPackets c d s = k + 1 := by
  obtain ⟨mps, total, zlp, -⟩ := a.transfer
  have hle : k * (slotHalf c d s).mps.toNat ≤ (slotHalf c d s).total.toNat := by
    rw [← a.done, ← total]
    exact a.sends.done_le
  rw [← last_packet_iff p.mps_pos hk hle, AckCompletes, a.done, a.cnt, mps, total, zlp]

theorem acksTaken_zero (p : FirstPacket c d s) : AcksTaken c d s 0 s :=
  ⟨p.sends, rfl, rfl, rfl, by simp [p.done], ⟨rfl, rfl, rfl, rfl, rfl⟩, [], by simp, by simp⟩

/-- An acknowledgement before the last leaves the transfer in flight, `mps` bytes further. -/
theorem AcksTaken.succ (a : AcksTaken c d s k t) (p : FirstPacket c d s) (hk : k + 1 < transferPackets c d s) :
    exec (.linkTxAck c d) t = .next (nextArmed c d t) ∧ AcksTaken c d s (k + 1) (nextArmed c d t) := by
  obtain ⟨mps, total, zlp, buf, setup⟩ := a.transfer
  have more : ¬ AckCompletes c d t := by
    rw [a.completes_iff p (by omega)]
    omega
  have admits : memAdmits (nextAddr c d t) (nextCount c d t) t = true :=
    memAdmits_next a.sends (by rw [a.cfg, p.admitted]) (by rw [total, buf]; exact p.buffer)
  have full : (slot c.toNat d t).cnt.toNat = (slotHalf c d s).mps.toNat := by
    have notShort : ¬ (slot c.toNat d t).cnt.toNat < (slotHalf c d t).mps.toNat := fun short => more (.inl short)
    have hcnt := a.cnt
    rw [mps] at notShort
    omega
  have halfU := slotHalf_nextArmed a.sends
  obtain ⟨-, -, -, -, evq, -, -, -, wire, -, -, ⟨cfg, -⟩, -⟩ := ack_arms a.sends
  refine ⟨?step, nextArmed_sends a.sends, by rw [slotHandle_nextArmed a.sends, a.handle], by rw [cfg, a.cfg],
    by rw [evq, a.evq], ?done, ?transfer, a.sentLengths_succ wire⟩
  case step =>
    rw [exec_linkTxAck_of_data a.sends (by rw [setup, p.noSetup]), if_neg more, whenAdmitted_of_admits _ admits]
  case done =>
    rw [halfU, progressed, a.sends.toNat_done_add_cnt, a.done, full]
    ring
  case transfer =>
    rw [halfU]
    exact ⟨mps, total, zlp, buf, setup⟩

/-- The last acknowledgement settles the transfer SUCCESS with all its bytes. -/
theorem AcksTaken.last (a : AcksTaken c d s k t) (p : FirstPacket c d s) (hk : transferPackets c d s = k + 1) :
    ∃ u, exec (.linkTxAck c d) t = .next u ∧ SentLengths c d s (k + 1) u ∧ (half (slotHandle c d s) d u).xs = .idle ∧
      u.evq = s.evq ++ [completion 0 d (slotHandle c d s) (slotHalf c d s).total.toNat] := by
  obtain ⟨mps, total, -, -, setup⟩ := a.transfer
  have completes : AckCompletes c d t := (a.completes_iff p (by omega)).2 hk
  have all : (slotHalf c d t).done.toNat + (slot c.toNat d t).cnt.toNat = (slotHalf c d s).total.toNat := by
    rw [← total]
    rcases completes with short | ⟨all, -⟩
    · have hcnt := a.sends.count
      have hle := a.sends.done_le
      rw [nextLen] at hcnt
      omega
    · exact all
  obtain ⟨halfU, -, evq, -, -, wire, -⟩ := ack_settles a.sends
  refine ⟨_, ?step, a.sentLengths_succ wire, ?idle, by rw [evq, a.evq, all, a.handle]⟩
  case step => rw [exec_linkTxAck_of_data a.sends (by rw [setup, p.noSetup]), if_pos completes]
  case idle =>
    rw [← a.handle, halfU, settledHalf]
    split <;> rfl

/-- One event more, after `k` of them. -/
theorem repeatExec_succ {i : Instr} (run : repeatExec i k s = .next t) (step : exec i t = .next u) :
    repeatExec i (k + 1) s = .next u := by
  rw [repeatExec, run, andThen, step]

theorem repeatExec_acksTaken (p : FirstPacket c d s) (hk : k < transferPackets c d s) :
    ∃ t, repeatExec (.linkTxAck c d) k s = .next t ∧ AcksTaken c d s k t := by
  induction k with
  | zero => exact ⟨s, rfl, acksTaken_zero p⟩
  | succ k ih =>
    obtain ⟨t, run, a⟩ := ih (by omega)
    obtain ⟨step, a'⟩ := a.succ p hk
    exact ⟨_, repeatExec_succ run step, a'⟩

end

end Sys2Proof.Machine

open Sys2Proof Sys2Proof.Machine

/-- Settles O60: by induction on the acknowledgements before the last, which settles the transfer. -/
theorem packetCount : Obligations.PacketCount := by
  intro c d s g r done admitted k hk
  have p := firstPacket_of_good g r done admitted
  rcases Nat.lt_or_eq_of_le hk with before | last
  · obtain ⟨t, run, a⟩ := repeatExec_acksTaken p before
    refine ⟨t, run, sentLengths_drop a.lengths, fun _ => ⟨?_, a.evq⟩, fun e => absurd e (Nat.ne_of_lt before)⟩
    rw [← a.handle]
    exact a.sends.inflight
  · obtain ⟨j, rfl⟩ := Nat.exists_eq_succ_of_ne_zero (n := k)
      (last ▸ (packets_pos _ _ p.mps_pos).ne')
    obtain ⟨t, run, a⟩ := repeatExec_acksTaken (k := j) p (Nat.lt_of_succ_le hk)
    obtain ⟨u, step, lengths, idle, evq⟩ := a.last p last.symm
    exact ⟨u, repeatExec_succ run step, sentLengths_drop lengths, fun lt => absurd last (Nat.ne_of_lt lt),
      fun _ => ⟨idle, evq⟩⟩

end

