-- ==== Sys2Proof/Proofs/RegisterAccesses.lean ====
section
/-! SUPPORT. Which register accesses decode and to what (R83, R284, R285), and how a step offered one goes on (R323). -/

namespace Sys2Proof

open Sys2Proof.Machine Sys2Proof.Claims

/-! ### The three kinds of instructions -/

/-- Every command word decodes to a command (R115). -/
theorem isCommand_decodeCommand (w : Word) : isCommand (decodeCommand w) = true := by
  unfold decodeCommand
  split <;> rfl

/-- A command is neither a register read nor a link event. -/
theorem not_isRead_isLink_of_isCommand {i : Instr} (h : isCommand i = true) : isRead i = false ∧ isLink i = false := by
  cases i <;> simp_all [isCommand, isRead, isLink]

/-- A read at any offset of the window is a register read (R284). -/
theorem isRead_regInstr (o : Nat) : isRead (regInstr o .read) = true := by
  unfold regInstr
  split <;> rfl

/-- A register access is no link event. -/
theorem isLink_regInstr (o : Nat) (a : RegAccess) : isLink (regInstr o a) = false := by
  unfold regInstr
  split <;> rfl

/-- A write at any offset is neither a register read nor a link event: at CMD it is a command (R38), elsewhere
a register write. -/
theorem not_isRead_isLink_writeInstr (o : Nat) (v : Word) :
    isRead (writeInstr o v) = false ∧ isLink (writeInstr o v) = false := by
  unfold writeInstr
  split
  · exact not_isRead_isLink_of_isCommand (isCommand_decodeCommand v)
  · refine ⟨?_, isLink_regInstr o _⟩
    unfold regInstr
    split <;> rfl

/-! ### Decoding an access -/

section
variable {base addr : Word} {width : Nat} {v : Word}

/-- What the window answers is a legal access (R83, R88). -/
theorem accessOk_iff : accessOk (windowOffset base addr) width = true ↔ LegalAccess base addr width := by
  rw [accessOk, Bool.and_eq_true, Bool.and_eq_true, beq_iff_eq, beq_iff_eq, decide_eq_true_eq, and_assoc]
  rfl

theorem decode_read_of_legal (h : LegalAccess base addr width) :
    decode base (.read addr width) = .ok (regInstr (windowOffset base addr) .read) := if_pos (accessOk_iff.2 h)

theorem decode_write_of_legal (h : LegalAccess base addr width) :
    decode base (.write addr width v) = .ok (writeInstr (windowOffset base addr) v) := if_pos (accessOk_iff.2 h)

theorem decode_read_of_not_legal (h : ¬ LegalAccess base addr width) :
    decode base (.read addr width) = .error (.regAccess (windowOffset base addr) width false) := if_neg (h ∘ accessOk_iff.1)

theorem decode_write_of_not_legal (h : ¬ LegalAccess base addr width) :
    decode base (.write addr width v) = .error (.regAccess (windowOffset base addr) width true) := if_neg (h ∘ accessOk_iff.1)

end

/-! ### A step that is offered an access or a link event word -/

section
variable {s : State} {r : RawInstr} {rest : List Stimulus}

theorem step_of_decode_error {e : Reject} (h : s.inbox = .act r :: rest) (he : decode s.cfg.blockBase r = .error e) :
    step s = rejected e := by
  simp only [step, fetch, h, decodeAt, he]

theorem step_of_decode_ok {i : Instr} (h : s.inbox = .act r :: rest) (hi : decode s.cfg.blockBase r = .ok i) :
    step s = checked (exec i { s with inbox := rest }) := by
  simp only [step, fetch, h, decodeAt, hi]

end

end Sys2Proof

open Sys2Proof Sys2Proof.Machine

/-- Settles O6: the decoder's test is R83, and a step offered an access that fails it ends as the rejection says. -/
theorem registerAccessRule : Obligations.RegisterAccessRule := by
  intro s rest addr width v
  refine ⟨fun offered illegal => ?read, fun offered illegal => ?write, fun legal => ?decodes⟩
  case read => exact step_of_decode_error offered (decode_read_of_not_legal illegal)
  case write => exact step_of_decode_error offered (decode_write_of_not_legal illegal)
  case decodes =>
    exact ⟨⟨_, decode_read_of_legal legal, isRead_regInstr _⟩,
      ⟨_, decode_write_of_legal legal, not_isRead_isLink_writeInstr _ v⟩⟩

end

