-- ==== Sys2Proof/Proofs/OtherOutcomes.lean ====
section
/-! SUPPORT. How an instruction and a step can end otherwise than in a next state (R86, R124, R125, R325): one predicate on what
a meaning answers, with a rule for each operation the meanings are built of. -/

namespace Sys2Proof.Machine

open Sys2Proof.Claims

/-- What a meaning started in `s` may answer: a next state; stuck, on an access that MemAdmit refuses, where `memory` says it
performs one; a refusal, where `link` says it is a link event (R325). -/
inductive EndsWithin (memory link : Bool) (s : State) : Result → Prop where
  | next (t : State) : EndsWithin memory link s (.next t)
  | stuck {a n : Nat} (uses : memory = true) (refuses : memAdmits a n s = false) :
      EndsWithin memory link s (.fault (.stuck a n))
  | refused {e : Refusal} (event : link = true) (name : e = .illFormedLink ∨ e = .linkNotEnabled) :
      EndsWithin memory link s (.refused e)

/-- What MemAdmit admits is fixed by the parameters (R7, R86). -/
theorem memAdmits_congr {s t : State} (e : t.cfg = s.cfg) (a n : Nat) : memAdmits a n t = memAdmits a n s := by
  rw [memAdmits, memAdmits, e]

/-- StartHost changes no parameter (R202). -/
theorem startHost_cfg {h : Nat} {d : Dir} {s t : State} (e : startHost h d s = .ok t) : t.cfg = s.cfg := by
  unfold startHost at e
  split at e
  · obtain ⟨c, o, -, -, rfl⟩ := reserveHalf_ok e
    exact bindSlot_cfg c d h _ _ o _ s
  · cases e; rfl

namespace EndsWithin

section
variable {m l : Bool} {s t : State} {r r' : Result}

/-! ### The operations that choose an end -/

theorem ite {c : Prop} [Decidable c] (h : EndsWithin m l s r) (h' : EndsWithin m l s r') :
    EndsWithin m l s (if c then r else r') := by
  split <;> assumption

theorem whenEnabled {c : Bool} (h : EndsWithin m true s r) : EndsWithin m true s (whenEnabled c r) :=
  ite h (.refused rfl (.inr rfl))

theorem illFormed : EndsWithin m true s (.refused .illFormedLink) := .refused rfl (.inl rfl)

theorem whenAdmitted {a n : Nat} (e : t.cfg = s.cfg) (h : EndsWithin true l s r) :
    EndsWithin true l s (whenAdmitted a n t r) := by
  cases admits : memAdmits a n t with
  | true => rwa [whenAdmitted_of_admits r admits]
  | false =>
    rw [whenAdmitted_of_refuses r admits]
    exact .stuck rfl (memAdmits_congr e a n ▸ admits)

theorem andThen {f : State → Result} (h : EndsWithin m l s r) (hf : ∀ u, EndsWithin m l s (f u)) :
    EndsWithin m l s (andThen r f) := by
  cases h with
  | next u => exact hf u
  | stuck uses refuses => exact .stuck uses refuses
  | refused event name => exact .refused event name

/-! ### The instructions that perform an access of system memory (R86) -/

theorem arm {h : Nat} {d : Dir} (e : t.cfg = s.cfg) : EndsWithin true l s (arm h d t) :=
  ite (whenAdmitted e (.next _)) (.next _)

theorem submit (setup zlp : Bool) (len : BitVec 16) (z : BitVec 1) (dir : Dir) (handle : BitVec 8) :
    EndsWithin true l s (execXferSubmit setup zlp len z dir handle s) := by
  refine ite (.next _) <| ite (.next _) <| ite (.next _) <| ite (.next _) <| ite (.next _) <| ite (.next _) <| ite (.next _) <|
    ite (.next _) ?_
  cases started : startHost handle.toNat dir s with
  | error x => exact .next _
  | ok t => exact andThen (arm (by simp [startHost_cfg started])) fun u => .next _

theorem ackPacket {c : BitVec 4} {d : Dir} : EndsWithin true l s (ackPacket c d s) :=
  ite (.next _) (ite (.next _) (arm (by simp)))

theorem receivePacket {c : BitVec 4} {d : Dir} {pid : Bool} {data : List Byte} :
    EndsWithin true l s (receivePacket c d pid data s) :=
  ite (.next _) (ite (.next _) (whenAdmitted rfl (ite (.next _) (arm (by simp)))))

/-! ### The other commands, and the registers -/

theorem epOpen (type : XferType) (mps : BitVec 11) (dev : BitVec 7) (dir : Dir) (z : BitVec 3) (num : BitVec 4) :
    EndsWithin m l s (execEpOpen type mps dev dir z num s) := by
  refine ite (.next _) (ite (.next _) ?_)
  split
  · exact .next _
  · split <;> exact .next _

theorem epFind (z : BitVec 13) (dev : BitVec 7) (dir : Dir) (z2 : BitVec 3) (num : BitVec 4) :
    EndsWithin m l s (execEpFind z dev dir z2 num s) := by
  refine ite (.next _) (ite (.next _) ?_)
  cases findOpen dev num dir s <;> exact .next _

theorem readOnly (v : Word) (a : RegAccess) : EndsWithin m l s (readOnly v a s) := by cases a <;> exact .next _

/-- No command but XFER_SUBMIT ends otherwise than in a next state (R325). -/
theorem command {i : Instr} (h : isCommand i = true) : EndsWithin (usesMemory i) l s (exec i s) := by
  cases i with
  | init z role => exact ite (.next _) (ite (.next _) (.next _))
  | epOpen type mps dev dir z num => exact epOpen type mps dev dir z num
  | epClose z dir handle => exact ite (.next _) (ite (.next _) (ite (.next _) (ite (.next _) (.next _))))
  | epFind z dev dir z2 num => exact epFind z dev dir z2 num
  | xferSubmit setup zlp len z dir handle => exact submit setup zlp len z dir handle
  | xferAbort z dir handle => exact ite (.next _) (ite (.next _) (ite (.next _) (ite (.next _) (ite (.next _) (.next _)))))
  | epClearStall z dir handle => exact ite (.next _) (ite (.next _) (ite (.next _) (ite (.next _) (.next _))))
  | devClose z dev z2 => exact ite (.next _) (ite (.next _) (ite (.next _) (ite (.next _) (.next _))))
  | epQuery z dir handle => exact ite (.next _) (ite (.next _) (ite (.next _) (.next _)))
  | illegal0 x | illegalA x | illegalB x | illegalC x | illegalD x | illegalE x | illegalF x => exact .next _
  | _ => cases h

/-! ### Every instruction -/

/-- How any instruction may end: stuck if it performs an access, refused if it is a link event (R325). -/
theorem exec (i : Instr) (s : State) : EndsWithin (usesMemory (underlying i)) (isLink i) s (exec i s) := by
  cases i with
  | init | epOpen | epClose | epFind | xferSubmit | xferAbort | epClearStall | devClose | epQuery
  | illegal0 | illegalA | illegalB | illegalC | illegalD | illegalE | illegalF => exact command rfl
  | regCmd a =>
    cases a with
    | read => exact .next _
    | write w =>
      rw [exec_regCmd_write]
      exact command (isCommand_decodeCommand w)
  | linkTxAck c d => exact whenEnabled ackPacket
  | linkRxData c d pid n data => exact ite illFormed (whenEnabled receivePacket)
  | linkSetupRx c d n data => exact ite illFormed (whenEnabled (whenAdmitted rfl (.next _)))
  | linkNak | linkStall | linkXerr | linkFrame | linkBusReset | linkAttach | linkDetach | linkSuspend | linkResume =>
    exact whenEnabled (.next _)
  | linkReserved0 | linkReservedD | linkReservedE | linkReservedF => exact illFormed
  | regCtrl a | regIntEn a | regNakLimit a | regArg0 a | regEvqPop a => cases a <;> exact .next _
  | regResult a | regResult2 a | regEvqStatus a | regEvqPeek a | regParam0 a | regParam1 a | regParam2 a | regReserved34 a
  | regReserved38 a | regReserved3C a => exact readOnly _ a

theorem fault {f : Fault} (h : EndsWithin m l s (.fault f)) : m = true ∧ ∃ a n, f = .stuck a n ∧ memAdmits a n s = false := by
  cases h with
  | stuck uses refuses => exact ⟨uses, _, _, rfl, refuses⟩

theorem refusal {e : Refusal} (h : EndsWithin m l s (.refused e)) : l = true ∧ (e = .illFormedLink ∨ e = .linkNotEnabled) := by
  cases h with
  | refused event name => exact ⟨event, name⟩

end

end EndsWithin

/-! ### A step -/

/-- The check at the end of a step adds the invariant fault and no other (R324). -/
theorem checked_fault {r : Result} {f : Fault} (h : checked r = .fault f) : r = .fault f ∨ ∃ n t, f = .invariant n t := by
  cases r with
  | next u =>
    cases broken : firstBroken u with
    | none => simp [checked, broken] at h
    | some n =>
      simp only [checked, broken, Host.Outcome.fault.injEq] at h
      exact .inr ⟨n, _, h.symm⟩
  | fault e => exact .inl h
  | refused e => cases h

theorem checked_refused {r : Result} {e : Refusal} (h : checked r = .refused e) : r = .refused e := by
  cases r with
  | next u => cases broken : firstBroken u <;> simp [checked, broken] at h
  | fault f => cases h
  | refused e' => exact h

/-- What a step answers: a next state, the end of a rejected word, or what the decoded instruction answers, checked (R6, R90). -/
theorem step_cases (s : State) :
    (∃ t, step s = .next t) ∨
    (∃ r rest x, s.inbox = .act r :: rest ∧ decode s.cfg.blockBase r = .error x ∧ step s = rejected x) ∨
    ∃ r rest i, s.inbox = .act r :: rest ∧ decode s.cfg.blockBase r = .ok i ∧
      step s = checked (exec i { s with inbox := rest }) := by
  cases offered : s.inbox with
  | nil => exact .inl ⟨s, by rw [step, fetch, offered]⟩
  | cons x rest =>
    cases x with
    | store cells => exact .inl ⟨cpuStore cells { s with inbox := rest }, by rw [step, fetch, offered]⟩
    | load addrs => exact .inl ⟨cpuLoad addrs { s with inbox := rest }, by rw [step, fetch, offered]⟩
    | act r =>
      cases decoded : decode s.cfg.blockBase r with
      | error x => exact .inr (.inl ⟨r, rest, x, rfl, decoded, step_of_decode_error offered decoded⟩)
      | ok i => exact .inr (.inr ⟨r, rest, i, rfl, decoded, step_of_decode_ok offered decoded⟩)

end Sys2Proof.Machine

namespace Sys2Proof

open Sys2Proof.Machine Sys2Proof.Claims

/-- Only a link event word decodes to a link event. -/
theorem link_of_decode {base : Word} {r : RawInstr} {i : Instr} (h : decode base r = .ok i) (event : isLink i = true) :
    ∃ w payload, r = .link w payload := by
  cases r with
  | link w payload => exact ⟨w, payload, rfl⟩
  | read addr width =>
    simp only [decode] at h
    split at h
    · cases h; simp [isLink_regInstr] at event
    · cases h
  | write addr width v =>
    simp only [decode] at h
    split at h
    · cases h; simp [not_isRead_isLink_writeInstr] at event
    · cases h

/-- What is rejected: a register access, or a link event word (R83, R124). -/
theorem decode_error {base : Word} {r : RawInstr} {e : Reject} (h : decode base r = .error e) :
    (∃ o w isWrite, e = .regAccess o w isWrite ∧ ∀ word payload, r ≠ .link word payload) ∨
    ∃ word payload, r = .link word payload ∧ e = .illFormedLink word := by
  cases r with
  | link w payload =>
    simp only [decode] at h
    split at h <;> cases h
    exact .inr ⟨w, payload, rfl, rfl⟩
  | read addr width | write addr width v =>
    simp only [decode] at h
    split at h <;> cases h
    exact .inl ⟨_, _, _, rfl, by simp⟩

end Sys2Proof

open Sys2Proof Sys2Proof.Machine

/-- Settles O57: an instruction ends as `EndsWithin` says, and a step adds the end of a rejected word and the check of R54. -/
theorem otherOutcomes : Obligations.OtherOutcomes := by
  intro i s
  have ends := EndsWithin.exec i s
  refine ⟨fun f h => (h ▸ ends).fault, fun e h => (h ▸ ends).refusal, fun f h => ?fault, fun e h => ?refusal⟩
  case fault =>
    obtain ⟨t, answer⟩ | ⟨r, rest, x, offered, decoded, answer⟩ | ⟨r, rest, j, offered, decoded, answer⟩ := step_cases s
    · cases answer.symm.trans h
    · refine ⟨r, rest, offered, .inl ?_⟩
      obtain ⟨o, w, isWrite, rfl, noLink⟩ | ⟨word, payload, rfl, rfl⟩ := decode_error decoded
      · cases answer.symm.trans h
        exact ⟨o, w, isWrite, rfl, noLink⟩
      · cases answer.symm.trans h
    · refine ⟨r, rest, offered, .inr ?_⟩
      obtain stops | broken := checked_fault (answer.symm.trans h)
      · exact .inr (stops ▸ EndsWithin.exec j { s with inbox := rest }).fault.2
      · exact .inl broken
  case refusal =>
    obtain ⟨t, answer⟩ | ⟨r, rest, x, offered, decoded, answer⟩ | ⟨r, rest, j, offered, decoded, answer⟩ := step_cases s
    · cases answer.symm.trans h
    · obtain ⟨o, w, isWrite, rfl, -⟩ | ⟨word, payload, rfl, rfl⟩ := decode_error decoded
      · cases answer.symm.trans h
      · cases answer.symm.trans h
        exact ⟨word, payload, rest, offered, .inl rfl⟩
    · have refused := checked_refused (answer.symm.trans h)
      obtain ⟨event, name⟩ := (refused ▸ EndsWithin.exec j { s with inbox := rest }).refusal
      obtain ⟨word, payload, rfl⟩ := link_of_decode decoded event
      exact ⟨word, payload, rest, offered, name⟩

end

