-- ==== Sys2Proof/Proofs/CheckOrder.lean ====
section
/-! SUPPORT. The order of each command's checks (R322): one predicate that ties a meaning to its list of checks, with a rule per
check, and then one lemma per command. -/

namespace Sys2Proof.Machine

open Sys2Proof.Safety Sys2Proof.Claims

/-! ### A meaning reports the first of its checks that fails -/

/-- Where one of the checks fails, the meaning answers `s` with the status of the first that does (R321, R322). -/
def Reports (s : State) (r : Result) (checks : List (Bool × Nat)) : Prop :=
  ∀ n, firstFailing checks = some n → r = .next { s with result := BitVec.ofNat 32 n, result2 := 0 }

namespace Reports

section
variable {s : State} {r : Result} {b : Bool} {l : List (Bool × Nat)}

theorem nil : Reports s r [] := fun _ h => nomatch h

/-- A check is reported that makes the meaning reject, before all that follow it. -/
theorem check (code : Status) (fails : b = true → r = .next (reject code s)) (rest : b = false → Reports s r l) :
    Reports s r ((b, code.code.toNat) :: l) := by
  intro n first
  cases b with
  | true =>
    cases first
    rw [fails rfl]
    cases code <;> rfl
  | false => exact rest rfl n first

/-- A check that the meaning makes as its next test. -/
theorem guard (code : Status) {c : Prop} [Decidable c] (test : c ↔ b = true) (rest : Reports s r l) :
    Reports s (if c then .next (reject code s) else r) ((b, code.code.toNat) :: l) :=
  check code (fun fails => if_pos (test.2 fails)) (fun passes => by rwa [if_neg (by simp [test, passes])])

/-- Two checks with one status, which the meaning makes as one test. -/
theorem either {a c d : Prop} [Decidable a] [Decidable c] [Decidable d] {x : Result} (test : a ↔ c ∨ d)
    (h : Reports s (if c then x else if d then x else r) l) : Reports s (if a then x else r) l := by
  rwa [← ite_or, ← if_congr test rfl rfl] at h

end

end Reports

/-! ### Room in the FIFO and transfers in flight -/

section
variable {s : State}

theorem not_room_iff {n : Nat} : (!room n s) = true ↔ decide (s.cfg.evqDepth < s.evq.length + n) = true := by
  simp [room]

/-- The halves of an entry that are in flight, counted (R159). -/
theorem busyIn_eq_filter_length (h : Nat) (ds : List Dir) :
    busyIn h ds s = (ds.filter fun d => decide ((half h d s).xs ≠ .idle)).length := by
  rw [busyIn, List.countP_eq_length_filter]
  simp only [bne, decide_not, beq_eq_decide]

/-- Closing the selected entries pushes one completion per transfer in flight (R159). -/
theorem abortWords_length (sel : Nat → Bool) : (abortWords sel s).length = busyCount sel s := by
  rw [abortWords, busyCount, List.length_flatMap]
  refine congrArg List.sum (List.map_congr_left fun h _ => ?_)
  split
  · rw [List.length_map, busyIn_eq_filter_length]
  · rfl

theorem busyIn_ne_zero_iff {h : Nat} {ds : List Dir} :
    busyIn h ds s ≠ 0 ↔ (ds.any fun d => decide ((half h d s).xs ≠ .idle)) = true := by
  simp [busyIn_eq_filter_length, List.filter_eq_nil_iff]

end

/-! ### EP_OPEN's operands and its entry (R151, R152) -/

section
variable {type : XferType} {mps : BitVec 11} {dev : BitVec 7} {dir : Dir} {z : BitVec 3} {num : BitVec 4} {s : State}

/-- The operand checks of EP_OPEN, one by one (R151). -/
theorem epOpenBadArg_iff : epOpenBadArg type mps dev z s = true ↔
    (z != 0) = true ∨ (mps.toNat = 0 ∨ 1023 < mps.toNat) ∨ (type = .ctrl ∧ mps.toNat < 8) ∨ (s.role = .device ∧ dev ≠ 0) := by
  have zero : mps = 0#11 ↔ mps.toNat = 0 := BitVec.toNat_inj.symm
  simp [epOpenBadArg, rsv, or_assoc, zero]

theorem findEntry_some {h : Nat} (found : findEntry dev num s = some h) : h < s.cfg.epMax ∧ Identity h dev num s := by
  refine ⟨List.mem_range.1 (List.mem_of_find?_eq_some found), ?_⟩
  simpa [and_assoc] using List.find?_some found

theorem findEntry_none (notFound : findEntry dev num s = none) {h : Nat} (hh : h < s.cfg.epMax) :
    ¬ Identity h dev num s := by
  simpa [and_assoc] using List.find?_eq_none.1 notFound h (List.mem_range.2 hh)

/-- At most one entry holds an identity, so the search finds it (R45, INV8). -/
theorem findEntry_of_identity (unique : Inv8Unique s) {h : Nat} (hh : h < s.cfg.epMax) (identity : Identity h dev num s) :
    findEntry dev num s = some h := by
  cases found : findEntry dev num s with
  | none => exact absurd identity (findEntry_none found hh)
  | some h' =>
    obtain ⟨hh', used', dev', num'⟩ := findEntry_some found
    obtain ⟨used, rfl, rfl⟩ := identity
    rw [unique h' hh' used' h hh used (by simp [sameIdentity, dev', num'])]

/-- An identity that is open, or in conflict, is EXISTING (R152). -/
theorem selectEntry_of_conflicts (unique : Inv8Unique s) (conflict : conflicts type dev dir num s = true) :
    selectEntry type dev dir num s = .error .existing := by
  simp only [conflicts, List.any_eq_true, List.mem_range, Bool.and_eq_true, Bool.or_eq_true, decide_eq_true_eq] at conflict
  obtain ⟨h, hh, ⟨⟨used, hdev⟩, hnum⟩, why⟩ := conflict
  rw [selectEntry, findEntry_of_identity unique hh ⟨used, hdev, hnum⟩]
  obtain (isCtrl | isOpen) | otherCtrl := why
  · simp [isCtrl]
  · simp [isOpen]
  · simp [otherCtrl]

/-- A new identity finds no entry when all are used (R152). -/
theorem selectEntry_of_registryFull (full : registryFull dev num s = true) :
    selectEntry type dev dir num s = .error .regfull := by
  simp only [registryFull, List.all_eq_true, List.mem_range, Bool.and_eq_true, Bool.not_eq_true', Bool.and_eq_false_iff,
    decide_eq_false_iff_not] at full
  have noEntry : findEntry dev num s = none := List.find?_eq_none.2 fun h hh => by
    obtain ⟨-, other⟩ := full h (List.mem_range.1 hh)
    simp only [Bool.and_eq_true, beq_iff_eq, not_and]
    rintro ⟨-, hdev⟩ hnum
    exact other.elim (· hdev) (· hnum)
  have noFree : freeEntry s = none := List.find?_eq_none.2 fun h hh => by simp [(full h (List.mem_range.1 hh)).1]
  rw [selectEntry, noEntry, noFree]

/-- A reservation that fails is one of a selected entry in the device role (R153). -/
theorem reserveAtOpen_of_reserveFails {e : Status} (fails : reserveFails e type mps dev dir num s = true) :
    ∃ h, selectEntry type dev dir num s = .ok h ∧ reserveAtOpen h dev num mps.toNat (halvesOf type dir) s = .error e := by
  unfold reserveFails at fails
  split at fails
  · cases fails
  next h selected =>
    split at fails
    next x failed =>
      obtain ⟨device, rfl⟩ := of_decide_eq_true fails
      exact ⟨h, selected, by rw [reserveAtOpen, if_pos device, failed]⟩
    · cases fails

end

/-! ### EP_FIND's search (R157) -/

theorem findOpen_eq_none_iff {dev : BitVec 7} {num : BitVec 4} {dir : Dir} {s : State} :
    findOpen dev num dir s = none ↔ (!(List.range s.cfg.epMax).any (fun h => (entry h s).used &&
      decide ((entry h s).dev = dev) && decide ((entry h s).num = num) && (half h dir s).isOpen)) = true := by
  simp [findOpen]

/-! ### XFER_SUBMIT's operands and its slot (R201, R202) -/

section
variable {setup zlp : Bool} {len : BitVec 16} {h : Nat} {dir : Dir} {s : State}

theorem setupMisuse_iff {x : Half} : setupMisuse setup zlp len dir x = true ↔
    decide (setup = true ∧ (x.type ≠ .ctrl ∨ dir ≠ .out ∨ len.toNat ≠ 8 ∨ zlp = true)) = true := by
  have eight : len = 8#16 ↔ len.toNat = 8 := BitVec.toNat_inj.symm
  simp [setupMisuse, or_assoc, eight]

theorem pastTop_iff : pastTop len s = true ↔ decide (0 < len.toNat ∧ 2 ^ 32 < s.arg0.toNat + len.toNat) = true := by
  have zero : len = 0#16 ↔ len.toNat = 0 := BitVec.toNat_inj.symm
  simp [pastTop, zero, Nat.pos_iff_ne_zero]

theorem startHost_nochan (host : s.role = .host) (noChannel : chAcquire h dir s = none) :
    startHost h dir s = .error .nochan := by
  rw [startHost, if_pos host, reserveHalf, noChannel]

theorem startHost_nomem (host : s.role = .host) (channel : chAcquire h dir s ≠ none)
    (noRange : arenaAlloc (roundup (half h dir s).mps.toNat s.cfg.arenaGran) s = none) :
    startHost h dir s = .error .nomem := by
  obtain ⟨c, acquired⟩ := Option.ne_none_iff_exists'.1 channel
  rw [startHost, if_pos host, reserveHalf, acquired, noRange]

end

/-! ### The commands -/

section
variable (s : State)

theorem execInit_reports (z : BitVec 27) (role : Role) : Reports s (execInit z role s) (checks s (.init z role)) :=
  .guard .badarg .rfl <| .guard .already .rfl .nil

theorem execEpClose_reports (z : BitVec 19) (dir : Dir) (handle : BitVec 8) :
    Reports s (execEpClose z dir handle s) (checks s (.epClose z dir handle)) :=
  .guard .notinit .rfl <| .guard .badarg .rfl <| .guard .badhandle .rfl <| .guard .evqfull not_room_iff .nil

theorem execXferAbort_reports (z : BitVec 19) (dir : Dir) (handle : BitVec 8) :
    Reports s (execXferAbort z dir handle s) (checks s (.xferAbort z dir handle)) :=
  .guard .notinit .rfl <| .guard .badarg .rfl <| .guard .badhandle .rfl <| .guard .ok decide_eq_true_iff.symm <|
    .guard .evqfull not_room_iff .nil

theorem execEpClearStall_reports (z : BitVec 19) (dir : Dir) (handle : BitVec 8) :
    Reports s (execEpClearStall z dir handle s) (checks s (.epClearStall z dir handle)) :=
  .guard .notinit .rfl <| .guard .badarg .rfl <| .guard .badhandle .rfl <| .guard .busy busyIn_ne_zero_iff .nil

theorem execEpQuery_reports (z : BitVec 19) (dir : Dir) (handle : BitVec 8) :
    Reports s (execEpQuery z dir handle s) (checks s (.epQuery z dir handle)) :=
  .guard .notinit .rfl <| .guard .badarg .rfl <| .guard .badhandle decide_eq_true_iff.symm .nil

theorem execEpFind_reports (z : BitVec 13) (dev : BitVec 7) (dir : Dir) (z2 : BitVec 3) (num : BitVec 4) :
    Reports s (execEpFind z dev dir z2 num s) (checks s (.epFind z dev dir z2 num)) := by
  refine .guard .notinit .rfl <| .either Bool.or_eq_true_iff <| .guard .badarg .rfl <| .guard .badarg .rfl <|
    .check .notfound (fun fails => ?_) fun _ => .nil
  rw [findOpen_eq_none_iff.2 fails]

theorem execDevClose_reports (z : BitVec 13) (dev : BitVec 7) (z2 : BitVec 8) :
    Reports s (execDevClose z dev z2 s) (checks s (.devClose z dev z2)) := by
  have notHost : s.role ≠ .host ↔ decide (s.role = .device) = true := by cases s.role <;> simp
  rw [checks, abortWords_length]
  exact .guard .notinit .rfl <| .either Bool.or_eq_true_iff <| .guard .badarg .rfl <| .guard .badarg .rfl <|
    .guard .wrongrole notHost <| .guard .evqfull not_room_iff .nil

theorem execXferSubmit_reports (setup zlp : Bool) (len : BitVec 16) (z : BitVec 1) (dir : Dir) (handle : BitVec 8) :
    Reports s (execXferSubmit setup zlp len z dir handle s) (checks s (.xferSubmit setup zlp len z dir handle)) := by
  refine .guard .notinit .rfl <| .guard .badarg .rfl <| .guard .badhandle .rfl <| .guard .busy decide_eq_true_iff.symm <|
    .guard .badarg setupMisuse_iff <| .guard .badarg (by simp) <| .guard .badarg pastTop_iff <| .guard .halted (by simp) <|
    .check .nochan (fun fails => ?nochan) fun acquired => .check .nomem (fun fails => ?nomem) fun _ => .nil
  case nochan =>
    obtain ⟨host, noChannel⟩ := of_decide_eq_true fails
    rw [startHost_nochan host noChannel]
  case nomem =>
    obtain ⟨host, noRange⟩ := of_decide_eq_true fails
    have channel := fun noChannel => of_decide_eq_false acquired ⟨host, noChannel⟩
    rw [startHost_nomem host channel noRange]

theorem execEpOpen_reports (unique : Inv8Unique s) (type : XferType) (mps : BitVec 11) (dev : BitVec 7) (dir : Dir)
    (z : BitVec 3) (num : BitVec 4) :
    Reports s (execEpOpen type mps dev dir z num s) (checks s (.epOpen type mps dev dir z num)) := by
  refine .guard .notinit .rfl <| .either epOpenBadArg_iff <| .guard .badarg .rfl <|
    .either .rfl <| .guard .badarg decide_eq_true_iff.symm <| .either .rfl <| .guard .badarg decide_eq_true_iff.symm <|
    .guard .badarg decide_eq_true_iff.symm <|
    .check .existing (fun fails => ?existing) fun _ => .check .regfull (fun fails => ?regfull) fun _ =>
    .check .nochan (fun fails => ?nochan) fun _ => .check .nomem (fun fails => ?nomem) fun _ => .nil
  case existing => rw [selectEntry_of_conflicts unique fails]
  case regfull => rw [selectEntry_of_registryFull fails]
  case nochan | nomem =>
    obtain ⟨h, selected, failed⟩ := reserveAtOpen_of_reserveFails fails
    simp only [selected, failed]

/-- Every instruction reports the first of its checks that fails; one that is no command, or a reserved opcode, has none. -/
theorem exec_reports (g : Good s) (i : Instr) : Reports s (exec i s) (checks s i) := by
  cases i with
  | init z role => exact execInit_reports s z role
  | epOpen type mps dev dir z num => exact execEpOpen_reports s g.inv8Unique type mps dev dir z num
  | epClose z dir handle => exact execEpClose_reports s z dir handle
  | epFind z dev dir z2 num => exact execEpFind_reports s z dev dir z2 num
  | xferSubmit setup zlp len z dir handle => exact execXferSubmit_reports s setup zlp len z dir handle
  | xferAbort z dir handle => exact execXferAbort_reports s z dir handle
  | epClearStall z dir handle => exact execEpClearStall_reports s z dir handle
  | devClose z dev z2 => exact execDevClose_reports s z dev z2
  | epQuery z dir handle => exact execEpQuery_reports s z dir handle
  | _ => exact .nil

end

end Sys2Proof.Machine

open Sys2Proof Sys2Proof.Machine

/-- Settles O19: command by command, each test of the meaning is the next check of its list. -/
theorem checkOrder : Obligations.CheckOrder := fun i s n g first => exec_reports s g i n first

end

