-- ==== Sys2Proof/Proofs/RoundTrip.lean ====
section
/-! SUPPORT. The decoder and the encoder undo each other (R30, R112, R115, R122 to R124): the fields of a word put together are
taken apart again, and a word is put together again from the fields taken from it. -/

namespace Sys2Proof

open Sys2Proof.Machine Sys2Proof.Claims

/-! ### Fields put together -/

section
variable {n m lo hi : Nat}

@[simp] theorem getElem_bits (w : Word) {i : Nat} (h : i < n) : (bits w lo n)[i] = w.getLsbD (lo + i) := by
  rw [← BitVec.getLsbD_eq_getElem, getLsbD_bits, decide_eq_true h, Bool.true_and]

theorem bits_or (v w : Word) (lo n : Nat) : bits (v ||| w) lo n = bits v lo n ||| bits w lo n := by
  apply BitVec.eq_of_getLsbD_eq
  intro i hi
  simp [hi]

theorem bit_or (v w : Word) (i : Nat) : bit (v ||| w) i = (bit v i || bit w i) := BitVec.getLsbD_or

theorem bit_field (v : BitVec n) (i : Nat) :
    bit (field lo v) i = (decide (i < 32) && decide (lo ≤ i) && v.getLsbD (i - lo)) := getLsbD_field lo v i

/-- A field is read where it was put. -/
theorem bits_field_same (v : BitVec n) (h : lo + n ≤ 32) : bits (field lo v) lo n = v := by
  apply BitVec.eq_of_getLsbD_eq
  intro i hi
  rw [getLsbD_bits, getLsbD_field]
  simp [hi, show lo + i < 32 by omega]

/-- A field apart from another reads 0 of it. -/
theorem bits_field_apart (v : BitVec m) (h : hi + m ≤ lo ∨ lo + n ≤ hi) : bits (field hi v) lo n = 0#n := by
  apply BitVec.eq_of_getLsbD_eq
  intro i hin
  by_cases below : hi ≤ lo + i
  · simp [BitVec.getLsbD_of_ge v (lo + i - hi) (by omega)]
  · simp [below]

end

@[simp] theorem dirOfBit_toBit_getElem (d : Dir) : dirOfBit d.toBit[0] = d := by cases d <;> rfl
@[simp] theorem roleOfBit_toBit_getElem (r : Role) : roleOfBit r.toBit[0] = r := by cases r <;> rfl

/-! ### A word put together again -/

/-- The `n` bits of a word from bit `lo` up, left in their place. -/
def part (w : Word) (lo n : Nat) : Word := field lo (bits w lo n)

section
variable (w : Word)

theorem field_bits (lo n : Nat) : field lo (bits w lo n) = part w lo n := rfl

/-- A field that holds one bit of the word is that bit left in its place. -/
theorem field_ofBool_bit (i : Nat) : field i (BitVec.ofBool (bit w i)) = part w i 1 := by
  have oneBit : bits w i 1 = BitVec.ofBool (bit w i) := by
    apply BitVec.eq_of_getLsbD_eq
    intro j hj
    obtain rfl : j = 0 := by omega
    simp [bit]
  rw [← field_bits, oneBit]

theorem flag_bit (i : Nat) : flag i (bit w i) = part w i 1 := field_ofBool_bit w i

/-- Two parts side by side are one. -/
theorem part_or_part {lo m hi : Nat} (n : Nat) (h : hi = lo + m) : part w hi n ||| part w lo m = part w lo (m + n) := by
  subst h
  apply word_ext
  intro i hi
  simp only [part, BitVec.getLsbD_or, getLsbD_field, getLsbD_bits, hi, decide_true, Bool.true_and]
  by_cases low : lo ≤ i
  · by_cases high : lo + m ≤ i
    · simp only [low, high, show ¬ i - lo < m by omega, show i - (lo + m) < n ↔ i - lo < m + n by omega,
        show lo + m + (i - (lo + m)) = lo + (i - lo) by omega, decide_true, decide_false, Bool.true_and, Bool.false_and,
        Bool.and_false, Bool.or_false]
    · simp [low, high, show i - lo < m by omega, show i - lo < m + n by omega]
  · simp [low, show ¬ lo + m ≤ i by omega]

/-- The part of all 32 bits is the word. -/
theorem part_whole : part w 0 32 = w := by
  apply word_ext
  intro i hi
  rw [part, getLsbD_field, getLsbD_bits]
  simp [hi]

/-- Zero bits below a part belong to it. -/
theorem part_of_zero_below {lo m hi n : Nat} (zero : bits w lo m = 0#m) (h : hi = lo + m) :
    part w hi n = part w lo (m + n) := by
  have below : part w lo m = 0 := by simp [part, zero, field]
  rw [← part_or_part w n h, below]
  exact (BitVec.or_zero).symm

/-- The highest four bits, by their number (R112, R122). -/
theorem part_kind : field 28 (BitVec.ofNat 4 (bits w 28 4).toNat) = part w 28 4 := by
  rw [BitVec.ofNat_toNat, BitVec.setWidth_eq, field_bits]

end

/-! ### Commands -/

/-- A command is presented as its word, which decodes to it (R112, R115). -/
theorem decodeCommand_encode {i : Instr} (h : isCommand i = true) (base : Word) :
    ∃ w, encode base i = encodeCommand base w ∧ decodeCommand w = i := by
  cases i with
  | init | epOpen | epClose | epFind | xferSubmit | xferAbort | epClearStall | devClose | epQuery
  | illegal0 | illegalA | illegalB | illegalC | illegalD | illegalE | illegalF =>
    refine ⟨_, rfl, ?_⟩
    simp [decodeCommand, bits_or, bit_or, bits_field_same, bits_field_apart, bit_field, flag]
  | _ => cases h

/-- Every command word is the encoding of its command (R112, R115). -/
theorem encode_decodeCommand (base w : Word) : encode base (decodeCommand w) = encodeCommand base w := by
  have hlt : (bits w 28 4).toNat < 16 := (bits w 28 4).isLt
  have opcode := part_kind w
  unfold decodeCommand
  generalize (bits w 28 4).toNat = k at *
  interval_cases k <;>
    simp [encode, opcode, field_bits, field_ofBool_bit, flag_bit, part_or_part, part_whole]

/-! ### Link event words -/

/-- A well-formed link event is presented as a word and a payload that decode to it (R122 to R124). -/
theorem decodeLink_encode {i : Instr} (event : isLink i = true) (h : wellFormed i = true) (base : Word) :
    ∃ w payload, encode base i = .link w payload ∧ decodeLink w payload = some i := by
  cases i with
  | linkReserved0 | linkReservedD | linkReservedE | linkReservedF => cases h
  | linkRxData c d pid n data | linkSetupRx c d n data =>
    refine ⟨_, _, rfl, ?_⟩
    simpa [decodeLink, slotKindWord, whenFits, bits_or, bit_or, bits_field_same, bits_field_apart, bit_field, flag, wellFormed]
      using h
  | linkTxAck | linkNak | linkStall | linkXerr | linkFrame | linkBusReset | linkAttach | linkDetach | linkSuspend | linkResume =>
    refine ⟨_, _, rfl, ?_⟩
    simp [decodeLink, slotKindWord, slotKindOnly, busKindOnly, whenFits, bits_or, bit_or, bits_field_same, bits_field_apart,
      bit_field, flag]
  | _ => cases event

section
variable {w : Word} {payload : List Byte} {k : BitVec 4} (kind : bits w 28 4 = k)
include kind

/-- KIND, CH and DIR are all there is above bit 22 (R122). -/
theorem slotKindWord_eq_part : slotKindWord k (bits w 24 4) (dirOfBit (bit w 23)) = part w 23 9 := by
  simp [slotKindWord, ← kind, field_bits, field_ofBool_bit, part_or_part]

theorem slotKindWord_of_slotKindOnly (fits : slotKindOnly w payload = true) :
    RawInstr.link (slotKindWord k (bits w 24 4) (dirOfBit (bit w 23))) [] = .link w payload := by
  simp only [slotKindOnly, Bool.and_eq_true, beq_iff_eq, List.isEmpty_iff] at fits
  obtain ⟨zero, rfl⟩ := fits
  rw [slotKindWord_eq_part kind, part_of_zero_below w zero rfl, part_whole]

theorem busKindWord_of_busKindOnly (fits : busKindOnly w payload = true) :
    RawInstr.link (field 28 k) [] = .link w payload := by
  simp only [busKindOnly, Bool.and_eq_true, beq_iff_eq, List.isEmpty_iff] at fits
  obtain ⟨zero, rfl⟩ := fits
  rw [← kind, field_bits, part_of_zero_below w zero rfl, part_whole]

end

/-- Every link event word that decodes is the encoding of its event (R122 to R124). -/
theorem encode_of_decodeLink {w : Word} {payload : List Byte} {i : Instr} (base : Word) (h : decodeLink w payload = some i) :
    encode base i = .link w payload := by
  have hlt : (bits w 28 4).toNat < 16 := (bits w 28 4).isLt
  unfold decodeLink at h
  have top := part_kind w
  generalize kind : (bits w 28 4).toNat = k at *
  split at h
  case h_1 | h_14 | h_15 =>
    cases h
    simp [encode, top, field_bits, part_or_part, part_whole]
  case h_16 =>
    have last : k = 15 := by
      simp only [imp_false] at *
      omega
    subst last
    cases h
    simp [encode, top, field_bits, part_or_part, part_whole]
  case h_2 | h_4 | h_5 | h_6 =>
    obtain ⟨fits, rfl⟩ := whenFits_eq_some.1 h
    exact slotKindWord_of_slotKindOnly (BitVec.eq_of_toNat_eq kind) fits
  case h_8 | h_9 | h_11 | h_12 | h_13 =>
    obtain ⟨fits, rfl⟩ := whenFits_eq_some.1 h
    exact busKindWord_of_busKindOnly (BitVec.eq_of_toNat_eq kind) fits
  case h_3 =>
    obtain ⟨fits, rfl⟩ := whenFits_eq_some.1 h
    simp only [Bool.and_eq_true, beq_iff_eq] at fits
    obtain ⟨low, -⟩ := fits
    have word := slotKindWord_eq_part (k := 2#4) (BitVec.eq_of_toNat_eq kind)
    have lowest : part w 11 21 = part w 0 32 := part_of_zero_below w low rfl
    simp [encode, word, flag_bit, field_bits, part_or_part, lowest, part_whole]
  case h_7 =>
    obtain ⟨fits, rfl⟩ := whenFits_eq_some.1 h
    simp only [Bool.and_eq_true, beq_iff_eq] at fits
    obtain ⟨⟨⟨low, pid⟩, -⟩, -⟩ := fits
    have word := slotKindWord_eq_part (k := 6#4) (BitVec.eq_of_toNat_eq kind)
    have noPid : part w 23 9 = part w 22 10 := part_of_zero_below w pid rfl
    have lowest : part w 11 21 = part w 0 32 := part_of_zero_below w low rfl
    simp [encode, word, noPid, field_bits, part_or_part, lowest, part_whole]
  case h_10 =>
    obtain ⟨fits, rfl⟩ := whenFits_eq_some.1 h
    simp only [Bool.and_eq_true, beq_iff_eq, List.isEmpty_iff] at fits
    obtain ⟨⟨low, middle⟩, rfl⟩ := fits
    have kindOnly : part w 28 4 = part w 11 21 := part_of_zero_below w middle rfl
    have lowest : part w 10 22 = part w 0 32 := part_of_zero_below w low rfl
    simp [encode, top, kindOnly, flag_bit, part_or_part, lowest, part_whole]

/-! ### Register accesses -/

/-- A multiple of 4 inside the window (R83). -/
abbrev WindowOffset (o : Nat) : Prop := o % 4 = 0 ∧ o < 64

section
variable {o : Nat}

/-- An access at an offset of the window, wherever the window lies (R88). -/
theorem legalAccess_at (base : Word) (h : WindowOffset o) : LegalAccess base (base + BitVec.ofNat 32 o) 32 := by
  obtain ⟨aligned, inside⟩ := h
  have hlt : (BitVec.ofNat 32 o).toNat = o := Nat.mod_eq_of_lt (by omega)
  rw [LegalAccess, Laws.TableRow.offset_eq, hlt]
  exact ⟨rfl, aligned, inside⟩

theorem windowOffset_at (base : Word) (h : WindowOffset o) : windowOffset base (base + BitVec.ofNat 32 o) = o := by
  obtain ⟨-, inside⟩ := h
  rw [windowOffset, Laws.TableRow.offset_eq, BitVec.toNat_ofNat, Nat.mod_eq_of_lt (by omega)]

theorem decode_read_at (base : Word) (h : WindowOffset o) :
    decode base (.read (base + BitVec.ofNat 32 o) 32) = .ok (regInstr o .read) := by
  rw [decode_read_of_legal (legalAccess_at base h), windowOffset_at base h]

theorem decode_write_at (base v : Word) (h : WindowOffset o) :
    decode base (.write (base + BitVec.ofNat 32 o) 32 v) = .ok (writeInstr o v) := by
  rw [decode_write_of_legal (legalAccess_at base h), windowOffset_at base h]

theorem decode_encodeCommand (base w : Word) : decode base (encodeCommand base w) = .ok (decodeCommand w) :=
  decode_write_at (o := 0x10) base w (by decide)

/-- A register access but a write of CMD is presented at its register's offset, and decodes there (R30, R38). -/
theorem decode_encodeReg (base : Word) (a : RegAccess) (h : WindowOffset o) (notCmd : o = 0x10 → a = .read) :
    decode base (encodeReg base (BitVec.ofNat 32 o) a) = .ok (regInstr o a) := by
  cases a with
  | read => exact decode_read_at base h
  | write v =>
    rw [encodeReg, decode_write_at base v h, writeInstr, if_neg fun cmd => by cases notCmd cmd]

/-- The register at an offset of the window is presented at that offset (R30). -/
theorem encode_regInstr (base : Word) (a : RegAccess) (h : WindowOffset o) :
    encode base (regInstr o a) = encodeReg base (BitVec.ofNat 32 o) a := by
  obtain ⟨aligned, inside⟩ := h
  obtain ⟨k, rfl⟩ := Nat.dvd_of_mod_eq_zero aligned
  have hk : k < 16 := by omega
  interval_cases k <;> rfl

/-- A legal access is at its own offset from the base. -/
theorem base_add_windowOffset (base addr : Word) : base + BitVec.ofNat 32 (windowOffset base addr) = addr := by
  rw [windowOffset, BitVec.ofNat_toNat, BitVec.setWidth_eq, BitVec.add_comm, BitVec.sub_add_cancel]

end

end Sys2Proof

open Sys2Proof Sys2Proof.Machine Sys2Proof.Claims

/-- Settles O2: a command is a write of its word, a link event its own word, and a register access stands at its offset. -/
theorem decodeOfEncode : Obligations.DecodeOfEncode := by
  intro base i fits
  by_cases command : isCommand i = true
  · obtain ⟨w, presented, decoded⟩ := decodeCommand_encode command base
    rw [presented, decode_encodeCommand, decoded]
  by_cases event : isLink i = true
  · obtain ⟨w, payload, presented, decoded⟩ := decodeLink_encode event fits base
    rw [presented, decode_link_eq_ok.2 decoded]
  cases i with
  | regCmd a =>
    cases a with
    | read => exact decode_encodeReg (o := 0x10) base _ (by decide) (fun _ => rfl)
    | write => cases fits
  | regCtrl a => exact decode_encodeReg (o := 0x00) base a (by decide) nofun
  | regIntEn a => exact decode_encodeReg (o := 0x04) base a (by decide) nofun
  | regNakLimit a => exact decode_encodeReg (o := 0x08) base a (by decide) nofun
  | regArg0 a => exact decode_encodeReg (o := 0x0C) base a (by decide) nofun
  | regResult a => exact decode_encodeReg (o := 0x14) base a (by decide) nofun
  | regResult2 a => exact decode_encodeReg (o := 0x18) base a (by decide) nofun
  | regEvqStatus a => exact decode_encodeReg (o := 0x1C) base a (by decide) nofun
  | regEvqPop a => exact decode_encodeReg (o := 0x20) base a (by decide) nofun
  | regEvqPeek a => exact decode_encodeReg (o := 0x24) base a (by decide) nofun
  | regParam0 a => exact decode_encodeReg (o := 0x28) base a (by decide) nofun
  | regParam1 a => exact decode_encodeReg (o := 0x2C) base a (by decide) nofun
  | regParam2 a => exact decode_encodeReg (o := 0x30) base a (by decide) nofun
  | regReserved34 a => exact decode_encodeReg (o := 0x34) base a (by decide) nofun
  | regReserved38 a => exact decode_encodeReg (o := 0x38) base a (by decide) nofun
  | regReserved3C a => exact decode_encodeReg (o := 0x3C) base a (by decide) nofun
  | _ => simp [isCommand, isLink] at command event

/-- Settles O3: an access of the window is at its offset from the base, where its register is presented; a word that decodes is
its parts put together again. -/
theorem encodeOfDecode : Obligations.EncodeOfDecode := by
  intro base r i decoded
  cases r with
  | link w payload => exact encode_of_decodeLink base (decode_link_eq_ok.1 decoded)
  | read addr width =>
    by_cases legal : LegalAccess base addr width
    · cases (decode_read_of_legal legal).symm.trans decoded
      obtain ⟨rfl, inside⟩ := legal
      rw [encode_regInstr (o := windowOffset base addr) base .read inside, encodeReg, base_add_windowOffset]
    · cases (decode_read_of_not_legal legal).symm.trans decoded
  | write addr width v =>
    by_cases legal : LegalAccess base addr width
    · cases (decode_write_of_legal legal).symm.trans decoded
      obtain ⟨rfl, inside⟩ := legal
      have presented : encode base (writeInstr (windowOffset base addr) v) =
          encodeReg base (BitVec.ofNat 32 (windowOffset base addr)) (.write v) := by
        rw [writeInstr]
        split
        next cmd => rw [encode_decodeCommand, cmd]; rfl
        next => exact encode_regInstr base (.write v) inside
      rw [presented, encodeReg, base_add_windowOffset]
    · cases (decode_write_of_not_legal legal).symm.trans decoded

/-- Settles O5: each is the read at an offset of the window, and a write at the offset of CMD. -/
theorem registerMap : Obligations.RegisterMap := by
  intro base
  have atBase : decode base (.read base 32) = .ok (.regCtrl .read) := by
    simpa [regInstr] using decode_read_at (o := 0x00) base (by decide)
  refine ⟨atBase, ?_, ?_, ?_, ?_, ?_, ?_, ?_, ?_, ?_, ?_, ?_, ?_, ?_, ?_, ?_, fun w => decode_encodeCommand base w⟩ <;>
    exact decode_read_at base (by decide)

end

