-- ==== Sys2Proof/Proofs/Outcomes.lean ====
section
/-! SUPPORT. What each instruction can answer: a command is rejected or accepted under the conditions of its rule (R321, R322), a
link event is taken under its enabling condition (R125), and a register access reads or writes. Later proofs go through these
lemmas and do not walk through the meanings' branches again. -/

namespace Sys2Proof.Machine

open Sys2Proof.Safety Sys2Proof.Claims

/-! ### A command is rejected or accepted -/

/-- A command was rejected: RESULT and RESULT2 hold the status, which is not OK, and nothing else changed (R321). -/
def Rejected (s t : State) : Prop := ∃ code : Status, code ≠ .ok ∧ t = reject code s

/-- Where a meaning answers a next state, the command was rejected or the state is one of `P`. -/
def Accepts (s : State) (r : Result) (P : State → Prop) : Prop := ∀ t, r = .next t → Rejected s t ∨ P t

namespace Accepts

section
variable {s : State} {r : Result} {P : State → Prop}

theorem rejects {code : Status} (notOk : code ≠ .ok) : Accepts s (.next (reject code s)) P := by
  rintro t ⟨⟩
  exact .inl ⟨code, notOk, rfl⟩

theorem answers {u : State} (h : P u) : Accepts s (.next u) P := by
  rintro t ⟨⟩
  exact .inr h

/-- A check that the command passes before all that follows. -/
theorem guard {c : Prop} [Decidable c] {code : Status} (passes : ¬ c → Accepts s r P) (notOk : code ≠ .ok := by decide) :
    Accepts s (if c then .next (reject code s) else r) P := by
  split
  · exact rejects notOk
  · exact passes ‹_›

end

end Accepts

/-! ### The checks, passed -/

section
variable {s : State}

theorem rsv_passed {n : Nat} {z : BitVec n} (h : ¬ rsv z = true) : z = 0 := by simpa [rsv] using h

theorem rsv2_passed {n m : Nat} {z : BitVec n} {z2 : BitVec m} (h : ¬ rsv2 z z2 = true) : z = 0 ∧ z2 = 0 := by
  simpa [rsv2, rsv] using h

theorem initDone_passed (h : ¬ (!s.initDone) = true) : s.initDone = true := by simpa using h

theorem handleOk_passed {h : Nat} {d : Dir} (ok : ¬ (!handleOk h d s) = true) : handleOk h d s = true := by simpa using ok

theorem room_passed {n : Nat} (h : ¬ (!room n s) = true) : s.evq.length + n ≤ s.cfg.evqDepth := by simpa [room] using h

theorem handleOk_iff {h : Nat} {d : Dir} :
    handleOk h d s = true ↔ h < s.cfg.epMax ∧ (entry h s).used = true ∧ (half h d s).isOpen = true := by
  simp [handleOk, and_assoc]

end

/-! ### Statuses of the searches -/

section
variable {s : State}

/-- An entry that SelectEntry gives holds the identity beside a free half, or is the lowest free one (R152). -/
theorem selectEntry_ok {type : XferType} {dev : BitVec 7} {dir : Dir} {num : BitVec 4} {h : Nat}
    (e : selectEntry type dev dir num s = .ok h) : Fresh h dev num s ∨ Joins h type dev dir num s := by
  unfold selectEntry at e
  split at e
  next h' found =>
    obtain ⟨hh, identity⟩ := findEntry_some found
    split at e
    · cases e
    split at e
    · cases e
    split at e
    · cases e
    next notCtrl free noCtrl =>
      cases e
      exact .inr ⟨hh, identity, notCtrl, by simpa using free, by simpa using noCtrl⟩
  next notFound =>
    split at e
    next h' free =>
      cases e
      obtain ⟨hfree, hmem, hbefore⟩ := List.find?_range_eq_some.1 free
      refine .inl ⟨by simpa using hmem, by simpa using hfree, fun h' lt => by simpa using hbefore h' lt,
        fun h' hh' => findEntry_none notFound hh'⟩
    · cases e

/-- SelectEntry fails with EXISTING or REGFULL (R152). -/
theorem selectEntry_error {type : XferType} {dev : BitVec 7} {dir : Dir} {num : BitVec 4} {x : Status}
    (e : selectEntry type dev dir num s = .error x) : x ≠ .ok := by
  unfold selectEntry at e
  split at e
  · split at e
    · cases e; decide
    split at e
    · cases e; decide
    split at e <;> cases e
    decide
  · split at e <;> cases e
    decide

theorem reserveHalf_error_ne_ok {h mps : Nat} {dev : BitVec 7} {num : BitVec 4} {d : Dir} {x : Status}
    (e : reserveHalf h dev num mps d s = .error x) : x ≠ .ok := by
  rcases reserveHalf_error e with rfl | rfl <;> decide

theorem reserve_error {h mps : Nat} {dev : BitVec 7} {num : BitVec 4} {ds : List Dir} {x : Status} {s : State}
    (e : reserve h dev num mps ds s = .error x) : x ≠ .ok := by
  induction ds generalizing s with
  | nil => cases e
  | cons d ds ih =>
    simp only [reserve] at e
    split at e
    next failed =>
      cases e
      exact reserveHalf_error_ne_ok failed
    · exact ih e

theorem reserveAtOpen_error {h mps : Nat} {dev : BitVec 7} {num : BitVec 4} {ds : List Dir} {x : Status}
    (e : reserveAtOpen h dev num mps ds s = .error x) : x ≠ .ok := by
  unfold reserveAtOpen at e
  split at e
  · exact reserve_error e
  · cases e

theorem startHost_error {h : Nat} {d : Dir} {x : Status} (e : startHost h d s = .error x) : x ≠ .ok := by
  unfold startHost at e
  split at e
  · exact reserveHalf_error_ne_ok e
  · cases e

end

/-! ### The commands -/

section
variable (s : State)

theorem init_accepts (z : BitVec 27) (role : Role) :
    Accepts s (exec (.init z role) s) (fun t => z = 0 ∧ s.initDone = false ∧ t = accept (initRole role s)) :=
  .guard fun noRsv => .guard fun first => .answers ⟨rsv_passed noRsv, by simpa using first, rfl⟩

/-- What an accepted EP_OPEN leaves: the entry selected, the reservation made, the halves opened (R151 to R153). -/
def Opened (type : XferType) (mps : BitVec 11) (dev : BitVec 7) (dir : Dir) (num : BitVec 4) (s t : State) : Prop :=
  ∃ h u, (Fresh h dev num s ∨ Joins h type dev dir num s) ∧
    reserveAtOpen h dev num mps.toNat (halvesOf type dir) s = .ok u ∧
    t = acceptHandle h (openHalves h type mps (halvesOf type dir) (claimEntry h dev num u))

theorem epOpen_accepts (type : XferType) (mps : BitVec 11) (dev : BitVec 7) (dir : Dir) (z : BitVec 3) (num : BitVec 4) :
    Accepts s (exec (.epOpen type mps dev dir z num) s)
      (fun t => s.initDone = true ∧ epOpenBadArg type mps dev z s = false ∧ Opened type mps dev dir num s t) := by
  refine .guard fun init => .guard fun args => ?_
  cases selected : selectEntry type dev dir num s with
  | error x => exact .rejects (selectEntry_error selected)
  | ok h =>
    cases reserved : reserveAtOpen h dev num mps.toNat (halvesOf type dir) s with
    | error x =>
      simp only [reserved]
      exact .rejects (reserveAtOpen_error reserved)
    | ok u =>
      simp only [reserved]
      exact .answers ⟨initDone_passed init, by simpa using args, h, u, selectEntry_ok selected, reserved, rfl⟩

theorem epClose_accepts (z : BitVec 19) (dir : Dir) (handle : BitVec 8) :
    Accepts s (exec (.epClose z dir handle) s) (fun t => z = 0 ∧ CloseReady dir handle.toNat s ∧
      t = accept (closeHalves handle.toNat (closing dir handle.toNat s) s)) :=
  .guard fun init => .guard fun noRsv => .guard fun ok => .guard fun hroom =>
    .answers ⟨rsv_passed noRsv, ⟨initDone_passed init, handleOk_passed ok, room_passed hroom⟩, rfl⟩

theorem epFind_accepts (z : BitVec 13) (dev : BitVec 7) (dir : Dir) (z2 : BitVec 3) (num : BitVec 4) :
    Accepts s (exec (.epFind z dev dir z2 num) s) (fun t => ∃ h, findOpen dev num dir s = some h ∧ t = acceptHandle h s) := by
  refine .guard fun init => .guard fun noRsv => ?_
  cases found : findOpen dev num dir s with
  | none => exact .rejects (by decide)
  | some h => exact .answers ⟨h, rfl, rfl⟩

/-- What an accepted XFER_SUBMIT leaves: the slot bound, the first packet armed, the transfer in flight (R201 to R203). -/
def Submitted (setup zlp : Bool) (len : BitVec 16) (dir : Dir) (h : Nat) (s t : State) : Prop :=
  ∃ u v, startHost h dir s = .ok u ∧ arm h dir (loadTransfer setup zlp len h dir (clearHaltedIf setup h u)) = .next v ∧
    t = accept (setXs h dir .inflight v)

theorem setupMisuse_passed {setup zlp : Bool} {len : BitVec 16} {dir : Dir} {x : Half}
    (h : ¬ setupMisuse setup zlp len dir x = true) (isSetup : setup = true) :
    x.type = .ctrl ∧ dir = .out ∧ len.toNat = 8 ∧ zlp = false := by
  simpa [setupMisuse_iff, isSetup] using h

theorem pastTop_passed {len : BitVec 16} {s : State} (h : ¬ pastTop len s = true) :
    len.toNat = 0 ∨ s.arg0.toNat + len.toNat ≤ 2 ^ 32 := by
  rw [pastTop_iff, decide_eq_true_iff] at h
  omega

theorem xferSubmit_accepts (setup zlp : Bool) (len : BitVec 16) (z : BitVec 1) (dir : Dir) (handle : BitVec 8) :
    Accepts s (exec (.xferSubmit setup zlp len z dir handle) s)
      (fun t => SubmitOk setup zlp len dir handle.toNat s ∧ Submitted setup zlp len dir handle.toNat s t) := by
  refine .guard fun init => .guard fun noRsv => .guard fun ok => .guard fun idle => .guard fun misuse => .guard fun noZlp =>
    .guard fun top => .guard fun notHalted => ?_
  cases started : startHost handle.toNat dir s with
  | error x => exact .rejects (startHost_error started)
  | ok u =>
    intro t answer
    obtain ⟨v, armed, done⟩ := andThen_next.1 answer
    refine .inr ⟨⟨initDone_passed init, handleOk_passed ok, not_not.1 idle, setupMisuse_passed misuse, fun hz => ?_,
      pastTop_passed top, fun halted => ?_⟩, u, v, started, armed, (Host.Outcome.next.inj done).symm⟩
    · simpa [hz] using noZlp
    · simpa [halted] using notHalted

theorem xferAbort_accepts (z : BitVec 19) (dir : Dir) (handle : BitVec 8) :
    Accepts s (exec (.xferAbort z dir handle) s) (fun t =>
      z = 0 ∧ s.initDone = true ∧ handleOk handle.toNat dir s = true ∧
      (((half handle.toNat dir s).xs = .idle ∧ t = accept s) ∨
        (AbortReady dir handle.toNat s ∧ t = accept (abortHalf handle.toNat dir s)))) := by
  refine .guard fun init => .guard fun noRsv => .guard fun ok => ?_
  split
  next idle => exact .answers ⟨rsv_passed noRsv, initDone_passed init, handleOk_passed ok, .inl ⟨idle, rfl⟩⟩
  next busy =>
    exact .guard fun hroom => .answers ⟨rsv_passed noRsv, initDone_passed init, handleOk_passed ok,
      .inr ⟨⟨initDone_passed init, handleOk_passed ok, busy, room_passed hroom⟩, rfl⟩⟩

theorem epClearStall_accepts (z : BitVec 19) (dir : Dir) (handle : BitVec 8) :
    Accepts s (exec (.epClearStall z dir handle) s) (fun t => z = 0 ∧ ClearStallReady dir handle.toNat s ∧
      t = accept (clearStall handle.toNat (halvesOf (half handle.toNat dir s).type dir) s)) := by
  refine .guard fun init => .guard fun noRsv => .guard fun ok => .guard fun notBusy => .answers ⟨rsv_passed noRsv,
    ⟨initDone_passed init, handleOk_passed ok, ?_⟩, rfl⟩
  simpa [busyIn_ne_zero_iff] using notBusy

theorem devClose_accepts (z : BitVec 13) (dev : BitVec 7) (z2 : BitVec 8) :
    Accepts s (exec (.devClose z dev z2) s) (fun t => z = 0 ∧ z2 = 0 ∧ DevCloseReady dev s ∧ t = accept (closeDevice dev s)) := by
  refine .guard fun init => .guard fun noRsv => .guard fun host => .guard fun hroom => .answers ⟨(rsv2_passed noRsv).1,
    (rsv2_passed noRsv).2, ⟨initDone_passed init, not_not.1 host, ?_⟩, rfl⟩
  rw [abortWords_length]
  exact room_passed hroom

theorem epQuery_accepts (z : BitVec 19) (dir : Dir) (handle : BitVec 8) :
    Accepts s (exec (.epQuery z dir handle) s) (fun t => s.initDone = true ∧ t = { s with
      result := queryWord (half handle.toNat dir s), result2 := queryWord2 (half handle.toNat dir s) }) :=
  .guard fun init => .guard fun noRsv => .guard fun inside => .answers ⟨initDone_passed init, rfl⟩

end

/-! ### The link events -/

section
variable {s t : State} {c : BitVec 4} {d : Dir}

theorem linkTxAck_next (h : exec (.linkTxAck c d) s = .next t) :
    SlotReady c d s ∧ isSend s.role d = true ∧ ackPacket c d s = .next t := by
  obtain ⟨enabled, answer⟩ := whenEnabled_next.1 (show execLinkTxAck c d s = .next t from h)
  rw [Bool.and_eq_true, slotEnabled_iff] at enabled
  exact ⟨enabled.1, enabled.2, answer⟩

theorem rxEnabled_iff : rxEnabled c d s = true ↔
    SlotReady c d s ∧ isSend s.role d = false ∧ ¬ (s.role = .device ∧ (slotHalf c d s).setup = true) := by
  simp [rxEnabled, slotEnabled_iff, and_assoc, imp_iff_not_or]

theorem linkRxData_next {pid : Bool} {n : BitVec 11} {data : List Byte} (h : exec (.linkRxData c d pid n data) s = .next t) :
    RxReady c d n data s ∧ receivePacket c d pid data s = .next t := by
  change execLinkRxData c d pid n data s = .next t at h
  unfold execLinkRxData at h
  split at h
  · cases h
  next fits =>
    obtain ⟨enabled, answer⟩ := whenEnabled_next.1 h
    obtain ⟨ready, receives, noSetup⟩ := rxEnabled_iff.1 enabled
    exact ⟨⟨ready, receives, noSetup, payloadFits_iff.1 (by simpa using fits)⟩, answer⟩

theorem linkSetupRx_next {n : BitVec 11} {data : List Byte} (h : exec (.linkSetupRx c d n data) s = .next t) :
    d = .out ∧ n = 8#11 ∧ SetupRxReady c data s ∧ acceptSetup c data s = .next t := by
  change execLinkSetupRx c d n data s = .next t at h
  unfold execLinkSetupRx at h
  split at h
  · cases h
  next fits =>
    obtain ⟨enabled, answer⟩ := whenEnabled_next.1 h
    simp only [setupEnabled, Bool.and_eq_true, slotEnabled_iff, beq_iff_eq] at enabled
    obtain ⟨⟨⟨ready, device⟩, rfl⟩, setup⟩ := enabled
    simp only [Bool.not_eq_true, Bool.not_eq_false', Bool.and_eq_true, beq_iff_eq, payloadFits_iff] at fits
    obtain ⟨rfl, len⟩ := fits
    exact ⟨rfl, rfl, ⟨ready, device, setup, len⟩, answer⟩

theorem linkNak_next (h : exec (.linkNak c d) s = .next t) : RetryReady c d s ∧ t = nakPacket c d s := by
  obtain ⟨enabled, answer⟩ := whenEnabled_next.1 (show execLinkNak c d s = .next t from h)
  exact ⟨retryEnabled_iff.1 enabled, (Host.Outcome.next.inj answer).symm⟩

theorem linkStall_next (h : exec (.linkStall c d) s = .next t) : RetryReady c d s ∧ t = stallPacket c d s := by
  obtain ⟨enabled, answer⟩ := whenEnabled_next.1 (show execLinkStall c d s = .next t from h)
  exact ⟨retryEnabled_iff.1 enabled, (Host.Outcome.next.inj answer).symm⟩

theorem linkXerr_next (h : exec (.linkXerr c d) s = .next t) : RetryReady c d s ∧ t = xErr c d (recordTx c d .xerr s) := by
  obtain ⟨enabled, answer⟩ := whenEnabled_next.1 (show execLinkXerr c d s = .next t from h)
  exact ⟨retryEnabled_iff.1 enabled, (Host.Outcome.next.inj answer).symm⟩

/-- The stored bits of INT_EN begin at bit 1 (R34, R35). -/
theorem enabled_eq (e : EventClass) (s : State) : enabled e s = s.intEn.getLsbD (e.bit - 1) := by
  cases e <;> simp [enabled, intEnWord, EventClass.bit]

/-- Room for the word of a class, where one is due (R282). -/
theorem roomIf_iff {e : EventClass} : roomIf e s = true ↔ RoomFor (e.bit - 1) s := by
  rw [roomIf, enabled_eq, RoomFor]
  cases s.intEn.getLsbD (e.bit - 1) <;> simp [room]

theorem linkFrame_next (h : exec .linkFrame s = .next t) : FrameReady s ∧ t = pushIf .sof sofWord (frameService s) := by
  obtain ⟨enabled, answer⟩ := whenEnabled_next.1 (show execLinkFrame s = .next t from h)
  rw [Bool.and_eq_true, roomIf_iff] at enabled
  exact ⟨enabled, (Host.Outcome.next.inj answer).symm⟩

/-- The words a bus reset needs room for are those it pushes (R282, R290). -/
theorem busResetWords_eq (s : State) : busResetWords s = (busResetPushes s).length := by
  rw [busResetWords, busResetPushes, List.length_append, abortWords_length, enabled_eq]
  congr 1
  simp only [EventClass.bit]
  split <;> simp_all

theorem busResetReady_iff :
    (s.initDone && s.role == .device && room (busResetWords s) s) = true ↔ BusResetReady s := by
  simp [room, busResetWords_eq, BusResetReady, and_assoc]

theorem linkBusReset_next (h : exec .linkBusReset s = .next t) :
    BusResetReady s ∧ t = pushIf .busReset busResetWord (closeAll s) := by
  obtain ⟨enabled, answer⟩ := whenEnabled_next.1 (show execLinkBusReset s = .next t from h)
  exact ⟨busResetReady_iff.1 enabled, (Host.Outcome.next.inj answer).symm⟩

/-- A bus event that only reports (R292 to R294). -/
def Reported (e : EventClass) (w : Word) (s t : State) : Prop := RoomFor (e.bit - 1) s ∧ t = pushIf e w s

theorem linkAttach_next {speed : Bool} (h : exec (.linkAttach speed) s = .next t) :
    s.role = .host ∧ Reported .attach (attachedWord speed) s t := by
  obtain ⟨enabled, answer⟩ := whenEnabled_next.1 (show execLinkAttach speed s = .next t from h)
  simp only [Bool.and_eq_true, roomIf_iff, beq_iff_eq] at enabled
  exact ⟨enabled.1.2, enabled.2, (Host.Outcome.next.inj answer).symm⟩

theorem linkDetach_next (h : exec .linkDetach s = .next t) : s.role = .host ∧ Reported .remove removedWord s t := by
  obtain ⟨enabled, answer⟩ := whenEnabled_next.1 (show execLinkDetach s = .next t from h)
  simp only [Bool.and_eq_true, roomIf_iff, beq_iff_eq] at enabled
  exact ⟨enabled.1.2, enabled.2, (Host.Outcome.next.inj answer).symm⟩

theorem linkSuspend_next (h : exec .linkSuspend s = .next t) : Reported .suspend suspendWord s t := by
  obtain ⟨enabled, answer⟩ := whenEnabled_next.1 (show execLinkSuspend s = .next t from h)
  simp only [Bool.and_eq_true, roomIf_iff] at enabled
  exact ⟨enabled.2, (Host.Outcome.next.inj answer).symm⟩

theorem linkResume_next (h : exec .linkResume s = .next t) : Reported .resume resumeWord s t := by
  obtain ⟨enabled, answer⟩ := whenEnabled_next.1 (show execLinkResume s = .next t from h)
  simp only [Bool.and_eq_true, roomIf_iff] at enabled
  exact ⟨enabled.2, (Host.Outcome.next.inj answer).symm⟩

end

/-! ### Every instruction -/

theorem underlying_of_isCommand {i : Instr} (command : isCommand i = true) : underlying i = i := by
  cases i with
  | regCmd a => cases command
  | _ => rfl

/-- A write of CMD is the command its value encodes (R38). -/
theorem exec_underlying (i : Instr) (s : State) : exec i s = exec (underlying i) s := by
  cases i with
  | regCmd a =>
    cases a with
    | read => rfl
    | write w => exact exec_regCmd_write w s
  | _ => rfl

theorem underlying_of_isLink {i : Instr} (event : isLink i = true) : underlying i = i := by
  cases i with
  | regCmd a => cases event
  | _ => rfl

/-- A register access but a read of EVQ_POP: it writes the register's stored bits or returns a word, and no more (R84, R285). -/
def Accessed (s t : State) : Prop :=
  ∃ gie intEn nakLimit arg0 rdata, t = { s with gie := gie, intEn := intEn, nakLimit := nakLimit, arg0 := arg0, rdata := rdata }

theorem accessed_returnRead (v : Word) (s : State) : Accessed s (returnRead v s) := ⟨_, _, _, _, v, rfl⟩

theorem accessed_readOnly {v : Word} {a : RegAccess} {s t : State} (h : readOnly v a s = .next t) : Accessed s t := by
  cases a with
  | read => cases h; exact accessed_returnRead v s
  | write w => cases h; exact ⟨_, _, _, _, _, rfl⟩

/-- What runs when an instruction answers a next state: a command, written to CMD or not; a link event; a read of EVQ_POP; or
another access of a register. -/
theorem exec_next_cases {i : Instr} {s t : State} (h : exec i s = .next t) :
    (isCommand (underlying i) = true ∧ exec (underlying i) s = .next t) ∨ isLink i = true ∨
    (i = .regEvqPop .read ∧ t = returnRead (evqHead s) { s with evq := s.evq.tail }) ∨
    (isCommand (underlying i) = false ∧ Accessed s t) := by
  by_cases command : isCommand i = true
  · rw [underlying_of_isCommand command]
    exact .inl ⟨command, h⟩
  by_cases event : isLink i = true
  · exact .inr (.inl event)
  cases i with
  | regCmd a =>
    cases a with
    | read => cases h; exact .inr (.inr (.inr ⟨rfl, accessed_returnRead 0 s⟩))
    | write w => exact .inl ⟨isCommand_decodeCommand w, exec_regCmd_write w s ▸ h⟩
  | regEvqPop a =>
    cases a with
    | read => cases h; exact .inr (.inr (.inl ⟨rfl, rfl⟩))
    | write v => cases h; exact .inr (.inr (.inr ⟨rfl, _, _, _, _, _, rfl⟩))
  | regCtrl a | regIntEn a | regNakLimit a | regArg0 a =>
    refine .inr (.inr (.inr ⟨rfl, ?_⟩))
    cases a <;> cases h <;> exact ⟨_, _, _, _, _, rfl⟩
  | regResult a | regResult2 a | regEvqStatus a | regEvqPeek a | regParam0 a | regParam1 a | regParam2 a | regReserved34 a
  | regReserved38 a | regReserved3C a => exact .inr (.inr (.inr ⟨rfl, accessed_readOnly h⟩))
  | _ => simp [isCommand, isLink] at command event

end Sys2Proof.Machine
end

