-- ==== Sys2Proof/Proofs/Frames.lean ====
section
/-! SUPPORT. What the operations and the instructions leave alone in every state, good or not: the registers of the window, the
sizes of the tables, the memories, the wire record, the events already in the FIFO, and the toggles (R31 to R40, R90, R221, R281). -/

namespace Sys2Proof.Machine

open Sys2Proof.Safety Sys2Proof.Claims

/-! ### What an operation keeps -/

/-- The registers of the window, the sizes of the tables and the events of the FIFO, which may have grown at its tail. -/
structure Kept (s t : State) : Prop where
  controls : SameControls s t
  results : SameResults s t
  sizes : t.eps.length = s.eps.length ∧ t.chans.length = s.chans.length
  events : s.evq <+: t.evq

/-- The same, and both memories and the wire record: an operation on the tables and the FIFO. -/
structure Quiet (s t : State) : Prop where
  kept : Kept s t
  mem : t.mem = s.mem
  arena : t.arena = s.arena
  wire : t.wire = s.wire

section
variable {s u t : State}

theorem Kept.refl (s : State) : Kept s s :=
  ⟨by simp [SameControls], by simp [SameResults], ⟨rfl, rfl⟩, List.prefix_rfl⟩

theorem Kept.trans (a : Kept s u) (b : Kept u t) : Kept s t := by
  obtain ⟨controlsA, resultsA, ⟨epsA, chansA⟩, eventsA⟩ := a
  obtain ⟨controlsB, resultsB, ⟨epsB, chansB⟩, eventsB⟩ := b
  exact ⟨by simp only [SameControls, controlsB, controlsA, and_self], by simp only [SameResults, resultsB, resultsA, and_self],
    ⟨epsB.trans epsA, chansB.trans chansA⟩, eventsA.trans eventsB⟩

theorem Quiet.refl (s : State) : Quiet s s := ⟨.refl s, rfl, rfl, rfl⟩

theorem Quiet.trans (a : Quiet s u) (b : Quiet u t) : Quiet s t :=
  ⟨a.kept.trans b.kept, b.mem.trans a.mem, b.arena.trans a.arena, b.wire.trans a.wire⟩

/-- Operations one after another, each quiet, are quiet. -/
theorem Quiet.foldl {α : Type} {f : State → α → State} (hf : ∀ u a, Quiet u (f u a)) (l : List α) (s : State) :
    Quiet s (l.foldl f s) := by
  induction l generalizing s with
  | nil => exact .refl s
  | cons a l ih => exact (hf s a).trans (ih _)

theorem Quiet.ite {c : Prop} [Decidable c] (a : Quiet s t) (b : Quiet s u) : Quiet s (if c then t else u) := by
  split
  · exact a
  · exact b

end

/-! ### The primitive operations -/

section
variable (s : State)

theorem quiet_setEntry (h : Nat) (e : Entry) : Quiet s (setEntry h e s) :=
  ⟨⟨by simp [SameControls], by simp [SameResults], by simp, List.prefix_rfl⟩, rfl, rfl, rfl⟩

theorem quiet_setChan (c : Nat) (x : Channel) : Quiet s (setChan c x s) :=
  ⟨⟨by simp [SameControls], by simp [SameResults], by simp, List.prefix_rfl⟩, rfl, rfl, rfl⟩

theorem quiet_push (w : Word) : Quiet s (push w s) :=
  ⟨⟨by simp [SameControls], by simp [SameResults], ⟨rfl, rfl⟩, List.prefix_append _ _⟩, rfl, rfl, rfl⟩

theorem kept_arenaWrite (off : Nat) (bytes : List Byte) : Kept s (arenaWrite off bytes s) :=
  ⟨by simp [SameControls], by simp [SameResults], ⟨rfl, rfl⟩, List.prefix_rfl⟩

theorem kept_memWrite (a : Nat) (bytes : List Byte) : Kept s (memWrite a bytes s) :=
  ⟨by simp [SameControls], by simp [SameResults], ⟨rfl, rfl⟩, List.prefix_rfl⟩

theorem kept_recordTx (c : BitVec 4) (d : Dir) (answer : TxAnswer) : Kept s (recordTx c d answer s) := by
  rw [recordTx_eq]
  exact ⟨by simp [SameControls], by simp [SameResults], ⟨rfl, rfl⟩, List.prefix_rfl⟩

theorem quiet_modHalf (h : Nat) (d : Dir) (f : Half → Half) : Quiet s (modHalf h d f s) := quiet_setEntry s h _

theorem quiet_modSlot (c : Nat) (d : Dir) (f : Slot → Slot) : Quiet s (modSlot c d f s) := quiet_setChan s c _

theorem quiet_setValid (c : Nat) (d : Dir) (v : Bool) : Quiet s (setValid c d v s) := quiet_modSlot s c d _

theorem quiet_setCnt (c : Nat) (d : Dir) (n : Nat) : Quiet s (setCnt c d n s) := quiet_modSlot s c d _

theorem quiet_setXs (h : Nat) (d : Dir) (x : XferState) : Quiet s (setXs h d x s) := quiet_modHalf s h d _

theorem quiet_advanceToggle (h : Nat) (d : Dir) : Quiet s (advanceToggle h d s) := quiet_modHalf s h d _

theorem quiet_countPacket (h : Nat) (d : Dir) (k : Nat) : Quiet s (countPacket h d k s) := quiet_modHalf s h d _

theorem quiet_loadTransfer (setup zlp : Bool) (len : BitVec 16) (h : Nat) (d : Dir) :
    Quiet s (loadTransfer setup zlp len h d s) := quiet_modHalf s h d _

/-! ### The shared operations -/

theorem quiet_bindSlot (c : Nat) (d : Dir) (h : Nat) (dev : BitVec 7) (num : BitVec 4) (o size : Nat) :
    Quiet s (bindSlot c d h dev num o size s) := (quiet_setChan s c _).trans (quiet_modHalf _ h d _)

theorem quiet_chRelease (c : Nat) (d : Dir) : Quiet s (chRelease c d s) :=
  ((quiet_modSlot s c d _).trans (quiet_modHalf _ _ d _)).trans (.ite (quiet_setChan _ c _) (.refl _))

theorem quiet_settle (h : Nat) (d : Dir) (o : XferOutcome) : Quiet s (settle h d o s) :=
  (((quiet_modSlot s _ d _).trans (quiet_modHalf _ h d _)).trans (.ite (quiet_chRelease _ _ d) (.refl _))).trans (quiet_push _ _)

theorem quiet_abortHalf (h : Nat) (d : Dir) : Quiet s (abortHalf h d s) :=
  (quiet_modSlot s _ d _).trans (quiet_settle _ h d _)

theorem quiet_forceToggles (h : Nat) : Quiet s (forceToggles h s) := (quiet_modHalf s h .out _).trans (quiet_modHalf _ h .inn _)

theorem quiet_armReceive (h : Nat) (d : Dir) : Quiet s (armReceive h d s) :=
  (quiet_setCnt s _ d _).trans (quiet_setValid _ _ d true)

theorem quiet_pushIf (e : EventClass) (w : Word) : Quiet s (pushIf e w s) := .ite (quiet_push s w) (.refl s)

theorem quiet_closeHalf (h : Nat) (d : Dir) : Quiet s (closeHalf h d s) :=
  (((Quiet.ite (.refl s) (quiet_abortHalf s h d)).trans (.ite (quiet_chRelease _ _ d) (.refl _))).trans
    (quiet_modHalf _ h d _)).trans (.ite (.refl _) (quiet_setEntry _ h _))

theorem quiet_closeHalves (h : Nat) (ds : List Dir) : Quiet s (closeHalves h ds s) :=
  .foldl (fun u d => quiet_closeHalf u h d) ds s

theorem quiet_closeEntry (h : Nat) : Quiet s (closeEntry h s) :=
  .foldl (fun u d => .ite (quiet_closeHalf u h d) (.refl u)) bothDirs s

theorem quiet_closeDevice (dev : BitVec 7) : Quiet s (closeDevice dev s) :=
  .foldl (fun u h => .ite (quiet_closeEntry u h) (.refl u)) _ s

theorem quiet_closeAll : Quiet s (closeAll s) := .foldl (fun u h => quiet_closeEntry u h) _ s

theorem quiet_clearStall (h : Nat) (ds : List Dir) : Quiet s (clearStall h ds s) :=
  .foldl (fun u d => quiet_modHalf u h d _) ds s

theorem quiet_openHalves (h : Nat) (type : XferType) (mps : BitVec 11) (ds : List Dir) :
    Quiet s (openHalves h type mps ds s) := .foldl (fun u d => quiet_modHalf u h d _) ds s

theorem quiet_frameHalf (h : Nat) (d : Dir) : Quiet s (frameHalf h d s) :=
  .ite (.ite (((quiet_modHalf s h d _).trans (quiet_modSlot _ _ d _)).trans (quiet_modHalf _ h d _)) (quiet_modHalf s h d _))
    (.refl s)

theorem quiet_frameService : Quiet s (frameService s) :=
  .ite (.foldl (fun u h => (quiet_frameHalf u h .out).trans (quiet_frameHalf _ h .inn)) _ s) (.refl s)

theorem quiet_xErr (c : BitVec 4) (d : Dir) : Quiet s (xErr c d s) :=
  .ite (((quiet_modHalf s _ d _).trans (quiet_modSlot _ _ d _)).trans (quiet_settle _ _ d _)) (quiet_modHalf s _ d _)

theorem quiet_clearHaltedIf (setup : Bool) (h : Nat) : Quiet s (clearHaltedIf setup h s) :=
  .ite ((quiet_modHalf s h .out _).trans (quiet_modHalf _ h .inn _)) (.refl s)

end

section
variable {s t : State}

theorem quiet_reserveHalf {h mps : Nat} {dev : BitVec 7} {num : BitVec 4} {d : Dir}
    (e : reserveHalf h dev num mps d s = .ok t) : Quiet s t := by
  obtain ⟨c, o, -, -, rfl⟩ := reserveHalf_ok e
  exact quiet_bindSlot s c d h dev num o _

theorem quiet_reserve {h mps : Nat} {dev : BitVec 7} {num : BitVec 4} {ds : List Dir} {s : State}
    (e : reserve h dev num mps ds s = .ok t) : Quiet s t := by
  induction ds generalizing s with
  | nil => cases e; exact .refl _
  | cons d ds ih =>
    simp only [reserve] at e
    split at e
    · cases e
    next u reserved => exact (quiet_reserveHalf reserved).trans (ih e)

theorem quiet_reserveAtOpen {h mps : Nat} {dev : BitVec 7} {num : BitVec 4} {ds : List Dir}
    (e : reserveAtOpen h dev num mps ds s = .ok t) : Quiet s t := by
  unfold reserveAtOpen at e
  split at e
  · exact quiet_reserve e
  · cases e; exact .refl _

theorem quiet_startHost {h : Nat} {d : Dir} (e : startHost h d s = .ok t) : Quiet s t := by
  unfold startHost at e
  split at e
  · exact quiet_reserveHalf e
  · cases e; exact .refl _

/-- Arming loads the arena at most (R210). -/
theorem kept_arm {h : Nat} {d : Dir} (e : arm h d s = .next t) : Kept s t ∧ t.mem = s.mem ∧ t.wire = s.wire := by
  obtain ⟨-, armed⟩ | ⟨-, rfl⟩ := arm_next e
  · obtain ⟨-, rfl⟩ := armSend_next armed
    have after := (quiet_setCnt (arenaWrite (slot (half h d s).ch.toNat d s).off.toNat
      (Memory.readBytes s.mem ((half h d s).buf.toNat + (half h d s).done.toNat) (nextLen (half h d s))) s)
      (half h d s).ch.toNat d (nextLen (half h d s))).trans (quiet_setValid _ (half h d s).ch.toNat d true)
    exact ⟨(kept_arenaWrite s _ _).trans after.kept, after.mem, after.wire⟩
  · have q := quiet_armReceive s h d
    exact ⟨q.kept, q.mem, q.wire⟩

end

/-! ### The commands -/

/-- A command's answer was put into RESULT and RESULT2, and nothing else changed (R39, R40, R321). -/
def Answered (s t : State) : Prop := ∃ r r2, t = { s with result := r, result2 := r2 }

theorem answered_of_rejected {s t : State} (h : Rejected s t) : Answered s t := by
  obtain ⟨code, -, rfl⟩ := h
  exact ⟨_, _, rfl⟩

theorem answered_accept (s : State) : Answered s (accept s) := ⟨_, _, rfl⟩

theorem answered_acceptHandle (h : Nat) (s : State) : Answered s (acceptHandle h s) := ⟨_, _, rfl⟩

section
variable {s t : State}

/-- A command but INIT and XFER_SUBMIT works on the tables and the FIFO, and answers (R31). -/
theorem command_quiet {i : Instr} (command : isCommand i = true) (notInit : isInit i = false) (notSubmit : isSubmit i = false)
    (h : exec i s = .next t) : ∃ u, Quiet s u ∧ Answered u t := by
  have rejected : Rejected s t → ∃ u, Quiet s u ∧ Answered u t := fun no => ⟨s, .refl s, answered_of_rejected no⟩
  cases i with
  | init => cases notInit
  | xferSubmit => cases notSubmit
  | epOpen type mps dev dir z num =>
    refine (epOpen_accepts s type mps dev dir z num t h).elim rejected ?_
    rintro ⟨-, -, k, u, -, reserved, rfl⟩
    exact ⟨_, ((quiet_reserveAtOpen reserved).trans (quiet_setEntry u k _)).trans (quiet_openHalves _ k type mps _),
      answered_acceptHandle k _⟩
  | epClose z dir handle =>
    refine (epClose_accepts s z dir handle t h).elim rejected ?_
    rintro ⟨-, -, rfl⟩
    exact ⟨_, quiet_closeHalves s _ _, answered_accept _⟩
  | epFind z dev dir z2 num =>
    refine (epFind_accepts s z dev dir z2 num t h).elim rejected ?_
    rintro ⟨k, -, rfl⟩
    exact ⟨s, .refl s, answered_acceptHandle k s⟩
  | xferAbort z dir handle =>
    refine (xferAbort_accepts s z dir handle t h).elim rejected ?_
    rintro ⟨-, -, -, ⟨-, rfl⟩ | ⟨-, rfl⟩⟩
    · exact ⟨s, .refl s, answered_accept s⟩
    · exact ⟨_, quiet_abortHalf s _ dir, answered_accept _⟩
  | epClearStall z dir handle =>
    refine (epClearStall_accepts s z dir handle t h).elim rejected ?_
    rintro ⟨-, -, rfl⟩
    exact ⟨_, quiet_clearStall s _ _, answered_accept _⟩
  | devClose z dev z2 =>
    refine (devClose_accepts s z dev z2 t h).elim rejected ?_
    rintro ⟨-, -, -, rfl⟩
    exact ⟨_, quiet_closeDevice s dev, answered_accept _⟩
  | epQuery z dir handle =>
    refine (epQuery_accepts s z dir handle t h).elim rejected ?_
    rintro ⟨-, rfl⟩
    exact ⟨s, .refl s, _, _, rfl⟩
  | illegal0 | illegalA | illegalB | illegalC | illegalD | illegalE | illegalF =>
    cases h
    exact ⟨s, .refl s, _, _, rfl⟩
  | _ => cases command

/-- An accepted XFER_SUBMIT changes the tables and the arena, and answers (R31, R201). -/
theorem submitted_kept {setup zlp : Bool} {len : BitVec 16} {dir : Dir} {h : Nat} (sub : Submitted setup zlp len dir h s t) :
    ∃ u, Kept s u ∧ u.mem = s.mem ∧ u.wire = s.wire ∧ Answered u t := by
  obtain ⟨u, v, started, armed, rfl⟩ := sub
  have before := ((quiet_startHost started).trans (quiet_clearHaltedIf u setup h)).trans
    (quiet_loadTransfer _ setup zlp len h dir)
  obtain ⟨kept, mem, wire⟩ := kept_arm armed
  have after := quiet_setXs v h dir .inflight
  exact ⟨_, (before.kept.trans kept).trans after.kept, (after.mem.trans mem).trans before.mem,
    (after.wire.trans wire).trans before.wire, answered_accept _⟩

/-- Every command but INIT keeps the window's registers but its answer, the memory and the wire record (R31). -/
theorem command_kept {i : Instr} (command : isCommand i = true) (notInit : isInit i = false) (h : exec i s = .next t) :
    ∃ u, Kept s u ∧ u.mem = s.mem ∧ u.wire = s.wire ∧ Answered u t := by
  cases submit : isSubmit i with
  | false =>
    obtain ⟨u, quiet, answered⟩ := command_quiet command notInit submit h
    exact ⟨u, quiet.kept, quiet.mem, quiet.wire, answered⟩
  | true =>
    cases i with
    | xferSubmit setup zlp len z dir handle =>
      refine (xferSubmit_accepts s setup zlp len z dir handle t h).elim (fun no => ?_) fun yes => submitted_kept yes.2
      exact ⟨s, .refl s, rfl, rfl, answered_of_rejected no⟩
    | _ => cases submit

/-- INIT answers, in the first case after it set the role, INIT_DONE and the event enables (R150). -/
theorem init_answered {z : BitVec 27} {role : Role} (h : exec (.init z role) s = .next t) :
    Answered s t ∨ Answered (initRole role s) t := by
  refine (init_accepts s z role t h).imp answered_of_rejected ?_
  rintro ⟨-, -, rfl⟩
  exact answered_accept _

/-- No command writes system memory (R90). -/
theorem command_mem {i : Instr} (command : isCommand i = true) (h : exec i s = .next t) : t.mem = s.mem := by
  have answered {u : State} (mem : u.mem = s.mem) : Answered u t → t.mem = s.mem := by
    rintro ⟨r, r2, rfl⟩
    exact mem
  cases init : isInit i with
  | false =>
    obtain ⟨u, -, mem, -, answer⟩ := command_kept command init h
    exact answered mem answer
  | true =>
    cases i with
    | init z role => exact (init_answered h).elim (answered rfl) (answered rfl)
    | _ => cases init

/-! ### The link events -/

variable {c : BitVec 4} {d : Dir}

theorem finishSend_next {h n : Nat} (e : finishSend h d n s = .next t) : t = settle h d .success s ∨ arm h d s = .next t := by
  rw [finishSend] at e
  split at e
  · exact .inl (Host.Outcome.next.inj e).symm
  · exact .inr e

theorem finishReceive_next {h n : Nat} (e : finishReceive h d n s = .next t) :
    t = settle h d .success s ∨ arm h d s = .next t := by
  rw [finishReceive] at e
  split at e
  · exact .inl (Host.Outcome.next.inj e).symm
  · exact .inr e

theorem kept_ackPacket (h : ackPacket c d s = .next t) : Kept s t ∧ t.mem = s.mem := by
  have counted := quiet_modHalf (recordTx c d .ack s) (slotHandle c d s) d (countedHalf (slot c.toNat d s).cnt.toNat)
  have kept : Kept s (countedState c d s) := (kept_recordTx s c d .ack).trans counted.kept
  have mem : (countedState c d s).mem = s.mem := by simp [countedState, attempted]
  have settles (u : State) (q : Quiet (countedState c d s) u) : Kept s u ∧ u.mem = s.mem :=
    ⟨kept.trans q.kept, q.mem.trans mem⟩
  have branches : ackPacket c d s = if (half (slotHandle c d s) d (countedState c d s)).setup then
      .next (settle (slotHandle c d s) d .success (forceToggles (slotHandle c d s) (countedState c d s)))
    else finishSend (slotHandle c d s) d (slot c.toNat d s).cnt.toNat (ackedState c d s) := rfl
  have acked : Quiet (countedState c d s) (ackedState c d s) := quiet_advanceToggle _ _ d
  rw [branches] at h
  split at h
  · cases h
    exact settles _ ((quiet_forceToggles _ _).trans (quiet_settle _ _ d _))
  · obtain rfl | h := finishSend_next h
    · exact settles _ (acked.trans (quiet_settle _ _ d _))
    · obtain ⟨armed, armedMem, -⟩ := kept_arm h
      exact ⟨(settles _ acked).1.trans armed, armedMem.trans (settles _ acked).2⟩

/-- Taking a packet ends in a settlement or in the slot armed again (R215). -/
theorem kept_finishReceive {h n : Nat} (e : finishReceive h d n s = .next t) : Kept s t ∧ t.mem = s.mem ∧ t.wire = s.wire := by
  obtain rfl | e := finishReceive_next e
  · have q := quiet_settle s h d .success
    exact ⟨q.kept, q.mem, q.wire⟩
  · exact kept_arm e

/-- An accepted packet is stored and counted before it ends (R216). -/
theorem acceptPacket_next {data : List Byte} (h : acceptPacket c d data s = .next t) :
    ∃ a k bytes, finishReceive (slotHandle c d s) d data.length (advanceToggle (slotHandle c d s) d
      (countPacket (slotHandle c d s) d k (storePacket c.toNat d data a bytes s))) = .next t :=
  ⟨_, _, _, (whenAdmitted_next.1 h).2⟩

theorem kept_storePacket (s : State) (c : Nat) (d : Dir) (data : List Byte) (a : Nat) (bytes : List Byte) :
    Kept s (storePacket c d data a bytes s) ∧ (storePacket c d data a bytes s).wire = s.wire :=
  ⟨((kept_arenaWrite s _ data).trans (quiet_setCnt _ c d data.length).kept).trans (kept_memWrite _ a bytes), rfl⟩

theorem kept_receivePacket {pid : Bool} {data : List Byte} (h : receivePacket c d pid data s = .next t) :
    Kept s t ∧ t.wire = s.wire := by
  unfold receivePacket at h
  split at h
  · cases h
    have q : Quiet s (if s.role = .host then xErr c d s else s) := .ite (quiet_xErr s c d) (.refl s)
    exact ⟨q.kept, q.wire⟩
  split at h
  · cases h
    have q := quiet_modHalf s (slotHandle c d s) d (fun x => { x with nak := 0, err := 0 })
    exact ⟨q.kept, q.wire⟩
  · obtain ⟨a, k, bytes, taken⟩ := acceptPacket_next h
    obtain ⟨stored, storedWire⟩ := kept_storePacket s c.toNat d data a bytes
    have counted := (quiet_countPacket (storePacket c.toNat d data a bytes s) (slotHandle c d s) d k).trans
      (quiet_advanceToggle _ (slotHandle c d s) d)
    obtain ⟨kept, -, wire⟩ := kept_finishReceive taken
    exact ⟨(stored.trans counted.kept).trans kept, (wire.trans counted.wire).trans storedWire⟩

theorem kept_acceptSetup {data : List Byte} (h : acceptSetup c data s = .next t) : Kept s t ∧ t.wire = s.wire := by
  obtain ⟨-, taken⟩ := whenAdmitted_next.1 h
  obtain rfl := Host.Outcome.next.inj taken
  have stored := kept_memWrite (setCnt c.toNat .out 8 (arenaWrite (slot c.toNat .out s).off.toNat data s))
    (half (slotHandle c .out s) .out s).buf.toNat data
  have counted := ((quiet_modHalf (memWrite (half (slotHandle c .out s) .out s).buf.toNat data
    (setCnt c.toNat .out 8 (arenaWrite (slot c.toNat .out s).off.toNat data s))) (slotHandle c .out s) .out
    (fun x => { x with done := 8, nak := 0, err := 0 })).trans (quiet_forceToggles _ (slotHandle c .out s))).trans
    (quiet_settle _ (slotHandle c .out s) .out .success)
  exact ⟨(((kept_arenaWrite s _ _).trans (quiet_setCnt _ c.toNat .out 8).kept).trans stored).trans counted.kept, counted.wire⟩

theorem quiet_periodicNak (h : Nat) (d : Dir) (s : State) : Quiet s (periodicNak h d s) :=
  (quiet_setValid s _ d false).trans (quiet_setXs _ h d .wait)

/-- After the record of the attempt, NAK and STALL work on the tables and the FIFO (R251, R254). -/
theorem kept_nakPacket (s : State) (c : BitVec 4) (d : Dir) : Quiet (recordTx c d .nak s) (nakPacket c d s) := by
  have counted := quiet_modHalf (recordTx c d .nak s) (slotHandle c d s) d (fun x => { x with nak := sat16 (x.nak.toNat + 1) })
  exact .ite (counted.trans (quiet_periodicNak _ d _))
    (.ite ((counted.trans (quiet_setValid _ _ d false)).trans (quiet_settle _ _ d _)) counted)

theorem kept_stallPacket (s : State) (c : BitVec 4) (d : Dir) : Quiet (recordTx c d .stall s) (stallPacket c d s) :=
  ((quiet_modHalf (recordTx c d .stall s) (slotHandle c d s) d (fun x => { x with halted := true })).trans
    (quiet_setValid _ _ d false)).trans (quiet_settle _ _ d _)

/-- What a link event keeps: the registers, the wire record unless it reports an attempt, and both memories unless it is one of
the packet events (R90, R213). -/
theorem link_kept {i : Instr} (event : isLink i = true) (h : exec i s = .next t) :
    Kept s t ∧ (reportsAttempt i = false → t.wire = s.wire) ∧ (usesMemory i = false → t.mem = s.mem ∧ t.arena = s.arena) := by
  have quiet (q : Quiet s t) : Kept s t ∧ (reportsAttempt i = false → t.wire = s.wire) ∧
      (usesMemory i = false → t.mem = s.mem ∧ t.arena = s.arena) := ⟨q.kept, fun _ => q.wire, fun _ => ⟨q.mem, q.arena⟩⟩
  have attempt {c d answer} (reports : reportsAttempt i = true) (q : Quiet (recordTx c d answer s) t) :
      Kept s t ∧ (reportsAttempt i = false → t.wire = s.wire) ∧ (usesMemory i = false → t.mem = s.mem ∧ t.arena = s.arena) :=
    ⟨(kept_recordTx s c d answer).trans q.kept, fun no => by simp [no] at reports,
      fun _ => ⟨q.mem.trans (by simp), q.arena.trans (by simp)⟩⟩
  cases i with
  | linkTxAck c d => exact ⟨(kept_ackPacket (linkTxAck_next h).2.2).1, nofun, nofun⟩
  | linkRxData c d pid n data =>
    obtain ⟨kept, wire⟩ := kept_receivePacket (linkRxData_next h).2
    exact ⟨kept, fun _ => wire, nofun⟩
  | linkSetupRx c d n data =>
    obtain ⟨kept, wire⟩ := kept_acceptSetup (linkSetupRx_next h).2.2.2
    exact ⟨kept, fun _ => wire, nofun⟩
  | linkNak c d =>
    obtain ⟨-, rfl⟩ := linkNak_next h
    exact attempt rfl (kept_nakPacket s c d)
  | linkStall c d =>
    obtain ⟨-, rfl⟩ := linkStall_next h
    exact attempt rfl (kept_stallPacket s c d)
  | linkXerr c d =>
    obtain ⟨-, rfl⟩ := linkXerr_next h
    exact attempt rfl (quiet_xErr _ c d)
  | linkFrame =>
    obtain ⟨-, rfl⟩ := linkFrame_next h
    exact quiet ((quiet_frameService s).trans (quiet_pushIf _ _ _))
  | linkBusReset =>
    obtain ⟨-, rfl⟩ := linkBusReset_next h
    exact quiet ((quiet_closeAll s).trans (quiet_pushIf _ _ _))
  | linkAttach speed =>
    obtain ⟨-, -, rfl⟩ := linkAttach_next h
    exact quiet (quiet_pushIf s _ _)
  | linkDetach =>
    obtain ⟨-, -, rfl⟩ := linkDetach_next h
    exact quiet (quiet_pushIf s _ _)
  | linkSuspend =>
    obtain ⟨-, rfl⟩ := linkSuspend_next h
    exact quiet (quiet_pushIf s _ _)
  | linkResume =>
    obtain ⟨-, rfl⟩ := linkResume_next h
    exact quiet (quiet_pushIf s _ _)
  | linkReserved0 | linkReservedD | linkReservedE | linkReservedF => cases h
  | _ => cases event

end

/-! ### Toggles -/

/-- Every half's toggle is as before (R221). -/
def SameToggles (s t : State) : Prop := ∀ h d, (half h d t).toggle = (half h d s).toggle

section
variable {s u t : State}

theorem SameToggles.trans (a : SameToggles s u) (b : SameToggles u t) : SameToggles s t := fun h d => (b h d).trans (a h d)

theorem SameToggles.of_eps (e : t.eps = s.eps) : SameToggles s t := fun h d => by rw [half_congr e]

theorem SameToggles.ite {c : Prop} [Decidable c] (a : SameToggles s t) (b : SameToggles s u) :
    SameToggles s (if c then t else u) := by
  split
  · exact a
  · exact b

theorem sameToggles_modHalf (s : State) (h : Nat) (d : Dir) (f : Half → Half)
    (keeps : ∀ x, (f x).toggle = x.toggle := by exact fun _ => rfl) : SameToggles s (modHalf h d f s) := by
  intro h' d'
  rw [half_modHalf]
  split
  next here =>
    obtain ⟨rfl, rfl, -⟩ := here
    exact keeps _
  · rfl

theorem sameToggles_setXs (s : State) (h : Nat) (d : Dir) (x : XferState) : SameToggles s (setXs h d x s) :=
  sameToggles_modHalf s h d _

theorem sameToggles_setValid (s : State) (c : Nat) (d : Dir) (v : Bool) : SameToggles s (setValid c d v s) := .of_eps rfl

theorem sameToggles_recordTx (s : State) (c : BitVec 4) (d : Dir) (answer : TxAnswer) : SameToggles s (recordTx c d answer s) :=
  .of_eps (by simp)

theorem sameToggles_chRelease (s : State) (c : Nat) (d : Dir) : SameToggles s (chRelease c d s) := by
  have released : SameToggles s (modHalf (slot c d s).ep.toNat d (fun x => { x with bound := false, ch := 0 })
      (modSlot c d (fun _ => Slot.free) s)) := (SameToggles.of_eps rfl).trans (sameToggles_modHalf _ _ d _)
  exact released.trans (.of_eps (dropAssociation_eps c _))

theorem sameToggles_settle (s : State) (h : Nat) (d : Dir) (o : XferOutcome) : SameToggles s (settle h d o s) :=
  ((sameToggles_setValid s (half h d s).ch.toNat d false).trans (sameToggles_setXs _ h d .idle)).trans
    (.ite (sameToggles_chRelease _ _ d) (.of_eps rfl))

theorem sameToggles_abortHalf (s : State) (h : Nat) (d : Dir) : SameToggles s (abortHalf h d s) :=
  (sameToggles_setValid s _ d false).trans (sameToggles_settle _ h d .failedAbort)

theorem sameToggles_startHost {h : Nat} {d : Dir} (e : startHost h d s = .ok t) : SameToggles s t := by
  unfold startHost at e
  split at e
  · obtain ⟨c, o, -, -, rfl⟩ := reserveHalf_ok e
    exact (SameToggles.of_eps rfl).trans (sameToggles_modHalf (setChan c _ s) h d _)
  · cases e; exact .of_eps rfl

theorem arm_eps {h : Nat} {d : Dir} (e : arm h d s = .next t) : t.eps = s.eps := by
  obtain ⟨-, armed⟩ | ⟨-, rfl⟩ := arm_next e
  · obtain ⟨-, rfl⟩ := armSend_next armed
    rfl
  · rfl

theorem sameToggles_submitted {setup zlp : Bool} {len : BitVec 16} {dir : Dir} {h : Nat}
    (sub : Submitted setup zlp len dir h s t) : SameToggles s t := by
  obtain ⟨u, v, started, armed, rfl⟩ := sub
  have cleared : SameToggles u (clearHaltedIf setup h u) :=
    .ite ((sameToggles_modHalf u h .out _).trans (sameToggles_modHalf _ h .inn _)) (.of_eps rfl)
  have loaded : SameToggles (clearHaltedIf setup h u) (loadTransfer setup zlp len h dir (clearHaltedIf setup h u)) :=
    sameToggles_modHalf _ h dir _
  exact (((sameToggles_startHost started).trans cleared).trans loaded).trans
    ((SameToggles.of_eps (arm_eps armed)).trans (sameToggles_setXs v h dir .inflight))

theorem sameToggles_nakPacket (s : State) (c : BitVec 4) (d : Dir) : SameToggles s (nakPacket c d s) := by
  have counted := (sameToggles_recordTx s c d .nak).trans (sameToggles_modHalf _ (slotHandle c d s) d
    (fun x => { x with nak := sat16 (x.nak.toNat + 1) }))
  exact .ite ((counted.trans (sameToggles_setValid _ _ d false)).trans (sameToggles_setXs _ _ d .wait))
    (.ite ((counted.trans (sameToggles_setValid _ _ d false)).trans (sameToggles_settle _ _ d .failedNak)) counted)

theorem sameToggles_stallPacket (s : State) (c : BitVec 4) (d : Dir) : SameToggles s (stallPacket c d s) :=
  (((sameToggles_recordTx s c d .stall).trans (sameToggles_modHalf _ (slotHandle c d s) d
    (fun x => { x with halted := true }))).trans (sameToggles_setValid _ _ d false)).trans (sameToggles_settle _ _ d .stalled)

theorem sameToggles_xErr (s : State) (c : BitVec 4) (d : Dir) : SameToggles s (xErr c d s) := by
  have counted := sameToggles_modHalf s (slotHandle c d s) d (fun x => { x with err := BitVec.ofNat 5 (x.err.toNat + 1) })
  exact .ite ((counted.trans (sameToggles_setValid _ _ d false)).trans (sameToggles_settle _ _ d .failedXact)) counted

theorem sameToggles_frameHalf (s : State) (h : Nat) (d : Dir) : SameToggles s (frameHalf h d s) := by
  have restarted := sameToggles_modHalf s h d (fun x => { x with nak := 0 })
  exact .ite (.ite ((restarted.trans (sameToggles_setValid _ _ d true)).trans (sameToggles_setXs _ h d .inflight)) restarted)
    (.of_eps rfl)

theorem sameToggles_frameService (s : State) : SameToggles s (frameService s) := by
  refine .ite ?_ (.of_eps rfl)
  unfold forEntries
  generalize List.range s.cfg.epMax = l
  induction l generalizing s with
  | nil => exact .of_eps rfl
  | cons h l ih => exact ((sameToggles_frameHalf s h .out).trans (sameToggles_frameHalf _ h .inn)).trans (ih _)

theorem sameToggles_of_answered (h : Answered s t) : SameToggles s t := by
  obtain ⟨r, r2, rfl⟩ := h
  exact .of_eps rfl

/-- A command that may not move a toggle moves none (R221). -/
theorem command_sameToggles {i : Instr} (command : isCommand i = true) (keeps : movesToggle i = false)
    (h : exec i s = .next t) : SameToggles s t := by
  have rejected : Rejected s t → SameToggles s t := fun no => sameToggles_of_answered (answered_of_rejected no)
  cases i with
  | init z role =>
    exact (init_answered h).elim sameToggles_of_answered fun a =>
      (SameToggles.of_eps (s := s) (t := initRole role s) rfl).trans (sameToggles_of_answered a)
  | epFind z dev dir z2 num =>
    refine (epFind_accepts s z dev dir z2 num t h).elim rejected ?_
    rintro ⟨k, -, rfl⟩
    exact .of_eps rfl
  | xferSubmit setup zlp len z dir handle =>
    exact (xferSubmit_accepts s setup zlp len z dir handle t h).elim rejected fun yes => sameToggles_submitted yes.2
  | xferAbort z dir handle =>
    refine (xferAbort_accepts s z dir handle t h).elim rejected ?_
    rintro ⟨-, -, -, ⟨-, rfl⟩ | ⟨-, rfl⟩⟩
    · exact .of_eps rfl
    · exact sameToggles_abortHalf s _ dir
  | epQuery z dir handle =>
    refine (epQuery_accepts s z dir handle t h).elim rejected ?_
    rintro ⟨-, rfl⟩
    exact .of_eps rfl
  | illegal0 | illegalA | illegalB | illegalC | illegalD | illegalE | illegalF =>
    cases h
    exact .of_eps rfl
  | epOpen | epClose | epClearStall | devClose => cases keeps
  | _ => cases command

/-- A link event that may not move a toggle moves none (R221). -/
theorem link_sameToggles {i : Instr} (event : isLink i = true) (keeps : movesToggle i = false) (h : exec i s = .next t) :
    SameToggles s t := by
  cases i with
  | linkNak c d =>
    obtain ⟨-, rfl⟩ := linkNak_next h
    exact sameToggles_nakPacket s c d
  | linkStall c d =>
    obtain ⟨-, rfl⟩ := linkStall_next h
    exact sameToggles_stallPacket s c d
  | linkXerr c d =>
    obtain ⟨-, rfl⟩ := linkXerr_next h
    exact (sameToggles_recordTx s c d .xerr).trans (sameToggles_xErr _ c d)
  | linkFrame =>
    obtain ⟨-, rfl⟩ := linkFrame_next h
    exact (sameToggles_frameService s).trans (.of_eps (by simp))
  | linkAttach speed =>
    obtain ⟨-, -, rfl⟩ := linkAttach_next h
    exact .of_eps (by simp)
  | linkDetach =>
    obtain ⟨-, -, rfl⟩ := linkDetach_next h
    exact .of_eps (by simp)
  | linkSuspend =>
    obtain ⟨-, rfl⟩ := linkSuspend_next h
    exact .of_eps (by simp)
  | linkResume =>
    obtain ⟨-, rfl⟩ := linkResume_next h
    exact .of_eps (by simp)
  | linkReserved0 | linkReservedD | linkReservedE | linkReservedF => cases h
  | linkTxAck | linkRxData | linkSetupRx | linkBusReset => cases keeps
  | _ => cases event

end

end Sys2Proof.Machine
end

