-- ==== Sys2Proof/Proofs/WindowWriters.lean ====
section
/-! SUPPORT. Which instructions write which register of the window (R31 to R40), and which move a toggle (R221). -/

namespace Sys2Proof.Machine

open Sys2Proof.Safety Sys2Proof.Claims

/-- Each register of the window, and each field of the model's own, with the instructions that may write it (R31 to R40). -/
abbrev WrittenByOwners (i : Instr) (s t : State) : Prop :=
  t.cfg = s.cfg ∧ t.fatal = s.fatal ∧ t.loaded = s.loaded ∧ t.inbox = s.inbox ∧
  (t.gie ≠ s.gie → ∃ v, i = .regCtrl (.write v)) ∧
  (t.role ≠ s.role ∨ t.initDone ≠ s.initDone → isInit (underlying i) = true) ∧
  (t.intEn ≠ s.intEn → isInit (underlying i) = true ∨ ∃ v, i = .regIntEn (.write v)) ∧
  (t.nakLimit ≠ s.nakLimit → ∃ v, i = .regNakLimit (.write v)) ∧
  (t.arg0 ≠ s.arg0 → ∃ v, i = .regArg0 (.write v)) ∧
  (t.result ≠ s.result ∨ t.result2 ≠ s.result2 → isCommand (underlying i) = true) ∧
  (t.rdata ≠ s.rdata → isRead i = true) ∧
  (t.wire ≠ s.wire → reportsAttempt i = true)

section
variable {i : Instr} {s t : State}

/-- Where the controls are as before, only the answer and the wire record have owners to name. -/
theorem writtenByOwners_of_sameControls (controls : SameControls s t)
    (results : isCommand (underlying i) = true ∨ SameResults s t) (wire : reportsAttempt i = false → t.wire = s.wire) :
    WrittenByOwners i s t := by
  obtain ⟨cfg, gie, role, init, fatal, intEn, nakLimit, arg0, rdata, loaded, inbox⟩ := controls
  refine ⟨cfg, fatal, loaded, inbox, absurd gie, fun no => ?_, absurd intEn, absurd nakLimit, absurd arg0, fun no => ?_,
    absurd rdata, fun no => ?_⟩
  · exact absurd role (no.resolve_right (not_not.2 init))
  · exact results.elim id fun ⟨r, r2⟩ => absurd r (no.resolve_right (not_not.2 r2))
  · by_contra notReport
    exact no (wire (by simpa using notReport))

/-- A command writes its answer, and INIT the role, INIT_DONE and the event enables (R39, R150). -/
theorem command_writtenByOwners {j : Instr} (runs : underlying i = j) (command : isCommand j = true) (h : exec j s = .next t) :
    WrittenByOwners i s t := by
  have answered {u : State} (kept : Kept s u) (wire : u.wire = s.wire) (a : Answered u t) : WrittenByOwners i s t := by
    obtain ⟨r, r2, rfl⟩ := a
    exact writtenByOwners_of_sameControls kept.controls (.inl (by rw [runs, command])) fun _ => wire
  cases init : isInit j with
  | false =>
    obtain ⟨u, kept, -, wire, a⟩ := command_kept command init h
    exact answered kept wire a
  | true =>
    cases j with
    | init z role =>
      obtain a | ⟨r, r2, rfl⟩ := init_answered h
      · exact answered (.refl s) rfl a
      · simp [WrittenByOwners, runs, isInit, isCommand]
    | _ => cases init

/-- A link event writes no register (R84). -/
theorem link_writtenByOwners (event : isLink i = true) (h : exec i s = .next t) : WrittenByOwners i s t := by
  obtain ⟨kept, wire, -⟩ := link_kept event h
  exact writtenByOwners_of_sameControls kept.controls (.inr kept.results) wire

/-- A read writes the returned word alone (R84). -/
theorem read_writtenByOwners (read : isRead i = true) (v : Word) : WrittenByOwners i s (returnRead v s) := by
  simp [WrittenByOwners, read]

theorem readOnly_writtenByOwners {a : RegAccess} {v : Word} (read : a = .read → isRead i = true)
    (h : readOnly v a s = .next t) : WrittenByOwners i s t := by
  cases a with
  | read =>
    cases h
    exact read_writtenByOwners (read rfl) v
  | write w =>
    cases h
    simp [WrittenByOwners]

end

end Sys2Proof.Machine

open Sys2Proof Sys2Proof.Machine Sys2Proof.Claims

/-- Settles O50: a command and a link event by what they keep, a register access by its own equation. -/
theorem windowWriters : Obligations.WindowWriters := by
  intro i s t h
  by_cases command : isCommand i = true
  · exact command_writtenByOwners (underlying_of_isCommand command) command h
  by_cases event : isLink i = true
  · exact link_writtenByOwners event h
  cases i with
  | regCmd a =>
    cases a with
    | read => cases h; exact read_writtenByOwners rfl 0
    | write w =>
      rw [exec_regCmd_write] at h
      exact command_writtenByOwners rfl (isCommand_decodeCommand w) h
  | regCtrl a | regIntEn a | regNakLimit a | regArg0 a =>
    cases a with
    | read => cases h; exact read_writtenByOwners rfl _
    | write v => cases h; simp
  | regEvqPop a =>
    cases a with
    | read => cases h; simp [isRead]
    | write v => cases h; simp
  | regResult a | regResult2 a | regEvqStatus a | regEvqPeek a | regParam0 a | regParam1 a | regParam2 a | regReserved34 a
  | regReserved38 a | regReserved3C a =>
    exact readOnly_writtenByOwners (by rintro rfl; rfl) h
  | _ => simp [isCommand, isLink] at command event

/-- Settles O51: the instructions that may move a toggle apart, every operation keeps it. -/
theorem toggleKeepers : Obligations.ToggleKeepers := by
  intro i s t h keeps
  show SameToggles s t
  obtain ⟨command, ran⟩ | event | ⟨-, rfl⟩ | ⟨-, accessed⟩ := exec_next_cases h
  · exact command_sameToggles command keeps ran
  · exact link_sameToggles event (underlying_of_isLink event ▸ keeps) h
  · exact .of_eps rfl
  · obtain ⟨_, _, _, _, _, rfl⟩ := accessed
    exact .of_eps rfl

end

