-- ==== Sys2Proof/Proofs/MemoryFree.lean ====
section
/-! SUPPORT. Which instructions read system memory (R90): every operation but the load of a packet from the caller buffer does the
same whatever memory holds. -/

namespace Sys2Proof.Machine

open Sys2Proof.Safety Sys2Proof.Claims

/-- The same state over another system memory. -/
def withMem (m : Memory) (s : State) : State := { s with mem := m }

section
variable (m : Memory) (s : State)

@[simp] theorem withMem_cfg : (withMem m s).cfg = s.cfg := rfl
@[simp] theorem withMem_role : (withMem m s).role = s.role := rfl
@[simp] theorem withMem_nakLimit : (withMem m s).nakLimit = s.nakLimit := rfl
@[simp] theorem half_withMem (h : Nat) (d : Dir) : half h d (withMem m s) = half h d s := rfl
@[simp] theorem slot_withMem (c : Nat) (d : Dir) : slot c d (withMem m s) = slot c d s := rfl
@[simp] theorem slotHandle_withMem (c : BitVec 4) (d : Dir) : slotHandle c d (withMem m s) = slotHandle c d s := rfl

/-- A choice by a test that reads no memory, between two ends that read none. -/
theorem ite_withMem {c c' : Prop} [Decidable c] [Decidable c'] {s s' t t' : State} (test : c' ↔ c) (hs : s' = withMem m s)
    (ht : t' = withMem m t) : (if c' then s' else t') = withMem m (if c then s else t) := by
  subst hs ht
  by_cases h : c
  · rw [if_pos h, if_pos (test.2 h)]
  · rw [if_neg h, if_neg (h ∘ test.1)]

/-! ### The operations -/

@[simp] theorem push_withMem (w : Word) : push w (withMem m s) = withMem m (push w s) := rfl
@[simp] theorem modHalf_withMem (h : Nat) (d : Dir) (f : Half → Half) :
    modHalf h d f (withMem m s) = withMem m (modHalf h d f s) := rfl
@[simp] theorem modSlot_withMem (c : Nat) (d : Dir) (f : Slot → Slot) :
    modSlot c d f (withMem m s) = withMem m (modSlot c d f s) := rfl
@[simp] theorem setValid_withMem (c : Nat) (d : Dir) (v : Bool) : setValid c d v (withMem m s) = withMem m (setValid c d v s) := rfl
@[simp] theorem setCnt_withMem (c : Nat) (d : Dir) (n : Nat) : setCnt c d n (withMem m s) = withMem m (setCnt c d n s) := rfl
@[simp] theorem setXs_withMem (h : Nat) (d : Dir) (x : XferState) : setXs h d x (withMem m s) = withMem m (setXs h d x s) := rfl
@[simp] theorem bindSlot_withMem (c : Nat) (d : Dir) (h : Nat) (dev : BitVec 7) (num : BitVec 4) (o size : Nat) :
    bindSlot c d h dev num o size (withMem m s) = withMem m (bindSlot c d h dev num o size s) := rfl
@[simp] theorem arenaWrite_withMem (off : Nat) (bytes : List Byte) :
    arenaWrite off bytes (withMem m s) = withMem m (arenaWrite off bytes s) := rfl
@[simp] theorem memWrite_withMem (a : Nat) (bytes : List Byte) :
    memWrite a bytes (withMem m s) = withMem (Memory.writeBytes m a bytes) s := rfl
@[simp] theorem countPacket_withMem (h : Nat) (d : Dir) (k : Nat) :
    countPacket h d k (withMem m s) = withMem m (countPacket h d k s) := rfl
@[simp] theorem advanceToggle_withMem (h : Nat) (d : Dir) : advanceToggle h d (withMem m s) = withMem m (advanceToggle h d s) := rfl
@[simp] theorem forceToggles_withMem (h : Nat) : forceToggles h (withMem m s) = withMem m (forceToggles h s) := rfl
@[simp] theorem whenAdmitted_withMem (a n : Nat) (r : Result) : whenAdmitted a n (withMem m s) r = whenAdmitted a n s r := rfl
@[simp] theorem arenaRead_withMem (off n : Nat) : arenaRead off n (withMem m s) = arenaRead off n s := rfl
@[simp] theorem armReceive_withMem (h : Nat) (d : Dir) : armReceive h d (withMem m s) = withMem m (armReceive h d s) := rfl

@[simp] theorem recordTx_withMem (c : BitVec 4) (d : Dir) (answer : TxAnswer) :
    recordTx c d answer (withMem m s) = withMem m (recordTx c d answer s) := by
  rw [recordTx_eq, recordTx_eq]
  rfl

@[simp] theorem dropAssociation_withMem (c : Nat) : dropAssociation c (withMem m s) = withMem m (dropAssociation c s) :=
  ite_withMem m .rfl rfl rfl

@[simp] theorem chRelease_withMem (c : Nat) (d : Dir) : chRelease c d (withMem m s) = withMem m (chRelease c d s) := by
  simp [chRelease]

@[simp] theorem releaseIfHost_withMem (c : Nat) (d : Dir) : releaseIfHost c d (withMem m s) = withMem m (releaseIfHost c d s) :=
  ite_withMem m .rfl (by simp) rfl

@[simp] theorem settle_withMem (h : Nat) (d : Dir) (o : XferOutcome) :
    settle h d o (withMem m s) = withMem m (settle h d o s) := by simp [settle]

@[simp] theorem abortHalf_withMem (h : Nat) (d : Dir) : abortHalf h d (withMem m s) = withMem m (abortHalf h d s) := by
  simp [abortHalf]

@[simp] theorem pushIf_withMem (e : EventClass) (w : Word) : pushIf e w (withMem m s) = withMem m (pushIf e w s) :=
  ite_withMem m .rfl rfl rfl

@[simp] theorem abortIfBusy_withMem (h : Nat) (d : Dir) : abortIfBusy h d (withMem m s) = withMem m (abortIfBusy h d s) :=
  ite_withMem m .rfl rfl (by simp)

@[simp] theorem releaseIfBound_withMem (h : Nat) (d : Dir) :
    releaseIfBound h d (withMem m s) = withMem m (releaseIfBound h d s) := ite_withMem m .rfl (by simp) rfl

@[simp] theorem freeIfClosed_withMem (h : Nat) : freeIfClosed h (withMem m s) = withMem m (freeIfClosed h s) :=
  ite_withMem m .rfl rfl rfl

@[simp] theorem closeHalf_withMem (h : Nat) (d : Dir) : closeHalf h d (withMem m s) = withMem m (closeHalf h d s) := by
  simp [closeHalf]

/-- Rounds that each do the same whatever memory holds do so together. -/
theorem foldl_withMem {α : Type} {f : State → α → State} (hf : ∀ u a, f (withMem m u) a = withMem m (f u a)) (l : List α) :
    l.foldl f (withMem m s) = withMem m (l.foldl f s) := by
  induction l generalizing s with
  | nil => rfl
  | cons a l ih => rw [List.foldl_cons, hf, ih, List.foldl_cons]

@[simp] theorem closeHalves_withMem (h : Nat) (ds : List Dir) :
    closeHalves h ds (withMem m s) = withMem m (closeHalves h ds s) := foldl_withMem m s (fun u d => by simp) ds

@[simp] theorem closeEntry_withMem (h : Nat) : closeEntry h (withMem m s) = withMem m (closeEntry h s) :=
  foldl_withMem m s (f := fun t d => if (half h d t).isOpen then closeHalf h d t else t)
    (fun u d => ite_withMem m .rfl (by simp) rfl) bothDirs

@[simp] theorem closeDevice_withMem (dev : BitVec 7) : closeDevice dev (withMem m s) = withMem m (closeDevice dev s) :=
  foldl_withMem m s (f := fun t h => if ofDevice dev t h then closeEntry h t else t)
    (fun u h => ite_withMem m .rfl (by simp) rfl) _

@[simp] theorem closeAll_withMem : closeAll (withMem m s) = withMem m (closeAll s) :=
  foldl_withMem m s (fun u h => by simp) _

@[simp] theorem clearStall_withMem (h : Nat) (ds : List Dir) :
    clearStall h ds (withMem m s) = withMem m (clearStall h ds s) := foldl_withMem m s (fun u d => by simp) ds

@[simp] theorem openHalves_withMem (h : Nat) (type : XferType) (mps : BitVec 11) (ds : List Dir) :
    openHalves h type mps ds (withMem m s) = withMem m (openHalves h type mps ds s) :=
  foldl_withMem m s (fun u d => by simp) ds

@[simp] theorem frameHalf_withMem (h : Nat) (d : Dir) : frameHalf h d (withMem m s) = withMem m (frameHalf h d s) :=
  ite_withMem m .rfl (ite_withMem m .rfl rfl rfl) rfl

@[simp] theorem frameService_withMem : frameService (withMem m s) = withMem m (frameService s) :=
  ite_withMem m .rfl (foldl_withMem m s (fun u h => by simp) _) rfl

@[simp] theorem xErr_withMem (c : BitVec 4) (d : Dir) : xErr c d (withMem m s) = withMem m (xErr c d s) :=
  ite_withMem m .rfl (by simp) rfl

@[simp] theorem periodicNak_withMem (h : Nat) (d : Dir) : periodicNak h d (withMem m s) = withMem m (periodicNak h d s) := rfl

@[simp] theorem nakPacket_withMem (c : BitVec 4) (d : Dir) : nakPacket c d (withMem m s) = withMem m (nakPacket c d s) := by
  simp only [nakPacket, recordTx_withMem]
  exact ite_withMem m (by simp) (by simp) (ite_withMem m (by simp [budgetGone]) (by simp) (by simp))

@[simp] theorem stallPacket_withMem (c : BitVec 4) (d : Dir) : stallPacket c d (withMem m s) = withMem m (stallPacket c d s) := by
  simp [stallPacket]

/-! ### The allocators and the searches -/

@[simp] theorem chAcquire_withMem (h : Nat) (d : Dir) : chAcquire h d (withMem m s) = chAcquire h d s := rfl

theorem firstFit_withMem (size fuel o : Nat) : firstFit size (withMem m s) fuel o = firstFit size s fuel o := by
  induction fuel generalizing o with
  | zero => rfl
  | succ fuel ih =>
    simp only [firstFit, ih]
    rfl

@[simp] theorem arenaAlloc_withMem (size : Nat) : arenaAlloc size (withMem m s) = arenaAlloc size s :=
  firstFit_withMem m s size _ _

@[simp] theorem selectEntry_withMem (type : XferType) (dev : BitVec 7) (dir : Dir) (num : BitVec 4) :
    selectEntry type dev dir num (withMem m s) = selectEntry type dev dir num s := rfl

@[simp] theorem findOpen_withMem (dev : BitVec 7) (num : BitVec 4) (d : Dir) :
    findOpen dev num d (withMem m s) = findOpen dev num d s := rfl

end

theorem reserve_withMem (m : Memory) (h mps : Nat) (dev : BitVec 7) (num : BitVec 4) (ds : List Dir) (s : State) :
    reserve h dev num mps ds (withMem m s) = (reserve h dev num mps ds s).map (withMem m) := by
  induction ds generalizing s with
  | nil => rfl
  | cons d ds ih =>
    simp only [reserve, reserveHalf, chAcquire_withMem, arenaAlloc_withMem, withMem_cfg, bindSlot_withMem]
    cases chAcquire h d s with
    | none => rfl
    | some c =>
      cases arenaAlloc (roundup mps s.cfg.arenaGran) s with
      | none => rfl
      | some o => exact ih _

theorem reserveAtOpen_withMem (m : Memory) (h mps : Nat) (dev : BitVec 7) (num : BitVec 4) (ds : List Dir) (s : State) :
    reserveAtOpen h dev num mps ds (withMem m s) = (reserveAtOpen h dev num mps ds s).map (withMem m) := by
  unfold reserveAtOpen
  rw [withMem_role, reserve_withMem]
  split <;> rfl

/-! ### The meanings -/

/-- Two answers that agree but for the memory `m` of the first: what a meaning that reads no memory gives over `m`. -/
def Blind (m : Memory) (r' r : Result) : Prop := r' = andThen r (fun t => .next (withMem m t))

namespace Blind

section
variable {m : Memory} {r' r : Result} {s : State}

theorem next {t' t : State} (h : t' = withMem m t) : Blind m (.next t') (.next t) := by subst h; rfl

theorem refused (e : Refusal) : Blind m (.refused e) (.refused e) := rfl

theorem ite {c c' : Prop} [Decidable c] [Decidable c'] {q q' : Result} (test : c' ↔ c) (h : Blind m r' r) (h' : Blind m q' q) :
    Blind m (if c' then r' else q') (if c then r else q) := by
  by_cases hc : c
  · rwa [if_pos hc, if_pos (test.2 hc)]
  · rwa [if_neg hc, if_neg (hc ∘ test.1)]

theorem whenEnabled {c : Bool} (h : Blind m r' r) : Blind m (whenEnabled c r') (whenEnabled c r) := .ite .rfl h (.refused _)

theorem epOpen (type : XferType) (mps : BitVec 11) (dev : BitVec 7) (dir : Dir) (z : BitVec 3) (num : BitVec 4) :
    Blind m (execEpOpen type mps dev dir z num (withMem m s)) (execEpOpen type mps dev dir z num s) := by
  refine .ite .rfl (.next rfl) <| .ite .rfl (.next rfl) ?_
  rw [selectEntry_withMem]
  cases selectEntry type dev dir num s with
  | error x => exact .next rfl
  | ok h =>
    simp only [reserveAtOpen_withMem]
    cases reserveAtOpen h dev num mps.toNat (halvesOf type dir) s with
    | error x => exact .next rfl
    | ok u => exact .next (congrArg (acceptHandle h) (openHalves_withMem m (claimEntry h dev num u) h type mps _))

theorem epFind (z : BitVec 13) (dev : BitVec 7) (dir : Dir) (z2 : BitVec 3) (num : BitVec 4) :
    Blind m (execEpFind z dev dir z2 num (withMem m s)) (execEpFind z dev dir z2 num s) := by
  refine .ite .rfl (.next rfl) <| .ite .rfl (.next rfl) ?_
  rw [findOpen_withMem]
  cases findOpen dev num dir s <;> exact .next rfl

/-- A command but XFER_SUBMIT (R90). -/
theorem command {i : Instr} (h : isCommand i = true) (notSubmit : isSubmit i = false) :
    Blind m (exec i (withMem m s)) (exec i s) := by
  cases i with
  | init z role => exact .ite .rfl (.next rfl) <| .ite .rfl (.next rfl) (.next rfl)
  | epOpen type mps dev dir z num => exact epOpen type mps dev dir z num
  | epClose z dir handle =>
    exact .ite .rfl (.next rfl) <| .ite .rfl (.next rfl) <| .ite .rfl (.next rfl) <| .ite .rfl (.next rfl) <|
      .next (congrArg accept (closeHalves_withMem m s handle.toNat _))
  | epFind z dev dir z2 num => exact epFind z dev dir z2 num
  | xferSubmit => cases notSubmit
  | xferAbort z dir handle =>
    exact .ite .rfl (.next rfl) <| .ite .rfl (.next rfl) <| .ite .rfl (.next rfl) <| .ite .rfl (.next rfl) <|
      .ite .rfl (.next rfl) <| .next (congrArg accept (abortHalf_withMem m s handle.toNat dir))
  | epClearStall z dir handle =>
    exact .ite .rfl (.next rfl) <| .ite .rfl (.next rfl) <| .ite .rfl (.next rfl) <| .ite .rfl (.next rfl) <|
      .next (congrArg accept (clearStall_withMem m s handle.toNat _))
  | devClose z dev z2 =>
    exact .ite .rfl (.next rfl) <| .ite .rfl (.next rfl) <| .ite .rfl (.next rfl) <| .ite .rfl (.next rfl) <|
      .next (congrArg accept (closeDevice_withMem m s dev))
  | epQuery z dir handle => exact .ite .rfl (.next rfl) <| .ite .rfl (.next rfl) <| .ite .rfl (.next rfl) <| .next rfl
  | illegal0 | illegalA | illegalB | illegalC | illegalD | illegalE | illegalF => exact .next rfl
  | _ => cases h

/-- A link event but the packet events (R90). -/
theorem link {i : Instr} (event : isLink i = true) (noAccess : usesMemory i = false) :
    Blind m (exec i (withMem m s)) (exec i s) := by
  cases i with
  | linkNak c d => exact .whenEnabled (.next (nakPacket_withMem m s c d))
  | linkStall c d => exact .whenEnabled (.next (stallPacket_withMem m s c d))
  | linkXerr c d => exact .whenEnabled (.next (by rw [recordTx_withMem, xErr_withMem]))
  | linkFrame => exact .whenEnabled (.next (by rw [frameService_withMem, pushIf_withMem]))
  | linkBusReset => exact .whenEnabled (.next (by rw [closeAll_withMem, pushIf_withMem]))
  | linkAttach | linkDetach | linkSuspend | linkResume => exact .whenEnabled (.next (pushIf_withMem m s _ _))
  | linkReserved0 | linkReservedD | linkReservedE | linkReservedF => exact .refused _
  | linkTxAck | linkRxData | linkSetupRx => cases noAccess
  | _ => cases event

/-- A register access but a command. -/
theorem access {i : Instr} (notCommand : isCommand (underlying i) = false) (notLink : isLink i = false) :
    Blind m (exec i (withMem m s)) (exec i s) := by
  cases i with
  | regCmd a =>
    cases a with
    | read => exact .next rfl
    | write w => simp [underlying, isCommand_decodeCommand] at notCommand
  | regCtrl a | regIntEn a | regNakLimit a | regArg0 a | regEvqPop a | regResult a | regResult2 a | regEvqStatus a
  | regEvqPeek a | regParam0 a | regParam1 a | regParam2 a | regReserved34 a | regReserved38 a | regReserved3C a =>
    cases a <;> exact .next rfl
  | _ => simp [underlying, isCommand, isLink] at notCommand notLink

end

end Blind

/-! ### The packet events that write memory -/

/-- The next state over memory `m` is the same but for memory, and a byte that the instruction changed has the same value there. -/
def SameOver (m : Memory) (i : Instr) (s t : State) : Prop :=
  ∃ u, exec i (withMem m s) = .next u ∧ withMem t.mem u = t ∧
    ∀ a, Memory.read t.mem a ≠ Memory.read s.mem a → Memory.read u.mem a = Memory.read t.mem a

section
variable {m : Memory} {i : Instr} {s t : State}

theorem sameOver_of_blind (blind : Blind m (exec i (withMem m s)) (exec i s)) (h : exec i s = .next t) (mem : t.mem = s.mem) :
    SameOver m i s t := by
  rw [h] at blind
  exact ⟨_, blind, rfl, fun a changed => absurd (by rw [mem]) changed⟩

/-- Bytes written over one memory and over another have the same values where they stand (R216). -/
theorem read_writeBytes_of_changed {k : Memory} (hk : Memory.wf k) (hm : Memory.wf m) (a : Nat) (bytes : List Byte) (x : Nat)
    (changed : Memory.read (Memory.writeBytes k a bytes) x ≠ Memory.read k x) :
    Memory.read (Memory.writeBytes m a bytes) x = Memory.read (Memory.writeBytes k a bytes) x := by
  by_cases inside : a ≤ x ∧ x < a + bytes.length
  · obtain ⟨j, rfl⟩ := Nat.exists_eq_add_of_le inside.1
    have hj : j < bytes.length := by omega
    rw [Memory.read_writeBytes_inside bytes a j hm hj, Memory.read_writeBytes_inside bytes a j hk hj]
  · exact absurd (Memory.read_writeBytes_outside bytes a x hk (by omega)) changed

/-- An event that writes bytes to memory and goes on blindly. -/
theorem sameOver_of_written {a : Nat} {bytes : List Byte} {v : State} (hs : Memory.wf s.mem) (hm : Memory.wf m)
    (ran : exec i (withMem m s) = .next (withMem (Memory.writeBytes m a bytes) v))
    (ht : t = withMem (Memory.writeBytes s.mem a bytes) v) : SameOver m i s t := by
  subst ht
  exact ⟨_, ran, rfl, fun x changed => read_writeBytes_of_changed hs hm a bytes x changed⟩

end

/-! ### RX_DATA and SETUP_RX -/

section
variable {m : Memory} {s t : State} {c : BitVec 4} {d : Dir} {data : List Byte}

/-- A packet taken, but for the bytes of it that go to memory (R216). -/
def takenPacket (c : BitVec 4) (d : Dir) (data : List Byte) (s : State) : State :=
  advanceToggle (slotHandle c d s) d (countPacket (slotHandle c d s) d (wanted c d data s)
    (setCnt c.toNat d data.length (arenaWrite (slot c.toNat d s).off.toNat data s)))

/-- The bytes of a packet that go to memory, as they stand in the arena (R216). -/
def wantedBytes (c : BitVec 4) (d : Dir) (data : List Byte) (s : State) : List Byte :=
  arenaRead (slot c.toNat d s).off.toNat (wanted c d data s) (arenaWrite (slot c.toNat d s).off.toNat data s)

theorem acceptPacket_withMem (m : Memory) (s : State) (c : BitVec 4) (d : Dir) (data : List Byte) :
    acceptPacket c d data (withMem m s) = whenAdmitted (rxAddr c d s) (wanted c d data s) s
      (finishReceive (slotHandle c d s) d data.length
        (withMem (Memory.writeBytes m (rxAddr c d s) (wantedBytes c d data s)) (takenPacket c d data s))) := by
  simp only [acceptPacket, half_withMem, slot_withMem, slotHandle_withMem, arenaWrite_withMem, setCnt_withMem,
    arenaRead_withMem, memWrite_withMem, countPacket_withMem, advanceToggle_withMem, whenAdmitted_withMem]
  rfl

theorem finishReceive_blind {h n : Nat} (receives : isSend s.role d = false) :
    Blind m (finishReceive h d n (withMem m s)) (finishReceive h d n s) := by
  refine .ite .rfl (.next (settle_withMem m s h d .success)) ?_
  rw [arm, arm, withMem_role, receives]
  exact .next (armReceive_withMem m s h d)

theorem acceptPacket_sameOver {i : Instr} (hs : Memory.wf s.mem) (hm : Memory.wf m) (receives : isSend s.role d = false)
    (ran : ∀ m', exec i (withMem m' s) = acceptPacket c d data (withMem m' s)) (h : exec i s = .next t) : SameOver m i s t := by
  have roleKept : isSend (takenPacket c d data s).role d = false := receives
  have fromTaken (m' : Memory) := finishReceive_blind (h := slotHandle c d s) (n := data.length)
    (m := Memory.writeBytes m' (rxAddr c d s) (wantedBytes c d data s)) roleKept
  have here : acceptPacket c d data s = .next t := (ran s.mem).symm.trans h
  rw [show acceptPacket c d data s = acceptPacket c d data (withMem s.mem s) from rfl, acceptPacket_withMem,
    whenAdmitted_next, fromTaken s.mem] at here
  obtain ⟨admitted, taken⟩ := here
  obtain ⟨v, answer, ht⟩ := andThen_next.1 taken
  refine sameOver_of_written hs hm ?_ (Host.Outcome.next.inj ht).symm
  rw [ran m, acceptPacket_withMem, whenAdmitted_of_admits _ admitted, fromTaken m, answer]
  rfl

/-- RX_DATA: a packet too long or a duplicate reads no memory, any other is accepted (R216, R217). -/
theorem linkRxData_sameOver {pid : Bool} {n : BitVec 11} (hs : Memory.wf s.mem) (hm : Memory.wf m)
    (h : exec (.linkRxData c d pid n data) s = .next t) : SameOver m (.linkRxData c d pid n data) s t := by
  obtain ⟨ready, received⟩ := linkRxData_next h
  have ran (m' : Memory) : exec (.linkRxData c d pid n data) (withMem m' s) = receivePacket c d pid data (withMem m' s) :=
    exec_linkRxData_of_ready (s := withMem m' s) ready
  have blindly {r : Result} (eq : receivePacket c d pid data s = r)
      (b : Blind m (receivePacket c d pid data (withMem m s)) r) (mem : t.mem = s.mem) :
      SameOver m (.linkRxData c d pid n data) s t := by
    refine sameOver_of_blind ?_ h mem
    rw [ran m, exec_linkRxData_of_ready ready, eq]
    exact b
  by_cases long : (slot c.toNat d s).cnt.toNat < data.length
  · have eq (m' : Memory) : receivePacket c d pid data (withMem m' s) =
        .next (if s.role = .host then xErr c d (withMem m' s) else withMem m' s) := if_pos long
    obtain rfl := Host.Outcome.next.inj ((eq s.mem).symm.trans received)
    exact blindly (eq s.mem) (by rw [eq m]; exact .next (ite_withMem m .rfl (xErr_withMem m s c d) rfl))
      (Quiet.ite (quiet_xErr s c d) (.refl s)).mem
  by_cases wrong : (!pidMatches (slotHalf c d s) pid) = true
  · have eq (m' : Memory) : receivePacket c d pid data (withMem m' s) =
        .next (duplicatePacket (slotHandle c d s) d (withMem m' s)) := (if_neg long).trans (if_pos wrong)
    obtain rfl := Host.Outcome.next.inj ((eq s.mem).symm.trans received)
    exact blindly (eq s.mem) (by rw [eq m]; exact .next rfl) (quiet_modHalf s _ d _).mem
  · have eq (m' : Memory) : receivePacket c d pid data (withMem m' s) = acceptPacket c d data (withMem m' s) :=
      (if_neg long).trans (if_neg wrong)
    exact acceptPacket_sameOver hs hm ready.2.1 (fun m' => (ran m').trans (eq m')) h

/-- A SETUP packet taken, but for its bytes in memory (R218). -/
def takenSetup (c : BitVec 4) (data : List Byte) (s : State) : State :=
  settle (slotHandle c .out s) .out .success (forceToggles (slotHandle c .out s)
    (modHalf (slotHandle c .out s) .out (fun x => { x with done := 8, nak := 0, err := 0 })
      (setCnt c.toNat .out 8 (arenaWrite (slot c.toNat .out s).off.toNat data s))))

theorem acceptSetup_withMem (m : Memory) (s : State) (c : BitVec 4) (data : List Byte) :
    acceptSetup c data (withMem m s) = whenAdmitted (slotHalf c .out s).buf.toNat 8 s
      (.next (withMem (Memory.writeBytes m (slotHalf c .out s).buf.toNat data) (takenSetup c data s))) := by
  simp only [acceptSetup, takenSetup, half_withMem, slot_withMem, slotHandle_withMem, arenaWrite_withMem, setCnt_withMem,
    memWrite_withMem, modHalf_withMem, forceToggles_withMem, settle_withMem, whenAdmitted_withMem]
  rfl

theorem linkSetupRx_sameOver {n : BitVec 11} (hs : Memory.wf s.mem) (hm : Memory.wf m)
    (h : exec (.linkSetupRx c d n data) s = .next t) : SameOver m (.linkSetupRx c d n data) s t := by
  obtain ⟨rfl, rfl, ready, received⟩ := linkSetupRx_next h
  have ran (m' : Memory) : exec (.linkSetupRx c .out 8#11 data) (withMem m' s) = acceptSetup c data (withMem m' s) :=
    exec_linkSetupRx_of_ready (s := withMem m' s) ready
  rw [show acceptSetup c data s = acceptSetup c data (withMem s.mem s) from rfl, acceptSetup_withMem, whenAdmitted_next]
    at received
  obtain ⟨admitted, taken⟩ := received
  refine sameOver_of_written hs hm ?_ (Host.Outcome.next.inj taken).symm
  rw [ran m, acceptSetup_withMem, whenAdmitted_of_admits _ admitted]

end

end Sys2Proof.Machine

open Sys2Proof Sys2Proof.Machine Sys2Proof.Claims

/-- Settles O54: all but the packet events and XFER_SUBMIT do the same whatever memory holds, and the two events that write memory
write the same bytes at the same place. -/
theorem memoryReaders : Obligations.MemoryReaders := by
  intro i s t m hs hm h notSubmit notAck
  show SameOver m i s t
  by_cases command : isCommand (underlying i) = true
  · refine sameOver_of_blind ?_ h (command_mem command (exec_underlying i s ▸ h))
    rw [exec_underlying i s, exec_underlying i (withMem m s)]
    exact .command command notSubmit
  by_cases event : isLink i = true
  · cases noAccess : usesMemory i with
    | false => exact sameOver_of_blind (.link event noAccess) h ((link_kept event h).2.2 noAccess).1
    | true =>
      cases i with
      | linkTxAck c d => exact absurd rfl (notAck c d)
      | linkRxData c d pid n data => exact linkRxData_sameOver hs hm h
      | linkSetupRx c d n data => exact linkSetupRx_sameOver hs hm h
      | xferSubmit => cases notSubmit
      | _ => cases noAccess
  · refine sameOver_of_blind (.access (by simpa using command) (by simpa using event)) h ?_
    obtain ⟨isCmd, -⟩ | isEvent | ⟨-, rfl⟩ | ⟨-, accessed⟩ := exec_next_cases h
    · exact absurd isCmd command
    · exact absurd isEvent event
    · rfl
    · obtain ⟨_, _, _, _, _, rfl⟩ := accessed
      rfl

end

