-- ==== Sys2Proof/Proofs/StepRules.lean ====
section
/-! SUPPORT. A step by what its attempt is: a raw form that decodes, a CPU store, a CPU load, or none (R44, R90, R324, R351). -/

namespace Sys2Proof.Machine

open Sys2Proof.Safety Sys2Proof.Claims

section
variable {s : State} {rest : List Stimulus}

theorem step_idle (h : s.inbox = []) : step s = .next s := by
  simp only [step, fetch, h]

theorem step_store {cells : List (Word × Byte)} (h : s.inbox = .store cells :: rest) :
    step s = .next (cpuStore cells { s with inbox := rest }) := by
  simp only [step, fetch, h]

theorem step_load {addrs : List Word} (h : s.inbox = .load addrs :: rest) :
    step s = .next (cpuLoad addrs { s with inbox := rest }) := by
  simp only [step, fetch, h]

end

/-! ### The invariant fault (R324) -/

/-- A result ends in the invariant fault where its next state breaks an invariant, which the fault names. -/
theorem checked_invariant {r : Result} {n : Nat} {f : State} (h : checked r = .fault (.invariant n f)) :
    r = .fault (.invariant n f) ∨ ∃ t, r = .next t ∧ firstBroken t = some n ∧ f = { t with fatal := true } := by
  cases r with
  | next t =>
    right
    simp only [checked] at h
    split at h
    · cases h
    next broken =>
      cases h
      exact ⟨t, rfl, broken, rfl⟩
  | fault e => exact .inl h
  | refused e => cases h

/-- A number, if there is one, is that of an invariant of R54 which fails. -/
def NamesBroken (s : State) (o : Option Nat) : Prop := ∀ n, o = some n → 1 ≤ n ∧ n ≤ 8 ∧ ¬ InvNumber n s

/-- One check of the list: it reports `k` where a part of INV `k` fails. -/
theorem NamesBroken.check {s : State} {o : Option Nat} (k : Nat) {p : Prop} [Decidable p] (isPart : InvNumber k s → p)
    (later : NamesBroken s o) (number : 1 ≤ k ∧ k ≤ 8 := by decide) : NamesBroken s (if ¬ p then some k else o) := by
  intro n h
  split at h
  next fails =>
    cases h
    exact ⟨number.1, number.2, fun inv => fails (isPart inv)⟩
  next => exact later n h

/-- The number found is that of an invariant which fails. -/
theorem namesBroken_firstBroken (s : State) : NamesBroken s (firstBroken s) :=
  .check 1 id <| .check 2 id <| .check 3 id <| .check 4 id <| .check 5 id <| .check 6 id <| .check 7 id <|
    .check 8 (fun inv8 => inv8.1) <| .check 8 (fun inv8 => inv8.2.1) <| .check 8 (fun inv8 => inv8.2.2) nofun

/-- No instruction raises the invariant fault itself (R325). -/
theorem exec_ne_invariant (i : Instr) (s : State) (n : Nat) (f : State) : exec i s ≠ .fault (.invariant n f) := by
  intro h
  obtain ⟨-, a, k, stuck, -⟩ := EndsWithin.fault (h ▸ EndsWithin.exec i s)
  cases stuck

/-- A step that ends in the invariant fault ran an instruction whose next state breaks the invariant named (R324). -/
theorem step_invariant {s : State} {n : Nat} {f : State} (h : step s = .fault (.invariant n f)) :
    ∃ i rest t, exec i { s with inbox := rest } = .next t ∧ firstBroken t = some n ∧ f = { t with fatal := true } := by
  obtain ⟨t, next⟩ | ⟨r, rest, x, -, -, failed⟩ | ⟨r, rest, i, -, -, ran⟩ := step_cases s
  · rw [next] at h
    cases h
  · rw [failed] at h
    cases x <;> cases h
  · rw [ran] at h
    obtain raised | ⟨t, answer, broken, rfl⟩ := checked_invariant h
    · exact absurd raised (exec_ne_invariant i _ n f)
    · exact ⟨i, rest, t, answer, broken, rfl⟩

end Sys2Proof.Machine

open Sys2Proof Sys2Proof.Machine Sys2Proof.Claims

/-- Settles O7: a step of a raw form that decodes is the check of what the instruction answers, which passes where INV1 to INV8
hold. -/
theorem stepRunsDecoded : Obligations.StepRunsDecoded := by
  intro s r rest i attempt decoded
  have ran := step_of_decode_ok attempt decoded
  refine ⟨ran, fun t answer inv1 inv2 inv3 inv4 inv5 inv6 inv7 inv8 => ?_⟩
  rw [ran, checked_next]
  exact ⟨answer, firstBroken_none.2 ⟨inv1, inv2, inv3, inv4, inv5, inv6, inv7, inv8⟩⟩

/-- Settles O8, by what the stored bytes read back. -/
theorem storeAndIdleSteps : Obligations.StoreAndIdleSteps := by
  refine fun s => ⟨step_idle, fun cells rest wf attempt => ?_, fun addrs rest attempt => step_load attempt⟩
  refine ⟨_, step_store attempt, rfl, fun a apart => Memory.read_writeCells_outside cells a wf apart, ?_⟩
  rintro before after a b rfl later
  exact Memory.read_writeCells_inside before after a b wf later

/-- Settles O12: the fault is raised by the check alone, which sets FATAL in the state whose invariant it found broken. -/
theorem invariantFaultReport : Obligations.InvariantFaultReport := by
  intro s n f h
  obtain ⟨i, rest, t, -, broken, rfl⟩ := step_invariant h
  obtain ⟨low, high, fails⟩ := namesBroken_firstBroken t n broken
  exact ⟨rfl, low, high, fails⟩

end

