-- ==== Sys2Proof/Proofs/RegisterReads.lean ====
section
/-! SUPPORT. What a CPU read of each register returns, read as a number (R32, R34, R36, R41, R42, R284), what INIT makes of INT_EN
(R150), and what the registers hold right after reset (R57). -/

namespace Sys2Proof.Machine

open Sys2Proof.Safety Sys2Proof.Claims

/-! ### The words -/

section
variable {s : State}

/-- A word that begins with a field of its low bits. -/
theorem toNat_field_zero {n : Nat} (v : BitVec n) (hv : n ≤ 32) : (field 0 v).toNat = v.toNat := by
  simp [field, Nat.mod_eq_of_lt (lt_of_lt_of_le v.isLt (Nat.pow_le_pow_right (by decide) hv))]

theorem toNat_flag_zero (b : Bool) : (flag 0 b).toNat = b.toNat := by cases b <;> rfl

theorem ofNat_of_toNat {w : Word} {k : Nat} (h : w.toNat = k) : w = BitVec.ofNat 32 k := by
  rw [← h, BitVec.ofNat_toNat, BitVec.setWidth_eq]

theorem irq_eq : irq s = decide (s.gie = true ∧ 0 < s.evq.length) := by
  cases h : s.evq <;> simp [irq, h]

theorem ctrlWord_eq_ofNat : ctrlWord s = BitVec.ofNat 32 (s.gie.toNat + (if s.role = .host then 2 else 0) +
    s.initDone.toNat * 4 + (if s.gie = true ∧ 0 < s.evq.length then 8 else 0) + s.fatal.toNat * 16) := by
  have role : s.role.toBit.toNat * 2 ^ 1 = if s.role = .host then 2 else 0 := by cases s.role <;> rfl
  have line : (irq s).toNat * 2 ^ 3 = if s.gie = true ∧ 0 < s.evq.length then 8 else 0 := by
    rw [irq_eq]
    split <;> simp_all
  have bounds := And.intro (Bool.toNat_le s.gie) (And.intro (Bool.toNat_le s.initDone) (Bool.toNat_le (irq s)))
  have roleLt := s.role.toBit.isLt
  apply ofNat_of_toNat
  rw [ctrlWord, toNat_or_flag 4 _ (toNat_or_flag 3 _ (toNat_or_flag 2 _ (toNat_or_field 1 _ (toNat_flag_zero s.gie)
    (by omega) (by omega)) (by omega) (by omega)) (by omega) (by omega)) (by omega) (by omega), role, line]
  rfl

theorem intEnWord_eq_ofNat : intEnWord s = BitVec.ofNat 32 (s.intEn.toNat * 2 + 1) :=
  ofNat_of_toNat (toNat_field_or 1 s.intEn (toNat_flag_zero true) (by omega) (by decide))

theorem evqStatusWord_eq_ofNat (legal : s.cfg.Legal) (fits : s.evq.length ≤ s.cfg.evqDepth) :
    evqStatusWord s = BitVec.ofNat 32 (s.cfg.evqDepth * 256 + s.evq.length) := by
  obtain ⟨-, -, -, -, -, ⟨-, depth⟩, -⟩ := legal
  apply ofNat_of_toNat
  rw [evqStatusWord, toNat_or_field 8 _ (toNat_field_zero _ (by omega)) (by omega) (by omega), BitVec.toNat_ofNat,
    BitVec.toNat_ofNat, Nat.mod_eq_of_lt (by omega), Nat.mod_eq_of_lt (by omega)]
  omega

end

section
variable {c : Config}

theorem param0Word_eq_ofNat (legal : c.Legal) : param0Word c = BitVec.ofNat 32 (268435456 + c.errRetryMax * 16777216 +
    c.evqDepth * 65536 + c.epMax * 256 + c.numCh) := by
  obtain ⟨⟨-, channels⟩, ⟨-, entries⟩, -, -, -, ⟨-, depth⟩, retries⟩ := legal
  have numCh : (BitVec.ofNat 8 c.numCh).toNat = c.numCh := Nat.mod_eq_of_lt (by omega)
  have epMax : (BitVec.ofNat 8 c.epMax).toNat = c.epMax := Nat.mod_eq_of_lt (by omega)
  have evqDepth : (BitVec.ofNat 8 c.evqDepth).toNat = c.evqDepth := Nat.mod_eq_of_lt (by omega)
  have errRetryMax : (BitVec.ofNat 4 c.errRetryMax).toNat = c.errRetryMax := Nat.mod_eq_of_lt (by omega)
  apply ofNat_of_toNat
  rw [param0Word, toNat_or_field 28 _ (toNat_or_field 24 _ (toNat_or_field 16 _ (toNat_or_field 8 _
    (toNat_field_zero _ (by omega)) (by omega) (by omega)) (by omega) (by omega)) (by omega) (by omega)) (by omega) (by omega),
    numCh, epMax, evqDepth, errRetryMax]
  simp only [BitVec.toNat_ofNat]
  omega

theorem param1Word_eq_ofNat (legal : c.Legal) :
    param1Word c = BitVec.ofNat 32 (c.arenaBase * 65536 + c.arenaSize) := by
  obtain ⟨-, -, ⟨-, size⟩, base, -⟩ := legal
  apply ofNat_of_toNat
  rw [param1Word, toNat_or_field 16 _ (toNat_field_zero _ (by omega)) (by omega) (by omega), BitVec.toNat_ofNat,
    BitVec.toNat_ofNat, Nat.mod_eq_of_lt (by omega), Nat.mod_eq_of_lt (by omega)]
  omega

theorem param2Word_eq_ofNat (legal : c.Legal) : param2Word c = BitVec.ofNat 32 c.arenaGran := by
  obtain ⟨-, -, -, -, gran, -⟩ := legal
  have small : c.arenaGran ≤ 256 := by
    simp only [List.mem_cons, List.not_mem_nil, or_false] at gran
    omega
  apply ofNat_of_toNat
  rw [param2Word, toNat_field_zero _ (by omega), BitVec.toNat_ofNat, Nat.mod_eq_of_lt (by omega)]

end

/-! ### The reads of the registers with writable bits, of CMD and of EVQ_POP -/

section
variable (s : State)

theorem exec_regCtrl_read : exec (.regCtrl .read) s = .next (returnRead (ctrlWord s) s) := rfl
theorem exec_regIntEn_read : exec (.regIntEn .read) s = .next (returnRead (intEnWord s) s) := rfl
theorem exec_regNakLimit_read : exec (.regNakLimit .read) s = .next (returnRead (field 0 s.nakLimit) s) := rfl
theorem exec_regEvqPop_read : exec (.regEvqPop .read) s = .next (returnRead (evqHead s) { s with evq := s.evq.tail }) := rfl

/-- A read of EVQ_POP removes nothing from an empty FIFO (R283). -/
theorem evq_tail_of_nil {s : State} (h : s.evq = []) : { s with evq := s.evq.tail } = s := by
  cases s
  cases h
  rfl

theorem evqHead_nil {s : State} (h : s.evq = []) : evqHead s = 0 := by rw [evqHead, h]; rfl

theorem evqHead_cons {s : State} {w : Word} {rest : List Word} (h : s.evq = w :: rest) : evqHead s = w := by
  rw [evqHead, h]; rfl

end

/-- INIT makes INT_EN read 0x33 in the device role and 0x0D in the host role (R150). -/
theorem intEnWord_initRole (role : Role) (s : State) :
    intEnWord (accept (initRole role s)) = if role = .device then 0x33 else 0x0D := by
  cases role with
  | device =>
    have word : field 1 (bits 0x00000033#32 1 6) ||| flag 0 true = 0x33 := by decide
    exact word
  | host =>
    have word : field 1 (bits 0x0000000D#32 1 6) ||| flag 0 true = 0x0D := by decide
    exact word

/-! ### Reset -/

section
variable (c : Config)

@[simp] theorem cfg_reset : (State.resetWith c).cfg = c := rfl
@[simp] theorem role_reset : (State.resetWith c).role = .device := rfl
@[simp] theorem evq_reset : (State.resetWith c).evq = [] := rfl

@[simp] theorem entry_reset (h : Nat) : entry h (State.resetWith c) = Entry.free := by
  simp [entry, State.resetWith, List.getD_eq_getElem?_getD, List.getElem?_replicate]
  split <;> rfl

@[simp] theorem chan_reset (k : Nat) : chan k (State.resetWith c) = Channel.free := by
  simp [chan, State.resetWith, List.getD_eq_getElem?_getD, List.getElem?_replicate]
  split <;> rfl

@[simp] theorem half_reset (h : Nat) (d : Dir) : half h d (State.resetWith c) = Half.closed := by
  rw [half, entry_reset, Entry.half_free]

@[simp] theorem slot_reset (k : Nat) (d : Dir) : slot k d (State.resetWith c) = Slot.free := by
  rw [slot, chan_reset, Channel.slot_free]

end

end Sys2Proof.Machine

open Sys2Proof Sys2Proof.Machine Sys2Proof.Safety Sys2Proof.Claims

/-- Settles O14, by the number each register's word is. -/
theorem registerReads : Obligations.RegisterReads := by
  intro s legal fits
  refine ⟨?ctrl, ?intEn, ?nakLimit, rfl, rfl, rfl, rfl, ?status, ?empty, ?head, ?param0, ?param1, ?param2, rfl, rfl, rfl⟩
  case ctrl => rw [exec_regCtrl_read, ctrlWord_eq_ofNat]; rfl
  case intEn => rw [exec_regIntEn_read, intEnWord_eq_ofNat]; rfl
  case nakLimit => rw [exec_regNakLimit_read, ofNat_of_toNat (toNat_field_zero s.nakLimit (by decide))]; rfl
  case status => rw [exec_regEvqStatus, readOnly_read, evqStatusWord_eq_ofNat legal fits]; rfl
  case empty =>
    intro none
    rw [exec_regEvqPop_read, exec_regEvqPeek, readOnly_read, evqHead_nil none]
    exact ⟨by rw [evq_tail_of_nil none]; rfl, rfl⟩
  case head =>
    intro w rest some
    rw [exec_regEvqPop_read, exec_regEvqPeek, readOnly_read, evqHead_cons some]
    exact ⟨by simp [returnRead, some], rfl⟩
  case param0 => rw [exec_regParam0, readOnly_read, param0Word_eq_ofNat legal]; rfl
  case param1 => rw [exec_regParam1, readOnly_read, param1Word_eq_ofNat legal]; rfl
  case param2 => rw [exec_regParam2, readOnly_read, param2Word_eq_ofNat legal]; rfl

/-- Settles O13: the reads of O14 in the reset state, whose tables are all free. -/
theorem resetReads : Obligations.ResetReads := by
  intro c legal
  obtain ⟨ctrl, intEn, nakLimit, arg0, -, result, result2, status, -⟩ :=
    registerReads (State.resetWith c) legal (Nat.zero_le _)
  rw [evq_reset, cfg_reset, List.length_nil, Nat.add_zero] at status
  rw [ctrl, intEn, nakLimit, arg0, result, result2]
  exact ⟨rfl, rfl, rfl, rfl, rfl, rfl, status, entry_reset c, chan_reset c, rfl⟩

/-- Settles O18, by the order of INIT's two checks. -/
theorem initRule : Obligations.InitRule := by
  intro s z role
  refine ⟨fun reserved => ?_, fun done => ?_, fun first => ?_⟩
  · exact if_pos (by simpa [rsv] using reserved)
  · exact if_pos done
  · have ran : exec (.init 0 role) s = .next (accept (initRole role s)) := if_neg (by simp [first])
    refine ⟨_, ran, rfl, ?_, ?_⟩ <;> rintro rfl <;> rw [exec_regIntEn_read, intEnWord_initRole] <;> rfl

/-- Settles O9: every table and memory is empty. -/
theorem resetIsGood : Obligations.ResetIsGood := by
  intro c legal
  refine good_of_parts ⟨⟨legal, List.length_replicate, List.length_replicate⟩, ?memories, rfl⟩ ?r54 ?endpoints ?transfers ?armed
  case memories => exact ⟨⟨.nil, nofun⟩, ⟨.nil, nofun⟩, nofun, nofun⟩
  case r54 =>
    rw [firstBroken_none]
    simp [Inv1, Inv2, Inv3, Inv4, Inv5, Inv6, Inv8, Inv8Used, Inv8Pair, Inv8Unique, Half.closed, Slot.free, Entry.free]
  case endpoints => simp [EndpointFacts, EveryHalf, BeforeInit, ClosedHalves, OpenSizes, CoLocated, Half.closed]
  case transfers => simp [TransferFacts, EveryHalf, SetupTransfers, Buffers, RetryCounts, Half.closed]
  case armed => simp [ArmedCounts, EveryHalf, Half.closed]

end

