-- ==== Sys2Proof/Proofs/LinkEnabling.lean ====
section
/-! SUPPORT. When a link event is taken and when it is refused (R125, R216, R218, R250, R282, R295), and what a bus event that only
reports does (R292 to R294). -/

namespace Sys2Proof.Machine

open Sys2Proof.Safety Sys2Proof.Claims

section
variable {s : State} {c : BitVec 4} {d : Dir}

/-- A link event is refused where its enabling condition, in the words of the rules, fails. -/
theorem whenEnabled_of_not {e : Bool} {p : Prop} (r : Result) (iff : e = true ↔ p) (fails : ¬ p) :
    whenEnabled e r = .refused .linkNotEnabled := if_neg (fails ∘ iff.1)

theorem setupEnabled_iff : setupEnabled c d s = true ↔
    SlotReady c d s ∧ s.role = .device ∧ d = .out ∧ (slotHalf c d s).setup = true := by
  simp [setupEnabled, slotEnabled_iff, and_assoc]

theorem sendEnabled_iff : (slotEnabled c d s && isSend s.role d) = true ↔ SlotReady c d s ∧ isSend s.role d = true := by
  rw [Bool.and_eq_true, slotEnabled_iff]

/-- A bus event of either role: INIT is done and there is room for its word, if one is due (R282, R294). -/
theorem busEnabled_iff {e : EventClass} : (s.initDone && roomIf e s) = true ↔ s.initDone = true ∧ RoomFor (e.bit - 1) s := by
  rw [Bool.and_eq_true, roomIf_iff]

/-- A bus event of the host role (R292, R293). -/
theorem hostBusEnabled_iff {e : EventClass} : (s.initDone && s.role == .host && roomIf e s) = true ↔
    s.initDone = true ∧ s.role = .host ∧ RoomFor (e.bit - 1) s := by
  rw [Bool.and_eq_true, Bool.and_eq_true, roomIf_iff, beq_iff_eq, and_assoc]

theorem exec_linkRxData_of_fits {pid : Bool} {n : BitVec 11} {data : List Byte} (fits : data.length = n.toNat) :
    exec (.linkRxData c d pid n data) s = whenEnabled (rxEnabled c d s) (receivePacket c d pid data s) :=
  if_neg (by simp [payloadFits, fits])

theorem exec_linkRxData_of_not_fits {pid : Bool} {n : BitVec 11} {data : List Byte} (wrong : data.length ≠ n.toNat) :
    exec (.linkRxData c d pid n data) s = .refused .illFormedLink := if_pos (by simp [payloadFits, wrong])

theorem exec_linkSetupRx_of_fits {data : List Byte} (fits : data.length = 8) :
    exec (.linkSetupRx c d 8 data) s = whenEnabled (setupEnabled c d s) (acceptSetup c data s) :=
  if_neg (by simp [payloadFits, fits])

theorem exec_linkSetupRx_of_not_fits {n : BitVec 11} {data : List Byte} (wrong : n ≠ 8 ∨ data.length ≠ 8) :
    exec (.linkSetupRx c d n data) s = .refused .illFormedLink := by
  have notFits : ¬ (n == 8#11 && payloadFits n data) = true := by
    rw [Bool.and_eq_true, beq_iff_eq, payloadFits_iff]
    rintro ⟨rfl, len⟩
    exact wrong.elim (absurd rfl) (absurd len)
  exact if_pos (by rw [Bool.eq_false_of_not_eq_true notFits]; rfl)

/-- What a bus event that only reports leaves (R280). -/
theorem pushIf_eq_reported (e : EventClass) (w : Word) (s : State) : pushIf e w s = reported (e.bit - 1) w s := by
  rw [pushIf, enabled_eq, reported]
  split
  · rfl
  · rw [List.append_nil]

theorem whenEnabled_report {b : Bool} {e : EventClass} {w : Word} (h : b = true) :
    whenEnabled b (.next (pushIf e w s)) = .next (reported (e.bit - 1) w s) := by
  rw [whenEnabled_of_enabled _ h, pushIf_eq_reported]

theorem attachedWord_eq_ofNat (speed : Bool) : attachedWord speed = BitVec.ofNat 32 (0x30000000 + speed.toNat) := by
  cases speed <;> decide

/-- Before INIT no slot condition holds (R125). -/
theorem not_slotReady_of_not_initDone (before : s.initDone = false) : ¬ SlotReady c d s := by
  simp [SlotReady, before]

end

end Sys2Proof.Machine

open Sys2Proof Sys2Proof.Machine Sys2Proof.Safety Sys2Proof.Claims

/-- Settles O48: each enabling condition says in one Boolean what the rules say of the event. -/
theorem linkEnabling : Obligations.LinkEnabling := by
  intro s c d
  refine ⟨whenEnabled_of_not _ sendEnabled_iff, ?rx, ?setup, ?retry, whenEnabled_of_not _ busEnabled_iff,
    whenEnabled_of_not _ busResetReady_iff, fun fails speed => whenEnabled_of_not _ hostBusEnabled_iff fails,
    whenEnabled_of_not _ hostBusEnabled_iff, whenEnabled_of_not _ busEnabled_iff, whenEnabled_of_not _ busEnabled_iff⟩
  case rx =>
    intro pid n data fails fits
    rw [exec_linkRxData_of_fits fits]
    exact whenEnabled_of_not _ rxEnabled_iff fun ⟨ready, receives, noSetup⟩ => fails ⟨ready, receives, noSetup, fits⟩
  case setup =>
    intro data fits fails
    rw [exec_linkSetupRx_of_fits fits]
    exact whenEnabled_of_not _ setupEnabled_iff fails
  case retry =>
    exact fun fails => ⟨whenEnabled_of_not _ retryEnabled_iff fails, whenEnabled_of_not _ retryEnabled_iff fails,
      whenEnabled_of_not _ retryEnabled_iff fails⟩

/-- Settles O49: a payload of the wrong length is turned away before the state is looked at. -/
theorem reservedLinkKinds : Obligations.ReservedLinkKinds :=
  fun _ _ _ => ⟨rfl, rfl, rfl, rfl, fun _ _ _ _ wrong => exec_linkRxData_of_not_fits wrong,
    fun _ _ _ wrong => exec_linkSetupRx_of_not_fits wrong⟩

/-- Settles O47: each of the four is enabled, and pushes its word if its class is. -/
theorem busReports : Obligations.BusReports := by
  intro s speed init
  refine ⟨fun host room => ?_, fun host room => ?_, fun room => ?_, fun room => ?_⟩
  · rw [← attachedWord_eq_ofNat]
    exact whenEnabled_report (hostBusEnabled_iff.2 ⟨init, host, room⟩)
  · exact whenEnabled_report (hostBusEnabled_iff.2 ⟨init, host, room⟩)
  · exact whenEnabled_report (busEnabled_iff.2 ⟨init, room⟩)
  · exact whenEnabled_report (busEnabled_iff.2 ⟨init, room⟩)

end

