-- ==== Sys2Proof/Proofs/CommandAnswers.lean ====
section
/-! SUPPORT. What commands answer in every state: NOTINIT before INIT (R322), a status with nothing else changed or no status
(R321), EP_FIND's handle (R157), and a second XFER_ABORT (R205). -/

namespace Sys2Proof.Machine

open Sys2Proof.Safety Sys2Proof.Claims

/-! ### The answered words -/

section
variable {s t : State}

theorem reject_eq (code : Status) (s : State) :
    reject code s = { s with result := BitVec.ofNat 32 code.code.toNat, result2 := 0 } :=
  congrArg (fun w => { s with result := w, result2 := 0 }) (ofNat_of_toNat (toNat_field_zero code.code (by decide)))

/-- HANDLE in its place (R39). -/
theorem toNat_handleWord (h : Nat) : (field 8 (BitVec.ofNat 8 h)).toNat = h % 256 * 256 := by
  have word := toNat_field_or 8 (BitVec.ofNat 8 h) (w := 0#32) rfl (by decide) (by decide)
  rw [BitVec.or_zero, BitVec.toNat_ofNat] at word
  simpa using word

theorem handleWord_eq_ofNat {h : Nat} (hh : h < 256) : field 8 (BitVec.ofNat 8 h) = BitVec.ofNat 32 (h * 256) :=
  ofNat_of_toNat (by rw [toNat_handleWord, Nat.mod_eq_of_lt hh])

theorem acceptHandle_eq {h : Nat} (hh : h < 256) (s : State) :
    acceptHandle h s = { s with result := BitVec.ofNat 32 (h * 256), result2 := 0 } := by
  rw [acceptHandle, handleWord_eq_ofNat hh]

/-- A word without a status in bits 3 to 0 (R39). -/
def NoStatus (w : Word) : Prop := w.toNat % 16 = 0

theorem noStatus_acceptHandle (h : Nat) : NoStatus (acceptHandle h s).result := by
  rw [acceptHandle_result, NoStatus, toNat_handleWord]
  omega

theorem noStatus_queryWord (x : Half) : NoStatus (queryWord x) := by
  rw [NoStatus, queryWord_eq_ofNat, BitVec.toNat_ofNat, queryNumber_eq_codes]
  omega

theorem status_code (code : Status) : code.code.toNat < 15 ∧ (code.code.toNat = 0 → code = .ok) := by cases code <;> decide

/-- The status of a rejected command is its code, below 15 and not 0 (R321). -/
theorem rejected_status (h : Rejected s t) :
    t.result ≠ 0 ∧ t.result.toNat < 15 ∧ t.result2 = 0 ∧ t = { s with result := t.result, result2 := t.result2 } := by
  obtain ⟨code, notOk, rfl⟩ := h
  have word : (reject code s).result.toNat = code.code.toNat := toNat_field_zero code.code (by decide)
  obtain ⟨small, zero⟩ := status_code code
  exact ⟨fun none => notOk (zero (by rw [← word, none]; rfl)), word ▸ small, rfl, rfl⟩

/-- A command is rejected, or answers without a status (R321). -/
theorem command_rejected_or_noStatus {i : Instr} (command : isCommand i = true) (h : exec i s = .next t) :
    Rejected s t ∨ NoStatus t.result := by
  cases i with
  | init z role =>
    refine (init_accepts s z role t h).imp_right ?_
    rintro ⟨-, -, rfl⟩
    rfl
  | epOpen type mps dev dir z num =>
    refine (epOpen_accepts s type mps dev dir z num t h).imp_right ?_
    rintro ⟨-, -, k, u, -, -, rfl⟩
    exact noStatus_acceptHandle k
  | epClose z dir handle =>
    refine (epClose_accepts s z dir handle t h).imp_right ?_
    rintro ⟨-, -, rfl⟩
    rfl
  | epFind z dev dir z2 num =>
    refine (epFind_accepts s z dev dir z2 num t h).imp_right ?_
    rintro ⟨k, -, rfl⟩
    exact noStatus_acceptHandle k
  | xferSubmit setup zlp len z dir handle =>
    refine (xferSubmit_accepts s setup zlp len z dir handle t h).imp_right ?_
    rintro ⟨-, u, v, -, -, rfl⟩
    rfl
  | xferAbort z dir handle =>
    refine (xferAbort_accepts s z dir handle t h).imp_right ?_
    rintro ⟨-, -, -, ⟨-, rfl⟩ | ⟨-, rfl⟩⟩ <;> rfl
  | epClearStall z dir handle =>
    refine (epClearStall_accepts s z dir handle t h).imp_right ?_
    rintro ⟨-, -, rfl⟩
    rfl
  | devClose z dev z2 =>
    refine (devClose_accepts s z dev z2 t h).imp_right ?_
    rintro ⟨-, -, -, rfl⟩
    rfl
  | epQuery z dir handle =>
    refine (epQuery_accepts s z dir handle t h).imp_right ?_
    rintro ⟨-, rfl⟩
    exact noStatus_queryWord _
  | illegal0 | illegalA | illegalB | illegalC | illegalD | illegalE | illegalF =>
    cases h
    exact .inl ⟨.illegal, by decide, rfl⟩
  | _ => cases command

end

/-! ### Before INIT -/

/-- Opcodes 0x2 to 0x9 find INIT_DONE 0 first of all (R322). -/
theorem exec_decodeCommand_of_not_initDone {w : Word} {s : State} (before : s.initDone = false)
    (low : 2 ≤ (bits w 28 4).toNat) (high : (bits w 28 4).toNat ≤ 9) :
    exec (decodeCommand w) s = .next (reject .notinit s) := by
  have first : (!s.initDone) = true := by simp [before]
  unfold decodeCommand
  generalize (bits w 28 4).toNat = k at *
  match k with
  | 2 | 3 | 4 | 5 | 6 | 7 | 8 | 9 => exact if_pos first
  | 0 | 1 | k + 10 => omega

/-- Every link event waits for INIT (R125, R295). -/
theorem link_refused_of_not_initDone {i : Instr} {s : State} (before : s.initDone = false) (event : isLink i = true) :
    ∃ e, exec i s = .refused e := by
  have noSlot (c d) : ¬ SlotReady c d s := not_slotReady_of_not_initDone before
  have noInit {p : Prop} : ¬ (s.initDone = true ∧ p) := by simp [before]
  obtain ⟨-, -, -, -, frame, reset, attach, detach, suspend, resume⟩ := linkEnabling s 0 .out
  cases i with
  | linkTxAck c d => exact ⟨_, (linkEnabling s c d).1 fun ready => noSlot c d ready.1⟩
  | linkRxData c d pid n data =>
    by_cases fits : data.length = n.toNat
    · exact ⟨_, (linkEnabling s c d).2.1 pid n data (fun ready => noSlot c d ready.1) fits⟩
    · exact ⟨_, exec_linkRxData_of_not_fits fits⟩
  | linkSetupRx c d n data =>
    by_cases fits : n = 8 ∧ data.length = 8
    · obtain ⟨rfl, len⟩ := fits
      exact ⟨_, (linkEnabling s c d).2.2.1 data len fun ready => noSlot c d ready.1⟩
    · exact ⟨_, exec_linkSetupRx_of_not_fits (not_and_or.1 fits)⟩
  | linkNak c d => exact ⟨_, ((linkEnabling s c d).2.2.2.1 fun ready => noSlot c d ready.2.1).1⟩
  | linkStall c d => exact ⟨_, ((linkEnabling s c d).2.2.2.1 fun ready => noSlot c d ready.2.1).2.1⟩
  | linkXerr c d => exact ⟨_, ((linkEnabling s c d).2.2.2.1 fun ready => noSlot c d ready.2.1).2.2⟩
  | linkFrame => exact ⟨_, frame noInit⟩
  | linkBusReset => exact ⟨_, reset noInit⟩
  | linkAttach speed => exact ⟨_, attach noInit speed⟩
  | linkDetach => exact ⟨_, detach noInit⟩
  | linkSuspend => exact ⟨_, suspend noInit⟩
  | linkResume => exact ⟨_, resume noInit⟩
  | linkReserved0 | linkReservedD | linkReservedE | linkReservedF => exact ⟨_, rfl⟩
  | _ => cases event

/-! ### EP_FIND -/

section
variable {s : State} {dev : BitVec 7} {num : BitVec 4} {dir : Dir}

/-- One entry at most holds an identity, so EP_FIND's search finds it where that half is open (R45, R157). -/
theorem findOpen_of_identity (unique : Inv8Unique s) {h : Nat} (hh : h < s.cfg.epMax) (identity : Identity h dev num s)
    (isOpen : (half h dir s).isOpen = true) : findOpen dev num dir s = some h := by
  obtain ⟨used, hdev, hnum⟩ := identity
  refine List.find?_range_eq_some.2 ⟨by simp [used, hdev, hnum, isOpen], List.mem_range.2 hh, fun h' lt => ?_⟩
  rw [Bool.not_eq_true']
  by_contra found
  simp only [Bool.not_eq_false, Bool.and_eq_true, beq_iff_eq] at found
  obtain ⟨⟨⟨used', hdev'⟩, hnum'⟩, -⟩ := found
  have same : sameIdentity (entry h' s) (entry h s) = true := by simp [sameIdentity, hdev, hnum, hdev', hnum']
  exact absurd (unique h' (lt.trans hh) used' h hh used same) (Nat.ne_of_lt lt)

theorem exec_epFind_of_found {h : Nat} (init : s.initDone = true) (found : findOpen dev num dir s = some h) :
    exec (.epFind 0 dev dir 0 num) s = .next (acceptHandle h s) := by
  change execEpFind 0 dev dir 0 num s = _
  rw [execEpFind, if_neg (by simp [init]), if_neg (by decide), found]

theorem exec_epFind_of_not_found (init : s.initDone = true) (notFound : findOpen dev num dir s = none) :
    exec (.epFind 0 dev dir 0 num) s = .next (reject .notfound s) := by
  change execEpFind 0 dev dir 0 num s = _
  rw [execEpFind, if_neg (by simp [init]), if_neg (by decide), notFound]

end

/-! ### XFER_ABORT twice -/

section
variable (s : State) (h : Nat) (d : Dir)

/-- Releasing a slot clears the binding of a half and no other field of any (R172). -/
theorem half_chRelease_cases (c h' : Nat) (d' : Dir) :
    half h' d' (chRelease c d s) = half h' d' s ∨
      half h' d' (chRelease c d s) = { half h' d' s with bound := false, ch := 0 } := by
  rw [chRelease, half_congr (dropAssociation_eps c _), half_modHalf]
  split
  next here =>
    obtain ⟨rfl, rfl, -⟩ := here
    exact .inr rfl
  · exact .inl rfl

theorem sameIdentities_abortHalf : SameIdentities s (abortHalf h d s) := by
  have ended : SameIdentities s (setXs h d .idle (setValid (half h d s).ch.toNat d false
      (setValid (half h d s).ch.toNat d false s))) := modHalf_sameIdentities (h := h) d _
  rw [abortHalf, settle, releaseIfHost]
  split
  · exact sameIdentities_trans ended chRelease_sameIdentities
  · exact ended

/-- An aborted half is as open as before, and IDLE (R206, R230). -/
theorem half_abortHalf_isOpen_idle (hh : h < s.eps.length) :
    (half h d (abortHalf h d s)).isOpen = (half h d s).isOpen ∧ (half h d (abortHalf h d s)).xs = .idle := by
  have ended : half h d (setXs h d .idle (setValid (half h d s).ch.toNat d false
      (setValid (half h d s).ch.toNat d false s))) = { half h d s with xs := .idle } := half_modHalf_self d _ hh
  rw [abortHalf, settle, half_push, releaseIfHost]
  split
  · obtain e | e := half_chRelease_cases (setXs h d .idle (setValid (half h d s).ch.toNat d false
      (setValid (half h d s).ch.toNat d false s))) d (half h d s).ch.toNat h d
    · exact ⟨(congrArg Half.isOpen e).trans (by rw [ended]), (congrArg Half.xs e).trans (by rw [ended])⟩
    · exact ⟨(congrArg Half.isOpen e).trans (by rw [ended]), (congrArg Half.xs e).trans (by rw [ended])⟩
  · exact ⟨(congrArg Half.isOpen ended :), (congrArg Half.xs ended :)⟩

end

/-- A used entry is one of the table. -/
theorem lt_length_of_used {s : State} {h : Nat} (used : (entry h s).used = true) : h < s.eps.length := by
  by_contra outside
  rw [entry_outside (Nat.not_lt.1 outside)] at used
  cases used

/-- XFER_ABORT of an open IDLE half is accepted with no effect (R205). -/
theorem exec_xferAbort_of_idle {s : State} {dir : Dir} {handle : BitVec 8} (init : s.initDone = true)
    (ok : handleOk handle.toNat dir s = true) (idle : (half handle.toNat dir s).xs = .idle) :
    exec (.xferAbort 0 dir handle) s = .next (accept s) := by
  change execXferAbort 0 dir handle s = _
  rw [execXferAbort, if_neg (by simp [init]), if_neg (by decide), if_neg (by simp [ok]), if_pos idle]

/-- An accepted abort leaves the half open and IDLE. -/
theorem handleOk_abortHalf {s : State} {dir : Dir} {h : Nat} (ok : handleOk h dir s = true) :
    handleOk h dir (abortHalf h dir s) = true ∧ (half h dir (abortHalf h dir s)).xs = .idle := by
  obtain ⟨hh, used, isOpen⟩ := handleOk_iff.1 ok
  obtain ⟨sameOpen, idle⟩ := half_abortHalf_isOpen_idle s h dir (lt_length_of_used used)
  exact ⟨handleOk_iff.2 ⟨by simpa using hh, (sameIdentities_abortHalf s h dir h).1.trans used, sameOpen.trans isOpen⟩, idle⟩

end Sys2Proof.Machine

open Sys2Proof Sys2Proof.Machine Sys2Proof.Safety Sys2Proof.Claims

/-- Settles O16: INIT_DONE is the first check of every command but INIT, and part of every enabling condition. -/
theorem beforeInitNothingRuns : Obligations.BeforeInitNothingRuns := by
  intro s before
  refine ⟨fun w low high => ?_, fun i event => link_refused_of_not_initDone before event⟩
  rw [toNat_kind] at low high
  rw [exec_decodeCommand_of_not_initDone before low high, reject_eq]
  rfl

/-- Settles O20: an accepted command reports no status. -/
theorem rejectionsChangeNothing : Obligations.RejectionsChangeNothing := by
  intro w s t h status
  obtain rejected | noStatus := command_rejected_or_noStatus (isCommand_decodeCommand w) h
  · exact (rejected_status rejected).2
  · exact absurd noStatus status

/-- Settles O25: no two entries hold one identity, so the search finds the only one. -/
theorem findRule : Obligations.FindRule := by
  intro dev dir num s good init
  refine ⟨fun h hh identity isOpen => ?_, fun noEntry => ?_⟩
  · obtain ⟨-, ⟨-, entries⟩, -⟩ := good.shape.1
    rw [exec_epFind_of_found init (findOpen_of_identity good.inv8Unique hh identity isOpen), acceptHandle_eq (by omega)]
  · have notFound : findOpen dev num dir s = none := List.find?_eq_none.2 fun h hh p => by
      simp only [Bool.and_eq_true, beq_iff_eq] at p
      obtain ⟨⟨⟨used, hdev⟩, hnum⟩, isOpen⟩ := p
      exact noEntry h (List.mem_range.1 hh) ⟨⟨used, hdev, hnum⟩, isOpen⟩
    rw [exec_epFind_of_not_found init notFound, reject_eq]
    rfl

/-- Settles O35: an accepted abort leaves the half open and IDLE, where an abort has no effect. -/
theorem abortTwice : Obligations.AbortTwice := by
  intro z dir handle s t h result
  obtain rejected | ⟨rfl, init, ok, ⟨idle, rfl⟩ | ⟨-, rfl⟩⟩ := xferAbort_accepts s z dir handle t h
  · exact absurd result (rejected_status rejected).1
  · exact exec_xferAbort_of_idle (s := accept s) init ok idle
  · obtain ⟨okAfter, idleAfter⟩ := handleOk_abortHalf ok
    exact exec_xferAbort_of_idle (s := accept (abortHalf handle.toNat dir s))
      (show (abortHalf handle.toNat dir s).initDone = true by simpa using init) okAfter idleAfter

end

