-- ==== Sys2Proof/Proofs/RetryBounds.lean ====
section
/-! SUPPORT. How often a packet is attempted (R251, R255): what one attempt without an acknowledgement leaves, that such an attempt
leaves the packet armed or ends it, and a packet longer than the slot accepts (R216). -/

namespace Sys2Proof.Machine

open Sys2Proof.Safety Sys2Proof.Claims

/-! ### A packet that stays armed -/

/-- The transfer of a slot is in flight and enabled as before, its half is `y`, and no event was pushed. -/
structure StillArmed (c : BitVec 4) (d : Dir) (y : Half) (s t : State) : Prop where
  ready : RetryReady c d t
  serves : Serves c.toNat (slotHandle c d t) d t
  handle : slotHandle c d t = slotHandle c d s
  evq : t.evq = s.evq
  frame : LinkFrame s t
  becomes : slotHalf c d t = y

section
variable {c : BitVec 4} {d : Dir} {s t u : State} {y z : Half}

theorem stillArmed_zero (g : Good s) (r : RetryReady c d s) : StillArmed c d (slotHalf c d s) s s :=
  ⟨r, serves_of_good g r.2.1, rfl, rfl, ⟨⟨rfl, rfl⟩, by simp [SameControls], fun _ => ⟨rfl, rfl, rfl⟩⟩, rfl⟩

/-- An attempt that changes the half's counters only leaves the packet armed. -/
theorem StillArmed.step (a : StillArmed c d y s t) (b : OnlyHalf (slotHandle c d t) d z t u) (sizes : Kept t u)
    (hCh : z.ch = y.ch) (hXs : z.xs = y.xs) : StillArmed c d z s u := by
  obtain ⟨⟨role, ⟨hc, hb, hv, init, room⟩, xs⟩, sv, handle, evq, frame, half⟩ := a
  obtain ⟨becomes, -, chans, evq', -, -, frame'⟩ := b
  have sameSlot := slot_congr chans c.toNat d
  have sameHandle : slotHandle c d u = slotHandle c d t := by rw [slotHandle, sameSlot, slotHandle]
  have newHalf : slotHalf c d u = z := by rw [slotHalf, sameHandle, becomes]
  obtain ⟨-, ⟨cfg, -, hrole, hinit, -⟩, -⟩ := id frame'
  refine ⟨⟨by rw [hrole, role], ⟨by rwa [cfg], by rwa [sameSlot], by rwa [sameSlot], by rwa [hinit], by rwa [evq', cfg]⟩, ?_⟩,
    ?_, sameHandle.trans handle, evq'.trans evq, linkFrame_trans frame frame', newHalf⟩
  · rw [newHalf, hXs, ← half, xs]
  · rw [sameHandle]
    obtain ⟨chan_lt, entry_lt, -, ep, ch⟩ := sv
    exact ⟨by rwa [chans], by rwa [sizes.sizes.1], by rwa [sameSlot], by rwa [sameSlot], by rw [becomes, hCh, ← half]; exact ch⟩

/-- An attempt that ends the transfer leaves its half IDLE with one completion, and no further attempt is enabled (R230, R250). -/
theorem StillArmed.settled {outcome : Nat} (a : StillArmed c d y s t) (b : SettlesWith outcome c d z t u) :
    (half (slotHandle c d s) d u).xs = .idle ∧
      u.evq = s.evq ++ [completion outcome d (slotHandle c d s) y.done.toNat] ∧ ¬ RetryReady c d u := by
  obtain ⟨⟨role, -⟩, -, handle, evq, -, half⟩ := a
  obtain ⟨settled, -, ⟨slot, -⟩, pushed, -⟩ := b
  rw [role, handle] at settled
  rw [if_pos role] at slot
  refine ⟨by rw [settled]; rfl, by rw [pushed, evq, handle, half], fun ready => ?_⟩
  obtain ⟨-, ⟨-, bound, -⟩, -⟩ := ready
  rw [slot] at bound
  cases bound

/-- Attempts that each leave the packet armed do so one after another. -/
theorem repeatExec_stillArmed {i : Instr} {f : Nat → Half} {n : Nat} (start : StillArmed c d (f 0) s s)
    (attempt : ∀ k < n, ∀ t, StillArmed c d (f k) s t → ∃ u, exec i t = .next u ∧ StillArmed c d (f (k + 1)) s u) :
    ∀ k ≤ n, ∃ t, repeatExec i k s = .next t ∧ StillArmed c d (f k) s t := by
  intro k
  induction k with
  | zero => exact fun _ => ⟨s, rfl, start⟩
  | succ k ih =>
    intro hk
    obtain ⟨t, run, armed⟩ := ih (by omega)
    obtain ⟨u, step, armed'⟩ := attempt k hk t armed
    exact ⟨u, repeatExec_succ run step, armed'⟩

theorem repeatExec_refused {i : Instr} {k : Nat} {e : Refusal} (run : repeatExec i k s = .next t)
    (refuses : exec i t = .refused e) : repeatExec i (k + 1) s = .refused e := by
  rw [repeatExec, run]
  exact refuses

end

/-! ### NAK (R251) -/

section
variable {c : BitVec 4} {d : Dir} {s t : State}

/-- The half after `k` NAKs more. -/
def nakedTimes (c : BitVec 4) (d : Dir) (s : State) (k : Nat) : Half :=
  { slotHalf c d s with nak := BitVec.ofNat 16 ((slotHalf c d s).nak.toNat + k) }

theorem naked_nakedTimes {k : Nat} (lt : (slotHalf c d s).nak.toNat + k < 65535) :
    naked (nakedTimes c d s k) = nakedTimes c d s (k + 1) := by
  have count : (BitVec.ofNat 16 ((slotHalf c d s).nak.toNat + k)).toNat = (slotHalf c d s).nak.toNat + k := by
    rw [BitVec.toNat_ofNat]
    omega
  simp only [naked, nakedTimes, count, if_neg (Nat.ne_of_lt lt), Nat.add_assoc]

theorem toNat_nakedTimes {k : Nat} (le : (slotHalf c d s).nak.toNat + k ≤ 65535) :
    (nakedTimes c d s k).nak.toNat = (slotHalf c d s).nak.toNat + k := by
  rw [nakedTimes, BitVec.toNat_ofNat]
  omega

/-- One NAK of a non-periodic half: below the limit the packet stays armed, at the limit the transfer settles (R251). -/
theorem StillArmed.nak {k : Nat} (a : StillArmed c d (nakedTimes c d s k) s t) (notIso : (slotHalf c d s).type ≠ .iso)
    (notIntr : (slotHalf c d s).type ≠ .intr) (below : (slotHalf c d s).nak.toNat + k < s.nakLimit.toNat) :
    exec (.linkNak c d) t = .next (nakPacket c d t) ∧
      (if (slotHalf c d s).nak.toNat + (k + 1) < s.nakLimit.toNat then
        StillArmed c d (nakedTimes c d s (k + 1)) s (nakPacket c d t)
       else SettlesWith 3 c d (nakedTimes c d s (k + 1)) t (nakPacket c d t)) := by
  have small := s.nakLimit.isLt
  obtain ⟨after, -⟩ := nakPacket_nakAfter a.serves
  have limit : t.nakLimit = s.nakLimit := a.frame.2.1.2.2.2.2.2.2.1
  have notPeriodic : ¬ ((nakedTimes c d s k).type = .iso ∨ (nakedTimes c d s k).type = .intr) :=
    fun h => h.elim notIso notIntr
  rw [a.becomes, if_neg notPeriodic, limit, naked_nakedTimes (by omega), toNat_nakedTimes (by omega)] at after
  refine ⟨exec_linkNak_of_ready a.ready, ?_⟩
  split
  next more =>
    rw [if_neg (by omega)] at after
    exact a.step after ((kept_recordTx t c d .nak).trans (kept_nakPacket t c d).kept) rfl rfl
  next last => rwa [if_pos (by omega)] at after

end

/-! ### XERR (R255) -/

section
variable {c : BitVec 4} {d : Dir} {s t : State}

/-- The half with an error count. -/
def erredTimes (c : BitVec 4) (d : Dir) (s : State) (k : Nat) : Half := { slotHalf c d s with err := BitVec.ofNat 5 k }

/-- One more transmission error: within the bound the packet stays armed, beyond it the transfer settles (R255). -/
theorem StillArmed.xerr {k : Nat} (a : StillArmed c d (erredTimes c d s k) s t) (small : k < 31) :
    exec (.linkXerr c d) t = .next (xErr c d (recordTx c d .xerr t)) ∧
      (if k + 1 ≤ s.cfg.errRetryMax then
        StillArmed c d (erredTimes c d s (k + 1)) s (xErr c d (recordTx c d .xerr t))
       else SettlesWith 2 c d (erredTimes c d s (k + 1)) t (xErr c d (recordTx c d .xerr t))) := by
  have count : (erredTimes c d s k).err.toNat = k := by
    rw [erredTimes, BitVec.toNat_ofNat]
    omega
  have cfg : t.cfg = s.cfg := a.frame.2.1.1
  have after := xErr_recordTx_errorAfter .xerr a.serves (by rw [a.becomes, count]; omega)
  rw [ErrorAfter, a.becomes, count, cfg] at after
  refine ⟨exec_linkXerr_of_ready a.ready, ?_⟩
  split
  next more =>
    rw [if_pos more] at after
    exact a.step after ((kept_recordTx t c d .xerr).trans (quiet_xErr _ c d).kept) rfl rfl
  next last => rwa [if_neg last] at after

end

end Sys2Proof.Machine

open Sys2Proof Sys2Proof.Machine Sys2Proof.Safety Sys2Proof.Claims

/-- Settles O58: each NAK below the limit leaves the packet armed with one more counted, and the one that reaches it settles. -/
theorem nakBudgetExact : Obligations.NakBudgetExact := by
  intro c d s good ready notIso notIntr below
  have start : StillArmed c d (nakedTimes c d s 0) s s := by
    have same : nakedTimes c d s 0 = slotHalf c d s := by simp [nakedTimes]
    rw [same]
    exact stillArmed_zero good ready
  have run := repeatExec_stillArmed (i := .linkNak c d) (f := nakedTimes c d s)
    (n := s.nakLimit.toNat - (slotHalf c d s).nak.toNat - 1) start fun k hk t armed => by
      obtain ⟨ran, after⟩ := armed.nak notIso notIntr (by omega)
      rw [if_pos (by omega)] at after
      exact ⟨_, ran, after⟩
  obtain ⟨t, runLast, armed⟩ := run _ le_rfl
  obtain ⟨ran, after⟩ := armed.nak notIso notIntr (by omega)
  rw [if_neg (by omega)] at after
  obtain ⟨idle, pushed, ended⟩ := armed.settled after
  have all := repeatExec_succ runLast ran
  rw [Nat.sub_add_cancel (by omega)] at all
  refine ⟨fun k hk => ?_, ⟨_, all, idle, pushed⟩, repeatExec_refused all ?_⟩
  · obtain ⟨u, runK, armedK⟩ := run k (by omega)
    exact ⟨u, runK, armedK.ready, armedK.evq, armedK.becomes⟩
  · exact ((linkEnabling _ c d).2.2.2.1 ended).1

/-- Settles O59: each error within the bound leaves the packet armed with one more counted, and the next settles. -/
theorem errorBoundExact : Obligations.ErrorBoundExact := by
  intro c d s good ready noError
  have bound : s.cfg.errRetryMax ≤ 15 := good.shape.1.2.2.2.2.2.2
  have start : StillArmed c d (erredTimes c d s 0) s s := by
    have same : erredTimes c d s 0 = slotHalf c d s := by
      rw [erredTimes, ← show (slotHalf c d s).err = BitVec.ofNat 5 0 from noError]
    rw [same]
    exact stillArmed_zero good ready
  have run := repeatExec_stillArmed (i := .linkXerr c d) (f := erredTimes c d s) (n := s.cfg.errRetryMax) start
    fun k hk t armed => by
      obtain ⟨ran, after⟩ := armed.xerr (by omega)
      rw [if_pos (by omega)] at after
      exact ⟨_, ran, after⟩
  obtain ⟨t, runLast, armed⟩ := run _ le_rfl
  obtain ⟨ran, after⟩ := armed.xerr (by omega)
  rw [if_neg (by omega)] at after
  obtain ⟨idle, pushed, ended⟩ := armed.settled after
  have all := repeatExec_succ runLast ran
  refine ⟨fun k hk => ?_, ⟨_, all, idle, pushed⟩, repeatExec_refused all ?_⟩
  · obtain ⟨u, runK, armedK⟩ := run k hk
    exact ⟨u, runK, armedK.ready, armedK.evq, armedK.becomes⟩
  · exact ((linkEnabling _ c d).2.2.2.1 ended).2.2

/-- Settles O40: a packet too long takes the transmission-error rule in the host role and is dropped in the device role. -/
theorem rxBabble : Obligations.RxBabble := by
  intro c d pid n data s good ready long
  have received : receivePacket c d pid data s = .next (if s.role = .host then xErr c d s else s) := if_pos long
  rw [exec_linkRxData_of_ready ready, received]
  refine ⟨fun host => ⟨_, by rw [if_pos host], ?_, (quiet_xErr s c d).wire⟩, fun device => by rw [device]; rfl⟩
  have busy : (slotHalf c d s).xs ≠ .idle := by simp [inflight_of_good good ready.1]
  exact xErr_errorAfter (serves_of_good good ready.1) (err_succ_lt_of_good good ready.1 busy)

end

