-- ==== Sys2Proof/Proofs/Allocators.lean ====
section
/-! SUPPORT. Which channel ChAcquire gives (R170) and which offset ArenaAlloc gives (R171): the first that passes, in the order of
the search. -/

namespace Sys2Proof.Machine

open Sys2Proof.Safety Sys2Proof.Claims

/-! ### ChAcquire -/

section
variable {h c : Nat} {d : Dir} {s : State}

theorem servesOther_iff : servesOther h d c s = true ↔
    (slot c (otherDir d) s).bound = true ∧ (slot c (otherDir d) s).ep.toNat = h ∧ (slot c d s).bound = false := by
  simp [servesOther, and_assoc]

theorem fullyFree_iff : fullyFree c s = true ↔ (slot c .out s).bound = false ∧ (slot c .inn s).bound = false := by
  simp [fullyFree]

/-- The first of a range that passes a test. -/
theorem find_range_iff {n k : Nat} {p : Nat → Bool} :
    (List.range n).find? p = some k ↔ k < n ∧ p k = true ∧ ∀ j < k, p j = false := by
  rw [List.find?_range_eq_some]
  simp only [List.mem_range, Bool.not_eq_true', and_left_comm]

theorem find_range_none {n : Nat} {p : Nat → Bool} : (List.range n).find? p = none ↔ ∀ j < n, p j = false := by
  simp [List.find?_eq_none]

/-- Co-location comes first; the fully free channels are searched where no channel serves the entry (R170). -/
theorem chAcquire_iff : chAcquire h d s = some c ↔
    c < s.cfg.numCh ∧
    ((servesOther h d c s = true ∧ ∀ c' < c, servesOther h d c' s = false) ∨
     ((∀ c' < s.cfg.numCh, servesOther h d c' s = false) ∧ fullyFree c s = true ∧ ∀ c' < c, fullyFree c' s = false)) := by
  unfold chAcquire
  cases found : (List.range s.cfg.numCh).find? (fun c => servesOther h d c s) with
  | some k =>
    obtain ⟨hk, serves, first⟩ := find_range_iff.1 found
    constructor
    · rintro ⟨⟩
      exact ⟨hk, .inl ⟨serves, first⟩⟩
    · rintro ⟨hc, ⟨serves', first'⟩ | ⟨none, -⟩⟩
      · rw [← find_range_iff.2 ⟨hc, serves', first'⟩, found]
      · exact absurd serves (by simp [none k hk])
  | none =>
    have noServer := find_range_none.1 found
    refine find_range_iff.trans ⟨fun ⟨hc, free, first⟩ => ⟨hc, .inr ⟨noServer, free, first⟩⟩, ?_⟩
    rintro ⟨hc, ⟨serves, -⟩ | ⟨-, free, first⟩⟩
    · exact absurd serves (by simp [noServer c hc])
    · exact ⟨hc, free, first⟩

end

/-! ### ArenaAlloc -/

section
variable {size o : Nat} {s : State}

theorem clearOf_iff {x : Slot} : clearOf o size x = true ↔
    (x.bound = true → o + size ≤ x.off.toNat ∨ x.off.toNat + x.size.toNat ≤ o) := by
  cases hb : x.bound <;> simp [clearOf, hb]

theorem rangeFree_iff : rangeFree o size s = true ↔ ∀ c < s.cfg.numCh, ∀ d ∈ bothDirs, (slot c d s).bound = true →
    o + size ≤ (slot c d s).off.toNat ∨ (slot c d s).off.toNat + (slot c d s).size.toNat ≤ o := by
  simp [rangeFree, clearOf_iff, bothDirs]

/-- The range at an offset lies in the arena and is free (R171). -/
def Fits (size o : Nat) (s : State) : Prop := o + size ≤ s.cfg.arenaSize ∧ rangeFree o size s = true

/-- The `i`-th offset of the search from `o`. -/
def gridOffset (s : State) (o i : Nat) : Nat := o + i * s.cfg.arenaGran

theorem gridOffset_succ (i : Nat) : gridOffset s (o + s.cfg.arenaGran) i = gridOffset s o (i + 1) := by
  rw [gridOffset, gridOffset, Nat.succ_mul]
  omega

/-- The search gives the first offset that fits. -/
theorem firstFit_first {fuel r : Nat} (found : firstFit size s fuel o = some r) :
    ∃ i, r = gridOffset s o i ∧ Fits size r s ∧ ∀ j < i, ¬ Fits size (gridOffset s o j) s := by
  induction fuel generalizing o with
  | zero => cases found
  | succ fuel ih =>
    rw [firstFit] at found
    split at found
    next inside =>
      split at found
      next free =>
        cases found
        exact ⟨0, by simp [gridOffset], ⟨inside, free⟩, fun j lt => by omega⟩
      next taken =>
        obtain ⟨i, rfl, fits, before⟩ := ih found
        refine ⟨i + 1, gridOffset_succ i, fits, fun j lt => ?_⟩
        cases j with
        | zero => exact fun here => taken (by simpa [gridOffset] using here.2)
        | succ j => exact gridOffset_succ (o := o) j ▸ before j (by omega)
    · cases found

/-- A search that gives nothing has seen that no offset within its fuel fits. -/
theorem firstFit_none {fuel : Nat} (notFound : firstFit size s fuel o = none) {i : Nat} (hi : i < fuel) :
    ¬ Fits size (gridOffset s o i) s := by
  induction fuel generalizing o i with
  | zero => omega
  | succ fuel ih =>
    rw [firstFit] at notFound
    split at notFound
    next inside =>
      split at notFound
      · cases notFound
      next taken =>
        cases i with
        | zero => exact fun here => taken (by simpa [gridOffset] using here.2)
        | succ i => exact gridOffset_succ (o := o) i ▸ ih notFound (by omega)
    next outside =>
      rintro ⟨here, -⟩
      rw [gridOffset] at here
      omega

theorem candidate_iff : Candidate size o s ↔
    ∃ i, o = gridOffset s (roundup s.cfg.arenaBase s.cfg.arenaGran) i ∧ Fits size o s := by
  rw [Candidate, Fits, rangeFree_iff]
  exact ⟨fun ⟨⟨i, eq⟩, fits⟩ => ⟨i, eq, fits⟩, fun ⟨i, eq, fits⟩ => ⟨⟨i, eq⟩, fits⟩⟩

theorem arenaGran_pos (legal : s.cfg.Legal) : 0 < s.cfg.arenaGran := by
  obtain ⟨-, -, -, -, gran, -⟩ := legal
  simp only [List.mem_cons, List.not_mem_nil, or_false] at gran
  omega

/-- The fuel of ArenaAlloc reaches past the end of the arena, so what it does not find does not exist (R171). -/
theorem not_candidate_of_arenaAlloc_none (legal : s.cfg.Legal) (notFound : arenaAlloc size s = none) :
    ¬ Candidate size o s := by
  rw [candidate_iff]
  rintro ⟨i, rfl, fits⟩
  by_cases hi : i < s.cfg.arenaSize + 1
  · exact firstFit_none notFound hi fits
  · have inside := fits.1
    have step : i * 1 ≤ i * s.cfg.arenaGran := Nat.mul_le_mul_left i (arenaGran_pos legal)
    rw [gridOffset] at inside
    omega

/-- The offset found is the lowest candidate: the offsets of the search rise (R171). -/
theorem lowest_of_arenaAlloc_some (found : arenaAlloc size s = some o) :
    Candidate size o s ∧ ∀ o' < o, ¬ Candidate size o' s := by
  obtain ⟨i, rfl, fits, before⟩ := firstFit_first found
  refine ⟨candidate_iff.2 ⟨i, rfl, fits⟩, fun o' lt candidate => ?_⟩
  obtain ⟨j, rfl, fits'⟩ := candidate_iff.1 candidate
  refine before j ?_ fits'
  by_contra notBefore
  have order := Nat.mul_le_mul_right s.cfg.arenaGran (Nat.not_lt.1 notBefore)
  rw [gridOffset, gridOffset] at lt
  omega

theorem arenaAlloc_none_iff (legal : s.cfg.Legal) : arenaAlloc size s = none ↔ ∀ o, ¬ Candidate size o s := by
  refine ⟨fun notFound o => not_candidate_of_arenaAlloc_none legal notFound, fun noCandidate => ?_⟩
  cases found : arenaAlloc size s with
  | none => rfl
  | some o => exact absurd (lowest_of_arenaAlloc_some found).1 (noCandidate o)

theorem arenaAlloc_some_iff (legal : s.cfg.Legal) :
    arenaAlloc size s = some o ↔ Candidate size o s ∧ ∀ o' < o, ¬ Candidate size o' s := by
  refine ⟨lowest_of_arenaAlloc_some, fun ⟨candidate, lowest⟩ => ?_⟩
  cases found : arenaAlloc size s with
  | none => exact absurd candidate (not_candidate_of_arenaAlloc_none legal found)
  | some r =>
    obtain ⟨candidate', lowest'⟩ := lowest_of_arenaAlloc_some found
    exact congrArg some (Nat.le_antisymm (not_lt.1 fun lt => lowest' o lt candidate)
      (not_lt.1 fun lt => lowest r lt candidate'))

end

end Sys2Proof.Machine

open Sys2Proof Sys2Proof.Machine Sys2Proof.Safety Sys2Proof.Claims

/-- Settles O29, by the two searches of ChAcquire. -/
theorem channelChoice : Obligations.ChannelChoice :=
  fun _ _ _ => ⟨fun _ => chAcquire_iff, fun _ => servesOther_iff, fun _ => fullyFree_iff⟩

/-- Settles O30: the search goes through the candidates in ascending order and its fuel reaches past the end of the arena. -/
theorem arenaChoice : Obligations.ArenaChoice :=
  fun _ _ legal => ⟨fun _ => arenaAlloc_some_iff legal, arenaAlloc_none_iff legal⟩

end

