-- ==== Sys2Proof/Proofs/Transfers.lean ====
section
/-! SUPPORT. The commands that act on one endpoint that is open: EP_CLEAR_STALL (R158), XFER_ABORT (R205, R206) and XFER_SUBMIT in
both roles (R201 to R203, R210). -/

namespace Sys2Proof.Machine

open Sys2Proof.Safety Sys2Proof.Claims

/-! ### The slot of a half -/

section
variable {s : State} {h : Nat} {d : Dir}

theorem lt_length_of_isOpen (isOpen : (half h d s).isOpen = true) : h < s.eps.length := by
  by_contra outside
  rw [half, entry_outside (Nat.not_lt.1 outside), Entry.half_free] at isOpen
  cases isOpen

theorem lt_length_of_bound (bound : (half h d s).bound = true) : h < s.eps.length := by
  by_contra outside
  rw [half, entry_outside (Nat.not_lt.1 outside), Entry.half_free] at bound
  cases bound

theorem lt_length_of_busy (busy : (half h d s).xs ≠ .idle) : h < s.eps.length := by
  by_contra outside
  rw [half, entry_outside (Nat.not_lt.1 outside), Entry.half_free] at busy
  exact busy rfl

/-- A bound half is served by the slot it names (R54, INV2). -/
theorem serves_of_bound (g : Good s) (bound : (half h d s).bound = true) : Serves (half h d s).ch.toNat h d s := by
  obtain ⟨-, hEps, hChans⟩ := g.shape
  have hh := lt_length_of_bound bound
  obtain ⟨hc, hb, ep⟩ := g.inv2.2 h (hEps ▸ hh) d (mem_bothDirs d) bound
  exact ⟨hChans ▸ hc, hh, hb, ep, rfl⟩

theorem lt_length_of_slot_bound {c : Nat} (bound : (slot c d s).bound = true) : c < s.chans.length := by
  by_contra outside
  rw [slot, chan_outside (Nat.not_lt.1 outside), Channel.slot_free] at bound
  cases bound

/-- A bound slot serves the half its handle names, and that half is bound (R54, INV2). -/
theorem serves_of_slot_bound {c : Nat} (g : Good s) (bound : (slot c d s).bound = true) :
    Serves c (slot c d s).ep.toNat d s ∧ (half (slot c d s).ep.toNat d s).bound = true := by
  obtain ⟨-, hEps, hChans⟩ := g.shape
  have hc := lt_length_of_slot_bound bound
  obtain ⟨hh, halfBound, ch⟩ := g.inv2.1 c (hChans ▸ hc) d (mem_bothDirs d) bound
  exact ⟨⟨hc, hEps ▸ hh, bound, rfl, ch⟩, halfBound⟩

/-- Slots and halves name each other: the two sides of the binding say the same (R54, INV2). -/
theorem linked_of_good (g : Good s) (c h : Nat) (d : Dir) : ((slot c d s).bound = true ∧ (slot c d s).ep.toNat = h) ↔
    ((half h d s).bound = true ∧ (half h d s).ch.toNat = c) := by
  constructor
  · rintro ⟨bound, rfl⟩
    obtain ⟨sv, halfBound⟩ := serves_of_slot_bound g bound
    exact ⟨halfBound, sv.ch⟩
  · rintro ⟨bound, rfl⟩
    have sv := serves_of_bound g bound
    exact ⟨sv.bound, sv.ep⟩

/-- An open half with a transfer in flight is bound (R54, INV5, INV6). -/
theorem bound_of_busy (g : Good s) (busy : (half h d s).xs ≠ .idle) : (half h d s).bound = true := by
  have hh : h < s.cfg.epMax := g.shape.2.1 ▸ lt_length_of_busy busy
  obtain ⟨inflight, wait, -⟩ := g.inv5.2 h hh d (mem_bothDirs d)
  cases xs : (half h d s).xs with
  | idle => exact absurd xs busy
  | inflight => exact (inflight.1 xs).1
  | wait => exact (wait xs).2.2.1

theorem handle_lt (g : Good s) (hh : h < s.eps.length) : h < 256 := by
  obtain ⟨-, ⟨-, entries⟩, -⟩ := g.shape.1
  have := g.shape.2.1
  omega

end

/-! ### Several halves of an entry, changed alike -/

/-- Some halves of an entry, each changed by the same function. -/
def modHalves (h : Nat) (f : Half → Half) (ds : List Dir) (s : State) : State := ds.foldl (fun t d => modHalf h d f t) s

section
variable {s : State} {h : Nat} {f : Half → Half}

theorem modHalves_sameIdentities (ds : List Dir) : SameIdentities s (modHalves h f ds s) := by
  induction ds generalizing s with
  | nil => exact fun _ => ⟨rfl, rfl, rfl⟩
  | cons d ds ih => exact sameIdentities_trans (modHalf_sameIdentities d f) ih

theorem modHalves_chans (ds : List Dir) : (modHalves h f ds s).chans = s.chans := by
  induction ds generalizing s with
  | nil => rfl
  | cons d ds ih => exact ih.trans (by simp)

theorem modHalves_evq (ds : List Dir) : (modHalves h f ds s).evq = s.evq := by
  induction ds generalizing s with
  | nil => rfl
  | cons d ds ih => exact ih.trans (by simp)

/-- Where changing a half twice is changing it once, the order of the halves does not matter. -/
theorem half_modHalves (twice : ∀ x, f (f x) = f x) (ds : List Dir) (hh : h < s.eps.length) (h' : Nat) (d' : Dir) :
    half h' d' (modHalves h f ds s) = if h' = h ∧ d' ∈ ds then f (half h' d' s) else half h' d' s := by
  induction ds generalizing s with
  | nil => simp [modHalves]
  | cons d ds ih =>
    have step : modHalves h f (d :: ds) s = modHalves h f ds (modHalf h d f s) := rfl
    rw [step, ih (by simpa using hh), half_modHalf]
    by_cases here : h' = h ∧ d' = d
    · obtain ⟨rfl, rfl⟩ := here
      simp only [hh, List.mem_cons, true_or, and_self, true_and, if_true, twice, ite_self]
    · have other : ¬ (h' = h ∧ d' = d ∧ h < s.eps.length) := fun e => here ⟨e.1, e.2.1⟩
      have same : (h' = h ∧ d' ∈ d :: ds) ↔ (h' = h ∧ d' ∈ ds) := by
        rw [List.mem_cons]
        exact ⟨fun ⟨e, m⟩ => ⟨e, m.resolve_left fun e' => here ⟨e, e'⟩⟩, fun ⟨e, m⟩ => ⟨e, .inr m⟩⟩
      simp only [if_neg other, same]

end

/-! ### EP_CLEAR_STALL (R158) -/

/-- A half with its halt cleared and its toggle at DATA0 (R158). -/
def restarted (x : Half) : Half := { x with halted := false, toggle := false }

section
variable {s : State} {h : Nat}

theorem exec_epClearStall_of_ready {dir : Dir} {handle : BitVec 8} (r : ClearStallReady dir handle.toNat s) :
    exec (.epClearStall 0 dir handle) s =
      .next (accept (clearStall handle.toNat (halvesOf (half handle.toNat dir s).type dir) s)) := by
  obtain ⟨init, ok, idle⟩ := r
  change execEpClearStall 0 dir handle s = _
  rw [execEpClearStall, if_neg (by simp [init]), if_neg (by decide), if_neg (by simp [ok]), if_neg]
  simpa [busyIn_ne_zero_iff] using idle

end

/-! ### XFER_ABORT (R206) -/

section
variable {s : State} {dir : Dir}

theorem exec_xferAbort_of_ready {handle : BitVec 8} (r : AbortReady dir handle.toNat s) :
    exec (.xferAbort 0 dir handle) s = .next (accept (abortHalf handle.toNat dir s)) := by
  obtain ⟨init, ok, busy, hroom⟩ := r
  change execXferAbort 0 dir handle s = _
  rw [execXferAbort, if_neg (by simp [init]), if_neg (by decide), if_neg (by simp [ok]), if_neg busy, if_neg]
  simpa [room] using hroom

/-- An abort settles the transfer; the slot was made not valid once before that (R206). -/
theorem abortHalf_eq {c h : Nat} (sv : Serves c h dir s) : abortHalf h dir s = settle h dir .failedAbort s := by
  rw [abortHalf, sv.ch, settle_setValid _ sv]

theorem abort_after {h : Nat} (g : Good s) (r : AbortReady dir h s) : AbortAfter dir h s (accept (abortHalf h dir s)) := by
  obtain ⟨-, -, busy, -⟩ := r
  have sv := serves_of_bound g (bound_of_busy g busy)
  have quiet := quiet_settle s h dir .failedAbort
  rw [abortHalf_eq sv]
  refine ⟨⟨rfl, rfl⟩, ?_, settle_otherHalves .failedAbort List.mem_cons_self sv, settle_sameIdentities .failedAbort sv,
    settle_slotSettled .failedAbort sv, settle_evq_completion .failedAbort (handle_lt g sv.entry_lt), quiet.wire,
    quiet.kept.controls, fun a => by rw [accept_mem, quiet.mem], fun a => by rw [accept_arena, quiet.arena]⟩
  exact (half_settle .failedAbort h dir sv).trans (if_pos ⟨rfl, rfl⟩)

end

end Sys2Proof.Machine

open Sys2Proof Sys2Proof.Machine Sys2Proof.Safety Sys2Proof.Claims

/-- Settles O26, by what a half reads after the halves are changed one after the other. -/
theorem clearStallRule : Obligations.ClearStallRule := by
  intro dir handle s good ready
  have hh := lt_length_of_used (handleOk_iff.1 ready.2.1).2.1
  have quiet := quiet_clearStall s handle.toNat (halvesOf (half handle.toNat dir s).type dir)
  have cleared := half_modHalves (f := restarted) (fun _ => rfl) (halvesOf (half handle.toNat dir s).type dir) hh
  refine ⟨_, exec_epClearStall_of_ready ready, ⟨rfl, rfl⟩, fun d hd => ?_, fun h' d' ne => ?_,
    modHalves_sameIdentities _, modHalves_chans _, modHalves_evq _, quiet.wire, quiet.kept.controls,
    fun a => by rw [accept_mem, quiet.mem], fun a => by rw [accept_arena, quiet.arena]⟩
  · exact (cleared _ d).trans (if_pos ⟨rfl, hd⟩)
  · exact (cleared h' d').trans (if_neg ne)

/-- Settles O34: an abort settles the transfer of its half. -/
theorem abortRule : Obligations.AbortRule :=
  fun _ _ _ good => ⟨fun init ok idle => exec_xferAbort_of_idle init ok idle,
    fun ready => ⟨_, exec_xferAbort_of_ready ready, abort_after good ready⟩⟩

end

