-- ==== Sys2Proof/Proofs/Binding.lean ====
section
/-! SUPPORT. BindSlot (R173): what the half, the slot and the association read after it, and that the slot then serves the half. -/

namespace Sys2Proof.Machine

open Sys2Proof.Safety Sys2Proof.Claims

/-- A half bound to a channel (R173). -/
def boundTo (c : Nat) (x : Half) : Half := { x with bound := true, ch := BitVec.ofNat 4 c }

section
variable {c : Nat} {d : Dir} {h o size : Nat} {dev : BitVec 7} {num : BitVec 4} {s : State}

theorem half_bindSlot (h' : Nat) (d' : Dir) :
    half h' d' (bindSlot c d h dev num o size s) =
      if h' = h ∧ d' = d ∧ h < s.eps.length then boundTo c (half h d s) else half h' d' s :=
  half_modHalf h h' d d' (boundTo c) (setChan c _ s)

theorem half_bindSlot_self (hh : h < s.eps.length) :
    half h d (bindSlot c d h dev num o size s) = boundTo c (half h d s) := (half_bindSlot h d).trans (if_pos ⟨rfl, rfl, hh⟩)

theorem bindSlot_otherHalves {ds : List Dir} (hd : d ∈ ds) : OtherHalves h ds s (bindSlot c d h dev num o size s) := by
  intro h' d' ne
  rw [half_bindSlot, if_neg]
  rintro ⟨rfl, rfl, -⟩
  exact ne ⟨rfl, hd⟩

theorem bindSlot_sameIdentities : SameIdentities s (bindSlot c d h dev num o size s) :=
  modHalf_sameIdentities (s := setChan c _ s) d (boundTo c)

theorem chan_bindSlot (c' : Nat) : chan c' (bindSlot c d h dev num o size s) =
    if c' = c ∧ c < s.chans.length then
      ({ chan c s with adev := dev, anum := num } : Channel).setSlot (boundSlot h o size) d
    else chan c' s := chan_setChan c c' _ s

theorem slot_bindSlot (c' : Nat) (d' : Dir) : slot c' d' (bindSlot c d h dev num o size s) =
    if c' = c ∧ d' = d ∧ c < s.chans.length then boundSlot h o size else slot c' d' s := by
  rw [slot, chan_bindSlot]
  by_cases hc : c' = c ∧ c < s.chans.length
  · obtain ⟨rfl, lt⟩ := hc
    rw [if_pos ⟨rfl, lt⟩, Channel.slot_setSlot]
    by_cases hd : d' = d
    · rw [if_pos hd, if_pos ⟨rfl, hd, lt⟩]
    · rw [if_neg hd, if_neg fun e => hd e.2.1]
      cases d' <;> rfl
  · rw [if_neg hc, if_neg fun e => hc ⟨e.1, e.2.2⟩, slot]

theorem slot_bindSlot_self (hc : c < s.chans.length) : slot c d (bindSlot c d h dev num o size s) = boundSlot h o size :=
  (slot_bindSlot c d).trans (if_pos ⟨rfl, rfl, hc⟩)

theorem bindSlot_otherSlots {ds : List Dir} (hd : d ∈ ds) : OtherSlots c ds s (bindSlot c d h dev num o size s) := by
  intro c' d' ne
  rw [slot_bindSlot, if_neg]
  rintro ⟨rfl, rfl, -⟩
  exact ne ⟨rfl, hd⟩

theorem association_bindSlot_self (hc : c < s.chans.length) :
    (chan c (bindSlot c d h dev num o size s)).adev = dev ∧ (chan c (bindSlot c d h dev num o size s)).anum = num := by
  rw [chan_bindSlot, if_pos ⟨rfl, hc⟩, Channel.setSlot_adev, Channel.setSlot_anum]
  exact ⟨rfl, rfl⟩

theorem bindSlot_otherAssociations : OtherAssociations c s (bindSlot c d h dev num o size s) := by
  intro c' ne
  rw [chan_bindSlot, if_neg fun e => ne e.1]
  exact ⟨rfl, rfl⟩

theorem serves_bindSlot (hc : c < s.chans.length) (hh : h < s.eps.length) (c_lt : c < 16) (h_lt : h < 256) :
    Serves c h d (bindSlot c d h dev num o size s) := by
  have own := slot_bindSlot_self (d := d) (h := h) (o := o) (size := size) (dev := dev) (num := num) hc
  have quiet := quiet_bindSlot s c d h dev num o size
  refine ⟨by rwa [quiet.kept.sizes.2], by rwa [quiet.kept.sizes.1], by rw [own]; rfl, ?_, ?_⟩
  · rw [own, boundSlot, BitVec.toNat_ofNat, Nat.mod_eq_of_lt h_lt]
  · rw [half_bindSlot_self hh, boundTo, BitVec.toNat_ofNat, Nat.mod_eq_of_lt c_lt]

end

/-! ### The allocators' answers -/

section
variable {s : State}

/-- A channel that ChAcquire gives is one of the table and fits the half's CH field (R7, R170). -/
theorem channel_lt (g : Good s) {h c : Nat} {d : Dir} (acquired : chAcquire h d s = some c) :
    c < s.chans.length ∧ c < 16 := by
  have hc := (chAcquire_some acquired).1
  obtain ⟨⟨⟨-, channels⟩, -⟩, -, table⟩ := g.shape
  omega

/-- An offset that ArenaAlloc gives fits the slot's OFF field (R7, R171). -/
theorem toNat_offset (g : Good s) {size o : Nat} (found : arenaAlloc size s = some o) :
    (BitVec.ofNat 16 o).toNat = o := by
  have inside := (arenaAlloc_some found).1
  obtain ⟨-, -, ⟨-, arena⟩, -⟩ := g.shape.1
  rw [BitVec.toNat_ofNat, Nat.mod_eq_of_lt (by omega)]

end

end Sys2Proof.Machine
end

