-- ==== Sys2Proof/Proofs/Submits.lean ====
section
/-! SUPPORT. XFER_SUBMIT (R201 to R203): once the half has its slot, the transfer fields are loaded, the first packet is armed
(R210, R211), and the transfer is in flight; the two roles differ only in where the slot comes from. -/

namespace Sys2Proof.Machine

open Sys2Proof.Safety Sys2Proof.Claims

/-! ### Arming a packet (R210, R211) -/

/-- The byte count of the packet that Arm arms (R210, R211). -/
def armedCount (h : Nat) (d : Dir) (s : State) : Nat :=
  if isSend s.role d then nextLen (half h d s) else (half h d s).mps.toNat

/-- Arming sets the slot valid with the packet's byte count and, when sending, loads the packet; nothing else changes. -/
structure Armed (c h : Nat) (d : Dir) (s t : State) : Prop where
  eps : t.eps = s.eps
  slot : SlotBecomes c d { slot c d s with cnt := BitVec.ofNat 16 (armedCount h d s), valid := true } s t
  evq : t.evq = s.evq
  kept : Kept s t
  mem : t.mem = s.mem
  wire : t.wire = s.wire
  arena : t.arena = if isSend s.role d then
      Memory.writeBytes s.arena (Machine.slot c d s).off.toNat
        (Memory.readBytes s.mem ((half h d s).buf.toNat + (half h d s).done.toNat) (armedCount h d s))
    else s.arena

section
variable {c h : Nat} {d : Dir} {s t : State}

theorem armReceive_armed (sv : Serves c h d s) (receives : isSend s.role d = false) : Armed c h d s (armReceive h d s) := by
  have quiet := quiet_armReceive s h d
  refine ⟨rfl, ?_, rfl, quiet.kept, quiet.mem, quiet.wire, by simp [receives]⟩
  have counted : SlotBecomes c d { slot c d s with cnt := BitVec.ofNat 16 (half h d s).mps.toNat } s
      (setCnt c d (half h d s).mps.toNat s) := modSlot_slotBecomes (fun x => { x with cnt := _ }) sv.chan_lt
  have valid := modSlot_slotBecomes (c := c) (d := d) (s := setCnt c d (half h d s).mps.toNat s) (fun x => { x with valid := true })
    (by simpa [setCnt] using sv.chan_lt)
  rw [counted.1] at valid
  rw [armReceive, sv.ch, armedCount, receives]
  exact slotBecomes_trans counted valid

theorem loadPacket_armed (sv : Serves c h d s) (sends : isSend s.role d = true) :
    Armed c h d s (loadPacket c d ((half h d s).buf.toNat + (half h d s).done.toNat) (nextLen (half h d s)) s) := by
  have count : armedCount h d s = nextLen (half h d s) := by rw [armedCount, if_pos sends]
  refine ⟨rfl, ?_, rfl, ?_, rfl, rfl, by rw [if_pos sends, count]; rfl⟩
  · rw [count]
    exact loadPacket_slotBecomes sv.chan_lt
  · exact ((kept_arenaWrite s _ _).trans (quiet_setCnt _ c d _).kept).trans (quiet_setValid _ c d true).kept

/-- What Arm answers: the packet armed, unless a sending half's read is not admitted (R86, R210). -/
theorem arm_eq (sv : Serves c h d s) : ∃ t, Armed c h d s t ∧ arm h d s =
    if isSend s.role d then
      whenAdmitted ((half h d s).buf.toNat + (half h d s).done.toNat) (nextLen (half h d s)) s (.next t)
    else .next t := by
  rw [arm]
  split
  next sends => exact ⟨_, loadPacket_armed sv sends, armSend_eq sv⟩
  next receives => exact ⟨_, armReceive_armed sv (by simpa using receives), rfl⟩

theorem armed_of_arm_next (sv : Serves c h d s) (answer : arm h d s = .next t) : Armed c h d s t := by
  obtain ⟨u, armed, eq⟩ := arm_eq sv
  rw [eq] at answer
  split at answer
  · obtain rfl := Host.Outcome.next.inj (whenAdmitted_next.1 answer).2
    exact armed
  · obtain rfl := Host.Outcome.next.inj answer
    exact armed

end

/-! ### The transfer fields (R201) -/

/-- The transfer fields of a submit (R201). -/
def loadedHalf (setup zlp : Bool) (len : BitVec 16) (buf : Word) (x : Half) : Half :=
  { x with
    halted := if setup then false else x.halted
    setup := setup
    zlp := zlp
    buf := buf
    total := len
    done := 0
    nak := 0
    err := 0 }

/-- A submit's changes before the packet is armed (R201, R203). -/
def loaded (setup zlp : Bool) (len : BitVec 16) (h : Nat) (d : Dir) (s : State) : State :=
  loadTransfer setup zlp len h d (clearHaltedIf setup h s)

section
variable {setup zlp : Bool} {len : BitVec 16} {c h : Nat} {d : Dir} {s t : State}

theorem half_clearHaltedIf (hh : h < s.eps.length) (h' : Nat) (d' : Dir) : half h' d' (clearHaltedIf setup h s) =
    if h' = h ∧ setup = true then { half h' d' s with halted := false } else half h' d' s := by
  cases setup with
  | false => simp [clearHaltedIf]
  | true =>
    simp only [clearHaltedIf, if_true, half_modHalf, eps_length_modHalf, hh, and_true]
    by_cases e : h' = h
    · subst e
      cases d' <;> simp
    · simp [e]

theorem quiet_loaded (s : State) : Quiet s (loaded setup zlp len h d s) :=
  (quiet_clearHaltedIf s setup h).trans (quiet_loadTransfer _ setup zlp len h d)

theorem half_loaded_self (hh : h < s.eps.length) :
    half h d (loaded setup zlp len h d s) = loadedHalf setup zlp len s.arg0 (half h d s) := by
  have cleared := half_clearHaltedIf (setup := setup) hh h d
  have quiet := quiet_clearHaltedIf s setup h
  have own := half_modHalf_self d (fun x => { x with setup := setup, zlp := zlp, buf := (clearHaltedIf setup h s).arg0, total := len, done := 0, nak := 0, err := 0 })
    (s := clearHaltedIf setup h s) (h := h) (by rwa [quiet.kept.sizes.1])
  refine own.trans ?_
  rw [cleared]
  cases setup <;> simp [loadedHalf]

theorem half_loaded_other (hh : h < s.eps.length) : half h (otherDir d) (loaded setup zlp len h d s) =
    if setup then { half h (otherDir d) s with halted := false } else half h (otherDir d) s := by
  have other : half h (otherDir d) (loaded setup zlp len h d s) = half h (otherDir d) (clearHaltedIf setup h s) :=
    half_modHalf_other _ _ (.inr (by cases d <;> decide))
  rw [other, half_clearHaltedIf hh]
  simp

theorem loaded_otherHalves (hh : h < s.eps.length) : OtherHalves h bothDirs s (loaded setup zlp len h d s) := by
  intro h' d' ne
  have ne' : h' ≠ h := fun e => ne ⟨e, mem_bothDirs d'⟩
  have other : half h' d' (loaded setup zlp len h d s) = half h' d' (clearHaltedIf setup h s) :=
    half_modHalf_other _ _ (.inl ne')
  rw [other, half_clearHaltedIf hh, if_neg fun e => ne' e.1]

theorem loaded_sameIdentities : SameIdentities s (loaded setup zlp len h d s) := by
  refine sameIdentities_trans ?_ (modHalf_sameIdentities (s := clearHaltedIf setup h s) d _)
  unfold clearHaltedIf
  split
  · exact sameIdentities_trans (modHalf_sameIdentities .out _) (modHalf_sameIdentities .inn _)
  · exact fun _ => ⟨rfl, rfl, rfl⟩

theorem loaded_chans : (loaded setup zlp len h d s).chans = s.chans := by simp [loaded]

theorem loaded_evq : (loaded setup zlp len h d s).evq = s.evq := by simp [loaded]

theorem serves_loaded (sv : Serves c h d s) : Serves c h d (loaded setup zlp len h d s) :=
  serves_of_becomes sv (slotBecomes_of_chans loaded_chans) rfl rfl (by rw [half_loaded_self sv.entry_lt]; rfl)
    (quiet_loaded s).kept.sizes.1 (quiet_loaded s).kept.sizes.2

/-! ### The transfer in flight -/

/-- What an accepted submit leaves of the half that had its slot before (R201, R210). -/
structure Started (setup zlp : Bool) (len : BitVec 16) (d : Dir) (c h : Nat) (s t : State) : Prop where
  accepted : Accepted 0 t
  half : half h d t = submittedHalf setup zlp len s.arg0 (half h d s).ch (half h d s)
  slot : SlotBecomes c d { slot c d s with cnt := BitVec.ofNat 16 (firstCount len d h s), valid := true } s t
  frame : SubmitFrame setup len d h (Machine.slot c d s).off.toNat s t
  arena : t.arena = if isSend s.role d then
      Memory.writeBytes s.arena (Machine.slot c d s).off.toNat (Memory.readBytes s.mem s.arg0.toNat (firstCount len d h s))
    else s.arena

theorem armedCount_loaded (hh : h < s.eps.length) : armedCount h d (loaded setup zlp len h d s) = firstCount len d h s := by
  have role : (loaded setup zlp len h d s).role = s.role := (quiet_loaded s).kept.controls.2.2.1
  rw [armedCount, firstCount, role, half_loaded_self hh]
  rfl

theorem firstAddr_loaded (hh : h < s.eps.length) :
    (half h d (loaded setup zlp len h d s)).buf.toNat + (half h d (loaded setup zlp len h d s)).done.toNat = s.arg0.toNat := by
  rw [half_loaded_self hh]
  exact Nat.add_zero _

/-- The transfer is in flight once the first packet is armed. -/
theorem started_of_armed {w : State} (sv : Serves c h d s) (bound : (Machine.half h d s).bound = true) (wf : Memory.wf s.arena)
    (armed : Armed c h d (loaded setup zlp len h d s) w) : Started setup zlp len d c h s (accept (setXs h d .inflight w)) := by
  obtain ⟨eps, slot, evq, kept, mem, wire, arena⟩ := armed
  have hh := sv.entry_lt
  have quiet := quiet_loaded (setup := setup) (zlp := zlp) (len := len) (h := h) (d := d) s
  have hw : h < w.eps.length := by rwa [eps, quiet.kept.sizes.1]
  have flight := quiet_setXs w h d .inflight
  have flown (h' d') : Machine.half h' d' (accept (setXs h d .inflight w)) =
      if h' = h ∧ d' = d then { Machine.half h d (loaded setup zlp len h d s) with xs := .inflight }
      else Machine.half h' d' (loaded setup zlp len h d s) := by
    refine (half_modHalf h h' d d' (fun x => { x with xs := .inflight }) w).trans ?_
    simp only [hw, and_true, half_congr eps]
  have role : (loaded setup zlp len h d s).role = s.role := quiet.kept.controls.2.2.1
  have sameSlot : Machine.slot c d (loaded setup zlp len h d s) = Machine.slot c d s := slot_congr loaded_chans c d
  rw [armedCount_loaded hh, sameSlot] at slot
  rw [armedCount_loaded hh, sameSlot, role, quiet.arena, quiet.mem, firstAddr_loaded hh] at arena
  have slotAfter := slotBecomes_trans (slotBecomes_of_chans loaded_chans) slot
  refine ⟨⟨rfl, rfl⟩, ?half, slotAfter, ?frame, arena⟩
  case half =>
    rw [flown, if_pos ⟨rfl, rfl⟩, half_loaded_self hh]
    simp only [loadedHalf, submittedHalf, bound]
  case frame =>
    refine ⟨?_, fun h' d' ne => ?_, ?_, ?_, ?_, ((quiet.kept.trans kept).trans flight.kept).controls, ?_, ?_⟩
    · rw [flown, if_neg (by cases d <;> simp [otherDir]), half_loaded_other hh]
    · rw [flown, if_neg (fun e => ne ⟨e.1, mem_bothDirs d'⟩), loaded_otherHalves hh h' d' ne]
    · exact sameIdentities_trans loaded_sameIdentities (sameIdentities_trans (sameIdentities_of_eps eps)
        (modHalf_sameIdentities (s := w) (h := h) d (fun x => { x with xs := .inflight })))
    · exact evq.trans loaded_evq
    · exact wire.trans quiet.wire
    · exact fun a => by rw [accept_mem, flight.mem, mem, quiet.mem]
    · have kept : (accept (setXs h d .inflight w)).arena = w.arena := rfl
      rw [kept, arena]
      split
      next sends =>
        refine ⟨?_, ?_⟩
        · exact Memory.writeBytes_bytesAt _ _ wf
        · exact Memory.writeBytes_sameBytesOutside _ _ wf (by simp)
      next => exact fun a => rfl

/-- What a submit answers once the half has its slot (R86, R201). -/
theorem startTransfer_eq (sv : Serves c h d s) (bound : (Machine.half h d s).bound = true) (wf : Memory.wf s.arena) :
    ∃ t, Started setup zlp len d c h s t ∧ startTransfer setup zlp len h d s =
      if isSend s.role d then whenAdmitted s.arg0.toNat (firstCount len d h s) s (.next t) else .next t := by
  obtain ⟨w, armed, answer⟩ := arm_eq (serves_loaded (setup := setup) (zlp := zlp) (len := len) sv)
  refine ⟨_, started_of_armed sv bound wf armed, ?_⟩
  have quiet := quiet_loaded (setup := setup) (zlp := zlp) (len := len) (h := h) (d := d) s
  have start : startTransfer setup zlp len h d s =
      andThen (arm h d (loaded setup zlp len h d s)) (fun t => .next (accept (setXs h d .inflight t))) := rfl
  rw [start, answer, quiet.kept.controls.2.2.1, firstAddr_loaded sv.entry_lt]
  split
  next sends =>
    have count : nextLen (Machine.half h d (loaded setup zlp len h d s)) = firstCount len d h s := by
      rw [← armedCount_loaded (zlp := zlp) (setup := setup) sv.entry_lt, armedCount, quiet.kept.controls.2.2.1, if_pos sends]
    rw [count, whenAdmitted, whenAdmitted, memAdmits_congr quiet.kept.controls.1]
    split <;> rfl
  · rfl

end

/-! ### The checks of R201, passed -/

section
variable {setup zlp : Bool} {len : BitVec 16} {dir : Dir} {handle : BitVec 8} {s u : State}

theorem exec_xferSubmit_of_ok (ok : SubmitOk setup zlp len dir handle.toNat s) (started : startHost handle.toNat dir s = .ok u) :
    exec (.xferSubmit setup zlp len 0 dir handle) s = startTransfer setup zlp len handle.toNat dir u := by
  obtain ⟨init, handle, idle, misuse, noZlp, top, halt⟩ := ok
  change execXferSubmit setup zlp len 0 dir _ s = _
  rw [execXferSubmit, if_neg (by simp [init]), if_neg (by decide), if_neg (by simp [handle]), if_neg (by simp [idle]), if_neg,
    if_neg, if_neg, if_neg, started]
  · cases setup <;> simp_all
  · rw [pastTop_iff, decide_eq_true_iff]
    omega
  · cases zlp <;> simp_all
  · rw [setupMisuse_iff, decide_eq_true_iff]
    rintro ⟨isSetup, wrong⟩
    obtain ⟨ctrl, rfl, eight, rfl⟩ := misuse isSetup
    simp [ctrl, eight] at wrong

end

/-! ### The host role binds a slot first (R202) -/

/-- The slot bound for a submit in the host role (R202). -/
def hostBound (dir : Dir) (h c o : Nat) (s : State) : State :=
  bindSlot c dir h (entry h s).dev (entry h s).num o (roundup (half h dir s).mps.toNat s.cfg.arenaGran) s

theorem quiet_hostBound (dir : Dir) (h c o : Nat) (s : State) : Quiet s (hostBound dir h c o s) :=
  quiet_bindSlot s c dir h _ _ o _

section
variable {setup zlp : Bool} {len : BitVec 16} {dir : Dir} {h c o : Nat} {s t : State}

theorem startHost_of_host (host : s.role = .host) (acquired : chAcquire h dir s = some c)
    (found : arenaAlloc (roundup (half h dir s).mps.toNat s.cfg.arenaGran) s = some o) :
    startHost h dir s = .ok (hostBound dir h c o s) := by
  rw [startHost, if_pos host, reserveHalf, acquired]
  simp only [found]
  rfl

theorem startHost_of_device (device : s.role = .device) : startHost h dir s = .ok s := by
  rw [startHost, if_neg (by simp [device])]

/-- The first packet's byte count, before and after the slot is bound. -/
theorem firstCount_hostBound (hh : h < s.eps.length) : firstCount len dir h (hostBound dir h c o s) = firstCount len dir h s := by
  have quiet := quiet_hostBound dir h c o s
  rw [firstCount, quiet.kept.controls.2.2.1, hostBound, half_bindSlot_self hh]
  rfl

theorem hostSubmit_after (g : Good s) (hh : h < s.eps.length) (acquired : chAcquire h dir s = some c)
    (found : arenaAlloc (roundup (half h dir s).mps.toNat s.cfg.arenaGran) s = some o)
    (started : Started setup zlp len dir c h (hostBound dir h c o s) t) : HostSubmitAfter setup zlp len dir h c o s t := by
  obtain ⟨hc, c_lt⟩ := channel_lt g acquired
  have quiet := quiet_hostBound dir h c o s
  obtain ⟨accepted, half, ⟨slot, otherSlots, associations⟩, ⟨other, otherHalves, identities, evq, wire, controls, mem, arena⟩,
    -⟩ := started
  have own := slot_bindSlot_self (d := dir) (h := h) (o := o) (size := roundup (Machine.half h dir s).mps.toNat s.cfg.arenaGran)
    (dev := (entry h s).dev) (num := (entry h s).num) hc
  have role : (hostBound dir h c o s).role = s.role := quiet.kept.controls.2.2.1
  have arg0 : (hostBound dir h c o s).arg0 = s.arg0 := quiet.kept.controls.2.2.2.2.2.2.2.1
  have offset : (Machine.slot c dir (hostBound dir h c o s)).off.toNat = o := by
    rw [hostBound, own, boundSlot, toNat_offset g found]
  have bound : Machine.half h dir (hostBound dir h c o s) = boundTo c (Machine.half h dir s) := half_bindSlot_self hh
  have sameArena : (hostBound dir h c o s).arena = s.arena := quiet.arena
  have sameMem : (hostBound dir h c o s).mem = s.mem := quiet.mem
  have otherSame : Machine.half h (otherDir dir) (hostBound dir h c o s) = Machine.half h (otherDir dir) s :=
    bindSlot_otherHalves (ds := [dir]) List.mem_cons_self h _ (by cases dir <;> simp [otherDir])
  rw [bound, arg0] at half
  rw [firstCount_hostBound hh] at slot
  rw [otherSame] at other
  rw [offset, firstCount_hostBound hh, role, sameMem, arg0, sameArena] at arena
  refine ⟨accepted, half, ?_, ?_, ?_, ?_, ?_, other, ?_, ?_, evq, wire.trans quiet.wire, ?_, fun a => ?_, arena⟩
  · rw [slot, hostBound, own]
  · exact (associations c).1.trans (association_bindSlot_self hc).1
  · exact (associations c).2.trans (association_bindSlot_self hc).2
  · exact fun c' d' ne => (otherSlots c' d' ne).trans (bindSlot_otherSlots List.mem_cons_self c' d' ne)
  · exact fun c' ne => ⟨(associations c').1.trans (bindSlot_otherAssociations c' ne).1,
      (associations c').2.trans (bindSlot_otherAssociations c' ne).2⟩
  · exact fun h' d' ne => (otherHalves h' d' ne).trans (bindSlot_otherHalves (mem_bothDirs dir) h' d' ne)
  · exact sameIdentities_trans bindSlot_sameIdentities identities
  · obtain ⟨_, _, _, _, _, _, _, _, _, _, _⟩ := controls
    simp_all [SameControls, hostBound]
  · rw [mem a, sameMem]

theorem serves_hostBound (g : Good s) (hh : h < s.eps.length) (acquired : chAcquire h dir s = some c) :
    Serves c h dir (hostBound dir h c o s) ∧ (Machine.half h dir (hostBound dir h c o s)).bound = true := by
  obtain ⟨hc, c_lt⟩ := channel_lt g acquired
  refine ⟨serves_bindSlot hc hh c_lt (handle_lt g hh), ?_⟩
  rw [hostBound, half_bindSlot_self hh]
  rfl

/-- What an accepted submit answers in the host role (R86, R201, R202). -/
theorem exec_hostSubmit {handle : BitVec 8} (g : Good s) (host : s.role = .host)
    (ok : SubmitOk setup zlp len dir handle.toNat s) (acquired : chAcquire handle.toNat dir s = some c)
    (found : arenaAlloc (roundup (half handle.toNat dir s).mps.toNat s.cfg.arenaGran) s = some o) :
    ∃ t, HostSubmitAfter setup zlp len dir handle.toNat c o s t ∧ exec (.xferSubmit setup zlp len 0 dir handle) s =
      if isSend s.role dir then
        whenAdmitted s.arg0.toNat (firstCount len dir handle.toNat s) s (.next t)
      else .next t := by
  have hh := lt_length_of_used (handleOk_iff.1 ok.2.1).2.1
  obtain ⟨sv, bound⟩ := serves_hostBound (o := o) g hh acquired
  have quiet := quiet_hostBound dir handle.toNat c o s
  have wf : Memory.wf (hostBound dir handle.toNat c o s).arena := g.memories.1
  obtain ⟨t, started, answer⟩ := startTransfer_eq (setup := setup) (zlp := zlp) (len := len) sv bound wf
  refine ⟨t, hostSubmit_after g hh acquired found started, ?_⟩
  rw [exec_xferSubmit_of_ok ok (startHost_of_host host acquired found), answer, firstCount_hostBound hh, whenAdmitted,
    whenAdmitted, memAdmits_congr (s := s) quiet.kept.controls.1]
  rfl

/-- An open half is bound in the device role (R174). -/
theorem bound_of_open_device (g : Good s) (device : s.role = .device) (ok : handleOk h dir s = true) :
    (half h dir s).bound = true := by
  obtain ⟨hh, -, isOpen⟩ := handleOk_iff.1 ok
  exact ((g.inv6 h hh dir (mem_bothDirs dir)).2 device).2 isOpen

/-- What an accepted submit answers in the device role (R86, R174, R201). -/
theorem exec_deviceSubmit {handle : BitVec 8} (g : Good s) (device : s.role = .device)
    (ok : SubmitOk setup zlp len dir handle.toNat s) :
    ∃ t, DeviceSubmitAfter setup zlp len dir handle.toNat s t ∧ exec (.xferSubmit setup zlp len 0 dir handle) s =
      if isSend s.role dir then
        whenAdmitted s.arg0.toNat (firstCount len dir handle.toNat s) s (.next t)
      else .next t := by
  have bound := bound_of_open_device g device ok.2.1
  obtain ⟨t, ⟨accepted, half, ⟨slot, otherSlots, associations⟩, frame, -⟩, answer⟩ :=
    startTransfer_eq (setup := setup) (zlp := zlp) (len := len) (serves_of_bound g bound) bound g.memories.1
  refine ⟨t, ⟨accepted, half, slot, otherSlots, associations, frame⟩, ?_⟩
  rw [exec_xferSubmit_of_ok ok (startHost_of_device device), answer]

end

end Sys2Proof.Machine

open Sys2Proof Sys2Proof.Machine Sys2Proof.Safety Sys2Proof.Claims

/-- The read of a first packet that is admitted, where there is one, lets the submit go on. -/
theorem Sys2Proof.Machine.ite_whenAdmitted {b : Bool} {a n : Nat} {s t : State} (h : b = true → memAdmits a n s = true) :
    (if b then whenAdmitted a n s (.next t) else .next t) = .next t := by
  split
  next sends => exact whenAdmitted_of_admits _ (h sends)
  · rfl

/-- Settles O31. -/
theorem hostSubmit : Obligations.HostSubmit := by
  intro setup zlp len dir handle c o s good ⟨host, ok, acquired, found, admits⟩
  obtain ⟨t, after, answer⟩ := exec_hostSubmit good host ok acquired found
  exact ⟨t, answer.trans (ite_whenAdmitted admits), after⟩

/-- Settles O32. -/
theorem deviceSubmit : Obligations.DeviceSubmit := by
  intro setup zlp len dir handle s good ⟨device, ok, admits⟩
  obtain ⟨t, after, answer⟩ := exec_deviceSubmit good device ok
  exact ⟨t, answer.trans (ite_whenAdmitted admits), after⟩

/-- Settles O33: the submit's only access is its first packet's read. -/
theorem submitStuck : Obligations.SubmitStuck := by
  intro setup zlp len dir handle s good ⟨ok, sends, refuses, slots⟩
  cases role : s.role with
  | host =>
    obtain ⟨acquires, finds⟩ := slots role
    obtain ⟨c, acquired⟩ := Option.isSome_iff_exists.1 acquires
    obtain ⟨o, found⟩ := Option.isSome_iff_exists.1 finds
    obtain ⟨t, -, answer⟩ := exec_hostSubmit good role ok acquired found
    rw [answer, if_pos sends, whenAdmitted_of_refuses _ refuses]
  | device =>
    obtain ⟨t, -, answer⟩ := exec_deviceSubmit good role ok
    rw [answer, if_pos sends, whenAdmitted_of_refuses _ refuses]

end

