-- ==== Sys2Proof/Proofs/Opening.lean ====
section
/-! SUPPORT. EP_OPEN (R151 to R153): the entry is selected and claimed, the device role reserves a slot and a range per half, and the
halves are opened. -/

namespace Sys2Proof.Machine

open Sys2Proof.Safety Sys2Proof.Claims

/-! ### Claiming an entry and opening halves (R151) -/

section
variable {h : Nat} {dev : BitVec 7} {num : BitVec 4} {type : XferType} {mps : BitVec 11} {s : State}

theorem half_claimEntry (h' : Nat) (d : Dir) : half h' d (claimEntry h dev num s) = half h' d s := by
  rw [claimEntry, half_setEntry]
  split
  next here =>
    obtain ⟨rfl, -⟩ := here
    cases d <;> rfl
  · rfl

theorem claimEntry_identity (hh : h < s.eps.length) : Identity h dev num (claimEntry h dev num s) := by
  rw [Identity, claimEntry, entry_setEntry, if_pos ⟨rfl, hh⟩]
  exact ⟨rfl, rfl, rfl⟩

theorem claimEntry_otherIdentities : OtherIdentities h s (claimEntry h dev num s) := by
  intro h' ne
  rw [claimEntry, entry_setEntry, if_neg fun e => ne e.1]
  exact ⟨rfl, rfl, rfl⟩

theorem openedHalf_openedHalf (role : Role) (x : Half) :
    openedHalf role type mps (openedHalf role type mps x) = openedHalf role type mps x := by
  cases role <;> rfl

/-- The role does not change while halves are opened. -/
theorem openHalves_eq_modHalves (ds : List Dir) (s : State) :
    openHalves h type mps ds s = modHalves h (openedHalf s.role type mps) ds s := by
  induction ds generalizing s with
  | nil => rfl
  | cons d ds ih => exact (ih (modHalf h d (openedHalf s.role type mps) s)).trans (by rw [modHalf_role]; rfl)

theorem openHalves_sameIdentities (ds : List Dir) : SameIdentities s (openHalves h type mps ds s) :=
  openHalves_eq_modHalves ds s ▸ modHalves_sameIdentities ds

theorem openHalves_chans (ds : List Dir) : (openHalves h type mps ds s).chans = s.chans :=
  openHalves_eq_modHalves ds s ▸ modHalves_chans ds

theorem openHalves_evq (ds : List Dir) : (openHalves h type mps ds s).evq = s.evq :=
  openHalves_eq_modHalves ds s ▸ modHalves_evq ds

/-- What EP_OPEN leaves once its reservation is made: `s` holds the reservation. -/
def openedEntry (h : Nat) (type : XferType) (mps : BitVec 11) (dev : BitVec 7) (num : BitVec 4) (ds : List Dir) (s : State) :
    State := acceptHandle h (openHalves h type mps ds (claimEntry h dev num s))

variable {ds : List Dir}

theorem half_openedEntry (hh : h < s.eps.length) (h' : Nat) (d : Dir) :
    half h' d (openedEntry h type mps dev num ds s) =
      if h' = h ∧ d ∈ ds then openedHalf s.role type mps (half h' d s) else half h' d s := by
  have length : (claimEntry h dev num s).eps.length = s.eps.length := by simp [claimEntry]
  have opened := half_modHalves (h := h) (openedHalf_openedHalf (type := type) (mps := mps) s.role) ds
    (s := claimEntry h dev num s) (by rwa [length]) h' d
  rw [half_claimEntry] at opened
  rw [← opened, ← claimEntry_role h dev num s, ← openHalves_eq_modHalves]
  rfl

theorem openedEntry_identity (hh : h < s.eps.length) : Identity h dev num (openedEntry h type mps dev num ds s) := by
  obtain ⟨used, hdev, hnum⟩ := claimEntry_identity (dev := dev) (num := num) hh
  have same := openHalves_sameIdentities (h := h) (type := type) (mps := mps) (s := claimEntry h dev num s) ds h
  exact ⟨same.1.trans used, same.2.1.trans hdev, same.2.2.trans hnum⟩

theorem openedEntry_otherIdentities : OtherIdentities h s (openedEntry h type mps dev num ds s) := by
  intro h' ne
  have same := openHalves_sameIdentities (h := h) (type := type) (mps := mps) (s := claimEntry h dev num s) ds h'
  obtain ⟨used, hdev, hnum⟩ := claimEntry_otherIdentities (s := s) (dev := dev) (num := num) h' ne
  exact ⟨same.1.trans used, same.2.1.trans hdev, same.2.2.trans hnum⟩

theorem openedEntry_chans : (openedEntry h type mps dev num ds s).chans = s.chans := (openHalves_chans ds).trans (by simp)

theorem openedEntry_evq : (openedEntry h type mps dev num ds s).evq = s.evq := (openHalves_evq ds).trans (by simp)

theorem quiet_openHalves_claimEntry (s : State) : Quiet s (openHalves h type mps ds (claimEntry h dev num s)) :=
  (quiet_setEntry s h _).trans (quiet_openHalves _ h type mps ds)

/-- What any EP_OPEN leaves unchanged, when its reservation works on the named half only. -/
theorem openFrame_of_reserved {u : State} (hh : h < s.eps.length) (halves : OtherHalves h ds s u) (identities : SameIdentities s u)
    (quiet : Quiet s u) (evq : u.evq = s.evq) : OpenFrame h ds s (openedEntry h type mps dev num ds u) := by
  have all := quiet.trans (quiet_openHalves_claimEntry (h := h) (dev := dev) (num := num) (type := type) (mps := mps) (ds := ds) u)
  have hu : h < u.eps.length := by rwa [quiet.kept.sizes.1]
  refine ⟨fun h' d ne => ?_, fun h' ne => ?_, openedEntry_evq.trans evq, all.wire, all.kept.controls,
    fun a => ?_, fun a => ?_⟩
  · rw [half_openedEntry hu, if_neg ne, halves h' d ne]
  · obtain ⟨used, hdev, hnum⟩ := openedEntry_otherIdentities (h := h) (type := type) (mps := mps) (dev := dev) (num := num)
      (ds := ds) (s := u) h' ne
    exact ⟨used.trans (identities h').1, hdev.trans (identities h').2.1, hnum.trans (identities h').2.2⟩
  · exact congrArg (Memory.read · a) all.mem
  · exact congrArg (Memory.read · a) all.arena

theorem openedEntry_accepted (g : h < 256) : Accepted (h * 256) (openedEntry h type mps dev num ds s) := by
  rw [openedEntry, acceptHandle_eq g]
  exact ⟨rfl, rfl⟩

end

/-! ### Selecting the entry (R152) -/

section
variable {type : XferType} {mps : BitVec 11} {dev : BitVec 7} {dir : Dir} {num : BitVec 4} {h : Nat} {s u : State}

/-- SelectEntry gives the lowest free entry to a new identity, and its entry to one that joins (R152). -/
theorem selectEntry_of_fresh_or_joins (g : Good s) (select : Fresh h dev num s ∨ Joins h type dev dir num s) :
    selectEntry type dev dir num s = .ok h := by
  obtain ⟨hh, free, before, new⟩ | ⟨hh, identity, notCtrl, closed, noCtrl⟩ := select
  · have noEntry : findEntry dev num s = none := List.find?_eq_none.2 fun h' hh' p => by
      simp only [Bool.and_eq_true, beq_iff_eq] at p
      exact new h' (List.mem_range.1 hh') ⟨p.1.1, p.1.2, p.2⟩
    have freeFound : freeEntry s = some h := find_range_iff.2 ⟨hh, by simp [free], fun j lt => by simp [before j lt]⟩
    rw [selectEntry, noEntry, freeFound]
  · rw [selectEntry, findEntry_of_identity g.inv8Unique hh identity]
    simp only [if_neg notCtrl, closed]
    rw [if_neg (by simp), if_neg (by simpa using noCtrl)]

theorem lt_length_of_select (g : Good s) (select : Fresh h dev num s ∨ Joins h type dev dir num s) : h < s.eps.length := by
  rw [g.shape.2.1]
  exact select.elim (fun fresh => fresh.1) (fun joins => joins.1)

theorem exec_epOpen_of_ok (init : s.initDone = true) (sizes : SizesOk type mps) (device : s.role = .device → dev = 0)
    (selected : selectEntry type dev dir num s = .ok h)
    (reserved : reserveAtOpen h dev num mps.toNat (halvesOf type dir) s = .ok u) :
    exec (.epOpen type mps dev dir 0 num) s = .next (openedEntry h type mps dev num (halvesOf type dir) u) := by
  obtain ⟨pos, small, ctrl⟩ := sizes
  have args : epOpenBadArg type mps dev 0#3 s = false := by
    rw [← Bool.not_eq_true, epOpenBadArg_iff]
    rintro (reserved | size | ⟨isCtrl, short⟩ | ⟨isDevice, noDev⟩)
    · simp at reserved
    · omega
    · exact absurd (ctrl isCtrl) (by omega)
    · exact noDev (device isDevice)
  change execEpOpen type mps dev dir 0 num s = _
  rw [execEpOpen, if_neg (by simp [init]), if_neg (by simp [args]), selected]
  simp only [reserved]
  rfl

theorem reserveAtOpen_of_host {ds : List Dir} {n : Nat} (host : s.role = .host) : reserveAtOpen h dev num n ds s = .ok s := by
  rw [reserveAtOpen, if_neg (by simp [host])]

theorem openedHalf_host (x : Half) : openedHalf .host type mps x = openHalf type mps false 0 := rfl

theorem openedHalf_device_boundTo (c : Nat) (x : Half) :
    openedHalf .device type mps (boundTo c x) = openHalf type mps true (BitVec.ofNat 4 c) := rfl

end

/-! ### The device role's reservation (R153) -/

section
variable {mps : BitVec 11} {dev : BitVec 7} {dir : Dir} {num : BitVec 4} {h c o o2 : Nat} {s : State}

theorem reserveHalf_of_found {n : Nat} (acquired : chAcquire h dir s = some c)
    (found : arenaAlloc (roundup n s.cfg.arenaGran) s = some o) :
    reserveHalf h dev num n dir s = .ok (bindSlot c dir h dev num o (roundup n s.cfg.arenaGran) s) := by
  rw [reserveHalf, acquired]
  simp only [found]

theorem reserveAtOpen_single {n : Nat} (device : s.role = .device) (acquired : chAcquire h dir s = some c)
    (found : arenaAlloc (roundup n s.cfg.arenaGran) s = some o) :
    reserveAtOpen h dev num n [dir] s = .ok (bindSlot c dir h dev num o (roundup n s.cfg.arenaGran) s) := by
  rw [reserveAtOpen, if_pos device, reserve, reserveHalf_of_found acquired found]
  rfl

/-- No slot serves a free entry (R54, INV2, INV6, INV8). -/
theorem not_bound_of_free (g : Good s) (hh : h < s.cfg.epMax) (device : s.role = .device) (free : (entry h s).used = false)
    (c : Nat) (d : Dir) : ¬ ((slot c d s).bound = true ∧ (slot c d s).ep.toNat = h) := by
  rintro ⟨bound, rfl⟩
  have hc : c < s.cfg.numCh := by
    by_contra outside
    have shape := g.shape.2.2
    rw [slot, chan_outside (by omega), Channel.slot_free] at bound
    cases bound
  obtain ⟨-, halfBound, -⟩ := g.inv2.1 c hc d (mem_bothDirs d) bound
  have isOpen := ((g.inv6 _ hh d (mem_bothDirs d)).2 device).1 halfBound
  have used := (g.inv8Used _ hh).2 (by cases d <;> simp [isOpen])
  rw [free] at used
  cases used

/-- The IN half of a control endpoint is put on the channel of its OUT half (R170, R175). -/
theorem chAcquire_inn_of_out (g : Good s) (hh : h < s.cfg.epMax) (device : s.role = .device)
    (free : (entry h s).used = false) {size : Nat} (acquired : chAcquire h .out s = some c) :
    chAcquire h .inn (bindSlot c .out h dev num o size s) = some c := by
  have unbound := not_bound_of_free g hh device free
  obtain ⟨hc, c_lt⟩ := channel_lt g acquired
  have h_lt := handle_lt g (g.shape.2.1 ▸ hh)
  have noServer (c' : Nat) : servesOther h .out c' s = false := by
    rw [← Bool.not_eq_true, servesOther_iff]
    exact fun serves => unbound c' .inn ⟨serves.1, serves.2.1⟩
  have innFree : (slot c .inn s).bound = false := by
    obtain ⟨-, ⟨serves, -⟩ | ⟨-, fully, -⟩⟩ := chAcquire_iff.1 acquired
    · rw [noServer] at serves
      cases serves
    · exact (fullyFree_iff.1 fully).2
  refine chAcquire_iff.2 ⟨by simpa using (chAcquire_some acquired).1, .inl ⟨?_, fun c' lt => ?_⟩⟩
  · rw [servesOther_iff, otherDir, slot_bindSlot_self hc, slot_bindSlot, if_neg (by simp), boundSlot, BitVec.toNat_ofNat,
      Nat.mod_eq_of_lt h_lt]
    exact ⟨rfl, rfl, innFree⟩
  · rw [← Bool.not_eq_true, servesOther_iff, otherDir, slot_bindSlot, if_neg fun e => Nat.ne_of_lt lt e.1]
    exact fun serves => unbound c' .out ⟨serves.1, serves.2.1⟩

/-- The state with both slots of a control endpoint bound (R153). -/
def bothBound (c h o o2 : Nat) (dev : BitVec 7) (num : BitVec 4) (size : Nat) (s : State) : State :=
  bindSlot c .inn h dev num o2 size (bindSlot c .out h dev num o size s)

theorem reserveAtOpen_both {n : Nat} (g : Good s) (hh : h < s.cfg.epMax) (device : s.role = .device)
    (free : (entry h s).used = false) (acquired : chAcquire h .out s = some c)
    (found : arenaAlloc (roundup n s.cfg.arenaGran) s = some o)
    (found2 : arenaAlloc (roundup n s.cfg.arenaGran) (bindSlot c .out h dev num o (roundup n s.cfg.arenaGran) s) = some o2) :
    reserveAtOpen h dev num n bothDirs s = .ok (bothBound c h o o2 dev num (roundup n s.cfg.arenaGran) s) := by
  rw [reserveAtOpen, if_pos device, bothDirs, reserve, reserveHalf_of_found acquired found]
  simp only [reserve]
  rw [reserveHalf_of_found (chAcquire_inn_of_out g hh device free acquired) (by simpa using found2)]
  simp only [bindSlot_cfg]
  rfl

variable {size : Nat}

theorem half_bothBound (hh : h < s.eps.length) (h' : Nat) (d : Dir) : half h' d (bothBound c h o o2 dev num size s) =
    if h' = h then boundTo c (half h' d s) else half h' d s := by
  have hh' : h < (bindSlot c .out h dev num o size s).eps.length := by
    rwa [(quiet_bindSlot s c .out h dev num o size).kept.sizes.1]
  rw [bothBound, half_bindSlot, half_bindSlot, half_bindSlot]
  simp only [hh, hh', and_true]
  by_cases e : h' = h
  · subst e
    cases d <;> simp
  · simp [e]

theorem slot_bothBound (hc : c < s.chans.length) (c' : Nat) (d : Dir) : slot c' d (bothBound c h o o2 dev num size s) =
    if c' = c then boundSlot h (match d with | .out => o | .inn => o2) size else slot c' d s := by
  have hc' : c < (bindSlot c .out h dev num o size s).chans.length := by
    rwa [(quiet_bindSlot s c .out h dev num o size).kept.sizes.2]
  rw [bothBound, slot_bindSlot, slot_bindSlot]
  simp only [hc, hc', and_true]
  by_cases e : c' = c
  · subst e
    cases d <;> simp
  · simp [e]

theorem association_bothBound (hc : c < s.chans.length) :
    (chan c (bothBound c h o o2 dev num size s)).adev = dev ∧ (chan c (bothBound c h o o2 dev num size s)).anum = num :=
  association_bindSlot_self (by rwa [(quiet_bindSlot s c .out h dev num o size).kept.sizes.2])

theorem bothBound_otherAssociations : OtherAssociations c s (bothBound c h o o2 dev num size s) := fun c' ne =>
  ⟨(bindSlot_otherAssociations c' ne).1.trans (bindSlot_otherAssociations c' ne).1,
    (bindSlot_otherAssociations c' ne).2.trans (bindSlot_otherAssociations c' ne).2⟩

theorem bothBound_sameIdentities : SameIdentities s (bothBound c h o o2 dev num size s) :=
  sameIdentities_trans bindSlot_sameIdentities bindSlot_sameIdentities

theorem quiet_bothBound (s : State) : Quiet s (bothBound c h o o2 dev num size s) :=
  (quiet_bindSlot s c .out h dev num o size).trans (quiet_bindSlot _ c .inn h dev num o2 size)

end

end Sys2Proof.Machine

open Sys2Proof Sys2Proof.Machine Sys2Proof.Safety Sys2Proof.Claims

/-- Settles O21: the host role reserves nothing at open. -/
theorem hostOpen : Obligations.HostOpen := by
  intro type mps dev dir num h s good ⟨init, host, sizes, select⟩
  have hh := lt_length_of_select good select
  refine ⟨_, exec_epOpen_of_ok init sizes (by simp [host]) (selectEntry_of_fresh_or_joins good select)
    (reserveAtOpen_of_host host), openedEntry_accepted (handle_lt good hh), openedEntry_identity hh, fun d hd => ?_,
    openedEntry_chans, openFrame_of_reserved hh (fun _ _ _ => rfl) (fun _ => ⟨rfl, rfl, rfl⟩) (.refl s) rfl⟩
  rw [half_openedEntry hh, if_pos ⟨rfl, hd⟩, host, openedHalf_host]

/-- Settles O22: the reservation binds the slot the allocators choose, and opening the half keeps its binding. -/
theorem deviceOpen : Obligations.DeviceOpen := by
  intro type mps dir num h c o s good ⟨init, device, sizes, notCtrl, select, acquired, found⟩
  have hh := lt_length_of_select good select
  obtain ⟨hc, -⟩ := channel_lt good acquired
  have one : halvesOf type dir = [dir] := if_neg notCtrl
  have quiet := quiet_bindSlot s c dir h 0 num o (roundup mps.toNat s.cfg.arenaGran)
  have ran := exec_epOpen_of_ok init sizes (fun _ => rfl) (selectEntry_of_fresh_or_joins good select)
    (one ▸ reserveAtOpen_single device acquired found)
  rw [one] at ran
  have hu := quiet.kept.sizes.1.symm ▸ hh
  have chans := openedEntry_chans (h := h) (type := type) (mps := mps) (dev := 0) (num := num) (ds := [dir])
    (s := bindSlot c dir h 0 num o (roundup mps.toNat s.cfg.arenaGran) s)
  refine ⟨_, ran, openedEntry_accepted (handle_lt good hh), openedEntry_identity hu, ?_, ?_, ?_, ?_, ?_, ?_,
    openFrame_of_reserved hh (bindSlot_otherHalves List.mem_cons_self) bindSlot_sameIdentities quiet rfl⟩
  · rw [half_openedEntry hu, if_pos ⟨rfl, List.mem_cons_self⟩, quiet.kept.controls.2.2.1, device, half_bindSlot_self hh,
      openedHalf_device_boundTo]
  · rw [slot_congr chans, slot_bindSlot_self hc]
  · rw [chan_congr chans, (association_bindSlot_self hc).1]
  · rw [chan_congr chans, (association_bindSlot_self hc).2]
  · exact fun c' d' ne => (slot_congr chans c' d').trans (bindSlot_otherSlots List.mem_cons_self c' d' ne)
  · intro c' ne
    rw [chan_congr chans]
    exact bindSlot_otherAssociations c' ne

/-- Settles O23: the IN half joins the channel its OUT half was given. -/
theorem deviceControlOpen : Obligations.DeviceControlOpen := by
  intro mps dir num h c o o2 s good ⟨init, device, sizes, fresh, acquired, found, found2⟩
  have hh : h < s.eps.length := good.shape.2.1 ▸ fresh.1
  obtain ⟨hc, -⟩ := channel_lt good acquired
  have quiet := quiet_bothBound (c := c) (h := h) (o := o) (o2 := o2) (dev := 0) (num := num)
    (size := roundup mps.toNat s.cfg.arenaGran) s
  have ran := exec_epOpen_of_ok (type := .ctrl) (dir := dir) init sizes (fun _ => rfl)
    (selectEntry_of_fresh_or_joins good (.inl fresh)) (reserveAtOpen_both good fresh.1 device fresh.2.1 acquired found found2)
  rw [show halvesOf .ctrl dir = bothDirs from rfl] at ran
  have hu := quiet.kept.sizes.1.symm ▸ hh
  have chans := openedEntry_chans (h := h) (type := .ctrl) (mps := mps) (dev := 0) (num := num) (ds := bothDirs)
    (s := bothBound c h o o2 0 num (roundup mps.toNat s.cfg.arenaGran) s)
  refine ⟨_, ran, openedEntry_accepted (handle_lt good hh), openedEntry_identity hu, fun d hd => ?_, ?_, ?_, ?_, ?_, ?_, ?_,
    openFrame_of_reserved hh (fun h' d' ne => ?_) bothBound_sameIdentities quiet rfl⟩
  · rw [half_openedEntry hu, if_pos ⟨rfl, hd⟩, quiet.kept.controls.2.2.1, device, half_bothBound hh, if_pos rfl,
      openedHalf_device_boundTo]
  · rw [slot_congr chans, slot_bothBound hc, if_pos rfl]
  · rw [slot_congr chans, slot_bothBound hc, if_pos rfl]
  · rw [chan_congr chans, (association_bothBound hc).1]
  · rw [chan_congr chans, (association_bothBound hc).2]
  · intro c' d' ne
    rw [slot_congr chans, slot_bothBound hc, if_neg fun e => ne ⟨e, mem_bothDirs d'⟩]
  · intro c' ne
    rw [chan_congr chans]
    exact bothBound_otherAssociations c' ne
  · rw [half_bothBound hh, if_neg fun e => ne ⟨e, mem_bothDirs d'⟩]

end

