-- ==== Sys2Proof/Proofs/FrameBoundary.lean ====
section
/-! SUPPORT. The frame boundary (R257): one half after another, a periodic half's NAK count restarts and its waiting packet is armed
again. -/

namespace Sys2Proof.Machine

open Sys2Proof.Safety Sys2Proof.Claims

/-! ### The halves of the registry in the order of the rules -/

/-- The halves of the entries of a registry, in ascending handle order, OUT before IN (R159, R257, R290). -/
def allHalves (n : Nat) : List (Nat × Dir) := (List.range n).flatMap (fun h => bothDirs.map (fun d => (h, d)))

theorem mem_allHalves {n h : Nat} {d : Dir} : (h, d) ∈ allHalves n ↔ h < n := by simp [allHalves]

/-- Two directions one after the other for each entry are one pass over the halves. -/
theorem forEntries_eq_foldl {f : Nat → Dir → State → State} (s : State) :
    forEntries (fun h t => f h .inn (f h .out t)) s = (allHalves s.cfg.epMax).foldl (fun t p => f p.1 p.2 t) s := by
  rw [allHalves, List.foldl_flatMap]
  rfl

/-! ### One half -/

/-- A half whose NAK count restarts (R257). -/
def nakCleared (x : Half) : Half := { x with nak := 0 }

/-- A half that the frame boundary serves: open and periodic (R257). -/
def Serviced (x : Half) : Prop := x.isOpen = true ∧ periodic x.type = true

section
variable {x : Half}

theorem framed_of_serviced (serviced : Serviced x) : framed x = { nakCleared x with xs := if x.xs = .wait then .inflight else x.xs } :=
  if_pos ⟨serviced.1, ((periodic_iff _).1 serviced.2).symm⟩

theorem framed_of_not_serviced (notServiced : ¬ Serviced x) : framed x = x :=
  if_neg fun both => notServiced ⟨both.1, (periodic_iff _).2 both.2.symm⟩

theorem framed_framed (x : Half) : framed (framed x) = framed x := by
  by_cases serviced : Serviced x
  · have again : Serviced (framed x) := by
      rw [framed_of_serviced serviced]
      exact serviced
    rw [framed_of_serviced again, framed_of_serviced serviced]
    cases x.xs <;> rfl
  · rw [framed_of_not_serviced serviced, framed_of_not_serviced serviced]

end

section
variable {s : State} {h : Nat} {d : Dir}

theorem frameHalf_of_not_serviced (notServiced : ¬ Serviced (half h d s)) : frameHalf h d s = s :=
  if_neg fun both => notServiced ((Bool.and_eq_true _ _).mp both)

theorem frameHalf_of_serviced (serviced : Serviced (half h d s)) : frameHalf h d s =
    if (half h d s).xs = .wait then
      setXs h d .inflight (setValid (half h d s).ch.toNat d true (modHalf h d nakCleared s))
    else modHalf h d nakCleared s := by
  have cleared : half h d (modHalf h d nakCleared s) = nakCleared (half h d s) :=
    half_modHalf_self d nakCleared (lt_length_of_isOpen serviced.1)
  have branches : frameHalf h d s = if (half h d (modHalf h d nakCleared s)).xs = .wait then
      setXs h d .inflight (setValid (half h d (modHalf h d nakCleared s)).ch.toNat d true (modHalf h d nakCleared s))
    else modHalf h d nakCleared s := if_pos ((Bool.and_eq_true _ _).mpr serviced)
  rw [branches, cleared]
  rfl

/-- What the frame boundary makes of a half, whatever its slot (R257). -/
theorem half_frameHalf (h' : Nat) (d' : Dir) : half h' d' (frameHalf h d s) =
    if h' = h ∧ d' = d then framed (half h' d' s) else half h' d' s := by
  by_cases serviced : Serviced (half h d s)
  · have hh := lt_length_of_isOpen serviced.1
    have cleared := half_modHalf h h' d d' nakCleared s
    rw [frameHalf_of_serviced serviced]
    by_cases waits : (half h d s).xs = .wait
    · have armed := half_modHalf h h' d d' (fun y => { y with xs := .inflight })
        (setValid (half h d s).ch.toNat d true (modHalf h d nakCleared s))
      rw [if_pos waits]
      refine armed.trans ?_
      by_cases here : h' = h ∧ d' = d
      · obtain ⟨rfl, rfl⟩ := here
        rw [if_pos ⟨rfl, rfl, by simpa [setValid] using hh⟩, if_pos ⟨rfl, rfl⟩, framed_of_serviced serviced, if_pos waits,
          show half h' d' (setValid (half h' d' s).ch.toNat d' true (modHalf h' d' nakCleared s)) = _ from
            half_modHalf_self d' nakCleared hh]
      · rw [if_neg fun e => here ⟨e.1, e.2.1⟩, if_neg here]
        exact cleared.trans (if_neg fun e => here ⟨e.1, e.2.1⟩)
    · rw [if_neg waits, cleared]
      by_cases here : h' = h ∧ d' = d
      · obtain ⟨rfl, rfl⟩ := here
        rw [if_pos ⟨rfl, rfl, hh⟩, if_pos ⟨rfl, rfl⟩, framed_of_serviced serviced, if_neg waits]
        rfl
      · rw [if_neg fun e => here ⟨e.1, e.2.1⟩, if_neg here]
  · rw [frameHalf_of_not_serviced serviced]
    split
    next here =>
      obtain ⟨rfl, rfl⟩ := here
      rw [framed_of_not_serviced serviced]
    · rfl

/-- A packet that waits for the frame: its half is served at the boundary, and its slot is one of the table (R54, INV5). -/
def WaitsServed (h : Nat) (d : Dir) (s : State) : Prop :=
  (half h d s).xs = .wait → Serviced (half h d s) ∧ (half h d s).ch.toNat < s.chans.length

/-- The slot of a waiting packet is valid again, every other slot and every association is as before (R257). -/
theorem slotBecomes_frameHalf (served : WaitsServed h d s) : SameAssociations s (frameHalf h d s) ∧
    ∀ c d', slot c d' (frameHalf h d s) =
      if (half h d s).xs = .wait ∧ c = (half h d s).ch.toNat ∧ d' = d then { slot c d' s with valid := true }
      else slot c d' s := by
  by_cases waits : (half h d s).xs = .wait
  · obtain ⟨serviced, hc⟩ := served waits
    rw [frameHalf_of_serviced serviced, if_pos waits]
    obtain ⟨becomes, others, associations⟩ := modSlot_slotBecomes (d := d) (s := modHalf h d nakCleared s)
      (fun x => { x with valid := true }) hc
    refine ⟨associations, fun c d' => ?_⟩
    by_cases here : c = (half h d s).ch.toNat ∧ d' = d
    · obtain ⟨rfl, rfl⟩ := here
      rw [if_pos ⟨waits, rfl, rfl⟩]
      exact becomes
    · rw [if_neg fun e => here e.2]
      exact others c d' fun e => here ⟨e.1, List.mem_singleton.1 e.2⟩
  · have chans : (frameHalf h d s).chans = s.chans := by
      by_cases serviced : Serviced (half h d s)
      · rw [frameHalf_of_serviced serviced, if_neg waits, modHalf_chans]
      · rw [frameHalf_of_not_serviced serviced]
    refine ⟨fun c => by rw [chan_congr chans]; exact ⟨rfl, rfl⟩, fun c d' => ?_⟩
    rw [slot_congr chans, if_neg fun e => waits e.1]

theorem frameHalf_sameIdentities : SameIdentities s (frameHalf h d s) := by
  by_cases serviced : Serviced (half h d s)
  · rw [frameHalf_of_serviced serviced]
    split
    · exact sameIdentities_trans (modHalf_sameIdentities d nakCleared)
        (modHalf_sameIdentities (s := setValid _ d true _) d (fun y => { y with xs := .inflight }))
    · exact modHalf_sameIdentities d nakCleared
  · rw [frameHalf_of_not_serviced serviced]
    exact fun _ => ⟨rfl, rfl, rfl⟩

end

/-! ### The whole registry -/

/-- The frame boundary of some halves, in order. -/
def frameHalves (l : List (Nat × Dir)) (s : State) : State := l.foldl (fun t p => frameHalf p.1 p.2 t) s

theorem frameService_of_host {s : State} (host : s.role = .host) : frameService s = frameHalves (allHalves s.cfg.epMax) s :=
  (if_pos host).trans (forEntries_eq_foldl s)

theorem frameHalves_concat (l : List (Nat × Dir)) (h : Nat) (d : Dir) (s : State) :
    frameHalves (l ++ [(h, d)]) s = frameHalf h d (frameHalves l s) := by
  rw [frameHalves, List.foldl_append]
  rfl

section
variable {s : State}

theorem quiet_frameHalves (l : List (Nat × Dir)) (s : State) : Quiet s (frameHalves l s) :=
  Quiet.foldl (f := fun t (p : Nat × Dir) => frameHalf p.1 p.2 t) (fun u p => quiet_frameHalf u p.1 p.2) l s

theorem half_frameHalves (l : List (Nat × Dir)) (h : Nat) (d : Dir) : half h d (frameHalves l s) =
    if (h, d) ∈ l then framed (half h d s) else half h d s := by
  induction l using List.reverseRecOn with
  | nil => rfl
  | append_singleton l p ih =>
    obtain ⟨h', d'⟩ := p
    rw [frameHalves_concat, half_frameHalf, ih]
    by_cases here : h = h' ∧ d = d'
    · obtain ⟨rfl, rfl⟩ := here
      simp only [and_self, if_true, List.mem_append, List.mem_singleton, or_true]
      split
      · exact framed_framed _
      · rfl
    · have same : ((h, d) ∈ l ++ [(h', d')]) ↔ (h, d) ∈ l := by simp [here]
      simp only [if_neg here, same]

theorem frameHalves_keeps (l : List (Nat × Dir)) : SameIdentities s (frameHalves l s) ∧ (frameHalves l s).evq = s.evq := by
  induction l using List.reverseRecOn with
  | nil => exact ⟨fun _ => ⟨rfl, rfl, rfl⟩, rfl⟩
  | append_singleton l p ih =>
    obtain ⟨h, d⟩ := p
    rw [frameHalves_concat]
    exact ⟨sameIdentities_trans ih.1 frameHalf_sameIdentities, (frameHalf_evq h d _).trans ih.2⟩

/-- A packet that waits is on an open periodic half with a slot of the table (R54, INV5). -/
theorem waitsServed_of_good (g : Good s) (h : Nat) (d : Dir) : WaitsServed h d s := by
  intro waits
  have busy : (half h d s).xs ≠ .idle := by simp [waits]
  have hh : h < s.cfg.epMax := g.shape.2.1 ▸ lt_length_of_busy busy
  have sv := serves_of_bound g (bound_of_busy g busy)
  refine ⟨⟨?_, ((g.inv5.2 h hh d (mem_bothDirs d)).2.1 waits).2.1⟩, sv.chan_lt⟩
  by_contra notOpen
  have closed := g.closedHalves h hh d (mem_bothDirs d) (by simpa using notOpen)
  rw [closed] at waits
  cases waits

/-- A half whose turn has come waits no more; until then it is as before. -/
theorem waits_frameHalves (g : Good s) {l : List (Nat × Dir)} {h : Nat} {d : Dir} :
    (half h d (frameHalves l s)).xs = .wait ↔ (h, d) ∉ l ∧ (half h d s).xs = .wait := by
  rw [half_frameHalves]
  split
  next turn =>
    refine ⟨fun waits => ?_, fun e => absurd turn e.1⟩
    by_cases serviced : Serviced (half h d s)
    · rw [framed_of_serviced serviced] at waits
      by_cases waited : (half h d s).xs = .wait <;> simp [waited] at waits
    · rw [framed_of_not_serviced serviced] at waits
      exact absurd (waitsServed_of_good g h d waits).1 serviced
  next notYet => simp [notYet]

/-- The slots of the waiting packets whose turn came are valid again; every other slot and every association is as before. -/
theorem slot_frameHalves (g : Good s) (l : List (Nat × Dir)) :
    SameAssociations s (frameHalves l s) ∧ ∀ c d, slot c d (frameHalves l s) =
      if ((slot c d s).bound = true ∧ (half (slot c d s).ep.toNat d s).xs = .wait) ∧ ((slot c d s).ep.toNat, d) ∈ l then
        { slot c d s with valid := true }
      else slot c d s := by
  induction l using List.reverseRecOn with
  | nil => exact ⟨fun _ => ⟨rfl, rfl⟩, fun c d => by simp [frameHalves]⟩
  | append_singleton l p ih =>
    obtain ⟨h', d'⟩ := p
    obtain ⟨associations, slots⟩ := ih
    have length := (quiet_frameHalves l s).kept.sizes.2
    have sameCh : (half h' d' (frameHalves l s)).ch = (half h' d' s).ch := by
      rw [half_frameHalves, framed]
      split
      · split <;> rfl
      · rfl
    have served : WaitsServed h' d' (frameHalves l s) := by
      intro waits
      obtain ⟨notYet, waited⟩ := (waits_frameHalves g).1 waits
      rw [half_frameHalves, if_neg notYet, length]
      exact waitsServed_of_good g h' d' waited
    obtain ⟨associations', slots'⟩ := slotBecomes_frameHalf served
    rw [frameHalves_concat]
    refine ⟨fun c => ⟨(associations' c).1.trans (associations c).1, (associations' c).2.trans (associations c).2⟩, fun c d => ?_⟩
    rw [slots', slots, sameCh]
    by_cases turn : (half h' d' (frameHalves l s)).xs = .wait ∧ c = (half h' d' s).ch.toNat ∧ d = d'
    · obtain ⟨waits, rfl, rfl⟩ := turn
      obtain ⟨notYet, waited⟩ := (waits_frameHalves g).1 waits
      obtain ⟨bound, ep⟩ := (linked_of_good g _ h' d).2 ⟨bound_of_busy g (by simp [waited]), rfl⟩
      simp [waits, ep, waited, bound, notYet]
    · rw [if_neg turn]
      have same : (((slot c d s).bound = true ∧ (half (slot c d s).ep.toNat d s).xs = .wait) ∧ ((slot c d s).ep.toNat, d) ∈ l) ↔
          (((slot c d s).bound = true ∧ (half (slot c d s).ep.toNat d s).xs = .wait) ∧
            ((slot c d s).ep.toNat, d) ∈ l ++ [(h', d')]) := by
        refine and_congr_right fun ⟨bound, waited⟩ => ?_
        rw [List.mem_append, List.mem_singleton]
        refine ⟨.inl, fun here => here.elim id fun e => ?_⟩
        obtain ⟨rfl, rfl⟩ := Prod.mk.inj e
        by_contra notYet
        obtain ⟨-, ch⟩ := (linked_of_good g c _ d).1 ⟨bound, rfl⟩
        exact turn ⟨(waits_frameHalves g).2 ⟨notYet, waited⟩, ch.symm, rfl⟩
      simp only [same]

/-- The frame boundary of the host role: every half and every slot (R257). -/
theorem frameService_host (g : Good s) (host : s.role = .host) :
    HalvesFramed s (frameService s) ∧ SlotsFramed s (frameService s) ∧ SameAssociations s (frameService s) := by
  rw [frameService_of_host host]
  obtain ⟨associations, slots⟩ := slot_frameHalves g (allHalves s.cfg.epMax)
  refine ⟨fun h d => ?_, fun c d => ?_, associations⟩
  · rw [half_frameHalves]
    split
    · rfl
    next absent =>
      have outside : ¬ h < s.cfg.epMax := absent ∘ mem_allHalves.2
      have table := g.shape.2.1
      rw [half, entry_outside (by omega), Entry.half_free]
      rfl
  · rw [slots]
    have inside : (slot c d s).bound = true → (slot c d s).ep.toNat < s.cfg.epMax := fun bound =>
      g.shape.2.1 ▸ (serves_of_slot_bound g bound).1.entry_lt
    have same : (((slot c d s).bound = true ∧ (half (slot c d s).ep.toNat d s).xs = .wait) ∧
        ((slot c d s).ep.toNat, d) ∈ allHalves s.cfg.epMax) ↔ ((slot c d s).bound = true ∧ (half (slot c d s).ep.toNat d s).xs = .wait) :=
      ⟨fun h => h.1, fun h => ⟨h, mem_allHalves.2 (inside h.1)⟩⟩
    simp only [same]

theorem frameService_keeps (s : State) : SameIdentities s (frameService s) ∧ (frameService s).evq = s.evq := by
  cases role : s.role with
  | host =>
    rw [frameService_of_host role]
    exact frameHalves_keeps _
  | device =>
    rw [frameService, if_neg (by simp [role])]
    exact ⟨fun _ => ⟨rfl, rfl, rfl⟩, rfl⟩

theorem frameService_of_device (device : s.role = .device) : frameService s = s := if_neg (by simp [device])

end

end Sys2Proof.Machine

open Sys2Proof Sys2Proof.Machine Sys2Proof.Safety Sys2Proof.Claims

/-- Settles O45: half by half, and then the word. -/
theorem frameRule : Obligations.FrameRule := by
  intro s good ready
  have ran : exec .linkFrame s = .next (reported 5 0x70000000 (frameService s)) := whenEnabled_report (busEnabled_iff.2 ready)
  have quiet := quiet_frameService s
  have intEn : (frameService s).intEn = s.intEn := quiet.kept.controls.2.2.2.2.2.1
  obtain ⟨identities, evq⟩ := frameService_keeps s
  have rest : (reported 5 0x70000000 (frameService s)).evq = s.evq ++ (if s.intEn.getLsbD 5 then [0x70000000] else []) ∧
      (reported 5 0x70000000 (frameService s)).wire = s.wire ∧ SameBytes s.mem (reported 5 0x70000000 (frameService s)).mem ∧
      SameBytes s.arena (reported 5 0x70000000 (frameService s)).arena ∧
      LinkFrame s (reported 5 0x70000000 (frameService s)) :=
    ⟨by rw [reported, evq, intEn], quiet.wire, fun a => congrArg (Memory.read · a) quiet.mem,
      fun a => congrArg (Memory.read · a) quiet.arena, quiet.kept.results, quiet.kept.controls, identities⟩
  refine ⟨_, ran, ?_⟩
  cases role : s.role with
  | host =>
    obtain ⟨halves, slots, associations⟩ := frameService_host good role
    exact ⟨by rw [if_pos role]; exact ⟨halves, slots⟩, associations, rest⟩
  | device =>
    have same := frameService_of_device role
    refine ⟨by rw [if_neg (by simp [role]), same]; exact ⟨rfl, rfl⟩, fun c => ?_, rest⟩
    rw [same]
    exact ⟨rfl, rfl⟩

end

