-- ==== Sys2Proof/Proofs/Closing.lean ====
section
/-! SUPPORT. Closing halves (R155, R159, R290): what one CloseHalf leaves, and that closing a list of halves, one after the other,
leaves each closed, its slot free, and one completion per transfer in flight, in the order of the list. -/

namespace Sys2Proof.Machine

open Sys2Proof.Safety Sys2Proof.Claims

/-! ### States in which halves can be closed -/

/-- What closing relies on and keeps: the tables have their sizes, slots and halves name each other, a transfer in flight has a
slot, and a half that is not open has all fields 0. -/
structure Closable (s : State) : Prop where
  eps : s.eps.length = s.cfg.epMax
  handles : s.cfg.epMax ≤ 255
  serves : ∀ h d, (half h d s).bound = true → Serves (half h d s).ch.toNat h d s
  linked : ∀ c d, (slot c d s).bound = true →
    (half (slot c d s).ep.toNat d s).bound = true ∧ (half (slot c d s).ep.toNat d s).ch.toNat = c
  busy : ∀ h d, (half h d s).xs ≠ .idle → (half h d s).bound = true
  closed : ∀ h d, (half h d s).isOpen = false → half h d s = Half.closed

theorem closable_of_good {s : State} (g : Good s) : Closable s := by
  obtain ⟨⟨-, ⟨-, entries⟩, -⟩, table, -⟩ := g.shape
  refine ⟨table, entries, fun h d => serves_of_bound g, fun c d bound => ?_, fun h d => bound_of_busy g, fun h d notOpen => ?_⟩
  · exact (linked_of_good g c _ d).1 ⟨bound, rfl⟩
  · by_cases hh : h < s.cfg.epMax
    · exact g.closedHalves h hh d (mem_bothDirs d) notOpen
    · rw [half, entry_outside (by omega), Entry.half_free]

/-! ### Some halves closed -/

/-- The selected halves are closed and their slots free; an entry that lost its last open half so is free (R155, R172). -/
structure HalvesClosed (sel : Nat → Dir → Bool) (s t : State) : Prop where
  halves : ∀ h d, half h d t = if sel h d then Half.closed else half h d s
  freed : ∀ h, (∃ d, sel h d = true) → (∀ d, (half h d t).isOpen = false) → entry h t = Entry.free
  kept : ∀ h, (∀ d, sel h d = false) ∨ (∃ d, (half h d t).isOpen = true) →
    (entry h t).used = (entry h s).used ∧ (entry h t).dev = (entry h s).dev ∧ (entry h t).num = (entry h s).num
  slots : SlotsReleased sel s t
  associations : AssociationsAfter s t
  quiet : Quiet s t

section
variable {s u t : State} {sel sel' : Nat → Dir → Bool}

/-- An entry reads by its used bit, its identity and its two halves. -/
theorem entry_ext {h : Nat} (ids : (entry h t).used = (entry h s).used ∧ (entry h t).dev = (entry h s).dev ∧
    (entry h t).num = (entry h s).num) (halves : ∀ d, half h d t = half h d s) : entry h t = entry h s := by
  have out := halves .out
  have inn := halves .inn
  simp only [half, Entry.half] at out inn
  cases e : entry h t
  cases e' : entry h s
  simp_all

/-- A channel that is fully free stays so while slots are only released. -/
theorem fullyFree_of_released (released : SlotsReleased sel s t) {c : Nat} (free : fullyFree c s = true) :
    fullyFree c t = true := by
  rw [fullyFree_iff] at free ⊢
  rw [released, released, free.1, free.2]
  exact free

theorem associationsAfter_trans (ra : SlotsReleased sel s u) (a : AssociationsAfter s u) (rb : SlotsReleased sel' u t)
    (b : AssociationsAfter u t) : AssociationsAfter s t := by
  intro c
  have first := fullyFree_of_released ra (c := c)
  have second := fullyFree_of_released rb (c := c)
  rw [b c, a c]
  cases hs : fullyFree c s <;> cases hu : fullyFree c u <;> cases ht : fullyFree c t <;> simp_all

theorem slotsReleased_trans (a : SlotsReleased sel s u) (b : SlotsReleased sel' u t) :
    SlotsReleased (fun h d => sel h d || sel' h d) s t := by
  intro c d
  rw [b, a]
  cases bound : (slot c d s).bound
  · simp [bound]
  · cases chosen : sel (slot c d s).ep.toNat d <;> simp [bound, chosen, Slot.free]

theorem HalvesClosed.trans (a : HalvesClosed sel s u) (b : HalvesClosed sel' u t) :
    HalvesClosed (fun h d => sel h d || sel' h d) s t := by
  have halves (h d) : half h d t = if sel h d || sel' h d then Half.closed else half h d s := by
    rw [b.halves, a.halves]
    cases sel h d <;> cases sel' h d <;> rfl
  have same {h} (none : ∀ d, sel' h d = false) (d : Dir) : half h d t = half h d u := by rw [b.halves, none d]; rfl
  have stillOpen {h d} (isOpen : (half h d t).isOpen = true) : (half h d u).isOpen = true := by
    rw [b.halves] at isOpen
    cases chosen : sel' h d with
    | false => simpa [chosen] using isOpen
    | true => simp [chosen, Half.closed] at isOpen
  refine ⟨halves, fun h chosen notOpen => ?freed, fun h kept => ?kept, slotsReleased_trans a.slots b.slots,
    associationsAfter_trans a.slots a.associations b.slots b.associations, a.quiet.trans b.quiet⟩
  case freed =>
    by_cases later : ∃ d, sel' h d = true
    · exact b.freed h later notOpen
    · have none (d : Dir) : sel' h d = false := by
        by_contra some
        exact later ⟨d, by simpa using some⟩
      obtain ⟨d, chosen⟩ := chosen
      rw [none d, Bool.or_false] at chosen
      rw [entry_ext (b.kept h (.inl none)) (same none)]
      exact a.freed h ⟨d, chosen⟩ fun d' => by rw [← same none d']; exact notOpen d'
  case kept =>
    have first : (∀ d, sel h d = false) ∨ ∃ d, (half h d u).isOpen = true :=
      kept.imp (fun none d => (Bool.or_eq_false_iff.1 (none d)).1) fun ⟨d, isOpen⟩ => ⟨d, stillOpen isOpen⟩
    have second : (∀ d, sel' h d = false) ∨ ∃ d, (half h d t).isOpen = true :=
      kept.imp_left fun none d => (Bool.or_eq_false_iff.1 (none d)).2
    obtain ⟨used, dev, num⟩ := a.kept h first
    obtain ⟨used', dev', num'⟩ := b.kept h second
    exact ⟨used'.trans used, dev'.trans dev, num'.trans num⟩

/-- Closing keeps what closing relies on. -/
theorem HalvesClosed.closable (a : HalvesClosed sel s t) (cl : Closable s) : Closable t := by
  obtain ⟨eps, handles, serves, linked, busy, closed⟩ := cl
  have cfg : t.cfg = s.cfg := a.quiet.kept.controls.1
  have kept {h d} (bound : (half h d t).bound = true) : sel h d = false ∧ half h d t = half h d s := by
    rw [a.halves] at bound ⊢
    cases chosen : sel h d with
    | false => exact ⟨rfl, rfl⟩
    | true => simp [chosen, Half.closed] at bound
  have slotKept {c d} (bound : (slot c d t).bound = true) :
      sel (slot c d s).ep.toNat d = false ∧ slot c d t = slot c d s := by
    rw [a.slots] at bound ⊢
    cases chosen : sel (slot c d s).ep.toNat d with
    | false => exact ⟨rfl, by simp⟩
    | true =>
      cases was : (slot c d s).bound <;> simp [chosen, was, Slot.free] at bound
  refine ⟨?_, ?_, fun h d bound => ?_, fun c d bound => ?_, fun h d busy' => ?_, fun h d notOpen => ?_⟩
  · rw [a.quiet.kept.sizes.1, cfg, eps]
  · rwa [cfg]
  · obtain ⟨notChosen, same⟩ := kept bound
    rw [same] at bound ⊢
    obtain ⟨chan_lt, entry_lt, slotBound, ep, ch⟩ := serves h d bound
    have sameSlot : slot (half h d s).ch.toNat d t = slot (half h d s).ch.toNat d s := by
      rw [a.slots, ep, notChosen]
      simp
    exact ⟨by rwa [a.quiet.kept.sizes.2], by rwa [a.quiet.kept.sizes.1], by rwa [sameSlot], by rwa [sameSlot], by rw [same]⟩
  · obtain ⟨notChosen, same⟩ := slotKept bound
    rw [same] at bound ⊢
    rw [a.halves, notChosen]
    exact linked c d bound
  · rw [a.halves] at busy' ⊢
    cases chosen : sel h d with
    | false =>
      rw [chosen] at busy'
      exact busy h d busy'
    | true => simp [chosen, Half.closed] at busy'
  · rw [a.halves] at notOpen ⊢
    cases chosen : sel h d with
    | false =>
      rw [chosen] at notOpen
      exact closed h d notOpen
    | true => rfl

end

/-! ### One CloseHalf (R155) -/

/-- The completion word of aborting a half, if it has a transfer in flight (R206, R288). -/
def closingWord (h : Nat) (d : Dir) (s : State) : List Word :=
  if (half h d s).xs = .idle then [] else [completion 4 d h (half h d s).done.toNat]

/-- The one half selected. -/
def justHalf (h : Nat) (d : Dir) (h' : Nat) (d' : Dir) : Bool := decide (h' = h ∧ d' = d)

/-- A half without its transfer and its slot: what CloseHalf makes of the tables before it clears the half (R155). -/
structure HalfDetached (h : Nat) (d : Dir) (s t : State) : Prop where
  halves : OtherHalves h [d] s t
  identities : SameIdentities s t
  slots : SlotsReleased (justHalf h d) s t
  associations : AssociationsAfter s t
  quiet : Quiet s t
  evq : t.evq = s.evq ++ closingWord h d s

section
variable {s : State} {h : Nat} {d : Dir}

/-- A half without a slot is detached. -/
theorem halfDetached_refl (cl : Closable s) (notBound : (half h d s).bound = false) : HalfDetached h d s s := by
  have idle : (half h d s).xs = .idle := by
    by_contra busy
    rw [cl.busy h d busy] at notBound
    cases notBound
  refine ⟨fun _ _ _ => rfl, fun _ => ⟨rfl, rfl, rfl⟩, fun c d' => ?_, fun c => by simp, .refl s, by simp [closingWord, idle]⟩
  split
  next released =>
    simp only [justHalf, Bool.and_eq_true, decide_eq_true_eq] at released
    obtain ⟨bound, rfl, rfl⟩ := released
    rw [(cl.linked c d' bound).1] at notBound
    cases notBound
  · rfl

theorem slotsReleased_of_slotEnds {c : Nat} {t : State} (cl : Closable s) (sv : Serves c h d s) (ends : SlotEnds c d Slot.free s t) :
    SlotsReleased (justHalf h d) s t := by
  obtain ⟨freed, others, -⟩ := ends
  intro c' d'
  by_cases here : c' = c ∧ d' = d
  · obtain ⟨rfl, rfl⟩ := here
    rw [freed, sv.bound, sv.ep]
    simp [justHalf]
  · rw [others c' d' fun e => here ⟨e.1, List.mem_singleton.1 e.2⟩, if_neg]
    simp only [justHalf, Bool.and_eq_true, decide_eq_true_eq]
    rintro ⟨bound, ep, rfl⟩
    refine here ⟨?_, rfl⟩
    have ch := (cl.linked c' d' bound).2
    rw [ep, sv.ch] at ch
    exact ch.symm

/-- A bound half whose slot ends free is detached. -/
theorem halfDetached_of_slotEnds {c : Nat} {t : State} (cl : Closable s) (sv : Serves c h d s) (ends : SlotEnds c d Slot.free s t)
    (halves : OtherHalves h [d] s t) (identities : SameIdentities s t) (quiet : Quiet s t)
    (evq : t.evq = s.evq ++ closingWord h d s) : HalfDetached h d s t :=
  ⟨halves, identities, slotsReleased_of_slotEnds cl sv ends, ends.2.2, quiet, evq⟩

theorem chRelease_otherHalves {c : Nat} (sv : Serves c h d s) : OtherHalves h [d] s (chRelease c d s) := by
  intro h' d' ne
  rw [half_chRelease h' d' sv, if_neg]
  rintro ⟨rfl, rfl⟩
  exact ne ⟨rfl, List.mem_cons_self⟩

/-- An aborted transfer and a released slot; in the host role the abort itself has released it (R155, R174, R206). -/
theorem halfDetached_closing (cl : Closable s) : HalfDetached h d s (releaseIfBound h d (abortIfBusy h d s)) := by
  by_cases idle : (half h d s).xs = .idle
  · have noWord : closingWord h d s = [] := if_pos idle
    rw [abortIfBusy, if_pos idle, releaseIfBound]
    split
    next bound =>
      have sv := cl.serves h d bound
      exact halfDetached_of_slotEnds cl sv (chRelease_slotEnds sv.chan_lt sv.bound) (chRelease_otherHalves sv)
        chRelease_sameIdentities (quiet_chRelease s _ d) (by simp [noWord])
    next notBound => exact halfDetached_refl cl (by simpa using notBound)
  · have sv := cl.serves h d (cl.busy h d idle)
    have word : (settle h d .failedAbort s).evq = s.evq ++ closingWord h d s := by
      have lt : h < 256 := by
        have := sv.entry_lt
        have := cl.eps
        have := cl.handles
        omega
      rw [closingWord, if_neg idle]
      exact settle_evq_completion .failedAbort lt
    have others := settle_otherHalves .failedAbort (List.mem_cons_self (a := d) (l := [])) sv
    have identities := settle_sameIdentities .failedAbort sv
    have quiet := quiet_settle s h d .failedAbort
    have ended := half_settle .failedAbort h d sv
    rw [if_pos ⟨rfl, rfl⟩] at ended
    rw [abortIfBusy, if_neg idle, abortHalf_eq sv, releaseIfBound]
    cases role : s.role with
    | host =>
      obtain ⟨freed, otherSlots, associations⟩ := settle_slotSettled .failedAbort sv
      rw [if_pos role] at freed
      rw [ended, settledHalf, if_pos role, if_neg (by simp)]
      exact halfDetached_of_slotEnds cl sv ⟨freed, otherSlots, associations⟩ others identities quiet word
    | device =>
      have notHost : ¬ s.role = .host := by simp [role]
      have stays : SlotBecomes (half h d s).ch.toNat d { slot (half h d s).ch.toNat d s with valid := false } s
          (settle h d .failedAbort s) := by
        have device : ¬ (endTransfer (half h d s).ch.toNat h d s).role = .host := notHost
        rw [settle_eq .failedAbort sv, releaseIfHost, if_neg device]
        exact endTransfer_slotBecomes (h := h) sv.chan_lt
      have sv' : Serves (half h d s).ch.toNat h d (settle h d .failedAbort s) :=
        serves_of_becomes sv stays rfl rfl (by rw [ended, settledHalf, if_neg notHost]) quiet.kept.sizes.1 quiet.kept.sizes.2
      rw [ended, settledHalf, if_neg notHost, if_pos (cl.busy h d idle)]
      exact halfDetached_of_slotEnds cl sv
        (slotEnds_of_becomes stays rfl (chRelease_slotEnds sv'.chan_lt sv'.bound))
        (otherHalves_trans others (chRelease_otherHalves sv')) (sameIdentities_trans identities chRelease_sameIdentities)
        (quiet.trans (quiet_chRelease _ _ d)) (by rw [chRelease_evq, word])

theorem justHalf_iff {h' : Nat} {d' : Dir} : justHalf h d h' d' = true ↔ h' = h ∧ d' = d := by simp [justHalf]

/-- The half cleared, before the entry is looked at (R155). -/
def clearedHalf (h : Nat) (d : Dir) (s : State) : State := modHalf h d (fun _ => Half.closed) s

theorem half_clearedHalf (hh : h < s.eps.length) (h' : Nat) (d' : Dir) :
    half h' d' (clearedHalf h d s) = if justHalf h d h' d' then Half.closed else half h' d' s := by
  rw [clearedHalf, half_modHalf]
  simp only [hh, and_true, justHalf_iff]

/-- Freeing an entry without an open half changes no half where halves that are not open are closed (R155). -/
theorem half_freeIfClosed (closed : ∀ d, (half h d s).isOpen = false → half h d s = Half.closed) (h' : Nat) (d' : Dir) :
    half h' d' (freeIfClosed h s) = half h' d' s := by
  unfold freeIfClosed
  split
  · rfl
  next noneOpen =>
    rw [half_setEntry]
    split
    next here =>
      obtain ⟨rfl, -⟩ := here
      rw [Bool.or_eq_true, not_or, Bool.not_eq_true, Bool.not_eq_true] at noneOpen
      rw [Entry.half_free, closed d' (by cases d'; exacts [noneOpen.1, noneOpen.2])]
    · rfl

theorem entry_freeIfClosed_of_open {d' : Dir} (isOpen : (half h d' s).isOpen = true) : freeIfClosed h s = s :=
  if_pos (by cases d' <;> simp [isOpen])

theorem entry_freeIfClosed_other {h' : Nat} (ne : h' ≠ h) : entry h' (freeIfClosed h s) = entry h' s := by
  unfold freeIfClosed
  split
  · rfl
  · rw [entry_setEntry, if_neg fun e => ne e.1]

theorem entry_freeIfClosed_self (hh : h < s.eps.length) (noneOpen : ∀ d, (half h d s).isOpen = false) :
    entry h (freeIfClosed h s) = Entry.free := by
  rw [freeIfClosed, if_neg (by simp [noneOpen]), entry_setEntry, if_pos ⟨rfl, hh⟩]

/-- CloseHalf closes the one half and pushes its word, if one is due (R155). -/
theorem closeHalf_closes (cl : Closable s) (hh : h < s.eps.length) :
    HalvesClosed (justHalf h d) s (closeHalf h d s) ∧ (closeHalf h d s).evq = s.evq ++ closingWord h d s := by
  obtain ⟨others, identities, slots, associations, quiet, evq⟩ := halfDetached_closing (h := h) (d := d) cl
  have length := quiet.kept.sizes.1.symm ▸ hh
  have cleared (h' d') : half h' d' (clearedHalf h d (releaseIfBound h d (abortIfBusy h d s))) =
      if justHalf h d h' d' then Half.closed else half h' d' s := by
    rw [half_clearedHalf length]
    split
    · rfl
    next other => exact others h' d' fun e => other (justHalf_iff.2 ⟨e.1, List.mem_singleton.1 e.2⟩)
  have halves (h' d') : half h' d' (closeHalf h d s) = if justHalf h d h' d' then Half.closed else half h' d' s := by
    rw [← cleared]
    refine half_freeIfClosed (fun d'' notOpen => ?_) h' d'
    change half h d'' (clearedHalf h d _) = _
    change (half h d'' (clearedHalf h d _)).isOpen = false at notOpen
    rw [cleared] at notOpen ⊢
    split
    · rfl
    next other =>
      rw [if_neg other] at notOpen
      exact cl.closed h d'' notOpen
  have ids (h') : (entry h' (clearedHalf h d (releaseIfBound h d (abortIfBusy h d s)))).used = (entry h' s).used ∧
      (entry h' (clearedHalf h d (releaseIfBound h d (abortIfBusy h d s)))).dev = (entry h' s).dev ∧
      (entry h' (clearedHalf h d (releaseIfBound h d (abortIfBusy h d s)))).num = (entry h' s).num :=
    sameIdentities_trans identities (modHalf_sameIdentities d _) h'
  have chans : (closeHalf h d s).chans = (releaseIfBound h d (abortIfBusy h d s)).chans := by simp [closeHalf]
  refine ⟨⟨halves, fun h' chosen notOpen => ?freed, fun h' kept => ?kept, fun c d' => ?_, fun c => ?_, quiet_closeHalf s h d⟩,
    by simpa [closeHalf] using evq⟩
  case freed =>
    obtain ⟨d', chosen⟩ := chosen
    obtain ⟨rfl, -⟩ := justHalf_iff.1 chosen
    refine entry_freeIfClosed_self (by simpa using length) fun d'' => ?_
    have closed := notOpen d''
    rw [halves, ← cleared] at closed
    exact closed
  case kept =>
    by_cases here : h' = h
    · subst here
      obtain none | ⟨d', isOpen⟩ := kept
      · exact absurd (none d) (by simp [justHalf])
      · rw [halves, ← cleared] at isOpen
        have stays : closeHalf h' d s = clearedHalf h' d (releaseIfBound h' d (abortIfBusy h' d s)) :=
          entry_freeIfClosed_of_open isOpen
        rw [stays]
        exact ids h'
    · have same : entry h' (closeHalf h d s) = entry h' (clearedHalf h d (releaseIfBound h d (abortIfBusy h d s))) :=
        entry_freeIfClosed_other here
      rw [same]
      exact ids h'
  · rw [slot_congr chans]
    exact slots c d'
  · rw [fullyFree, slot_congr chans, slot_congr chans, chan_congr chans]
    exact associations c

end

/-! ### A list of halves, one after the other -/

/-- CloseHalf on each half of a list. -/
def closeList (l : List (Nat × Dir)) (s : State) : State := l.foldl (fun t p => closeHalf p.1 p.2 t) s

/-- The halves of a list selected. -/
def inList (l : List (Nat × Dir)) (h : Nat) (d : Dir) : Bool := decide ((h, d) ∈ l)

section
variable {s : State}

theorem closingWord_congr {h : Nat} {d : Dir} {t : State} (same : half h d t = half h d s) :
    closingWord h d t = closingWord h d s := by rw [closingWord, closingWord, same]

/-- A list of halves closed: each is closed, and the words follow the order of the list (R155, R159, R288). -/
theorem closeList_closes {l : List (Nat × Dir)} (cl : Closable s) (distinct : l.Nodup) (inside : ∀ p ∈ l, p.1 < s.eps.length) :
    HalvesClosed (inList l) s (closeList l s) ∧ (closeList l s).evq = s.evq ++ l.flatMap (fun p => closingWord p.1 p.2 s) := by
  induction l generalizing s with
  | nil =>
    refine ⟨⟨fun h d => by simp [inList, closeList], fun h ⟨d, chosen⟩ => by simp [inList] at chosen,
      fun h _ => ⟨rfl, rfl, rfl⟩, fun c d => by simp [inList, closeList], fun c => by simp [closeList], .refl s⟩, ?_⟩
    simp [closeList]
  | cons p l ih =>
    obtain ⟨h, d⟩ := p
    obtain ⟨notLater, distinct⟩ := List.nodup_cons.1 distinct
    obtain ⟨first, word⟩ := closeHalf_closes (d := d) cl (inside _ List.mem_cons_self)
    obtain ⟨rest, words⟩ := ih (first.closable cl) distinct fun q hq => by
      rw [first.quiet.kept.sizes.1]
      exact inside q (List.mem_cons_of_mem _ hq)
    have select : (fun h' d' => justHalf h d h' d' || inList l h' d') = inList ((h, d) :: l) := by
      funext h' d'
      simp [justHalf, inList, Bool.decide_or]
    have later : l.flatMap (fun p => closingWord p.1 p.2 (closeHalf h d s)) = l.flatMap (fun p => closingWord p.1 p.2 s) := by
      refine List.flatMap_congr fun q hq => closingWord_congr ?_
      rw [first.halves, if_neg]
      rw [justHalf_iff]
      rintro ⟨rfl, rfl⟩
      exact notLater hq
    refine ⟨select ▸ first.trans rest, ?_⟩
    rw [later, word, List.append_assoc] at words
    exact words

end

end Sys2Proof.Machine
end

