-- ==== Sys2Proof/Proofs/ClosingRules.lean ====
section
/-! SUPPORT. The commands and events that close halves: EP_CLOSE (R154, R155), DEV_CLOSE (R159) and BUS_RESET (R290). Each closes a
list of halves, in ascending handle order, OUT before IN. -/

namespace Sys2Proof.Machine

open Sys2Proof.Safety Sys2Proof.Claims

/-! ### The halves of one entry -/

section
variable {s : State} {h : Nat}

/-- Some halves of one entry, as a list of halves. -/
def ofEntry (h : Nat) (ds : List Dir) : List (Nat × Dir) := ds.map (fun d => (h, d))

theorem mem_ofEntry {ds : List Dir} {h' : Nat} {d : Dir} : (h', d) ∈ ofEntry h ds ↔ h' = h ∧ d ∈ ds := by
  simp only [ofEntry, List.mem_map, Prod.mk.injEq]
  exact ⟨fun ⟨d', m, e, e'⟩ => ⟨e.symm, e' ▸ m⟩, fun ⟨e, m⟩ => ⟨d, m, e.symm, rfl⟩⟩

theorem nodup_ofEntry {ds : List Dir} (distinct : ds.Nodup) : (ofEntry h ds).Nodup :=
  distinct.map fun _ _ e => (Prod.mk.inj e).2

theorem closeHalves_eq_closeList (ds : List Dir) (s : State) : closeHalves h ds s = closeList (ofEntry h ds) s :=
  (List.foldl_map (f := fun d => (h, d)) (g := fun t (p : Nat × Dir) => closeHalf p.1 p.2 t) (l := ds) (init := s)).symm

theorem nodup_halvesOf (type : XferType) (dir : Dir) : (halvesOf type dir).Nodup := by
  cases type <;> simp [halvesOf, bothDirs]

theorem mem_halvesOf_self (type : XferType) (dir : Dir) : dir ∈ halvesOf type dir := by
  cases type <;> simp [halvesOf]

/-- The words of an entry's halves, in order. -/
theorem closingWords_ofEntry (ds : List Dir) : (ofEntry h ds).flatMap (fun p => closingWord p.1 p.2 s) =
    (ds.filter (fun d => decide ((half h d s).xs ≠ .idle))).map (fun d => completion 4 d h (half h d s).done.toNat) := by
  induction ds with
  | nil => rfl
  | cons d ds ih =>
    have step : (ofEntry h (d :: ds)).flatMap (fun p => closingWord p.1 p.2 s) =
        closingWord h d s ++ (ofEntry h ds).flatMap (fun p => closingWord p.1 p.2 s) := rfl
    rw [step, ih, closingWord]
    by_cases idle : (half h d s).xs = .idle <;> simp [idle]

end

/-! ### EP_CLOSE -/

section
variable {s : State} {dir : Dir}

theorem exec_epClose_of_ready {handle : BitVec 8} (r : CloseReady dir handle.toNat s) :
    exec (.epClose 0 dir handle) s = .next (accept (closeHalves handle.toNat (closing dir handle.toNat s) s)) := by
  obtain ⟨init, ok, hroom⟩ := r
  change execEpClose 0 dir handle s = _
  rw [execEpClose, if_neg (by simp [init]), if_neg (by decide), if_neg (by simp [ok]), if_neg]
  simpa [room] using hroom

theorem close_after {h : Nat} (g : Good s) (r : CloseReady dir h s) :
    CloseAfter dir h s (accept (closeHalves h (closing dir h s) s)) := by
  have hh := lt_length_of_used (handleOk_iff.1 r.2.1).2.1
  obtain ⟨closed, words⟩ := closeList_closes (l := ofEntry h (closing dir h s)) (closable_of_good g)
    (nodup_ofEntry (nodup_halvesOf _ dir)) fun p hp => by
      obtain ⟨e, -⟩ := mem_ofEntry.1 hp
      rwa [e]
  rw [← closeHalves_eq_closeList] at closed words
  rw [closingWords_ofEntry] at words
  obtain ⟨halves, freed, kept, slots, associations, quiet⟩ := closed
  have chosen {h' d} : inList (ofEntry h (closing dir h s)) h' d = decide (h' = h ∧ d ∈ closing dir h s) := by
    simp only [inList, mem_ofEntry]
  have halfClosed (d) (hd : d ∈ closing dir h s) : half h d (closeHalves h (closing dir h s) s) = Half.closed := by
    rw [halves, chosen, if_pos (by simpa using hd)]
  have halfKept (h' d) (other : ¬ (h' = h ∧ d ∈ closing dir h s)) :
      half h' d (closeHalves h (closing dir h s) s) = half h' d s := by
    rw [halves, chosen, if_neg (by simpa using other)]
  refine ⟨⟨rfl, rfl⟩, halfClosed, halfKept, fun h' ne => kept h' (.inl fun d => ?_), ?entry, fun c d => ?_, associations, words,
    quiet.wire, quiet.kept.controls, fun a => congrArg (Memory.read · a) quiet.mem, fun a => congrArg (Memory.read · a) quiet.arena⟩
  · rw [chosen]
    simp [ne]
  case entry =>
    split
    next staysOpen =>
      obtain ⟨d, -, notClosing, isOpen⟩ := staysOpen
      obtain ⟨used, dev, num⟩ := kept h (.inr ⟨d, by rw [halfKept h d fun e => notClosing e.2, isOpen]⟩)
      exact ⟨used.trans (handleOk_iff.1 r.2.1).2.1, dev, num⟩
    next noneLeft =>
      refine freed h ⟨dir, by simp [chosen, mem_halvesOf_self]⟩ fun d => ?_
      by_cases hd : d ∈ closing dir h s
      · rw [halfClosed d hd]
        rfl
      · rw [halfKept h d fun e => hd e.2]
        by_contra isOpen
        exact noneLeft ⟨d, mem_bothDirs d, hd, by simpa using isOpen⟩
  · rw [show slot c d (accept (closeHalves h (closing dir h s) s)) = slot c d (closeHalves h (closing dir h s) s) from rfl, slots,
      chosen]

end

/-! ### Whole entries -/

/-- The open halves of an entry, OUT before IN. -/
def openHalvesOf (h : Nat) (s : State) : List (Nat × Dir) := ofEntry h (bothDirs.filter (fun d => (half h d s).isOpen))

/-- The open halves of some entries, in order. -/
def openHalvesWhere (p : Nat → Bool) (hs : List Nat) (s : State) : List (Nat × Dir) :=
  hs.flatMap (fun h => if p h then openHalvesOf h s else [])

section
variable {s : State}

theorem mem_openHalvesOf {h h' : Nat} {d : Dir} : (h', d) ∈ openHalvesOf h s ↔ h' = h ∧ (half h d s).isOpen = true := by
  simp [openHalvesOf, mem_ofEntry]

theorem openHalvesOf_congr {h : Nat} {t : State} (same : ∀ d, half h d t = half h d s) : openHalvesOf h t = openHalvesOf h s := by
  simp only [openHalvesOf, same]

theorem mem_openHalvesWhere {p : Nat → Bool} {hs : List Nat} {h : Nat} {d : Dir} :
    (h, d) ∈ openHalvesWhere p hs s ↔ h ∈ hs ∧ p h = true ∧ (half h d s).isOpen = true := by
  simp only [openHalvesWhere, List.mem_flatMap]
  constructor
  · rintro ⟨h', mem, here⟩
    by_cases chosen : p h' = true
    · rw [if_pos chosen, mem_openHalvesOf] at here
      obtain ⟨rfl, isOpen⟩ := here
      exact ⟨mem, chosen, isOpen⟩
    · rw [if_neg chosen] at here
      cases here
  · rintro ⟨mem, chosen, isOpen⟩
    exact ⟨h, mem, by rw [if_pos chosen, mem_openHalvesOf]; exact ⟨rfl, isOpen⟩⟩

theorem nodup_openHalvesWhere {p : Nat → Bool} {hs : List Nat} (distinct : hs.Nodup) : (openHalvesWhere p hs s).Nodup := by
  induction hs with
  | nil => exact .nil
  | cons h hs ih =>
    obtain ⟨notLater, distinct⟩ := List.nodup_cons.1 distinct
    have step : openHalvesWhere p (h :: hs) s = (if p h then openHalvesOf h s else []) ++ openHalvesWhere p hs s := rfl
    rw [step]
    refine List.Nodup.append ?_ (ih distinct) ?_
    · split
      · exact nodup_ofEntry (List.Nodup.filter _ (by decide))
      · exact .nil
    · rintro ⟨h', d⟩ first later
      refine notLater ?_
      split at first
      · rw [← (mem_openHalvesOf.1 first).1]
        exact (mem_openHalvesWhere.1 later).1
      · cases first

/-- Closing an entry closes its halves that are open (R159, R290). -/
theorem closeEntry_eq_closeList {h : Nat} (cl : Closable s) (hh : h < s.eps.length) :
    closeEntry h s = closeList (openHalvesOf h s) s := by
  have first : closeEntry h s = (fun t => if (half h .inn t).isOpen then closeHalf h .inn t else t)
      (if (half h .out s).isOpen then closeHalf h .out s else s) := rfl
  have sameInn : (half h .inn (closeHalf h .out s)).isOpen = (half h .inn s).isOpen := by
    rw [(closeHalf_closes cl hh).1.halves, if_neg (by simp [justHalf])]
  rw [first, openHalvesOf]
  cases out : (half h .out s).isOpen <;> cases inn : (half h .inn s).isOpen <;>
    simp [ofEntry, closeList, bothDirs, out, inn, sameInn]

/-- Entries closed one after the other, where a test on the entry picks them: what is tested and what is open does not change
before an entry's turn. -/
theorem foldl_closeEntry {p : State → Nat → Bool} (cl : Closable s) {hs : List Nat} (distinct : hs.Nodup)
    (inside : ∀ h ∈ hs, h < s.eps.length)
    (entryOnly : ∀ (u v : State) h, ((entry h u).used = (entry h v).used ∧ (entry h u).dev = (entry h v).dev ∧
      (entry h u).num = (entry h v).num) → p u h = p v h) :
    hs.foldl (fun t h => if p t h then closeEntry h t else t) s = closeList (openHalvesWhere (p s) hs s) s := by
  induction hs generalizing s with
  | nil => rfl
  | cons h hs ih =>
    obtain ⟨notLater, distinct⟩ := List.nodup_cons.1 distinct
    have hh := inside h List.mem_cons_self
    have step : openHalvesWhere (p s) (h :: hs) s = (if p s h then openHalvesOf h s else []) ++ openHalvesWhere (p s) hs s := rfl
    have turn : (if p s h then closeEntry h s else s) = closeList (if p s h then openHalvesOf h s else []) s := by
      split
      · exact closeEntry_eq_closeList cl hh
      · rfl
    have own : (if p s h then openHalvesOf h s else []).Nodup := by
      split
      · exact nodup_ofEntry (List.Nodup.filter _ (by decide))
      · exact .nil
    have only {h' d} (mem : (h', d) ∈ (if p s h then openHalvesOf h s else [])) : h' = h := by
      split at mem
      · exact (mem_openHalvesOf.1 mem).1
      · cases mem
    obtain ⟨closed, -⟩ := closeList_closes cl own fun q hq => (only (h' := q.1) (d := q.2) hq).symm ▸ hh
    have untouched {h'} (ne : h' ≠ h) (d : Dir) : inList (if p s h then openHalvesOf h s else []) h' d = false := by
      rw [inList, decide_eq_false_iff_not]
      exact fun mem => ne (only mem)
    have later : openHalvesWhere (p (closeList (if p s h then openHalvesOf h s else []) s)) hs
        (closeList (if p s h then openHalvesOf h s else []) s) = openHalvesWhere (p s) hs s := by
      refine List.flatMap_congr fun h' mem => ?_
      have ne : h' ≠ h := fun e => notLater (e ▸ mem)
      have same (d : Dir) : half h' d (closeList (if p s h then openHalvesOf h s else []) s) = half h' d s := by
        rw [closed.halves, untouched ne]
        rfl
      rw [entryOnly _ s h' (closed.kept h' (.inl (untouched ne))), openHalvesOf_congr same]
    rw [List.foldl_cons, turn, ih (closed.closable cl) distinct fun h' mem => ?_, later, step, closeList, closeList, closeList,
      List.foldl_append]
    rw [closed.quiet.kept.sizes.1]
    exact inside h' (List.mem_cons_of_mem _ mem)

/-- The words of closing the open halves of some entries are those of aborting their transfers (R159, R288). -/
theorem closingWords_openHalvesWhere (cl : Closable s) (p : Nat → Bool) (hs : List Nat) :
    (openHalvesWhere p hs s).flatMap (fun q => closingWord q.1 q.2 s) = hs.flatMap (fun h => if p h then
      (bothDirs.filter (fun d => decide ((half h d s).xs ≠ .idle))).map (fun d => completion 4 d h (half h d s).done.toNat)
    else []) := by
  rw [openHalvesWhere, List.flatMap_assoc]
  refine List.flatMap_congr fun h _ => ?_
  split
  · rw [openHalvesOf, closingWords_ofEntry, List.filter_filter]
    have busyOpen : (fun d => decide ((half h d s).xs ≠ .idle) && (half h d s).isOpen) =
        fun d => decide ((half h d s).xs ≠ .idle) := by
      funext d
      cases isOpen : (half h d s).isOpen with
      | true => simp
      | false => simp [cl.closed h d isOpen, Half.closed]
    rw [busyOpen]
  · rfl

/-- Closing the open halves of whole entries frees the used ones among them, and their slots. -/
theorem entriesFreed_of_closed {t : State} {p : Nat → Bool} (cl : Closable s) (used : Inv8Used s)
    (closed : HalvesClosed (inList (openHalvesWhere p (List.range s.cfg.epMax) s)) s t) :
    EntriesFreed (fun h => p h && (entry h s).used) s t ∧ SlotsReleased (fun h _ => p h) s t := by
  have chosen {h d} (hh : h < s.cfg.epMax) :
      inList (openHalvesWhere p (List.range s.cfg.epMax) s) h d = (p h && (half h d s).isOpen) := by
    rw [inList, Bool.eq_iff_iff, decide_eq_true_iff, mem_openHalvesWhere, Bool.and_eq_true]
    exact ⟨fun e => e.2, fun e => ⟨List.mem_range.2 hh, e⟩⟩
  have usedOf {h d} (mem : inList (openHalvesWhere p (List.range s.cfg.epMax) s) h d = true) :
      p h = true ∧ (entry h s).used = true := by
    rw [inList, decide_eq_true_iff, mem_openHalvesWhere, List.mem_range] at mem
    obtain ⟨hh, sel, isOpen⟩ := mem
    exact ⟨sel, (used h hh).2 (by cases d; exacts [.inl isOpen, .inr isOpen])⟩
  refine ⟨fun h => ?_, fun c d => ?_⟩
  · split
    next sel =>
      rw [Bool.and_eq_true] at sel
      obtain ⟨sel, isUsed⟩ := sel
      have hh : h < s.cfg.epMax := cl.eps ▸ lt_length_of_used isUsed
      refine closed.freed h ?_ fun d => ?_
      · obtain isOpen | isOpen := (used h hh).1 isUsed
        · exact ⟨.out, by rw [chosen hh, sel, isOpen]; rfl⟩
        · exact ⟨.inn, by rw [chosen hh, sel, isOpen]; rfl⟩
      · rw [closed.halves, chosen hh, sel, Bool.true_and]
        cases isOpen : (half h d s).isOpen with
        | true => rfl
        | false => exact isOpen
    next notSel =>
      have none (d : Dir) : inList (openHalvesWhere p (List.range s.cfg.epMax) s) h d = false := by
        by_contra mem
        exact notSel (by simpa using usedOf (by simpa using mem))
      exact entry_ext (closed.kept h (.inl none)) fun d => by rw [closed.halves, none]; rfl
  · rw [closed.slots]
    cases bound : (slot c d s).bound with
    | false => rfl
    | true =>
      obtain ⟨halfBound, -⟩ := cl.linked c d bound
      have isOpen : (half (slot c d s).ep.toNat d s).isOpen = true := by
        by_contra notOpen
        rw [cl.closed _ d (by simpa using notOpen)] at halfBound
        cases halfBound
      rw [chosen (cl.eps ▸ lt_length_of_bound halfBound), isOpen, Bool.and_true]

end

/-! ### DEV_CLOSE and BUS_RESET -/

section
variable {s : State}

theorem exec_devClose_of_ready {dev : BitVec 7} (r : DevCloseReady dev s) :
    exec (.devClose 0 dev 0) s = .next (accept (closeDevice dev s)) := by
  obtain ⟨init, host, hroom⟩ := r
  change execDevClose 0 dev 0 s = _
  rw [execDevClose, if_neg (by simp [init]), if_neg (by decide), if_neg (by simp [host]), if_neg]
  simpa [room, abortWords_length] using hroom

theorem ofDevice_congr (dev : BitVec 7) (u v : State) (h : Nat) (same : (entry h u).used = (entry h v).used ∧
    (entry h u).dev = (entry h v).dev ∧ (entry h u).num = (entry h v).num) : ofDevice dev u h = ofDevice dev v h := by
  rw [ofDevice, ofDevice, same.1, same.2.1]

theorem closeDevice_eq_closeList (cl : Closable s) (dev : BitVec 7) :
    closeDevice dev s = closeList (openHalvesWhere (ofDevice dev s) (List.range s.cfg.epMax) s) s :=
  foldl_closeEntry cl List.nodup_range (fun _ mem => cl.eps.symm ▸ List.mem_range.1 mem) (ofDevice_congr dev)

theorem closeAll_eq_closeList (cl : Closable s) :
    closeAll s = closeList (openHalvesWhere (fun _ => true) (List.range s.cfg.epMax) s) s := by
  have every : closeAll s = (List.range s.cfg.epMax).foldl
      (fun t h => if (fun (_ : State) (_ : Nat) => true) t h then closeEntry h t else t) s := rfl
  rw [every]
  exact foldl_closeEntry cl List.nodup_range (fun _ mem => cl.eps.symm ▸ List.mem_range.1 mem) fun _ _ _ _ => rfl

theorem closeWhere_closes (cl : Closable s) (p : Nat → Bool) :
    HalvesClosed (inList (openHalvesWhere p (List.range s.cfg.epMax) s)) s
        (closeList (openHalvesWhere p (List.range s.cfg.epMax) s) s) ∧
      (closeList (openHalvesWhere p (List.range s.cfg.epMax) s) s).evq = s.evq ++ abortWords p s := by
  obtain ⟨closed, words⟩ := closeList_closes cl (nodup_openHalvesWhere (p := p) List.nodup_range) fun q hq => by
    rw [cl.eps]
    exact List.mem_range.1 (mem_openHalvesWhere (h := q.1) (d := q.2).1 hq).1
  exact ⟨closed, by rw [words, closingWords_openHalvesWhere cl]; rfl⟩

end

end Sys2Proof.Machine

open Sys2Proof Sys2Proof.Machine Sys2Proof.Safety Sys2Proof.Claims

/-- Settles O24: the halves named are closed in order. -/
theorem closeRule : Obligations.CloseRule :=
  fun _ _ _ good ready => ⟨_, exec_epClose_of_ready ready, close_after good ready⟩

/-- Settles O27: the open halves of the device's entries are closed in order. -/
theorem devCloseRule : Obligations.DevCloseRule := by
  intro dev s good ready
  have cl := closable_of_good good
  obtain ⟨closed, words⟩ := closeWhere_closes cl (ofDevice dev s)
  rw [← closeDevice_eq_closeList cl] at closed words
  obtain ⟨freed, released⟩ := entriesFreed_of_closed cl good.inv8Used closed
  have onlyUsed : (fun h => ofDevice dev s h && (entry h s).used) = ofDevice dev s := by
    funext h
    rw [ofDevice]
    cases (entry h s).used <;> simp
  rw [onlyUsed] at freed
  have quiet := closed.quiet
  exact ⟨_, exec_devClose_of_ready ready, ⟨rfl, rfl⟩, freed, released, closed.associations, words, quiet.wire,
    quiet.kept.controls, fun a => congrArg (Memory.read · a) quiet.mem, fun a => congrArg (Memory.read · a) quiet.arena⟩

/-- Settles O46: the open halves of every entry are closed in order, then the reset reports itself. -/
theorem busResetRule : Obligations.BusResetRule := by
  intro s good ready
  have cl := closable_of_good good
  obtain ⟨closed, words⟩ := closeWhere_closes cl (fun _ => true)
  rw [← closeAll_eq_closeList cl] at closed words
  obtain ⟨freed, released⟩ := entriesFreed_of_closed cl good.inv8Used closed
  have quiet := closed.quiet
  have noSlot (c d) : slot c d (closeAll s) = if (slot c d s).bound then Slot.free else slot c d s := by
    rw [released, Bool.and_true]
  have pushes : s.evq ++ abortWords (fun _ => true) s ++ (if s.intEn.getLsbD 0 then [0x20000000] else []) =
      s.evq ++ busResetPushes s := by rw [busResetPushes, List.append_assoc]
  obtain ⟨-, -, -, -, -, enables, -⟩ := id quiet.kept.controls
  have entries : EntriesFreed (fun h => (entry h s).used) s (closeAll s) := by simpa using freed
  refine ⟨reported 0 0x20000000 (closeAll s), whenEnabled_report (busResetReady_iff.2 ready),
    ⟨entries, released, closed.associations, ?_, quiet.wire, quiet.kept.results, quiet.kept.controls,
      fun a => congrArg (Memory.read · a) quiet.mem, fun a => congrArg (Memory.read · a) quiet.arena⟩, fun c hc => ?_⟩
  · rw [reported, words, enables]
    exact pushes
  · have unbound (d) : (slot c d (closeAll s)).bound = false := by
      rw [noSlot]
      split
      · rfl
      next notBound => simpa using notBound
    exact fullyFree_iff.2 ⟨unbound .out, unbound .inn⟩

end

