-- ==== Sys2Proof/Proofs/Wiring.lean ====
section
/-! SUPPORT. How slots, halves, ranges and associations hang together (R54: INV1 to INV3; R175), said of every slot and half at once
and with the identities as a parameter, so that it can be followed through a step: bindings go away, or one is added. -/

namespace Sys2Proof.Machine

open Sys2Proof.Safety Sys2Proof.Claims

/-- The identity of an entry (R45). -/
def identityOf (s : State) (h : Nat) : BitVec 7 × BitVec 4 := ((entry h s).dev, (entry h s).num)

/-- The association of a channel (R48). -/
def associationOf (c : Nat) (s : State) : BitVec 7 × BitVec 4 := ((chan c s).adev, (chan c s).anum)

/-- A range that a slot names lies in the arena (R54, INV1). -/
def InArena (cfg : Config) (x : Slot) : Prop := cfg.arenaBase ≤ x.off.toNat ∧ x.off.toNat + x.size.toNat ≤ cfg.arenaSize

/-- Slots and halves name each other, ranges lie apart in the arena, a channel serves one entry, whose identity is its association,
and an entry is served by one channel (R54, R175). -/
structure Wired (ids : Nat → BitVec 7 × BitVec 4) (s : State) : Prop where
  inArena : ∀ c d, (slot c d s).bound = true → InArena s.cfg (slot c d s)
  apart : ∀ c d c' d', (slot c d s).bound = true → (slot c' d' s).bound = true → (c, d) ≠ (c', d') →
    apart (slot c d s) (slot c' d' s)
  linked : ∀ c h d, ((slot c d s).bound = true ∧ (slot c d s).ep.toNat = h) ↔
    ((half h d s).bound = true ∧ (half h d s).ch.toNat = c)
  oneEntry : ∀ c, (slot c .out s).bound = true → (slot c .inn s).bound = true → (slot c .out s).ep = (slot c .inn s).ep
  associated : ∀ c d, (slot c d s).bound = true → associationOf c s = ids (slot c d s).ep.toNat
  coLocated : ∀ h, (half h .out s).bound = true → (half h .inn s).bound = true → (half h .out s).ch = (half h .inn s).ch

section
variable {s t : State} {ids ids' : Nat → BitVec 7 × BitVec 4}

theorem wired_of_good (g : Good s) : Wired (identityOf s) s := by
  obtain ⟨-, hEps, hChans⟩ := g.shape
  have inside {c d} (bound : (slot c d s).bound = true) : c < s.cfg.numCh := hChans ▸ lt_length_of_slot_bound bound
  refine ⟨fun c d bound => ?_, fun c d c' d' bound bound' ne => ?_, fun c h d => linked_of_good g c h d, fun c out inn => ?_,
    fun c d bound => ?_, fun h out inn => ?_⟩
  · obtain ⟨base, top, -⟩ := g.inv1 c (inside bound) d (mem_bothDirs d) bound
    exact ⟨base, top⟩
  · exact (g.inv1 c (inside bound) d (mem_bothDirs d) bound).2.2 c' (inside bound') d' (mem_bothDirs d') bound' ne
  · exact (g.inv3 c (inside out)).1 out inn
  · obtain ⟨dev, num⟩ := (g.inv3 c (inside bound)).2 d (mem_bothDirs d) bound
    exact Prod.ext dev num
  · exact g.coLocated h (hEps ▸ lt_length_of_bound out) out inn

/-- The facts of R54 and R175 that a state's wiring says. -/
theorem Wired.invariants (w : Wired (identityOf s) s) (hEps : s.eps.length = s.cfg.epMax) (hChans : s.chans.length = s.cfg.numCh) :
    Inv1 s ∧ Inv2 s ∧ Inv3 s ∧ CoLocated s := by
  obtain ⟨inArena, apart, linked, oneEntry, associated, coLocated⟩ := w
  refine ⟨fun c _ d _ bound => ⟨(inArena c d bound).1, (inArena c d bound).2, fun c' _ d' _ bound' ne =>
      apart c d c' d' bound bound' ne⟩, ⟨fun c _ d _ bound => ?_, fun h _ d _ bound => ?_⟩, fun c _ => ⟨oneEntry c, fun d _ bound => ?_⟩,
    fun h _ => coLocated h⟩
  · obtain ⟨halfBound, ch⟩ := (linked c _ d).1 ⟨bound, rfl⟩
    exact ⟨hEps ▸ lt_length_of_bound halfBound, halfBound, ch⟩
  · obtain ⟨slotBound, ep⟩ := (linked _ h d).2 ⟨bound, rfl⟩
    exact ⟨hChans ▸ lt_length_of_slot_bound slotBound, slotBound, ep⟩
  · obtain ⟨dev, num⟩ := Prod.mk.inj (associated c d bound)
    exact ⟨dev, num⟩

/-- Only the identities of entries with a slot matter. -/
theorem Wired.identities (w : Wired ids s) (same : ∀ h d, (half h d s).bound = true → ids' h = ids h) : Wired ids' s := by
  refine ⟨w.inArena, w.apart, w.linked, w.oneEntry, fun c d bound => ?_, w.coLocated⟩
  rw [same _ d ((w.linked c _ d).1 ⟨bound, rfl⟩).1]
  exact w.associated c d bound

/-! ### Bindings go away -/

/-- From one state to another, slots and halves may lose their binding, together, and nothing else of the wiring changes. -/
structure Shrinks (s t : State) : Prop where
  cfg : t.cfg = s.cfg
  slots : ∀ c d, (slot c d t).bound = true → (slot c d s).bound = true ∧ (slot c d t).ep = (slot c d s).ep ∧
    (slot c d t).off = (slot c d s).off ∧ (slot c d t).size = (slot c d s).size
  halves : ∀ h d, (half h d t).bound = true → (half h d s).bound = true ∧ (half h d t).ch = (half h d s).ch
  together : ∀ c d, (slot c d s).bound = true →
    ((slot c d t).bound = true ↔ (half (slot c d s).ep.toNat d t).bound = true)
  associations : AssociationsAfter s t

/-- A channel that still serves a half keeps its association. -/
theorem associationOf_of_bound (associations : AssociationsAfter s t) {c : Nat} {d : Dir} (bound : (slot c d t).bound = true) :
    associationOf c t = associationOf c s := by
  have notFree : fullyFree c t = false := by
    rw [← Bool.not_eq_true, fullyFree_iff]
    rintro ⟨out, inn⟩
    cases d
    · rw [bound] at out
      cases out
    · rw [bound] at inn
      cases inn
  have after := associations c
  rw [notFree] at after
  exact after

theorem Wired.shrinks (w : Wired ids s) (a : Shrinks s t) : Wired ids t := by
  obtain ⟨cfg, slots, halves, together, associations⟩ := a
  refine ⟨fun c d bound => ?_, fun c d c' d' bound bound' ne => ?_, fun c h d => ⟨?_, ?_⟩, fun c out inn => ?_, fun c d bound => ?_,
    fun h out inn => ?_⟩
  · obtain ⟨was, -, off, size⟩ := slots c d bound
    rw [InArena, off, size, cfg]
    exact w.inArena c d was
  · obtain ⟨was, -, off, size⟩ := slots c d bound
    obtain ⟨was', -, off', size'⟩ := slots c' d' bound'
    rw [Machine.apart, off, size, off', size']
    exact w.apart c d c' d' was was' ne
  · rintro ⟨bound, rfl⟩
    obtain ⟨was, ep, -⟩ := slots c d bound
    have halfBound := (together c d was).1 bound
    rw [← ep] at halfBound
    refine ⟨halfBound, ?_⟩
    rw [(halves _ d halfBound).2]
    exact ((w.linked c _ d).1 ⟨was, by rw [ep]⟩).2
  · rintro ⟨bound, rfl⟩
    obtain ⟨was, ch⟩ := halves h d bound
    obtain ⟨slotWas, ep⟩ := (w.linked _ h d).2 ⟨was, rfl⟩
    rw [ch]
    have slotBound := (together _ d slotWas).2 (by rwa [ep])
    exact ⟨slotBound, by rw [(slots _ d slotBound).2.1, ep]⟩
  · obtain ⟨wasOut, epOut, -⟩ := slots c .out out
    obtain ⟨wasInn, epInn, -⟩ := slots c .inn inn
    rw [epOut, epInn]
    exact w.oneEntry c wasOut wasInn
  · obtain ⟨was, ep, -⟩ := slots c d bound
    rw [associationOf_of_bound associations bound, ep]
    exact w.associated c d was
  · obtain ⟨wasOut, chOut⟩ := halves h .out out
    obtain ⟨wasInn, chInn⟩ := halves h .inn inn
    rw [chOut, chInn]
    exact w.coLocated h wasOut wasInn

/-- Where slots keep their binding and halves theirs, the wiring shrinks by nothing. -/
theorem shrinks_of_same (w : Wired ids s) (cfg : t.cfg = s.cfg)
    (slots : ∀ c d, (slot c d t).bound = (slot c d s).bound ∧ (slot c d t).ep = (slot c d s).ep ∧
      (slot c d t).off = (slot c d s).off ∧ (slot c d t).size = (slot c d s).size)
    (halves : ∀ h d, (half h d t).bound = (half h d s).bound ∧ (half h d t).ch = (half h d s).ch)
    (associations : AssociationsAfter s t) : Shrinks s t := by
  refine ⟨cfg, fun c d bound => ?_, fun h d bound => ?_, fun c d bound => ?_, associations⟩
  · rw [(slots c d).1] at bound
    exact ⟨bound, (slots c d).2⟩
  · rw [(halves h d).1] at bound
    exact ⟨bound, (halves h d).2⟩
  · rw [(slots c d).1, (halves _ d).1, ((w.linked c _ d).1 ⟨bound, rfl⟩).1, bound]

/-- Closing halves takes their bindings away. -/
theorem shrinks_of_halvesClosed {sel : Nat → Dir → Bool} (w : Wired ids s) (closed : HalvesClosed sel s t) : Shrinks s t := by
  have halves (h d) (bound : (half h d t).bound = true) : sel h d = false ∧ half h d t = half h d s := by
    rw [closed.halves] at bound ⊢
    cases chosen : sel h d with
    | false => exact ⟨rfl, rfl⟩
    | true => simp [chosen, Half.closed] at bound
  have slots (c d) (bound : (slot c d t).bound = true) : slot c d t = slot c d s := by
    rw [closed.slots] at bound ⊢
    split at bound
    · cases bound
    next kept => exact if_neg kept
  refine ⟨closed.quiet.kept.controls.1, fun c d bound => ?_, fun h d bound => ?_, fun c d bound => ?_, closed.associations⟩
  · have same := slots c d bound
    rw [same] at bound ⊢
    exact ⟨bound, rfl, rfl, rfl⟩
  · obtain ⟨-, same⟩ := halves h d bound
    rw [same] at bound ⊢
    exact ⟨bound, rfl⟩
  · rw [closed.slots, closed.halves, bound, Bool.true_and]
    cases chosen : sel (slot c d s).ep.toNat d with
    | false => simp [bound, ((w.linked c _ d).1 ⟨bound, rfl⟩).1]
    | true => simp [Slot.free, Half.closed]

/-! ### A binding is added (R170, R171, R173) -/

variable {c h o size : Nat} {d : Dir}

/-- What a binding relies on: the half has none, and the allocators gave the channel and the range. -/
structure CanBind (c h o size : Nat) (d : Dir) (s : State) : Prop where
  entry_lt : h < s.eps.length
  handle_lt : h < 256
  chan_lt : c < s.chans.length
  channel_lt : c < 16
  notBound : (half h d s).bound = false
  free : (slot c d s).bound = false
  acquired : servesOther h d c s = true ∨ fullyFree c s = true
  other : (half h (otherDir d) s).bound = true → (half h (otherDir d) s).ch.toNat = c
  offset : (BitVec.ofNat 16 o).toNat = o
  sizeFits : (BitVec.ofNat 16 size).toNat = size
  inArena : s.cfg.arenaBase ≤ o ∧ o + size ≤ s.cfg.arenaSize
  rangeFree : ∀ c' d', (slot c' d' s).bound = true →
    o + size ≤ (slot c' d' s).off.toNat ∨ (slot c' d' s).off.toNat + (slot c' d' s).size.toNat ≤ o

theorem le_roundup (x : Nat) {g : Nat} (pos : 0 < g) : x ≤ roundup x g := by
  have split := Nat.div_add_mod (x + g - 1) g
  have rest := Nat.mod_lt (x + g - 1) pos
  rw [roundup, Nat.mul_comm]
  omega

/-- An entry that some channel serves is put on that channel (R170, R175). -/
theorem Wired.chAcquire_other (w : Wired ids s) (hChans : s.chans.length = s.cfg.numCh)
    (notBound : (half h d s).bound = false) (acquired : chAcquire h d s = some c)
    (other : (half h (otherDir d) s).bound = true) : (half h (otherDir d) s).ch.toNat = c := by
  obtain ⟨slotBound, ep⟩ := (w.linked _ h (otherDir d)).2 ⟨other, rfl⟩
  have ownFree : (slot (half h (otherDir d) s).ch.toNat d s).bound = false := by
    by_contra own
    rw [Bool.not_eq_false] at own
    have sameEp : (slot (half h (otherDir d) s).ch.toNat d s).ep.toNat = h := by
      cases d with
      | out => rw [w.oneEntry _ own slotBound]; exact ep
      | inn => rw [← w.oneEntry _ slotBound own]; exact ep
    rw [((w.linked _ h d).1 ⟨own, sameEp⟩).1] at notBound
    cases notBound
  have serves : servesOther h d (half h (otherDir d) s).ch.toNat s = true := servesOther_iff.2 ⟨slotBound, ep, ownFree⟩
  obtain ⟨-, ⟨chosen, -⟩ | ⟨none, -⟩⟩ := chAcquire_iff.1 acquired
  · obtain ⟨bound, ep', -⟩ := servesOther_iff.1 chosen
    exact ((w.linked c h (otherDir d)).1 ⟨bound, ep'⟩).2
  · rw [none _ (hChans ▸ lt_length_of_slot_bound slotBound)] at serves
    cases serves

/-- The allocators' answers can be bound (R170, R171). -/
theorem Wired.canBind (w : Wired ids s) (shape : Shape s) (hh : h < s.eps.length)
    (notBound : (half h d s).bound = false) (acquired : chAcquire h d s = some c) (found : arenaAlloc size s = some o) :
    CanBind c h o size d s := by
  obtain ⟨legal, hEps, hChans⟩ := shape
  have gran := arenaGran_pos legal
  obtain ⟨⟨-, channels⟩, ⟨-, entries⟩, ⟨-, arena⟩, -⟩ := legal
  obtain ⟨hc, serves⟩ := chAcquire_some acquired
  obtain ⟨top, free, i, grid⟩ := arenaAlloc_some found
  have base := le_roundup s.cfg.arenaBase gran
  have start : roundup s.cfg.arenaBase s.cfg.arenaGran ≤ o := by rw [grid]; exact Nat.le_add_right _ _
  refine ⟨hh, by omega, by omega, by omega, notBound, chAcquire_slot_free acquired, serves,
    w.chAcquire_other hChans notBound acquired, ?_, ?_, ⟨by omega, top⟩, fun c' d' bound =>
      rangeFree_apart free (hChans ▸ lt_length_of_slot_bound bound) bound⟩
  · rw [BitVec.toNat_ofNat]
    omega
  · rw [BitVec.toNat_ofNat]
    omega

/-- From one state to another, one half was bound and nothing else of the wiring changed. -/
structure Binds (c h o size : Nat) (d : Dir) (s t : State) : Prop where
  cfg : t.cfg = s.cfg
  slot : (slot c d t).bound = true ∧ (slot c d t).ep.toNat = h ∧ (slot c d t).off.toNat = o ∧ (slot c d t).size.toNat = size
  otherSlots : ∀ c' d', ¬ (c' = c ∧ d' = d) → Machine.slot c' d' t = Machine.slot c' d' s
  half : (half h d t).bound = true ∧ (half h d t).ch.toNat = c
  otherHalves : ∀ h' d', ¬ (h' = h ∧ d' = d) →
    (Machine.half h' d' t).bound = (Machine.half h' d' s).bound ∧ (Machine.half h' d' t).ch = (Machine.half h' d' s).ch
  otherAssociations : ∀ c', c' ≠ c → associationOf c' t = associationOf c' s

/-- A bound slot of the channel that is given serves the same entry (R170). -/
theorem other_ep (can : CanBind c h o size d s) (bound : (slot c (otherDir d) s).bound = true) :
    (slot c (otherDir d) s).ep.toNat = h := by
  obtain serves | free := can.acquired
  · exact (servesOther_iff.1 serves).2.1
  · obtain ⟨out, inn⟩ := fullyFree_iff.1 free
    cases d
    · rw [otherDir, inn] at bound
      cases bound
    · rw [otherDir, out] at bound
      cases bound

theorem eq_or_otherDir (d d' : Dir) : d' = d ∨ d' = otherDir d := by cases d <;> cases d' <;> decide

theorem Wired.binds (w : Wired ids s) (can : CanBind c h o size d s) (b : Binds c h o size d s t)
    (own : associationOf c t = ids h) : Wired ids t := by
  obtain ⟨cfg, ⟨bound, ep, off, sizeEq⟩, otherSlots, ⟨halfBound, ch⟩, otherHalves, otherAssociations⟩ := b
  have otherDir_ne (d : Dir) : otherDir d ≠ d := by cases d <;> decide
  have sibling := otherSlots c (otherDir d) fun e => otherDir_ne d e.2
  have siblingEp (bound : (Machine.slot c (otherDir d) t).bound = true) : (Machine.slot c (otherDir d) t).ep.toNat = h := by
    rw [sibling] at bound ⊢
    exact other_ep can bound
  have newApart (c' d') (ne : ¬ (c' = c ∧ d' = d)) (bound' : (Machine.slot c' d' t).bound = true) :
      Machine.apart (Machine.slot c d t) (Machine.slot c' d' t) := by
    rw [otherSlots c' d' ne] at bound' ⊢
    rw [Machine.apart, off, sizeEq]
    exact can.rangeFree c' d' bound'
  refine ⟨fun c' d' bound' => ?inArena, fun c' d' c'' d'' bound' bound'' ne => ?apart, fun c' h' d' => ?linked, fun c' => ?oneEntry,
    fun c' d' bound' => ?associated, fun h' => ?coLocated⟩
  case inArena =>
    by_cases here : c' = c ∧ d' = d
    · obtain ⟨rfl, rfl⟩ := here
      rw [InArena, off, sizeEq, cfg]
      exact can.inArena
    · rw [otherSlots c' d' here] at bound' ⊢
      rw [cfg]
      exact w.inArena c' d' bound'
  case apart =>
    by_cases here : c' = c ∧ d' = d
    · obtain ⟨rfl, rfl⟩ := here
      exact newApart c'' d'' (fun e => ne (by rw [e.1, e.2])) bound''
    by_cases there : c'' = c ∧ d'' = d
    · obtain ⟨rfl, rfl⟩ := there
      exact (newApart c' d' here bound').symm
    · rw [otherSlots c' d' here] at bound' ⊢
      rw [otherSlots c'' d'' there] at bound'' ⊢
      exact w.apart c' d' c'' d'' bound' bound'' ne
  case linked =>
    by_cases here : c' = c ∧ d' = d
    · obtain ⟨rfl, rfl⟩ := here
      rw [and_iff_right bound, ep]
      constructor
      · rintro rfl
        exact ⟨halfBound, ch⟩
      · rintro ⟨boundH, chH⟩
        by_contra ne
        obtain ⟨sameBound, sameCh⟩ := otherHalves h' d' fun e => ne e.1.symm
        rw [sameBound] at boundH
        rw [sameCh] at chH
        have slotBound := ((w.linked c' h' d').2 ⟨boundH, chH⟩).1
        rw [can.free] at slotBound
        cases slotBound
    · rw [otherSlots c' d' here]
      by_cases there : h' = h ∧ d' = d
      · obtain ⟨rfl, rfl⟩ := there
        rw [and_iff_right halfBound, ch, w.linked, can.notBound]
        refine ⟨fun e => (nomatch e.1), fun e => absurd ⟨e.symm, rfl⟩ here⟩
      · obtain ⟨sameBound, sameCh⟩ := otherHalves h' d' there
        rw [sameBound, sameCh]
        exact w.linked c' h' d'
  case oneEntry =>
    intro out inn
    by_cases here : c' = c
    · subst here
      have sib := siblingEp (by cases d; exacts [inn, out])
      apply BitVec.eq_of_toNat_eq
      cases d
      · exact ep.trans sib.symm
      · exact sib.trans ep.symm
    · rw [otherSlots c' .out fun e => here e.1] at out ⊢
      rw [otherSlots c' .inn fun e => here e.1] at inn ⊢
      exact w.oneEntry c' out inn
  case associated =>
    by_cases here : c' = c
    · subst here
      rw [own]
      obtain rfl | rfl := eq_or_otherDir d d'
      · rw [ep]
      · rw [siblingEp bound']
    · rw [otherSlots c' d' fun e => here e.1] at bound' ⊢
      rw [otherAssociations c' here]
      exact w.associated c' d' bound'
  case coLocated =>
    intro out inn
    by_cases here : h' = h
    · subst here
      obtain ⟨sameBound, sameCh⟩ := otherHalves h' (otherDir d) fun e => otherDir_ne d e.2
      have other := can.other
      rw [← sameBound, ← sameCh] at other
      apply BitVec.eq_of_toNat_eq
      cases d
      · exact ch.trans (other inn).symm
      · exact (other out).trans ch.symm
    · obtain ⟨sameOut, chOut⟩ := otherHalves h' .out fun e => here e.1
      obtain ⟨sameInn, chInn⟩ := otherHalves h' .inn fun e => here e.1
      rw [chOut, chInn]
      exact w.coLocated h' (sameOut ▸ out) (sameInn ▸ inn)

/-- BindSlot adds the one binding (R173). -/
theorem binds_bindSlot {dev : BitVec 7} {num : BitVec 4} (can : CanBind c h o size d s) :
    Binds c h o size d s (bindSlot c d h dev num o size s) := by
  have own := slot_bindSlot_self (d := d) (h := h) (o := o) (size := size) (dev := dev) (num := num) can.chan_lt
  have handle : (BitVec.ofNat 8 h).toNat = h := by
    rw [BitVec.toNat_ofNat, Nat.mod_eq_of_lt can.handle_lt]
  have channel : (BitVec.ofNat 4 c).toNat = c := by
    rw [BitVec.toNat_ofNat, Nat.mod_eq_of_lt can.channel_lt]
  refine ⟨rfl, ?_, fun c' d' ne => ?_, ?_, fun h' d' ne => ?_, fun c' ne => ?_⟩
  · rw [own]
    exact ⟨rfl, handle, can.offset, can.sizeFits⟩
  · exact bindSlot_otherSlots List.mem_cons_self c' d' fun e => ne ⟨e.1, List.mem_singleton.1 e.2⟩
  · rw [half_bindSlot_self can.entry_lt]
    exact ⟨rfl, channel⟩
  · rw [bindSlot_otherHalves (ds := [d]) List.mem_cons_self h' d' fun e => ne ⟨e.1, List.mem_singleton.1 e.2⟩]
    exact ⟨rfl, rfl⟩
  · obtain ⟨dev', num'⟩ := bindSlot_otherAssociations (d := d) (h := h) (dev := dev) (num := num) (o := o) (size := size) (s := s) c' ne
    exact Prod.ext dev' num'

theorem Wired.bindSlot {dev : BitVec 7} {num : BitVec 4} (w : Wired ids s) (can : CanBind c h o size d s)
    (own : (dev, num) = ids h) : Wired ids (bindSlot c d h dev num o size s) := by
  refine w.binds can (binds_bindSlot can) ?_
  obtain ⟨dev', num'⟩ := association_bindSlot_self (d := d) (h := h) (dev := dev) (num := num) (o := o) (size := size) can.chan_lt
  rw [← own, associationOf, dev', num']

end

end Sys2Proof.Machine
end

