-- ==== Sys2Proof/Proofs/GoodStates.lean ====
section
/-! SUPPORT. A good state put together from what it says of each half, of the wiring, of the registry and of the memories; each part
has its own lemma about what keeps it. -/

namespace Sys2Proof.Machine

open Sys2Proof.Safety Sys2Proof.Claims

/-! ### What a good state says of one half and its slot -/

/-- A half in direction `d` and its slot `y` (R54: INV4 to INV6; R46, R49, R174, R201, R250, R255). The slot counts only where the
half is bound. -/
structure HalfOk (cfg : Config) (r : Role) (d : Dir) (x : Half) (y : Slot) : Prop where
  done_le : x.done.toNat ≤ x.total.toNat
  slotSize : x.bound = true → y.cnt.toNat ≤ y.size.toNat ∧ y.size.toNat = roundup x.mps.toNat cfg.arenaGran
  inflight : x.xs = .inflight ↔ x.bound = true ∧ y.valid = true
  wait : x.xs = .wait → r = .host ∧ periodic x.type = true ∧ x.bound = true ∧ y.valid = false
  idle : x.xs = .idle → x.bound = true → y.valid = false
  host : r = .host → (x.bound = true ↔ x.xs ≠ .idle)
  device : r = .device → (x.bound = true ↔ x.isOpen = true)
  closed : x.isOpen = false → x = Half.closed
  sizes : x.isOpen = true → SizesOk x.type x.mps
  setup : x.xs ≠ .idle → x.setup = true → x.type = .ctrl ∧ d = .out ∧ x.total = 8
  armed : x.xs ≠ .idle → y.cnt.toNat = if isSend r d then nextLen x else x.mps.toNat
  buffer : x.xs ≠ .idle → x.total ≠ 0 → x.buf.toNat + x.total.toNat ≤ 2 ^ 32
  retry : x.err.toNat ≤ cfg.errRetryMax + 1 ∧ (x.xs ≠ .idle → x.err.toNat ≤ cfg.errRetryMax) ∧
    (r = .device → x.nak = 0 ∧ x.err = 0)

/-- The half and the slot it names. -/
abbrev HalfOkAt (h : Nat) (d : Dir) (s : State) : Prop := HalfOk s.cfg s.role d (half h d s) (slot (half h d s).ch.toNat d s)

section
variable {cfg : Config} {r : Role} {d : Dir} {x : Half} {y : Slot}

theorem halfOk_closed : HalfOk cfg r d Half.closed y where
  done_le := le_rfl
  slotSize := nofun
  inflight := ⟨nofun, nofun⟩
  wait := nofun
  idle := nofun
  host _ := ⟨nofun, fun busy => absurd rfl busy⟩
  device _ := ⟨nofun, nofun⟩
  closed _ := rfl
  sizes := nofun
  setup busy := absurd rfl busy
  armed busy := absurd rfl busy
  buffer busy := absurd rfl busy
  retry := ⟨Nat.zero_le _, fun _ => Nat.zero_le _, fun _ => ⟨rfl, rfl⟩⟩

theorem HalfOk.bound_of_busy (ok : HalfOk cfg r d x y) (busy : x.xs ≠ .idle) : x.bound = true := by
  cases xs : x.xs with
  | idle => exact absurd xs busy
  | inflight => exact (ok.inflight.1 xs).1
  | wait => exact (ok.wait xs).2.2.1

theorem HalfOk.isOpen_of_busy (ok : HalfOk cfg r d x y) (busy : x.xs ≠ .idle) : x.isOpen = true := by
  by_contra notOpen
  rw [ok.closed (by simpa using notOpen)] at busy
  exact busy rfl

/-- A half that is not bound does not look at its slot. -/
theorem HalfOk.slot_congr {y' : Slot} (ok : HalfOk cfg r d x y) (same : x.bound = true → y' = y) : HalfOk cfg r d x y' := by
  by_cases bound : x.bound = true
  · rwa [same bound]
  · have idle : x.xs = .idle := not_not.1 fun busy => bound (ok.bound_of_busy busy)
    obtain ⟨done_le, -, -, -, -, host, device, closed, sizes, setup, -, buffer, retry⟩ := ok
    exact ⟨done_le, fun b => absurd b bound, by simp [idle, bound], fun w => (by rw [idle] at w; cases w), fun _ b => absurd b bound,
      host, device, closed, sizes, setup, fun busy => absurd idle busy, buffer, retry⟩

/-- A half whose halt and toggle may have changed, if it is open: neither says anything of the transfer. -/
def SameButFlags (x x' : Half) : Prop := x' = x ∨ (x.isOpen = true ∧ ∃ halted toggle, x' = { x with halted := halted, toggle := toggle })

theorem HalfOk.sameButFlags {x' : Half} (ok : HalfOk cfg r d x y) (same : SameButFlags x x') : HalfOk cfg r d x' y := by
  obtain rfl | ⟨isOpen, halted, toggle, rfl⟩ := same
  · exact ok
  · obtain ⟨done_le, slotSize, inflight, wait, idle, host, device, closed, sizes, setup, armed, buffer, retry⟩ := ok
    exact ⟨done_le, slotSize, inflight, wait, idle, host, device, fun no => (by rw [isOpen] at no; cases no), sizes, setup, armed, buffer,
      retry⟩

theorem SameButFlags.bound {x' : Half} (same : SameButFlags x x') : x'.bound = x.bound ∧ x'.ch = x.ch := by
  obtain rfl | ⟨-, halted, toggle, rfl⟩ := same <;> exact ⟨rfl, rfl⟩

theorem SameButFlags.isOpen {x' : Half} (same : SameButFlags x x') : x'.isOpen = x.isOpen ∧ x'.type = x.type := by
  obtain rfl | ⟨-, halted, toggle, rfl⟩ := same <;> exact ⟨rfl, rfl⟩

end

/-! ### The registry (INV8) -/

/-- Used entries and open halves (R54, INV8), said of every entry. -/
structure Registry (s : State) : Prop where
  used : ∀ h, (entry h s).used = true ↔ (half h .out s).isOpen = true ∨ (half h .inn s).isOpen = true
  pair : ∀ h d, controlPair (half h d s) (half h (otherDir d) s)
  unique : ∀ h h', (entry h s).used = true → (entry h' s).used = true → identityOf s h = identityOf s h' → h = h'

section
variable {s t : State}

theorem half_outside {h : Nat} (outside : s.eps.length ≤ h) (d : Dir) : half h d s = Half.closed := by
  rw [half, entry_outside outside, Entry.half_free]

theorem registry_of_good (g : Good s) : Registry s := by
  have table := g.shape.2.1
  refine ⟨fun h => ?_, fun h d => ?_, fun h h' used used' same => ?_⟩
  · by_cases hh : h < s.cfg.epMax
    · exact g.inv8Used h hh
    · rw [half_outside (by omega), half_outside (by omega), entry_outside (by omega)]
      exact ⟨nofun, fun e => e.elim nofun nofun⟩
  · by_cases hh : h < s.cfg.epMax
    · exact g.inv8Pair h hh d (mem_bothDirs d)
    · rw [half_outside (by omega), half_outside (by omega)]
      exact fun _ => ⟨nofun, fun e => nomatch e.1⟩
  · obtain ⟨dev, num⟩ := Prod.mk.inj same
    exact g.inv8Unique h (table ▸ lt_length_of_used used) used h' (table ▸ lt_length_of_used used') used'
      (by simp [sameIdentity, dev, num])

theorem Registry.invariants (reg : Registry s) : Inv8Used s ∧ Inv8Pair s ∧ Inv8Unique s := by
  refine ⟨fun h _ => reg.used h, fun h _ d _ => reg.pair h d, fun h _ used h' _ used' same => reg.unique h h' used used' ?_⟩
  simp only [sameIdentity, Bool.and_eq_true, beq_iff_eq] at same
  exact Prod.ext same.1 same.2

/-- The registry's facts follow the used bits, the identities, and which halves are open with what type. -/
theorem Registry.congr (reg : Registry s) (identities : SameIdentities s t)
    (halves : ∀ h d, (half h d t).isOpen = (half h d s).isOpen ∧ (half h d t).type = (half h d s).type) : Registry t := by
  refine ⟨fun h => ?_, fun h d => ?_, fun h h' used used' same => ?_⟩
  · rw [(identities h).1, (halves h .out).1, (halves h .inn).1]
    exact reg.used h
  · rw [controlPair, (halves h d).1, (halves h d).2, (halves h (otherDir d)).1, (halves h (otherDir d)).2]
    exact reg.pair h d
  · rw [(identities h).1] at used
    rw [(identities h').1] at used'
    rw [identityOf, identityOf, (identities h).2.1, (identities h).2.2, (identities h').2.1, (identities h').2.2] at same
    exact reg.unique h h' used used' same

/-! ### Taking a good state apart and putting it together -/

theorem halfOk_of_good (g : Good s) (h : Nat) (d : Dir) : HalfOkAt h d s := by
  have table := g.shape.2.1
  by_cases hh : h < s.cfg.epMax
  · have hd := mem_bothDirs d
    obtain ⟨inflight, wait, idle⟩ := g.inv5.2 h hh d hd
    obtain ⟨host, device⟩ := g.inv6 h hh d hd
    refine ⟨g.inv4.1 h hh d hd, fun bound => ?_, inflight, wait, idle, host, device, g.closedHalves h hh d hd, g.openSizes h hh d hd,
      g.setupTransfers h hh d hd, g.armedCounts h hh d hd, g.buffers h hh d hd, g.retryCounts h hh d hd⟩
    have sv := serves_of_bound g bound
    have size := g.inv4.2 _ (g.shape.2.2 ▸ sv.chan_lt) d hd sv.bound
    rwa [sv.ep] at size
  · rw [HalfOkAt, half_outside (by omega)]
    exact halfOk_closed

theorem valid_of_good (g : Good s) (c : Nat) (d : Dir) (valid : (slot c d s).valid = true) : (slot c d s).bound = true := by
  by_cases hc : c < s.cfg.numCh
  · exact g.inv5.1 c hc d (mem_bothDirs d) valid
  · have table := g.shape.2.2
    rw [slot, chan_outside (by omega), Channel.slot_free] at valid
    cases valid

/-- A good state from its parts. -/
theorem good_of_facts (shape : Shape s) (memories : Memories s) (wired : Wired (identityOf s) s)
    (halves : ∀ h d, HalfOkAt h d s) (valid : ∀ c d, (slot c d s).valid = true → (slot c d s).bound = true)
    (registry : Registry s) (room : s.evq.length ≤ s.cfg.evqDepth) (before : BeforeInit s) (notFatal : s.fatal = false) : Good s := by
  obtain ⟨inv1, inv2, inv3, coLocated⟩ := wired.invariants shape.2.1 shape.2.2
  obtain ⟨used, pair, unique⟩ := registry.invariants
  refine ⟨shape, memories, inv1, inv2, inv3, ⟨fun h _ d _ => (halves h d).done_le, fun c _ d _ bound => ?_⟩,
    ⟨fun c _ d _ => valid c d, fun h _ d _ => ⟨(halves h d).inflight, (halves h d).wait, (halves h d).idle⟩⟩,
    fun h _ d _ => ⟨(halves h d).host, (halves h d).device⟩, room, used, pair, unique, before, fun h _ d _ => (halves h d).closed,
    fun h _ d _ => (halves h d).sizes, fun h _ d _ => (halves h d).setup, fun h _ d _ => (halves h d).armed,
    fun h _ d _ => (halves h d).buffer, fun h _ d _ => (halves h d).retry, coLocated, notFatal⟩
  obtain ⟨halfBound, ch⟩ := (wired.linked c _ d).1 ⟨bound, rfl⟩
  have size := (halves _ d).slotSize halfBound
  rwa [ch] at size

/-! ### What keeps a good state -/

/-- A state that differs in the registers, the record of the wire and the FIFO only. -/
theorem good_of_tables (g : Good s) (cfg : t.cfg = s.cfg) (role : t.role = s.role) (init : t.initDone = s.initDone)
    (fatal : t.fatal = s.fatal) (eps : t.eps = s.eps) (chans : t.chans = s.chans) (memories : Memories t)
    (room : t.evq.length ≤ s.cfg.evqDepth) : Good t := by
  have sameHalf (h d) : half h d t = half h d s := half_congr eps h d
  have sameSlot (c d) : slot c d t = slot c d s := slot_congr chans c d
  have ids : identityOf t = identityOf s := by
    funext h
    rw [identityOf, identityOf, entry_congr eps]
  have w := wired_of_good g
  refine good_of_facts (by rw [Shape, cfg, eps, chans]; exact g.shape) memories ?_ (fun h d => ?_) (fun c d valid => ?_)
    ((registry_of_good g).congr (sameIdentities_of_eps eps) fun h d => by rw [sameHalf]; exact ⟨rfl, rfl⟩) (cfg ▸ room) ?_
    (fatal ▸ g.notFatal)
  · rw [ids]
    exact w.shrinks (shrinks_of_same w cfg (fun c d => by rw [sameSlot]; exact ⟨rfl, rfl, rfl, rfl⟩)
      (fun h d => by rw [sameHalf]; exact ⟨rfl, rfl⟩) fun c => by
        rw [chan_congr chans, fullyFree, fullyFree, sameSlot, sameSlot]
        simp)
  · rw [HalfOkAt, cfg, role, sameHalf, sameSlot]
    exact halfOk_of_good g h d
  · rw [sameSlot] at valid ⊢
    exact valid_of_good g c d valid
  · intro notInit
    rw [init] at notInit
    obtain ⟨device, free⟩ := g.beforeInit notInit
    exact ⟨role.trans device, fun h hh => by rw [entry_congr eps]; exact free h (cfg ▸ hh)⟩

/-- The registers and the sizes of the tables: what every step but INIT and the register accesses keeps. -/
def SameFrame (s t : State) : Prop := SameControls s t ∧ t.eps.length = s.eps.length ∧ t.chans.length = s.chans.length

theorem Kept.frame (kept : Kept s t) : SameFrame s t := ⟨kept.controls, kept.sizes⟩

theorem shape_of_frame (frame : SameFrame s t) (shape : Shape s) : Shape t := by
  obtain ⟨⟨cfg, -⟩, eps, chans⟩ := frame
  rw [Shape, cfg, eps, chans]
  exact shape

theorem memories_of_quiet (quiet : Quiet s t) (memories : Memories s) : Memories t := by
  rw [Memories, quiet.mem, quiet.arena, quiet.kept.controls.1]
  exact memories

/-- A step after INIT keeps the good states if it keeps the memories, the wiring, and what they say of each half, of valid slots and
of the registry. -/
theorem good_of_frame (g : Good s) (init : s.initDone = true) (frame : SameFrame s t) (memories : Memories t)
    (room : t.evq.length ≤ s.cfg.evqDepth) (wired : Wired (identityOf t) t)
    (halves : ∀ h d, HalfOk s.cfg s.role d (half h d t) (slot (half h d t).ch.toNat d t))
    (valid : ∀ c d, (slot c d t).valid = true → (slot c d t).bound = true) (registry : Registry t) : Good t := by
  obtain ⟨cfg, -, role, initSame, fatal, -⟩ := frame.1
  refine good_of_facts (shape_of_frame frame g.shape) memories wired (fun h d => ?_) valid registry (cfg ▸ room) (fun no => ?_)
    (fatal.trans g.notFatal)
  · rw [HalfOkAt, cfg, role]
    exact halves h d
  · rw [initSame, init] at no
    cases no

/-- The same, of a step that may take bindings away. -/
theorem good_of_shrinks (g : Good s) (init : s.initDone = true) (frame : SameFrame s t) (memories : Memories t)
    (room : t.evq.length ≤ s.cfg.evqDepth) (shrinks : Shrinks s t)
    (identities : ∀ h d, (half h d t).bound = true → identityOf t h = identityOf s h)
    (halves : ∀ h d, HalfOk s.cfg s.role d (half h d t) (slot (half h d t).ch.toNat d t))
    (valid : ∀ c d, (slot c d t).valid = true → (slot c d t).bound = true) (registry : Registry t) : Good t :=
  good_of_frame g init frame memories room (((wired_of_good g).shrinks shrinks).identities identities) halves valid registry

theorem identityOf_of_same (identities : SameIdentities s t) : identityOf t = identityOf s :=
  funext fun h => Prod.ext (identities h).2.1 (identities h).2.2

end

end Sys2Proof.Machine
end

