-- ==== Sys2Proof/Proofs/NamedSlots.lean ====
section
/-! SUPPORT. Steps that act on one slot and the half it serves: what such a step is, that it keeps the good states, and its two ends,
a transfer that settles (R230) and a transfer that goes on (R214 to R216). -/

namespace Sys2Proof.Machine

open Sys2Proof.Safety Sys2Proof.Claims

/-! ### What a step on one slot may do -/

/-- The slot of a bound half may be released with it; nothing else of the binding changes, and the half stays open. -/
structure SameBinding (x : Half) (y : Slot) (x' : Half) (y' : Slot) : Prop where
  isOpen : x'.isOpen = x.isOpen
  type : x'.type = x.type
  together : x'.bound = y'.bound
  half : x'.bound = true → x'.ch = x.ch
  slot : y'.bound = true → y'.ep = y.ep ∧ y'.off = y.off ∧ y'.size = y.size
  valid : y'.valid = true → y'.bound = true

/-- 1 for a half with a transfer in flight (R200). -/
def inFlight (x : Half) : Nat := if x.xs = .idle then 0 else 1

/-- At most one word was pushed, and it is a completion exactly when a transfer of the half ended (R200, R230). -/
def EventsPushed (started : Nat) (x x' : Half) (s t : State) : Prop :=
  ∃ ws, t.evq = s.evq ++ ws ∧ ws.length ≤ 1 ∧ inFlight x' + ws.countP isCompletion = inFlight x + started

/-- Only the range of a slot was written in the arena (R90). -/
def ArenaWritten (y : Slot) (s t : State) : Prop :=
  ∃ bytes : List Byte, bytes.length ≤ y.size.toNat ∧ t.arena = Memory.writeBytes s.arena y.off.toNat bytes

/-- Only the caller buffer of a half was written in system memory (R90, R216). -/
def MemWritten (x : Half) (s t : State) : Prop :=
  ∃ a, ∃ bytes : List Byte, x.buf.toNat ≤ a ∧ a + bytes.length ≤ x.buf.toNat + x.total.toNat ∧
    t.mem = Memory.writeBytes s.mem a bytes

/-- A step on slot `d` of channel `c` and the half of entry `h` it serves. -/
structure ActsOn (started c h : Nat) (d : Dir) (s t : State) : Prop where
  others : ∀ h' d', ¬ (h' = h ∧ d' = d) → SameButFlags (half h' d' s) (half h' d' t)
  identities : SameIdentities s t
  slots : OtherSlots c [d] s t
  associations : AssociationsAfter s t
  binding : SameBinding (half h d s) (slot c d s) (half h d t) (slot c d t)
  ok : HalfOk s.cfg s.role d (half h d t) (slot c d t)
  events : EventsPushed started (half h d s) (half h d t) s t
  arena : ArenaWritten (slot c d s) s t
  untouched : half h d t = half h d s → t.arena = s.arena
  mem : MemWritten (half h d s) s t

section
variable {s t : State} {c h : Nat} {d : Dir}

theorem arenaWritten_of_same {y : Slot} (same : t.arena = s.arena) : ArenaWritten y s t := ⟨[], Nat.zero_le _, same⟩

theorem memWritten_of_same {x : Half} (same : t.mem = s.mem) : MemWritten x s t :=
  ⟨x.buf.toNat, [], le_rfl, Nat.add_le_add_left (Nat.zero_le _) _, same⟩

/-- Bytes written in a bound slot's range and in a caller buffer keep the memories (R80). -/
theorem memories_of_written {x : Half} {y : Slot} (memories : Memories s) (cfg : t.cfg = s.cfg)
    (range : y.off.toNat + y.size.toNat ≤ s.cfg.arenaSize) (buffer : x.total ≠ 0 → x.buf.toNat + x.total.toNat ≤ 2 ^ 32)
    (arena : ArenaWritten y s t) (mem : MemWritten x s t) : Memories t := by
  obtain ⟨arenaWf, memWf, arenaIn, memIn⟩ := memories
  obtain ⟨bytes, fits, arena⟩ := arena
  obtain ⟨a, bytes', first, last, mem⟩ := mem
  rw [Memories, arena, mem, cfg]
  refine ⟨Memory.writeBytes_wf _ _ arenaWf, Memory.writeBytes_wf _ _ memWf, fun p hp => ?_, fun p hp => ?_⟩
  · obtain old | new := Memory.mem_writeBytes _ hp
    · exact arenaIn p old
    · omega
  · obtain old | new := Memory.mem_writeBytes _ hp
    · exact memIn p old
    · by_cases none : x.total = 0
      · have : x.total.toNat = 0 := congrArg BitVec.toNat none
        omega
      · have := buffer none
        omega

/-- A step on one slot keeps the good states (R54). -/
theorem good_of_actsOn {started : Nat} (g : Good s) (init : s.initDone = true) (sv : Serves c h d s) (frame : SameFrame s t)
    (memories : Memories t) (room : t.evq.length ≤ s.cfg.evqDepth) (a : ActsOn started c h d s t) : Good t := by
  have w := wired_of_good g
  obtain ⟨halfBound, -⟩ := (w.linked c h d).1 ⟨sv.bound, sv.ep⟩
  have slots (c' d') (other : ¬ (c' = c ∧ d' = d)) : slot c' d' t = slot c' d' s :=
    a.slots c' d' fun e => other ⟨e.1, List.mem_singleton.1 e.2⟩
  obtain ⟨isOpen, type, together, halfKept, slotKept, valid⟩ := a.binding
  refine good_of_shrinks g init frame memories room ⟨frame.1.1, fun c' d' bound => ?slots, fun h' d' bound => ?halves,
    fun c' d' bound => ?together, a.associations⟩ (fun h' d' _ => ?identities) (fun h' d' => ?ok) (fun c' d' isValid => ?valid)
    ((registry_of_good g).congr a.identities fun h' d' => ?registry)
  case slots =>
    by_cases here : c' = c ∧ d' = d
    · obtain ⟨rfl, rfl⟩ := here
      exact ⟨sv.bound, slotKept bound⟩
    · rw [slots c' d' here] at bound ⊢
      exact ⟨bound, rfl, rfl, rfl⟩
  case halves =>
    by_cases here : h' = h ∧ d' = d
    · obtain ⟨rfl, rfl⟩ := here
      exact ⟨halfBound, halfKept bound⟩
    · obtain ⟨sameBound, ch⟩ := (a.others h' d' here).bound
      exact ⟨sameBound ▸ bound, ch⟩
  case together =>
    by_cases here : c' = c ∧ d' = d
    · obtain ⟨rfl, rfl⟩ := here
      rw [sv.ep, together]
    · obtain ⟨boundS, ch⟩ := (w.linked c' _ d').1 ⟨bound, rfl⟩
      have other : ¬ ((slot c' d' s).ep.toNat = h ∧ d' = d) := by
        rintro ⟨e, rfl⟩
        rw [e, sv.ch] at ch
        exact here ⟨ch.symm, rfl⟩
      rw [slots c' d' here, (a.others _ d' other).bound.1, boundS, bound]
  case identities => exact Prod.ext (a.identities h').2.1 (a.identities h').2.2
  case ok =>
    by_cases here : h' = h ∧ d' = d
    · obtain ⟨rfl, rfl⟩ := here
      exact a.ok.slot_congr fun bound => by rw [halfKept bound, sv.ch]
    · refine (((halfOk_of_good g h' d').sameButFlags (a.others h' d' here)).slot_congr fun bound => ?_)
      obtain ⟨sameBound, ch⟩ := (a.others h' d' here).bound
      rw [sameBound] at bound
      rw [ch, slots]
      rintro ⟨e, rfl⟩
      obtain ⟨-, ep⟩ := (w.linked _ h' d').2 ⟨bound, rfl⟩
      rw [e, sv.ep] at ep
      exact here ⟨ep.symm, rfl⟩
  case valid =>
    by_cases here : c' = c ∧ d' = d
    · obtain ⟨rfl, rfl⟩ := here
      exact valid isValid
    · rw [slots c' d' here] at isValid ⊢
      exact valid_of_good g c' d' isValid
  case registry =>
    by_cases here : h' = h ∧ d' = d
    · obtain ⟨rfl, rfl⟩ := here
      exact ⟨isOpen, type⟩
    · exact (a.others h' d' here).isOpen

end

/-! ### Counting -/

/-- A half whose progress, counters and flags may have changed, and nothing else (R214, R216, R251, R255). -/
structure Counted (cfg : Config) (r : Role) (x x' : Half) : Prop where
  same : ∃ halted toggle done nak err, x' = { x with halted := halted, toggle := toggle, done := done, nak := nak, err := err }
  done_le : x'.done.toNat ≤ x'.total.toNat
  err_le : x'.err.toNat ≤ cfg.errRetryMax + 1
  device : r = .device → x'.nak = 0 ∧ x'.err = 0

section
variable {cfg : Config} {r : Role} {d : Dir} {x x' : Half} {y : Slot}

/-- A transfer that settled (R172, R174, R230). -/
theorem halfOk_settled (ok : HalfOk cfg r d x y) (busy : x.xs ≠ .idle) (counted : Counted cfg r x x') {k : BitVec 16}
    (fits : k.toNat ≤ y.size.toNat) :
    HalfOk cfg r d (settledHalf r x') (if r = .host then Slot.free else { y with valid := false, cnt := k }) := by
  have isOpen := ok.isOpen_of_busy busy
  have bound := ok.bound_of_busy busy
  have size := (ok.slotSize bound).2
  have sizes := ok.sizes isOpen
  obtain ⟨⟨halted, toggle, done, nak, err, rfl⟩, done_le, err_le, device⟩ := counted
  cases r with
  | host =>
    exact ⟨done_le, nofun, ⟨nofun, nofun⟩, nofun, nofun, fun _ => ⟨nofun, fun busy => absurd rfl busy⟩, nofun,
      fun no => (by rw [settledHalf, if_pos rfl] at no; simp [isOpen] at no), fun _ => sizes, fun busy => absurd rfl busy,
      fun busy => absurd rfl busy, fun busy => absurd rfl busy, ⟨err_le, fun busy => absurd rfl busy, nofun⟩⟩
  | device =>
    have openBound : x.bound = true ↔ x.isOpen = true := ok.device rfl
    exact ⟨done_le, fun _ => ⟨fits, size⟩, ⟨nofun, nofun⟩, nofun, fun _ _ => rfl, nofun, fun _ => openBound,
      fun no => (by rw [settledHalf, if_neg nofun] at no; simp [isOpen] at no), fun _ => sizes, fun busy => absurd rfl busy,
      fun busy => absurd rfl busy, fun busy => absurd rfl busy, ⟨err_le, fun busy => absurd rfl busy, fun _ => device rfl⟩⟩

/-- A packet's count fits its slot (R49, R54). -/
theorem HalfOk.count_le_size (ok : HalfOk cfg r d x y) (gran : 0 < cfg.arenaGran) (bound : x.bound = true) {n : Nat}
    (le : n ≤ x.mps.toNat) : n ≤ y.size.toNat := by
  rw [(ok.slotSize bound).2]
  exact le.trans (le_roundup _ gran)

theorem nextLen_le_mps (x : Half) : nextLen x ≤ x.mps.toNat := min_le_left _ _

/-- A transfer that goes on, with the next packet's count in its slot (R210, R211, R216). -/
theorem halfOk_flying (ok : HalfOk cfg r d x y) (gran : 0 < cfg.arenaGran) (busy : x.xs ≠ .idle) (counted : Counted cfg r x x')
    (errs : x'.err.toNat ≤ cfg.errRetryMax) {k : BitVec 16} (count : k.toNat = if isSend r d then nextLen x' else x'.mps.toNat) :
    HalfOk cfg r d x' { y with cnt := k } := by
  have isOpen := ok.isOpen_of_busy busy
  have bound := ok.bound_of_busy busy
  have le : k.toNat ≤ x'.mps.toNat := by
    rw [count]
    split
    · exact nextLen_le_mps x'
    · exact le_rfl
  obtain ⟨⟨halted, toggle, done, nak, err, rfl⟩, done_le, -, device⟩ := counted
  have fits := ok.count_le_size gran bound le
  obtain ⟨-, slotSize, inflight, wait, idle, host, device', closed, sizes, setup, -, buffer, -⟩ := ok
  exact ⟨done_le, fun b => ⟨fits, (slotSize b).2⟩, inflight, wait, idle, host, device', fun no => (by simp [isOpen] at no), sizes, setup,
    fun _ => count, buffer, ⟨errs.trans (Nat.le_succ _), fun _ => errs, device⟩⟩

/-! ### The two ends of a packet -/

/-- The XFER_COMPLETE words carry code 1 (R119, R120). -/
theorem isCompletion_completion {o h n : Nat} (d : Dir) (outcome : o < 8) (handle : h < 256) (count : n < 65536) :
    isCompletion (completion o d h n) = true := by
  have dir : dirNum d ≤ 1 := by cases d <;> decide
  rw [isCompletion, beq_iff_eq, ← BitVec.toNat_inj, BitVec.toNat_ushiftRight, completion, BitVec.toNat_ofNat, Nat.shiftRight_eq_div_pow]
  have one : (1 : Word).toNat = 1 := rfl
  omega

section
variable {s t : State} {c h : Nat} {x' : Half} {k : BitVec 16}

/-- A transfer that settles (R230). -/
theorem actsOn_of_settled (g : Good s) (sv : Serves c h d s) (busy : (half h d s).xs ≠ .idle)
    (counted : Counted s.cfg s.role (half h d s) x') (fits : k.toNat ≤ (slot c d s).size.toNat)
    (settled : half h d t = settledHalf s.role x')
    (others : ∀ h' d', ¬ (h' = h ∧ d' = d) → SameButFlags (half h' d' s) (half h' d' t)) (identities : SameIdentities s t)
    (slotSettled : SlotSettled c d k s t) {o n : Nat} (word : t.evq = s.evq ++ [completion o d h n]) (outcome : o < 8)
    (count : n < 65536) (arena : ArenaWritten (slot c d s) s t) (mem : MemWritten (half h d s) s t) : ActsOn 0 c h d s t := by
  have ok : HalfOk s.cfg s.role d (half h d s) (slot c d s) := sv.ch ▸ halfOk_of_good g h d
  have bound := ok.bound_of_busy busy
  have slotBound := sv.bound
  obtain ⟨slotAfter, otherSlots, associations⟩ := slotSettled
  have idle : (half h d t).xs = .idle := by
    rw [settled, settledHalf]
    split <;> rfl
  have completes := isCompletion_completion d outcome (handle_lt g sv.entry_lt) count
  refine ⟨others, identities, otherSlots, associations, ?binding, ?ok, ⟨_, word, le_rfl, ?events⟩, arena,
    fun same => absurd (same ▸ idle) busy, mem⟩
  case ok =>
    rw [settled, slotAfter]
    exact halfOk_settled ok busy counted fits
  case binding =>
    rw [settled, slotAfter]
    obtain ⟨⟨halted, toggle, done, nak, err, rfl⟩, -⟩ := counted
    cases s.role with
    | host => exact ⟨rfl, rfl, rfl, nofun, nofun, nofun⟩
    | device => exact ⟨rfl, rfl, bound.trans slotBound.symm, fun _ => rfl, fun _ => ⟨rfl, rfl, rfl⟩, nofun⟩
  case events => simp [inFlight, idle, busy, completes]

/-- A transfer that goes on with its slot's next count. -/
theorem actsOn_of_flying (g : Good s) (sv : Serves c h d s) (busy : (half h d s).xs ≠ .idle)
    (counted : Counted s.cfg s.role (half h d s) x') (errs : x'.err.toNat ≤ s.cfg.errRetryMax)
    (count : k.toNat = if isSend s.role d then nextLen x' else x'.mps.toNat) (flying : half h d t = x')
    (others : OtherHalves h [d] s t) (identities : SameIdentities s t) (slotAfter : slot c d t = { slot c d s with cnt := k })
    (otherSlots : OtherSlots c [d] s t) (associations : AssociationsAfter s t) (evq : t.evq = s.evq)
    (arena : ArenaWritten (slot c d s) s t) (untouched : x' = half h d s → t.arena = s.arena)
    (mem : MemWritten (half h d s) s t) : ActsOn 0 c h d s t := by
  have ok : HalfOk s.cfg s.role d (half h d s) (slot c d s) := sv.ch ▸ halfOk_of_good g h d
  have bound := ok.bound_of_busy busy
  have slotBound := sv.bound
  refine ⟨fun h' d' ne => .inl (others h' d' fun e => ne ⟨e.1, List.mem_singleton.1 e.2⟩), identities, otherSlots, associations,
    ?binding, ?ok, ⟨[], by simp [evq], Nat.zero_le _, ?events⟩, arena,
    fun same => untouched (flying.symm.trans same), mem⟩
  case ok =>
    rw [flying, slotAfter]
    exact halfOk_flying ok (arenaGran_pos g.shape.1) busy counted errs count
  case binding =>
    rw [flying, slotAfter]
    obtain ⟨⟨halted, toggle, done, nak, err, rfl⟩, -⟩ := counted
    exact ⟨rfl, rfl, bound.trans slotBound.symm, fun _ => rfl, fun _ => ⟨rfl, rfl, rfl⟩, fun _ => slotBound⟩
  case events =>
    rw [flying]
    obtain ⟨⟨halted, toggle, done, nak, err, rfl⟩, -⟩ := counted
    rfl

end

end

end Sys2Proof.Machine
end

