-- ==== Sys2Proof/Proofs/PacketSteps.lean ====
section
/-! SUPPORT. The link events of one slot (R214 to R218, R251 to R256) act on that slot and the half it serves. -/

namespace Sys2Proof.Machine

open Sys2Proof.Safety Sys2Proof.Claims

/-- The half that an event names is the one its slot serves. -/
abbrev EventActs (c : BitVec 4) (d : Dir) (s t : State) : Prop := ActsOn 0 c.toNat (slotHandle c d s) d s t

section
variable {s t : State} {c : BitVec 4} {d : Dir}

theorem associationsAfter_of_chans (chans : t.chans = s.chans) : AssociationsAfter s t := fun c' => by
  rw [chan_congr chans, fullyFree, fullyFree, slot_congr chans, slot_congr chans]
  simp

theorem associationsAfter_of_becomes {n : Nat} {y : Slot} (becomes : SlotBecomes n d y s t) (bound : y.bound = (slot n d s).bound) :
    AssociationsAfter s t := (slotEnds_of_bound becomes bound).2.2

theorem sameButFlags_of_otherHalves {h : Nat} (others : OtherHalves h [d] s t) (h' : Nat) (d' : Dir) (ne : ¬ (h' = h ∧ d' = d)) :
    SameButFlags (half h' d' s) (half h' d' t) := .inl (others h' d' fun e => ne ⟨e.1, List.mem_singleton.1 e.2⟩)

theorem busy_of_ready (g : Good s) (ready : SlotReady c d s) : (slotHalf c d s).xs ≠ .idle := by
  simp [inflight_of_good g ready]

/-- What a good state says of the slot of an event (R125). -/
theorem halfOk_of_ready (g : Good s) (ready : SlotReady c d s) :
    HalfOk s.cfg s.role d (slotHalf c d s) (slot c.toNat d s) :=
  (serves_of_good g ready).ch ▸ halfOk_of_good g (slotHandle c d s) d

/-- The byte count of an armed packet fits its slot (R54, INV4). -/
theorem cnt_le_size (g : Good s) (ready : SlotReady c d s) : (slot c.toNat d s).cnt.toNat ≤ (slot c.toNat d s).size.toNat := by
  have ok := halfOk_of_ready g ready
  exact (ok.slotSize (ok.bound_of_busy (busy_of_ready g ready))).1

/-- Beside a SETUP only flags of the control endpoint's other half change, and that half is open (R54, INV8). -/
theorem sameButFlags_of_setup {h : Nat} (g : Good s) (ctrl : (half h .out s).type = .ctrl) (isOpen : (half h .out s).isOpen = true)
    (others : OtherHalves h bothDirs s t)
    (other : ∃ halted toggle, half h .inn t = { half h .inn s with halted := halted, toggle := toggle }) (h' : Nat) (d' : Dir)
    (ne : ¬ (h' = h ∧ d' = .out)) : SameButFlags (half h' d' s) (half h' d' t) := by
  by_cases here : h' = h
  · subst here
    cases d' with
    | out => exact absurd ⟨rfl, rfl⟩ ne
    | inn => exact .inr ⟨(((registry_of_good g).pair h' .out ctrl).1 isOpen).1, other⟩
  · exact .inl (others h' d' fun e => here e.1)

/-! ### An event that settles a transfer or leaves its slot alone -/

theorem settlesWith_acts {outcome : Nat} {y : Half} (g : Good s) (ready : SlotReady c d s)
    (counted : Counted s.cfg s.role (slotHalf c d s) y) (small : outcome < 8) (after : SettlesWith outcome c d y s t)
    (arena : t.arena = s.arena) (mem : t.mem = s.mem) : EventActs c d s t := by
  obtain ⟨settled, others, slotSettled, word, -, -, -, -, identities⟩ := after
  exact actsOn_of_settled g (serves_of_good g ready) (busy_of_ready g ready) counted (cnt_le_size g ready) settled
    (sameButFlags_of_otherHalves others) identities slotSettled word small (BitVec.isLt _) (arenaWritten_of_same arena)
    (memWritten_of_same mem)

theorem onlyHalf_acts {y : Half} (g : Good s) (ready : SlotReady c d s) (counted : Counted s.cfg s.role (slotHalf c d s) y)
    (errs : y.err.toNat ≤ s.cfg.errRetryMax) (done : y.done = (slotHalf c d s).done)
    (after : OnlyHalf (slotHandle c d s) d y s t) (arena : t.arena = s.arena) (mem : t.mem = s.mem) : EventActs c d s t := by
  obtain ⟨flying, others, chans, evq, -, -, -, -, identities⟩ := after
  have count := (halfOk_of_ready g ready).armed (busy_of_ready g ready)
  have sameCount : (slot c.toNat d s).cnt.toNat = if isSend s.role d then nextLen y else y.mps.toNat := by
    rw [count]
    obtain ⟨⟨halted, toggle, done', nak, err, rfl⟩, -⟩ := counted
    rw [nextLen, nextLen, show done' = _ from done]
  exact actsOn_of_flying g (serves_of_good g ready) (busy_of_ready g ready) counted errs sameCount flying others identities
    (slot_congr chans c.toNat d) (fun c' d' _ => slot_congr chans c' d') (associationsAfter_of_chans chans) evq
    (arenaWritten_of_same arena) (fun _ => arena) (memWritten_of_same mem)

end

/-! ### Attempts without an acknowledgement (R251 to R256) -/

section
variable {s t : State} {c : BitVec 4} {d : Dir}

/-- A periodic packet that was not taken waits for its next frame with its slot no longer valid (R251). -/
theorem halfOk_waiting {cfg : Config} {x : Half} {y : Slot} (ok : HalfOk cfg .host d x y) (busy : x.xs ≠ .idle)
    (isPeriodic : periodic x.type = true) : HalfOk cfg .host d { naked x with xs := .wait } { y with valid := false } := by
  have bound := ok.bound_of_busy busy
  have isOpen := ok.isOpen_of_busy busy
  have errs := ok.retry.2.1 busy
  obtain ⟨done_le, slotSize, -, -, -, -, -, -, sizes, setup, armed, buffer, -⟩ := ok
  exact ⟨done_le, slotSize, ⟨nofun, fun e => nomatch e.2⟩, fun _ => ⟨rfl, isPeriodic, bound, rfl⟩, nofun,
    fun _ => ⟨fun _ => nofun, fun _ => bound⟩, nofun, fun no => (by simp [naked, isOpen] at no), sizes, fun _ => setup busy,
    fun _ => armed busy, fun _ => buffer busy, ⟨errs.trans (Nat.le_succ _), fun _ => errs, nofun⟩⟩

theorem counted_naked (g : Good s) (r : RetryReady c d s) : Counted s.cfg s.role (slotHalf c d s) (naked (slotHalf c d s)) := by
  have ok := halfOk_of_ready g r.2.1
  exact ⟨⟨_, _, _, _, _, rfl⟩, ok.done_le, ok.retry.1, fun device => by rw [r.1] at device; cases device⟩

theorem linkNak_acts (g : Good s) (next : exec (.linkNak c d) s = .next t) : EventActs c d s t := by
  obtain ⟨r, rfl⟩ := linkNak_next next
  obtain ⟨host, ready, -⟩ := id r
  have quiet := kept_nakPacket s c d
  have arena : (nakPacket c d s).arena = s.arena := by simp
  have mem : (nakPacket c d s).mem = s.mem := by simp
  have ok := halfOk_of_ready g ready
  have busy := busy_of_ready g ready
  have errs := ok.retry.2.1 busy
  obtain ⟨after, -⟩ := nakPacket_nakAfter (serves_of_good g ready)
  split at after
  next periodic =>
    obtain ⟨waits, others, slotAfter, otherSlots, associations, evq, -, -, -, -, identities⟩ := after
    have becomes : SlotBecomes c.toNat d { slot c.toNat d s with valid := false } s (nakPacket c d s) :=
      ⟨slotAfter, otherSlots, associations⟩
    refine ⟨sameButFlags_of_otherHalves others, identities, otherSlots, associationsAfter_of_becomes becomes rfl, ?binding, ?ok,
      ⟨[], by simp [evq], Nat.zero_le _, ?events⟩, arenaWritten_of_same arena, fun _ => arena, memWritten_of_same mem⟩
    case ok =>
      rw [waits, slotAfter, host]
      exact halfOk_waiting (host ▸ ok) busy ((periodic_iff _).2 periodic)
    case binding =>
      rw [waits, slotAfter]
      exact ⟨rfl, rfl, (ok.bound_of_busy busy).trans ready.2.1.symm, fun _ => rfl, fun _ => ⟨rfl, rfl, rfl⟩, nofun⟩
    case events =>
      have busy : (half (slotHandle c d s) d s).xs ≠ .idle := busy
      simp [waits, inFlight, busy]
  · split at after
    · exact settlesWith_acts g ready (counted_naked g r) (by decide) after arena mem
    · exact onlyHalf_acts g ready (counted_naked g r) errs rfl after arena mem

theorem linkStall_acts (g : Good s) (next : exec (.linkStall c d) s = .next t) : EventActs c d s t := by
  obtain ⟨⟨host, ready, -⟩, rfl⟩ := linkStall_next next
  have ok := halfOk_of_ready g ready
  have counted : Counted s.cfg s.role (slotHalf c d s) { slotHalf c d s with halted := true } :=
    ⟨⟨_, _, _, _, _, rfl⟩, ok.done_le, ok.retry.1, ok.retry.2.2⟩
  exact settlesWith_acts g ready counted (by decide) (stallPacket_settlesWith (serves_of_good g ready)) (by simp)
    (by simp)

theorem errorAfter_acts (g : Good s) (host : s.role = .host) (ready : SlotReady c d s) (after : ErrorAfter c d s t)
    (arena : t.arena = s.arena) (mem : t.mem = s.mem) : EventActs c d s t := by
  have ok := halfOk_of_ready g ready
  have bound := ok.retry.2.1 (busy_of_ready g ready)
  have small : s.cfg.errRetryMax ≤ 15 := g.shape.1.2.2.2.2.2.2
  have count : (BitVec.ofNat 5 ((slotHalf c d s).err.toNat + 1)).toNat = (slotHalf c d s).err.toNat + 1 := by
    rw [BitVec.toNat_ofNat]
    omega
  have counted : Counted s.cfg s.role (slotHalf c d s)
      { slotHalf c d s with err := BitVec.ofNat 5 ((slotHalf c d s).err.toNat + 1) } :=
    ⟨⟨_, _, _, _, _, rfl⟩, ok.done_le, by rw [count]; omega, fun device => by rw [host] at device; cases device⟩
  rw [ErrorAfter] at after
  split at after
  next more => exact onlyHalf_acts g ready counted (by rw [count]; exact more) rfl after arena mem
  next last => exact settlesWith_acts g ready counted (by decide) after arena mem

theorem linkXerr_acts (g : Good s) (next : exec (.linkXerr c d) s = .next t) : EventActs c d s t := by
  obtain ⟨⟨host, ready, -⟩, rfl⟩ := linkXerr_next next
  exact errorAfter_acts g host ready (xErr_recordTx_errorAfter .xerr (serves_of_good g ready)
    (err_succ_lt_of_good g ready (busy_of_ready g ready))) (by simp) (by simp)

end

/-! ### Acknowledged packets (R214) -/

section
variable {s t : State} {c : BitVec 4} {d : Dir}

/-- A packet that succeeded, with `k` more bytes done (R214, R216). -/
theorem counted_progressed {k : Nat} (fits : (slotHalf c d s).done.toNat + k ≤ (slotHalf c d s).total.toNat) :
    Counted s.cfg s.role (slotHalf c d s) (progressed k (slotHalf c d s)) := by
  have lt := (slotHalf c d s).total.isLt
  refine ⟨⟨_, _, _, _, _, rfl⟩, ?_, Nat.zero_le _, fun _ => ⟨rfl, rfl⟩⟩
  rw [progressed, BitVec.toNat_ofNat, Nat.mod_eq_of_lt (by omega)]
  exact fits

/-- A packet that leaves its half as it was moved no byte. -/
theorem done_progressed {k : Nat} (same : progressed k (slotHalf c d s) = slotHalf c d s)
    (fits : (slotHalf c d s).done.toNat + k ≤ (slotHalf c d s).total.toNat) : k = 0 := by
  have lt := (slotHalf c d s).total.isLt
  have count := congrArg (fun x => x.done.toNat) same
  simp only [progressed, BitVec.toNat_ofNat] at count
  omega

/-- A loaded packet lies in its slot's range (R210). -/
theorem arenaWritten_of_loaded {y : Slot} {a n : Nat} (fits : n ≤ y.size.toNat)
    (arena : t.arena = Memory.writeBytes s.arena y.off.toNat (Memory.readBytes s.mem a n)) : ArenaWritten y s t :=
  ⟨_, by rwa [Memory.length_readBytes], arena⟩

theorem nextArmed_arena (p : Sends c d s) : (nextArmed c d s).arena = Memory.writeBytes s.arena (slot c.toNat d s).off.toNat
    (Memory.readBytes s.mem (nextAddr c d s) (nextCount c d s)) := by
  obtain ⟨-, -, chans, -⟩ := ackedState_onlyHalf p.serves
  rw [nextArmed, loadPacket_arena, slot_congr chans]
  simp [ackedState, countedState, attempted]

theorem linkTxAck_data_acts (g : Good s) (p : Sends c d s) (noSetup : (slotHalf c d s).setup = false)
    (next : exec (.linkTxAck c d) s = .next t) : EventActs c d s t := by
  have sv := p.serves
  have busy := busy_of_ready g p.ready
  have counted := counted_progressed p.done_add_cnt_le
  rw [exec_linkTxAck_of_data p noSetup] at next
  split at next
  next completes =>
    obtain rfl := Host.Outcome.next.inj next
    obtain ⟨settled, slotSettled, word, -, others, -, -, -, -, identities⟩ := ack_settles p
    have le := p.done_add_cnt_le
    have lt := (slotHalf c d s).total.isLt
    exact actsOn_of_settled g sv busy counted (cnt_le_size g p.ready) settled (sameButFlags_of_otherHalves others) identities
      slotSettled word (by decide) (by omega) (arenaWritten_of_same (by simp [ackedState, countedState, attempted]))
      (memWritten_of_same (by simp [ackedState, countedState, attempted]))
  next more =>
    have positive := mps_pos_of_good g p.ready
    have notShort : ¬ (slot c.toNat d s).cnt.toNat < (slotHalf c d s).mps.toNat := fun short => more (.inl short)
    have le := p.done_add_cnt_le
    obtain rfl := Host.Outcome.next.inj (whenAdmitted_next.1 next).2
    obtain ⟨flying, slotAfter, otherSlots, associations, evq, -, -, others, -, -, -, -, identities⟩ := ack_arms p
    have ok := halfOk_of_ready g p.ready
    have bound := ok.bound_of_busy busy
    have becomes : SlotBecomes c.toNat d { slot c.toNat d s with cnt := BitVec.ofNat 16 (nextCount c d s) } s (nextArmed c d s) :=
      ⟨slotAfter, otherSlots, associations⟩
    refine actsOn_of_flying g sv busy counted (Nat.zero_le _) ?_ flying others identities slotAfter otherSlots
      (associationsAfter_of_becomes becomes rfl) evq (arenaWritten_of_loaded (a := nextAddr c d s) (n := nextCount c d s) ?_ ?_)
      (fun same => ?_) (memWritten_of_same ?_)
    · rw [toNat_nextCount, if_pos p.sending, nextCount, nextLen, progressed, p.toNat_done_add_cnt]
    · exact ok.count_le_size (arenaGran_pos g.shape.1) bound (min_le_left _ _)
    · exact nextArmed_arena p
    · exact absurd (done_progressed same le) (by omega)
    · simp [nextArmed, ackedState, countedState, attempted]

theorem linkTxAck_setup_acts (g : Good s) (p : Sends c .out s) (setup : (slotHalf c .out s).setup = true)
    (next : exec (.linkTxAck c .out) s = .next t) : EventActs c .out s t := by
  have sv := p.serves
  have ok := halfOk_of_ready g p.ready
  have busy := busy_of_ready g p.ready
  have le := p.done_add_cnt_le
  have lt := (slotHalf c .out s).total.isLt
  rw [exec_linkTxAck_of_ready p.ready p.sending, ackPacket_eq sv, if_pos setup] at next
  obtain rfl := Host.Outcome.next.inj next
  obtain ⟨-, settled, other, others, slotSettled, word, -, -, -, -, -, identities⟩ := ackSetup_settles p
  have counted : Counted s.cfg s.role (slotHalf c .out s) { slotHalf c .out s with
      done := BitVec.ofNat 16 ((slotHalf c .out s).done.toNat + (slot c.toNat .out s).cnt.toNat)
      nak := 0
      err := 0
      toggle := true } :=
    ⟨⟨_, _, _, _, _, rfl⟩, by rw [p.toNat_done_add_cnt]; exact le, Nat.zero_le _, fun _ => ⟨rfl, rfl⟩⟩
  refine actsOn_of_settled g sv busy counted (cnt_le_size g p.ready) settled (fun h' d' ne => ?_) identities slotSettled word
    (by decide) (by omega) (arenaWritten_of_same (by simp [forceToggles, countedState, attempted]))
    (memWritten_of_same (by simp [forceToggles, countedState, attempted]))
  exact sameButFlags_of_setup g (ok.setup busy setup).1 (ok.isOpen_of_busy busy) others ⟨_, _, other⟩ h' d' ne

theorem linkTxAck_acts (g : Good s) (next : exec (.linkTxAck c d) s = .next t) : EventActs c d s t := by
  obtain ⟨ready, sends, -⟩ := linkTxAck_next next
  have p := sends_of_good g ready sends
  cases setup : (slotHalf c d s).setup with
  | false => exact linkTxAck_data_acts g p setup next
  | true =>
    obtain rfl := dir_of_setup g ⟨ready, sends, setup⟩
    exact linkTxAck_setup_acts g p setup next

end

/-! ### Received packets (R216 to R218) -/

section
variable {s t : State} {c : BitVec 4} {d : Dir} {data : List Byte}

/-- A received packet that fits its slot is stored in the slot's range, the wanted bytes in the caller buffer (R216). -/
theorem written_of_received (g : Good s) (ready : SlotReady c d s) (fits : data.length ≤ (slot c.toNat d s).size.toNat)
    (arena : t.arena = (receivedState c d data s).arena) (mem : t.mem = (receivedState c d data s).mem) :
    ArenaWritten (slot c.toNat d s) s t ∧ MemWritten (slotHalf c d s) s t := by
  have wantedLength : (data.take (wanted c d data s)).length = wanted c d data s := List.length_take_of_le wanted_le_length
  have le := done_add_wanted_le (data := data) g ready
  refine ⟨⟨data, fits, arena.trans receivedState_arena⟩, rxAddr c d s, data.take (wanted c d data s), Nat.le_add_right _ _, ?_,
    mem.trans receivedState_mem⟩
  rw [wantedLength, rxAddr]
  omega

theorem acceptPacket_acts (g : Good s) (ready : SlotReady c d s) (receives : isSend s.role d = false)
    (fits : data.length ≤ (slot c.toNat d s).cnt.toNat) (next : acceptPacket c d data s = .next t) : EventActs c d s t := by
  have sv := serves_of_good g ready
  have busy := busy_of_ready g ready
  have ok := halfOk_of_ready g ready
  have le := done_add_wanted_le (data := data) g ready
  have lt := (slotHalf c d s).total.isLt
  have counted := counted_progressed le
  have inRange := fits.trans (cnt_le_size g ready)
  rw [acceptPacket_eq g] at next
  have ended := (whenAdmitted_next.1 next).2
  rw [finishReceive_receivedState g ready] at ended
  split at ended
  next completes =>
    obtain rfl := Host.Outcome.next.inj ended
    obtain ⟨arena, mem⟩ := written_of_received (t := settle (slotHandle c d s) d .success (receivedState c d data s)) g ready inRange
      (by simp) (by simp)
    obtain ⟨ends, others, -, -, -, -, -, -, -, identities⟩ := rxAccept_settles g ready completes
    rw [if_pos completes] at ends
    obtain ⟨settled, slotSettled, word⟩ := ends
    have fits' : (BitVec.ofNat 16 data.length).toNat ≤ (slot c.toNat d s).size.toNat := (Nat.mod_le _ _).trans inRange
    exact actsOn_of_settled g sv busy counted fits' settled (sameButFlags_of_otherHalves others) identities slotSettled word
      (by decide) (by omega) arena mem
  next more =>
    obtain ⟨sends, -⟩ | ⟨-, rfl⟩ := arm_next ended
    · rw [receivedState_role, receives] at sends
      cases sends
    obtain ⟨arena, mem⟩ := written_of_received (t := armReceive (slotHandle c d s) d (receivedState c d data s)) g ready inRange
      (quiet_armReceive _ _ d).arena (quiet_armReceive _ _ d).mem
    obtain ⟨goes, others, -, -, -, -, -, -, -, identities⟩ := rxAccept_arms g ready more
    rw [if_neg more] at goes
    obtain ⟨flying, slotAfter, otherSlots, associations, evq⟩ := goes
    have becomes : SlotBecomes c.toNat d { slot c.toNat d s with cnt := BitVec.ofNat 16 (slotHalf c d s).mps.toNat } s
        (armReceive (slotHandle c d s) d (receivedState c d data s)) := ⟨slotAfter, otherSlots, associations⟩
    have positive := mps_pos_of_good g ready
    refine actsOn_of_flying g sv busy counted (Nat.zero_le _) ?_ flying others identities slotAfter otherSlots
      (associationsAfter_of_becomes becomes rfl) evq arena (fun same => ?_) mem
    rotate_left
    · rw [RxCompletes, wanted, not_or] at more
      obtain ⟨notShort, notLast⟩ := more
      have none := done_progressed same le
      rw [wanted] at none
      omega
    have small := (slotHalf c d s).mps.isLt
    rw [receives, BitVec.toNat_ofNat, Nat.mod_eq_of_lt (by omega)]
    rfl

theorem linkRxData_acts {pid : Bool} {n : BitVec 11} (g : Good s) (next : exec (.linkRxData c d pid n data) s = .next t) :
    EventActs c d s t := by
  obtain ⟨⟨ready, receives, -, -⟩, received⟩ := linkRxData_next next
  have ok := halfOk_of_ready g ready
  have busy := busy_of_ready g ready
  have errs := ok.retry.2.1 busy
  have sv := serves_of_good g ready
  unfold receivePacket at received
  split at received
  next long =>
    obtain rfl := Host.Outcome.next.inj received
    cases role : s.role with
    | host =>
      exact errorAfter_acts g role ready (xErr_errorAfter sv (err_succ_lt_of_good g ready busy)) (by simp) (by simp)
    | device =>
      have counted : Counted s.cfg s.role (slotHalf c d s) (slotHalf c d s) :=
        ⟨⟨_, _, _, _, _, rfl⟩, ok.done_le, ok.retry.1, ok.retry.2.2⟩
      exact onlyHalf_acts g ready counted errs rfl
        ⟨rfl, fun _ _ _ => rfl, rfl, rfl, fun _ => rfl, fun _ => rfl, ⟨rfl, rfl⟩, by simp [SameControls], fun _ => ⟨rfl, rfl, rfl⟩⟩ rfl rfl
  split at received
  next fits wrongPid =>
    obtain rfl := Host.Outcome.next.inj received
    have counted : Counted s.cfg s.role (slotHalf c d s) { slotHalf c d s with nak := 0, err := 0 } :=
      ⟨⟨_, _, _, _, _, rfl⟩, ok.done_le, Nat.zero_le _, fun _ => ⟨rfl, rfl⟩⟩
    exact onlyHalf_acts g ready counted (Nat.zero_le _) rfl (modHalf_onlyHalf (fun x => { x with nak := 0, err := 0 }) sv.entry_lt)
      (by simp) (by simp)
  next fits pidOk => exact acceptPacket_acts g ready receives (Nat.not_lt.1 fits) received

theorem linkSetupRx_acts {n : BitVec 11} (g : Good s) (next : exec (.linkSetupRx c d n data) s = .next t) :
    EventActs c d s t := by
  obtain ⟨rfl, rfl, r, accepted⟩ := linkSetupRx_next next
  obtain ⟨ready, device, setup, len⟩ := id r
  have sv := serves_of_good g ready
  have ok := halfOk_of_ready g ready
  have busy := busy_of_ready g ready
  obtain ⟨ctrl, -, total⟩ := ok.setup busy setup
  have isOpen := ok.isOpen_of_busy busy
  have eight := ok.count_le_size (arenaGran_pos g.shape.1) (ok.bound_of_busy busy) ((ok.sizes isOpen).2.2 ctrl)
  rw [acceptSetup_eq r] at accepted
  obtain rfl := Host.Outcome.next.inj (whenAdmitted_next.1 accepted).2
  obtain ⟨settled, other, others, slotSettled, word, -, -, -, -, -, -, -, identities⟩ := setupRx_settles g r
  have counted : Counted s.cfg s.role (slotHalf c .out s) { slotHalf c .out s with done := 8, nak := 0, err := 0, toggle := true } :=
    ⟨⟨_, _, _, _, _, rfl⟩, by rw [total], Nat.zero_le _, fun _ => ⟨rfl, rfl⟩⟩
  refine actsOn_of_settled g sv busy counted (k := 8) eight ?_ (fun h' d' ne => ?_) identities slotSettled word (by decide)
    (by decide) ⟨data, by rw [len]; exact eight, by simp [storePacket]⟩
    ⟨(slotHalf c .out s).buf.toNat, data, le_rfl, ?_, by simp [storePacket]⟩
  · rw [settled, device]
    rfl
  · exact sameButFlags_of_setup g ctrl isOpen others ⟨_, _, other⟩ h' d' ne
  · have totalEight : (slotHalf c .out s).total.toNat = 8 := congrArg BitVec.toNat total
    exact Nat.add_le_add_left (by rw [len]; exact totalEight.ge) _

end

/-! ### All of them -/

/-- The slot that a link event names, if it is an event of one slot (R123, R125). -/
def slotEvent : Instr → Option (BitVec 4 × Dir)
  | .linkTxAck c d | .linkRxData c d _ _ _ | .linkSetupRx c d _ _ | .linkNak c d | .linkStall c d | .linkXerr c d => some (c, d)
  | _ => none

section
variable {s t : State} {i : Instr} {c : BitVec 4} {d : Dir}

theorem slotEvent_ready (named : slotEvent i = some (c, d)) (next : exec i s = .next t) : SlotReady c d s := by
  cases i with
  | linkTxAck c' d' =>
    cases named
    exact (linkTxAck_next next).1
  | linkRxData c' d' pid n data =>
    cases named
    exact (linkRxData_next next).1.1
  | linkSetupRx c' d' n data =>
    cases named
    obtain ⟨rfl, -, ready, -⟩ := linkSetupRx_next next
    exact ready.1
  | linkNak c' d' =>
    cases named
    exact (linkNak_next next).1.2.1
  | linkStall c' d' =>
    cases named
    exact (linkStall_next next).1.2.1
  | linkXerr c' d' =>
    cases named
    exact (linkXerr_next next).1.2.1
  | _ => cases named

theorem slotEvent_acts (g : Good s) (named : slotEvent i = some (c, d)) (next : exec i s = .next t) : EventActs c d s t := by
  cases i with
  | linkTxAck c' d' =>
    cases named
    exact linkTxAck_acts g next
  | linkRxData c' d' pid n data =>
    cases named
    exact linkRxData_acts g next
  | linkSetupRx c' d' n data =>
    cases named
    exact linkSetupRx_acts g next
  | linkNak c' d' =>
    cases named
    exact linkNak_acts g next
  | linkStall c' d' =>
    cases named
    exact linkStall_acts g next
  | linkXerr c' d' =>
    cases named
    exact linkXerr_acts g next
  | _ => cases named

end

end Sys2Proof.Machine
end

