-- ==== Sys2Proof/Proofs/GoodEvents.lean ====
section
/-! SUPPORT. Every link event keeps the good states: the events of one slot act on it alone; the frame boundary (R257) and a bus reset
(R290) act on the whole registry; the bus reports (R292 to R294) push at most one word. -/

namespace Sys2Proof.Machine

open Sys2Proof.Safety Sys2Proof.Claims

section
variable {s t : State}

/-- An event of one slot keeps the good states: the slot's conditions leave room for its word (R125). -/
theorem good_of_eventActs {c : BitVec 4} {d : Dir} (g : Good s) (ready : SlotReady c d s) (kept : Kept s t)
    (acts : EventActs c d s t) : Good t := by
  have sv := serves_of_good g ready
  obtain ⟨hc, bound, -, init, room⟩ := id ready
  have ok := halfOk_of_ready g ready
  have busy := busy_of_ready g ready
  obtain ⟨ws, evq, few, -⟩ := acts.events
  exact good_of_actsOn g init sv kept.frame
    (memories_of_written g.memories kept.controls.1 ((wired_of_good g).inArena _ d bound).2 (ok.buffer busy) acts.arena acts.mem)
    (by rw [evq, List.length_append]; omega) acts

/-! ### The frame boundary (R257) -/

/-- What the frame boundary makes of a half keeps what a good state says of it, with its slot valid again if it waited. -/
theorem HalfOk.framed {cfg : Config} {d : Dir} {x : Half} {y : Slot} (ok : HalfOk cfg .host d x y) :
    HalfOk cfg .host d (framed x) (if x.xs = .wait then { y with valid := true } else y) := by
  by_cases serviced : Serviced x
  · rw [framed_of_serviced serviced]
    have isOpen := serviced.1
    obtain ⟨done_le, slotSize, inflight, wait, idle, host, -, -, sizes, setup, armed, buffer, errs, errs', -⟩ := ok
    cases xs : x.xs with
    | wait =>
      have busy : x.xs ≠ .idle := by simp [xs]
      have bound := (wait xs).2.2.1
      exact ⟨done_le, slotSize, ⟨fun _ => ⟨bound, rfl⟩, fun _ => rfl⟩, nofun, nofun, fun _ => ⟨fun _ => nofun, fun _ => bound⟩, nofun,
        fun no => (by simp [nakCleared, isOpen] at no), sizes, fun _ => setup busy, fun _ => armed busy, fun _ => buffer busy,
        ⟨errs, fun _ => errs' busy, nofun⟩⟩
    | idle | inflight =>
      rw [xs] at inflight wait idle host setup armed buffer errs'
      exact ⟨done_le, slotSize, inflight, nofun, idle, host, nofun, fun no => (by simp [nakCleared, isOpen] at no), sizes, setup, armed,
        buffer, ⟨errs, errs', nofun⟩⟩
  · have notWait : x.xs ≠ .wait := by
      intro waits
      exact serviced ⟨ok.isOpen_of_busy (by simp [waits]), (ok.wait waits).2.1⟩
    rwa [framed_of_not_serviced serviced, if_neg notWait]

theorem framed_binding (x : Half) : (framed x).bound = x.bound ∧ (framed x).ch = x.ch ∧ (framed x).isOpen = x.isOpen ∧
    (framed x).type = x.type := by
  rw [framed]
  split <;> exact ⟨rfl, rfl, rfl, rfl⟩

theorem good_frameService (g : Good s) (init : s.initDone = true) : Good (frameService s) := by
  have w := wired_of_good g
  cases role : s.role with
  | device => rwa [frameService_of_device role]
  | host =>
    have quiet := quiet_frameService s
    obtain ⟨halves, slots, associations⟩ := frameService_host g role
    obtain ⟨identities, evq⟩ := frameService_keeps s
    have slotFields (c d) : (slot c d (frameService s)).bound = (slot c d s).bound ∧
        (slot c d (frameService s)).ep = (slot c d s).ep ∧ (slot c d (frameService s)).off = (slot c d s).off ∧
        (slot c d (frameService s)).size = (slot c d s).size := by
      rw [slots]
      split <;> exact ⟨rfl, rfl, rfl, rfl⟩
    have halfFields (h d) := framed_binding (half h d s)
    refine good_of_shrinks g init quiet.kept.frame (memories_of_quiet quiet g.memories) (evq ▸ g.inv7)
      (shrinks_of_same w quiet.kept.controls.1 slotFields (fun h d => ?_) fun c => ?_) (fun h d _ => ?_) (fun h d => ?_)
      (fun c d valid => ?_) ((registry_of_good g).congr identities fun h d => ?_)
    · rw [halves]
      exact ⟨(halfFields h d).1, (halfFields h d).2.1⟩
    · have same : fullyFree c (frameService s) = fullyFree c s := by
        rw [fullyFree, fullyFree, (slotFields c .out).1, (slotFields c .inn).1]
      rw [same, (associations c).1, (associations c).2]
      simp
    · exact Prod.ext (identities h).2.1 (identities h).2.2
    · have ok : HalfOk s.cfg .host d (half h d s) (slot (half h d s).ch.toNat d s) := role ▸ halfOk_of_good g h d
      rw [role, halves, (halfFields h d).2.1]
      refine ok.framed.slot_congr fun bound => ?_
      rw [(halfFields h d).1] at bound
      obtain ⟨slotBound, ep⟩ := (w.linked _ h d).2 ⟨bound, rfl⟩
      rw [slots, ep]
      simp only [slotBound, true_and]
    · rw [(slotFields c d).1]
      rw [slots] at valid
      split at valid
      next waits => exact waits.1
      · exact valid_of_good g c d valid
    · rw [halves]
      exact ⟨(halfFields h d).2.2.1, (halfFields h d).2.2.2⟩

/-! ### Halves closed (R155, R159, R290) -/

/-- Closing keeps the registry's facts where both halves of a control endpoint go together (R154). -/
theorem registry_of_closed {sel : Nat → Dir → Bool} (g : Good s) (closed : HalvesClosed sel s t)
    (pairs : ∀ h d, sel h d = true → (half h d s).isOpen = true → (half h d s).type = .ctrl → sel h (otherDir d) = true) :
    Registry t := by
  have reg := registry_of_good g
  have twice (d : Dir) : otherDir (otherDir d) = d := by cases d <;> rfl
  have stillUsed {h} (used : (entry h t).used = true) : (entry h s).used = true ∧ identityOf t h = identityOf s h := by
    have kept : (∀ d, sel h d = false) ∨ ∃ d, (half h d t).isOpen = true := by
      by_contra none
      rw [not_or] at none
      obtain ⟨some, noneOpen⟩ := none
      have chosen : ∃ d, sel h d = true := by
        by_contra no
        exact some fun d => by simpa using fun e => no ⟨d, e⟩
      rw [closed.freed h chosen fun d => by simpa using fun e => noneOpen ⟨d, e⟩] at used
      cases used
    obtain ⟨same, dev, num⟩ := closed.kept h kept
    exact ⟨same ▸ used, Prod.ext dev num⟩
  refine ⟨fun h => ?used, fun h d => ?pair, fun h h' used used' same => ?unique⟩
  case used =>
    by_cases some : ∃ d, (half h d t).isOpen = true
    · obtain ⟨d, isOpen⟩ := some
      have wasOpen : (half h d s).isOpen = true := by
        rw [closed.halves] at isOpen
        split at isOpen
        · cases isOpen
        · exact isOpen
      rw [(closed.kept h (.inr ⟨d, isOpen⟩)).1]
      refine iff_of_true ((reg.used h).2 ?_) ?_
      · cases d
        exacts [.inl wasOpen, .inr wasOpen]
      · cases d
        exacts [.inl isOpen, .inr isOpen]
    · have noneOpen : ¬ ((half h .out t).isOpen = true ∨ (half h .inn t).isOpen = true) := by
        rintro (out | inn)
        exacts [some ⟨.out, out⟩, some ⟨.inn, inn⟩]
      refine iff_of_false (fun used => ?_) noneOpen
      by_cases chosen : ∃ d, sel h d = true
      · rw [closed.freed h chosen fun d => by simpa using fun e => some ⟨d, e⟩] at used
        cases used
      · have none (d : Dir) : sel h d = false := by simpa using fun e => chosen ⟨d, e⟩
        have same (d : Dir) : half h d t = half h d s := by rw [closed.halves, none d]; rfl
        rw [same, same] at noneOpen
        exact noneOpen ((reg.used h).1 (stillUsed used).1)
  case pair =>
    intro ctrl
    rw [closed.halves] at ctrl ⊢
    rw [closed.halves]
    by_cases own : sel h d = true <;> by_cases other : sel h (otherDir d) = true
    · rw [if_pos own, if_pos other]
      simp [Half.closed]
    · rw [if_pos own, if_neg other]
      refine iff_of_false nofun fun both => ?_
      have back := ((reg.pair h (otherDir d) both.2).1 both.1)
      rw [twice] at back
      exact other (pairs h d own back.1 back.2)
    · rw [if_neg own] at ctrl ⊢
      rw [if_pos other]
      refine iff_of_false (fun isOpen => ?_) fun both => nomatch both.1
      obtain ⟨otherOpen, otherCtrl⟩ := (reg.pair h d ctrl).1 isOpen
      have back := pairs h (otherDir d) other otherOpen otherCtrl
      rw [twice] at back
      exact own back
    · rw [if_neg own] at ctrl ⊢
      rw [if_neg other]
      exact reg.pair h d ctrl
  case unique =>
    obtain ⟨was, ids⟩ := stillUsed used
    obtain ⟨was', ids'⟩ := stillUsed used'
    rw [ids, ids'] at same
    exact reg.unique h h' was was' same

theorem good_of_closed {sel : Nat → Dir → Bool} (g : Good s) (init : s.initDone = true) (closed : HalvesClosed sel s t)
    (pairs : ∀ h d, sel h d = true → (half h d s).isOpen = true → (half h d s).type = .ctrl → sel h (otherDir d) = true)
    (room : t.evq.length ≤ s.cfg.evqDepth) : Good t := by
  have w := wired_of_good g
  refine good_of_shrinks g init closed.quiet.kept.frame (memories_of_quiet closed.quiet g.memories) room (shrinks_of_halvesClosed w closed)
    (fun h d bound => ?identities) (fun h d => ?ok) (fun c d valid => ?valid) (registry_of_closed g closed pairs)
  case identities =>
    have same : half h d t = half h d s := by
      rw [closed.halves] at bound ⊢
      split at bound
      · cases bound
      next kept => exact if_neg kept
    have isOpen : (half h d t).isOpen = true := by
      rw [same] at bound ⊢
      by_contra notOpen
      rw [(halfOk_of_good g h d).closed (by simpa using notOpen)] at bound
      cases bound
    obtain ⟨-, dev, num⟩ := closed.kept h (.inr ⟨d, isOpen⟩)
    exact Prod.ext dev num
  case ok =>
    rw [closed.halves]
    split
    · exact halfOk_closed
    next kept =>
      refine (halfOk_of_good g h d).slot_congr fun bound => ?_
      obtain ⟨-, ep⟩ := (w.linked _ h d).2 ⟨bound, rfl⟩
      rw [closed.slots, if_neg]
      rw [ep, Bool.and_eq_true]
      exact fun e => kept e.2
  case valid =>
    rw [closed.slots] at valid ⊢
    split at valid
    · cases valid
    next kept =>
      rw [if_neg kept]
      exact valid_of_good g c d valid

/-- Closing the open halves of whole entries (R159, R290). -/
theorem good_of_closeWhere (g : Good s) (init : s.initDone = true) (p : Nat → Bool)
    (room : s.evq.length + (abortWords p s).length ≤ s.cfg.evqDepth) :
    Good (closeList (openHalvesWhere p (List.range s.cfg.epMax) s) s) := by
  obtain ⟨closed, words⟩ := closeWhere_closes (closable_of_good g) p
  refine good_of_closed g init closed (fun h d chosen isOpen ctrl => ?_) (by rwa [words, List.length_append])
  rw [inList, decide_eq_true_iff, mem_openHalvesWhere] at chosen ⊢
  obtain ⟨inside, sel, -⟩ := chosen
  exact ⟨inside, sel, (((registry_of_good g).pair h d ctrl).1 isOpen).1⟩

/-! ### Every link event -/

/-- A word pushed where its class has room (R282). -/
theorem good_pushIf {e : EventClass} {w : Word} (g : Good s) (room : RoomFor (e.bit - 1) s) : Good (pushIf e w s) := by
  have quiet := quiet_pushIf s e w
  obtain ⟨cfg, -, role, init, fatal, -⟩ := quiet.kept.controls
  refine good_of_tables g cfg role init fatal (by simp) (by simp) (memories_of_quiet quiet g.memories) ?_
  rw [pushIf_eq_reported, reported, List.length_append]
  split
  next enabled =>
    have := room enabled
    simp only [List.length_singleton]
    omega
  · exact g.inv7

/-- Every link event keeps the good states. -/
theorem good_of_link {i : Instr} (g : Good s) (event : isLink i = true) (next : exec i s = .next t) : Good t := by
  have kept := (link_kept event next).1
  cases i with
  | linkTxAck | linkRxData | linkSetupRx | linkNak | linkStall | linkXerr =>
    exact good_of_eventActs g (slotEvent_ready rfl next) kept (slotEvent_acts g rfl next)
  | linkFrame =>
    obtain ⟨⟨init, room⟩, rfl⟩ := linkFrame_next next
    obtain ⟨cfg, -, -, -, -, intEn, -⟩ := (quiet_frameService s).kept.controls
    refine good_pushIf (good_frameService g init) ?_
    rwa [RoomFor, (frameService_keeps s).2, cfg, intEn]
  | linkBusReset =>
    obtain ⟨⟨init, -, room⟩, rfl⟩ := linkBusReset_next next
    have cl := closable_of_good g
    obtain ⟨closed, words⟩ := closeWhere_closes cl (fun _ => true)
    rw [busResetPushes, List.length_append] at room
    have good := good_of_closeWhere g init (fun _ => true) (by omega)
    rw [← closeAll_eq_closeList cl] at good words closed
    obtain ⟨cfg, -, -, -, -, intEn, -⟩ := closed.quiet.kept.controls
    refine good_pushIf good fun enabled => ?_
    rw [intEn] at enabled
    rw [show s.intEn.getLsbD 0 = true from enabled] at room
    rw [words, cfg, List.length_append]
    simp only [if_true, List.length_singleton] at room
    omega
  | linkAttach speed =>
    obtain ⟨-, room, rfl⟩ := linkAttach_next next
    exact good_pushIf g room
  | linkDetach =>
    obtain ⟨-, room, rfl⟩ := linkDetach_next next
    exact good_pushIf g room
  | linkSuspend =>
    obtain ⟨room, rfl⟩ := linkSuspend_next next
    exact good_pushIf g room
  | linkResume =>
    obtain ⟨room, rfl⟩ := linkResume_next next
    exact good_pushIf g room
  | linkReserved0 | linkReservedD | linkReservedE | linkReservedF => cases next
  | _ => cases event

end

end Sys2Proof.Machine
end

