-- ==== Sys2Proof/Proofs/Reservations.lean ====
section
/-! SUPPORT. Slots reserved for halves of an entry (R153, R170, R171, R173, R202), one after the other: EP_OPEN of the device role
reserves them for the halves it opens, XFER_SUBMIT of the host role for the half it starts. -/

namespace Sys2Proof.Machine

open Sys2Proof.Safety Sys2Proof.Claims

/-- The halves `ds` of entry `h` have slots of `n` bytes, not valid; the halves and the bound slots of before are otherwise as they
were. -/
structure Reserved (ids : Nat → BitVec 7 × BitVec 4) (h n : Nat) (ds : List Dir) (s u : State) : Prop where
  quiet : Quiet s u
  identities : SameIdentities s u
  evq : u.evq = s.evq
  wired : Wired ids u
  otherHalves : OtherHalves h ds s u
  half : ∀ d ∈ ds, half h d u = { half h d s with bound := true, ch := (half h d u).ch }
  slot : ∀ d ∈ ds, (slot (Machine.half h d u).ch.toNat d u).size.toNat = n ∧
    (slot (Machine.half h d u).ch.toNat d u).cnt.toNat ≤ n ∧ (slot (Machine.half h d u).ch.toNat d u).valid = false
  kept : ∀ c d, (Machine.slot c d s).bound = true → Machine.slot c d u = Machine.slot c d s
  valid : ∀ c d, (Machine.slot c d u).valid = true → (Machine.slot c d s).valid = true

section
variable {s u v : State} {ids : Nat → BitVec 7 × BitVec 4} {h n c o : Nat} {d : Dir} {ds : List Dir} {dev : BitVec 7}
  {num : BitVec 4}

theorem reserved_nil (w : Wired ids s) : Reserved ids h n [] s s :=
  ⟨.refl s, fun _ => ⟨rfl, rfl, rfl⟩, rfl, w, fun _ _ _ => rfl, nofun, nofun, fun _ _ _ => rfl, fun _ _ valid => valid⟩

/-- One half bound. -/
theorem reserved_bindSlot (w : Wired ids s) (can : CanBind c h o n d s) (own : (dev, num) = ids h) :
    Reserved ids h n [d] s (bindSlot c d h dev num o n s) := by
  have bound := half_bindSlot_self (c := c) (d := d) (o := o) (size := n) (dev := dev) (num := num) can.entry_lt
  have ownSlot := slot_bindSlot_self (d := d) (h := h) (o := o) (size := n) (dev := dev) (num := num) can.chan_lt
  have channel : (boundTo c (half h d s)).ch.toNat = c := by
    rw [boundTo, BitVec.toNat_ofNat, Nat.mod_eq_of_lt can.channel_lt]
  refine ⟨quiet_bindSlot s c d h dev num o n, bindSlot_sameIdentities, rfl, w.bindSlot can own,
    bindSlot_otherHalves List.mem_cons_self, fun d' hd => ?_, fun d' hd => ?_, fun c' d' isBound => ?_, fun c' d' isValid => ?_⟩
  · obtain rfl := List.mem_singleton.1 hd
    rw [bound]
    rfl
  · obtain rfl := List.mem_singleton.1 hd
    rw [bound, channel, ownSlot]
    exact ⟨can.sizeFits, Nat.zero_le _, rfl⟩
  · rw [slot_bindSlot, if_neg]
    rintro ⟨rfl, rfl, -⟩
    rw [can.free] at isBound
    cases isBound
  · rw [slot_bindSlot] at isValid
    split at isValid
    · cases isValid
    · exact isValid

/-- A reservation, and then one more for other halves of the entry. -/
theorem reserved_cons (a : Reserved ids h n [d] s u) (b : Reserved ids h n ds u v) (new : d ∉ ds) :
    Reserved ids h n (d :: ds) s v := by
  have keptHalf : half h d v = half h d u := b.otherHalves h d fun e => new e.2
  have keptSlot : slot (half h d u).ch.toNat d v = slot (half h d u).ch.toNat d u := by
    refine b.kept _ d ((a.wired.linked _ h d).2 ⟨?_, rfl⟩).1
    rw [a.half d List.mem_cons_self]
  refine ⟨a.quiet.trans b.quiet, sameIdentities_trans a.identities b.identities, b.evq.trans a.evq, b.wired, fun h' d' ne => ?_,
    fun d' hd => ?_, fun d' hd => ?_, fun c' d' isBound => ?_, fun c' d' isValid => a.valid c' d' (b.valid c' d' isValid)⟩
  · rw [b.otherHalves h' d' fun e => ne ⟨e.1, List.mem_cons_of_mem _ e.2⟩]
    exact a.otherHalves h' d' fun e => ne ⟨e.1, List.mem_cons.2 (.inl (List.mem_singleton.1 e.2))⟩
  · obtain rfl | later := List.mem_cons.1 hd
    · rw [keptHalf]
      exact a.half d' List.mem_cons_self
    · have first : half h d' u = half h d' s :=
        a.otherHalves h d' fun e => new (by rw [← List.mem_singleton.1 e.2]; exact later)
      rw [← first]
      exact b.half d' later
  · obtain rfl | later := List.mem_cons.1 hd
    · rw [keptHalf, keptSlot]
      exact a.slot d' List.mem_cons_self
    · exact b.slot d' later
  · have same := a.kept c' d' isBound
    rw [← same]
    exact b.kept c' d' (by rwa [same])

/-- Reserve binds the halves of its list, one after the other (R153). -/
theorem reserved_of_reserve {m : Nat} (w : Wired ids s) (shape : Shape s) (hh : h < s.eps.length) (own : (dev, num) = ids h)
    (distinct : ds.Nodup) (notBound : ∀ d ∈ ds, (half h d s).bound = false) (e : reserve h dev num m ds s = .ok v) :
    Reserved ids h (roundup m s.cfg.arenaGran) ds s v := by
  induction ds generalizing s with
  | nil =>
    cases e
    exact reserved_nil w
  | cons d ds ih =>
    obtain ⟨new, distinct⟩ := List.nodup_cons.1 distinct
    simp only [reserve] at e
    split at e
    · cases e
    next u bound =>
      obtain ⟨c, o, acquired, found, rfl⟩ := reserveHalf_ok bound
      have can := w.canBind shape hh (notBound d List.mem_cons_self) acquired found
      have first := reserved_bindSlot w can own
      have kept := first.quiet.kept
      have rest := ih first.wired (shape_of_frame kept.frame shape) (by rwa [kept.sizes.1]) distinct (fun d' hd => by
        rw [first.otherHalves h d' fun e => new (by rw [← List.mem_singleton.1 e.2]; exact hd)]
        exact notBound d' (List.mem_cons_of_mem _ hd)) e
      rw [kept.controls.1] at rest
      exact reserved_cons first rest new

/-- A half that has its slot and no transfer in flight (R174). -/
theorem reserved_of_bound (g : Good s) (bound : (half h d s).bound = true) (idle : (half h d s).xs = .idle) :
    Reserved (identityOf s) h (roundup (half h d s).mps.toNat s.cfg.arenaGran) [d] s s := by
  have ok := halfOk_of_good g h d
  obtain ⟨fits, size⟩ := ok.slotSize bound
  refine ⟨.refl s, fun _ => ⟨rfl, rfl, rfl⟩, rfl, wired_of_good g, fun _ _ _ => rfl, fun d' hd => ?_, fun d' hd => ?_,
    fun _ _ _ => rfl, fun _ _ valid => valid⟩
  · obtain rfl := List.mem_singleton.1 hd
    rw [← bound]
  · obtain rfl := List.mem_singleton.1 hd
    exact ⟨size, size ▸ fits, ok.idle idle bound⟩

end

end Sys2Proof.Machine
end

