-- ==== Sys2Proof/Proofs/GoodCommands.lean ====
section
/-! SUPPORT. Every command keeps the good states: XFER_SUBMIT starts a transfer on a reserved slot (R201, R202), EP_OPEN opens halves,
in the device role with reserved slots (R151 to R153); the others change flags, settle or close (R154 to R159, R206). -/

namespace Sys2Proof.Machine

open Sys2Proof.Safety Sys2Proof.Claims

/-! ### XFER_SUBMIT -/

section
variable {s t u : State} {setup zlp : Bool} {len : BitVec 16} {dir : Dir} {h n : Nat} {ids : Nat → BitVec 7 × BitVec 4}

theorem serves_of_reserved (r : Reserved ids h n [dir] s u) (hh : h < s.eps.length) :
    Serves (half h dir u).ch.toNat h dir u ∧ (half h dir u).bound = true := by
  have bound : (half h dir u).bound = true := by rw [r.half dir List.mem_cons_self]
  obtain ⟨slotBound, ep⟩ := (r.wired.linked _ h dir).2 ⟨bound, rfl⟩
  exact ⟨⟨lt_length_of_slot_bound slotBound, by rwa [r.quiet.kept.sizes.1], slotBound, ep, rfl⟩, bound⟩

/-- The slot a submit starts on: reserved at EP_OPEN in the device role, reserved now in the host role (R174, R202). -/
theorem reserved_of_startHost (g : Good s) (ok : SubmitOk setup zlp len dir h s) (started : startHost h dir s = .ok u) :
    Reserved (identityOf s) h (roundup (half h dir s).mps.toNat s.cfg.arenaGran) [dir] s u := by
  obtain ⟨-, handle, idle, -⟩ := ok
  have hh := lt_length_of_used (handleOk_iff.1 handle).2.1
  cases role : s.role with
  | device =>
    rw [startHost_of_device role] at started
    cases started
    exact reserved_of_bound g (bound_of_open_device g role handle) idle
  | host =>
    rw [startHost, if_pos role] at started
    obtain ⟨c, o, acquired, found, rfl⟩ := reserveHalf_ok started
    have w := wired_of_good g
    have notBound : (half h dir s).bound = false := by
      rw [← Bool.not_eq_true, (halfOk_of_good g h dir).host role]
      exact fun busy => busy idle
    exact reserved_bindSlot w (w.canBind g.shape hh notBound acquired found) rfl

/-- What an XFER_SUBMIT that answers has done (R201 to R203, R210). -/
theorem submit_next {z : BitVec 1} {handle : BitVec 8} (g : Good s)
    (next : exec (.xferSubmit setup zlp len z dir handle) s = .next t) :
    Rejected s t ∨ (SubmitOk setup zlp len dir handle.toNat s ∧
      ∃ u, Reserved (identityOf s) handle.toNat (roundup (half handle.toNat dir s).mps.toNat s.cfg.arenaGran) [dir] s u ∧
        Started setup zlp len dir (half handle.toNat dir u).ch.toNat handle.toNat u t) := by
  refine (xferSubmit_accepts s setup zlp len z dir handle t next).imp_right ?_
  rintro ⟨ok, u, v, started, armed, rfl⟩
  have hh := lt_length_of_used (handleOk_iff.1 ok.2.1).2.1
  have reserved := reserved_of_startHost g ok started
  obtain ⟨sv, bound⟩ := serves_of_reserved reserved hh
  have arenaWf : Memory.wf u.arena := reserved.quiet.arena ▸ g.memories.1
  exact ⟨ok, u, reserved, started_of_armed sv bound arenaWf (armed_of_arm_next (serves_loaded sv) armed)⟩

/-- The first packet's count is at most the slot's size (R49, R210). -/
theorem firstCount_le_mps (len : BitVec 16) (dir : Dir) (h : Nat) (s : State) : firstCount len dir h s ≤ (half h dir s).mps.toNat := by
  rw [firstCount]
  split
  · exact min_le_left _ _
  · exact le_rfl

theorem toNat_firstCount (len : BitVec 16) (dir : Dir) (h : Nat) (s : State) :
    (BitVec.ofNat 16 (firstCount len dir h s)).toNat = firstCount len dir h s := by
  have le := firstCount_le_mps len dir h s
  have lt := (half h dir s).mps.isLt
  rw [BitVec.toNat_ofNat, Nat.mod_eq_of_lt (by omega)]

/-- The half of an accepted submit, with its first packet armed (R201, R210). -/
theorem halfOk_submitted {ch : BitVec 4} {y : Slot} (g : Good s) (ok : SubmitOk setup zlp len dir h s)
    (size : y.size.toNat = roundup (half h dir s).mps.toNat s.cfg.arenaGran) :
    HalfOk s.cfg s.role dir (submittedHalf setup zlp len s.arg0 ch (half h dir s))
      { y with cnt := BitVec.ofNat 16 (firstCount len dir h s), valid := true } := by
  obtain ⟨-, handle, -, misuse, -, top, -⟩ := ok
  have isOpen := (handleOk_iff.1 handle).2.2
  have sizes := (halfOk_of_good g h dir).sizes isOpen
  have count := toNat_firstCount len dir h s
  have fits : firstCount len dir h s ≤ y.size.toNat := by
    rw [size]
    exact (firstCount_le_mps len dir h s).trans (le_roundup _ (arenaGran_pos g.shape.1))
  refine ⟨Nat.zero_le _, fun _ => ⟨count.trans_le fits, size⟩, ⟨fun _ => ⟨rfl, rfl⟩, fun _ => rfl⟩, nofun, nofun,
    fun _ => ⟨fun _ => nofun, fun _ => rfl⟩, fun _ => ⟨fun _ => isOpen, fun _ => rfl⟩,
    fun no => (by simp [submittedHalf, isOpen] at no), fun _ => sizes, fun _ isSetup => ?setup, fun _ => count, fun _ some => ?buffer,
    ⟨Nat.zero_le _, fun _ => Nat.zero_le _, fun _ => ⟨rfl, rfl⟩⟩⟩
  case setup =>
    obtain ⟨ctrl, isOut, eight, -⟩ := misuse isSetup
    exact ⟨ctrl, isOut, BitVec.eq_of_toNat_eq eight⟩
  case buffer =>
    refine top.resolve_left fun zero => some (BitVec.eq_of_toNat_eq zero)

/-- The other halves keep their transfer; a SETUP clears the halt of the control endpoint's other half (R203). -/
theorem sameButFlags_of_submitted (g : Good s) (ok : SubmitOk setup zlp len dir h s) (r : Reserved ids h n [dir] s u)
    {o : Nat} (frame : SubmitFrame setup len dir h o u t) (h' : Nat) (d' : Dir) (ne : ¬ (h' = h ∧ d' = dir)) :
    SameButFlags (half h' d' s) (half h' d' t) := by
  obtain ⟨-, handle, -, misuse, -⟩ := ok
  obtain ⟨other, others, -⟩ := frame
  have before := r.otherHalves h' d' fun e => ne ⟨e.1, List.mem_singleton.1 e.2⟩
  by_cases here : h' = h
  · subst here
    obtain rfl | rfl := eq_or_otherDir dir d'
    · exact absurd ⟨rfl, rfl⟩ ne
    · rw [other, before]
      cases setup with
      | false => exact .inl rfl
      | true =>
        obtain ⟨ctrl, -⟩ := misuse rfl
        have isOpen := (((registry_of_good g).pair h' dir ctrl).1 (handleOk_iff.1 handle).2.2).1
        exact .inr ⟨isOpen, false, _, rfl⟩
  · exact .inl ((others h' d' fun e => here e.1).trans before)

/-- A loaded first packet lies in its slot's range (R210). -/
theorem arenaWritten_of_started {c : Nat} (g : Good s) (r : Reserved ids h (roundup (half h dir s).mps.toNat s.cfg.arenaGran) [dir] s u)
    (hc : (half h dir u).ch.toNat = c) (started : Started setup zlp len dir c h u t) : ArenaWritten (slot c dir u) s t := by
  obtain ⟨size, -⟩ := r.slot dir List.mem_cons_self
  have arena := started.arena
  split at arena
  · refine ⟨_, ?_, r.quiet.arena ▸ arena⟩
    have le := firstCount_le_mps len dir h u
    rw [r.half dir List.mem_cons_self] at le
    rw [Memory.length_readBytes, ← hc, size]
    exact le.trans (le_roundup _ (arenaGran_pos g.shape.1))
  · exact arenaWritten_of_same (arena.trans r.quiet.arena)

/-- A submit keeps the good states. -/
theorem good_of_started (g : Good s) (ok : SubmitOk setup zlp len dir h s)
    (r : Reserved (identityOf s) h (roundup (half h dir s).mps.toNat s.cfg.arenaGran) [dir] s u)
    (started : Started setup zlp len dir (half h dir u).ch.toNat h u t) (frame : SameFrame s t) (mem : t.mem = s.mem) : Good t := by
  have hh := lt_length_of_used (handleOk_iff.1 ok.2.1).2.1
  obtain ⟨sv, bound⟩ := serves_of_reserved r hh
  have flags := sameButFlags_of_submitted g ok r started.frame
  have written := arenaWritten_of_started g r rfl started
  obtain ⟨size, -⟩ := r.slot dir List.mem_cons_self
  obtain ⟨-, halfAfter, becomes, ⟨-, -, identities, evq, -⟩, -⟩ := started
  obtain ⟨slotAfter, otherSlots, associations⟩ := id becomes
  obtain ⟨-, -, -, -, -, -, -, arg0, -⟩ := r.quiet.kept.controls
  have own : half h dir t = submittedHalf setup zlp len s.arg0 (half h dir u).ch (half h dir s) := by
    rw [halfAfter, arg0, r.half dir List.mem_cons_self]
    rfl
  have sameIds : SameIdentities s t := sameIdentities_trans r.identities identities
  have slots (c d) (other : ¬ (c = (half h dir u).ch.toNat ∧ d = dir)) : slot c d t = slot c d u :=
    otherSlots c d fun e => other ⟨e.1, List.mem_singleton.1 e.2⟩
  have slotFields (c d) : (slot c d t).bound = (slot c d u).bound ∧ (slot c d t).ep = (slot c d u).ep ∧
      (slot c d t).off = (slot c d u).off ∧ (slot c d t).size = (slot c d u).size := by
    by_cases here : c = (half h dir u).ch.toNat ∧ d = dir
    · obtain ⟨rfl, rfl⟩ := here
      rw [slotAfter]
      exact ⟨rfl, rfl, rfl, rfl⟩
    · rw [slots c d here]
      exact ⟨rfl, rfl, rfl, rfl⟩
  have halfFields (h' d) : (half h' d t).bound = (half h' d u).bound ∧ (half h' d t).ch = (half h' d u).ch := by
    by_cases here : h' = h ∧ d = dir
    · obtain ⟨rfl, rfl⟩ := here
      rw [own]
      exact ⟨bound.symm, rfl⟩
    · rw [r.otherHalves h' d fun e => here ⟨e.1, List.mem_singleton.1 e.2⟩]
      exact (flags h' d here).bound
  have cfg : t.cfg = u.cfg := frame.1.1.trans r.quiet.kept.controls.1.symm
  have wired : Wired (identityOf s) t :=
    r.wired.shrinks (shrinks_of_same r.wired cfg slotFields halfFields (associationsAfter_of_becomes becomes rfl))
  have keptSlot {c d} (isBound : (slot c d s).bound = true) (other : ¬ (c = (half h dir u).ch.toNat ∧ d = dir)) :
      slot c d t = slot c d s := (slots c d other).trans (r.kept c d isBound)
  refine good_of_frame g ok.1 frame ?memories ?room (identityOf_of_same sameIds ▸ wired) (fun h' d => ?halves) (fun c d isValid => ?valid)
    ((registry_of_good g).congr sameIds fun h' d => ?registry)
  case memories =>
    have inArena := r.wired.inArena _ dir sv.bound
    rw [InArena, r.quiet.kept.controls.1] at inArena
    exact memories_of_written (x := Half.closed) g.memories frame.1.1 inArena.2 (fun some => absurd rfl some) written
      (memWritten_of_same mem)
  case room =>
    rw [evq, r.evq]
    exact g.inv7
  case halves =>
    by_cases here : h' = h ∧ d = dir
    · obtain ⟨rfl, rfl⟩ := here
      have count : firstCount len d h' u = firstCount len d h' s := by
        rw [firstCount, firstCount, r.quiet.kept.controls.2.2.1, r.half d List.mem_cons_self]
      rw [own, submittedHalf]
      simp only
      rw [slotAfter, count]
      exact halfOk_submitted g ok size
    · refine ((halfOk_of_good g h' d).sameButFlags (flags h' d here)).slot_congr fun isBound => ?_
      obtain ⟨sameBound, ch⟩ := (flags h' d here).bound
      rw [sameBound] at isBound
      rw [ch]
      obtain ⟨slotBound, ep⟩ := ((wired_of_good g).linked _ h' d).2 ⟨isBound, rfl⟩
      refine keptSlot slotBound ?_
      rintro ⟨e, rfl⟩
      have epU : (slot (half h' d s).ch.toNat d u).ep.toNat = h := by rw [e]; exact sv.ep
      rw [r.kept _ d slotBound, ep] at epU
      exact here ⟨epU, rfl⟩
  case valid =>
    rw [(slotFields c d).1]
    by_cases here : c = (half h dir u).ch.toNat ∧ d = dir
    · obtain ⟨rfl, rfl⟩ := here
      exact sv.bound
    · rw [slots c d here] at isValid
      have isBound := valid_of_good g c d (r.valid c d isValid)
      rw [r.kept c d isBound]
      exact isBound
  case registry =>
    by_cases here : h' = h ∧ d = dir
    · obtain ⟨rfl, rfl⟩ := here
      rw [own]
      exact ⟨rfl, rfl⟩
    · exact (flags h' d here).isOpen

end

end Sys2Proof.Machine
end

