-- ==== Sys2Proof/Proofs/GoodOpening.lean ====
section
/-! SUPPORT. EP_OPEN keeps the good states (R151 to R153): the entry is new or joined, its halves open, in the device role with the
slots reserved for them. -/

namespace Sys2Proof.Machine

open Sys2Proof.Safety Sys2Proof.Claims

section
variable {s u : State} {type : XferType} {mps : BitVec 11} {dev : BitVec 7} {dir : Dir} {num : BitVec 4} {h n : Nat}

/-- A freshly opened half, with a slot in the device role only (R151, R174). -/
theorem halfOk_opened {cfg : Config} {r : Role} {d : Dir} {b : Bool} {ch : BitVec 4} {y : Slot} (sizes : SizesOk type mps)
    (device : b = true ↔ r = .device) (fits : b = true → y.cnt.toNat ≤ y.size.toNat ∧ y.size.toNat = roundup mps.toNat cfg.arenaGran)
    (notValid : b = true → y.valid = false) : HalfOk cfg r d (openHalf type mps b ch) y where
  done_le := le_rfl
  slotSize := fits
  inflight := ⟨nofun, fun e => (by rw [notValid e.1] at e; cases e.2)⟩
  wait := nofun
  idle _ := notValid
  host role := ⟨fun bound => (by rw [device.1 bound] at role; cases role), fun busy => absurd rfl busy⟩
  device role := ⟨fun _ => rfl, fun _ => device.2 role⟩
  closed := nofun
  sizes _ := sizes
  setup busy := absurd rfl busy
  armed busy := absurd rfl busy
  buffer busy := absurd rfl busy
  retry := ⟨Nat.zero_le _, fun _ => Nat.zero_le _, fun _ => ⟨rfl, rfl⟩⟩

/-- A free entry has no open half (R54, INV8). -/
theorem not_isOpen_of_free (g : Good s) (free : (entry h s).used = false) (d : Dir) : (half h d s).isOpen = false := by
  by_contra isOpen
  rw [Bool.not_eq_false] at isOpen
  rw [((registry_of_good g).used h).2 (by cases d; exacts [.inl isOpen, .inr isOpen])] at free
  cases free

/-- The halves that EP_OPEN opens were not open (R152). -/
theorem not_isOpen_of_select (g : Good s) (select : Fresh h dev num s ∨ Joins h type dev dir num s) {d : Dir}
    (hd : d ∈ halvesOf type dir) : (half h d s).isOpen = false := by
  obtain ⟨-, free, -⟩ | ⟨-, -, notCtrl, closed, -⟩ := select
  · exact not_isOpen_of_free g free d
  · rw [halvesOf, if_neg notCtrl, List.mem_singleton] at hd
    rwa [hd]

/-- Of an entry that EP_OPEN selects, a bound half is of the same identity (R152). -/
theorem identityOf_of_select (g : Good s) (select : Fresh h dev num s ∨ Joins h type dev dir num s) {d : Dir}
    (bound : (half h d s).bound = true) : identityOf s h = (dev, num) := by
  obtain ⟨-, free, -⟩ | ⟨-, ⟨-, hdev, hnum⟩, -⟩ := select
  · rw [(halfOk_of_good g h d).closed (not_isOpen_of_free g free d)] at bound
    cases bound
  · exact Prod.ext hdev hnum

/-- The identities once EP_OPEN has claimed its entry. -/
def claimedIds (h : Nat) (dev : BitVec 7) (num : BitVec 4) (s : State) (h' : Nat) : BitVec 7 × BitVec 4 :=
  if h' = h then (dev, num) else identityOf s h'

theorem wired_claimedIds (g : Good s) (select : Fresh h dev num s ∨ Joins h type dev dir num s) :
    Wired (claimedIds h dev num s) s := by
  refine (wired_of_good g).identities fun h' d bound => ?_
  rw [claimedIds]
  split
  next here =>
    subst here
    exact (identityOf_of_select g select bound).symm
  · rfl

/-- The halves for which EP_OPEN reserves slots: those it opens in the device role, none in the host role (R153, R174). -/
def reservedHalves (r : Role) (type : XferType) (dir : Dir) : List Dir := if r = .device then halvesOf type dir else []

theorem reserved_of_reserveAtOpen (g : Good s) (select : Fresh h dev num s ∨ Joins h type dev dir num s)
    (reserved : reserveAtOpen h dev num mps.toNat (halvesOf type dir) s = .ok u) :
    Reserved (claimedIds h dev num s) h (roundup mps.toNat s.cfg.arenaGran) (reservedHalves s.role type dir) s u := by
  have w := wired_claimedIds g select
  cases role : s.role with
  | host =>
    rw [reserveAtOpen_of_host role] at reserved
    cases reserved
    exact reserved_nil w
  | device =>
    rw [reserveAtOpen, if_pos role] at reserved
    refine reserved_of_reserve w g.shape (lt_length_of_select g select) (by simp [claimedIds]) (nodup_halvesOf type dir)
      (fun d hd => ?_) reserved
    rw [(halfOk_of_good g h d).closed (not_isOpen_of_select g select hd)]
    rfl

/-- A half that EP_OPEN opens: bound as its reservation left it (R151). -/
theorem half_opened (g : Good s) (select : Fresh h dev num s ∨ Joins h type dev dir num s)
    (r : Reserved (claimedIds h dev num s) h n (reservedHalves s.role type dir) s u) {d : Dir} (hd : d ∈ halvesOf type dir) :
    half h d (openedEntry h type mps dev num (halvesOf type dir) u) =
        openHalf type mps (half h d u).bound (half h d u).ch ∧
      ((half h d u).bound = true ↔ s.role = .device) := by
  have hh : h < u.eps.length := r.quiet.kept.sizes.1 ▸ lt_length_of_select g select
  rw [half_openedEntry hh, if_pos ⟨rfl, hd⟩, r.quiet.kept.controls.2.2.1]
  cases role : s.role with
  | host =>
    rw [role] at r
    rw [r.otherHalves h d fun e => (nomatch e.2), (halfOk_of_good g h d).closed (not_isOpen_of_select g select hd)]
    exact ⟨rfl, nofun, nofun⟩
  | device =>
    rw [role] at r
    exact ⟨rfl, fun _ => rfl, fun _ => by rw [r.half d hd]⟩

/-- Every other half is as before, through the reservation and the opening (R151, R153). -/
theorem half_reserved_other (r : Reserved (claimedIds h dev num s) h n (reservedHalves s.role type dir) s u) {h' : Nat} {d : Dir}
    (ne : ¬ (h' = h ∧ d ∈ halvesOf type dir)) : half h' d u = half h' d s := by
  refine r.otherHalves h' d fun e => ne ⟨e.1, ?_⟩
  have mem := e.2
  rw [reservedHalves] at mem
  split at mem
  · exact mem
  · cases mem

theorem half_opened_other (g : Good s) (select : Fresh h dev num s ∨ Joins h type dev dir num s)
    (r : Reserved (claimedIds h dev num s) h n (reservedHalves s.role type dir) s u) {h' : Nat} {d : Dir}
    (ne : ¬ (h' = h ∧ d ∈ halvesOf type dir)) :
    half h' d (openedEntry h type mps dev num (halvesOf type dir) u) = half h' d s := by
  have hh : h < u.eps.length := r.quiet.kept.sizes.1 ▸ lt_length_of_select g select
  rw [half_openedEntry hh, if_neg ne, half_reserved_other r ne]

/-- The two halves of the entry agree on being a control endpoint (R54, INV8). -/
theorem controlPair_opened {t : State} (g : Good s) (select : Fresh h dev num s ∨ Joins h type dev dir num s)
    (opened : ∀ d ∈ halvesOf type dir, (half h d t).isOpen = true ∧ (half h d t).type = type)
    (kept : ∀ d, d ∉ halvesOf type dir → (half h d t).isOpen = (half h d s).isOpen ∧ (half h d t).type = (half h d s).type)
    (d : Dir) : controlPair (half h d t) (half h (otherDir d) t) := by
  intro ctrl
  by_cases control : type = .ctrl
  · have both (d : Dir) : (half h d t).isOpen = true ∧ (half h d t).type = type :=
      opened d (by rw [halvesOf, if_pos control]; exact mem_bothDirs d)
    exact iff_of_true (both d).1 ⟨(both _).1, (both _).2.trans control⟩
  · have one : halvesOf type dir = [dir] := if_neg control
    obtain ⟨-, typeDir⟩ := opened dir (mem_halvesOf_self type dir)
    obtain rfl | rfl := eq_or_otherDir dir d
    · exact absurd (typeDir.symm.trans ctrl) control
    · have twice : otherDir (otherDir dir) = dir := by cases dir <;> rfl
      obtain ⟨sameOpen, sameType⟩ := kept (otherDir dir) (by rw [one]; cases dir <;> decide)
      rw [twice, sameOpen, typeDir]
      rw [sameType] at ctrl
      refine iff_of_false (fun isOpen => ?_) fun e => control e.2
      obtain ⟨-, free, -⟩ | ⟨-, -, -, -, noCtrl⟩ := select
      · rw [not_isOpen_of_free g free] at isOpen
        cases isOpen
      · exact noCtrl isOpen ctrl

/-- What the registry's facts need of an opening (R152). -/
theorem registry_opened {t : State} (g : Good s) (select : Fresh h dev num s ∨ Joins h type dev dir num s)
    (identity : Identity h dev num t) (others : OtherIdentities h s t)
    (opened : ∀ d ∈ halvesOf type dir, (half h d t).isOpen = true ∧ (half h d t).type = type)
    (kept : ∀ h' d, ¬ (h' = h ∧ d ∈ halvesOf type dir) →
      (half h' d t).isOpen = (half h' d s).isOpen ∧ (half h' d t).type = (half h' d s).type) : Registry t := by
  have reg := registry_of_good g
  obtain ⟨used, hdev, hnum⟩ := identity
  have otherKept (h' d) (ne : h' ≠ h) := kept h' d fun e => ne e.1
  refine ⟨fun h' => ?used, fun h' d => ?pair, fun h' h'' used' used'' same => ?unique⟩
  case used =>
    by_cases here : h' = h
    · subst here
      refine iff_of_true used ?_
      have isOpen := (opened dir (mem_halvesOf_self type dir)).1
      cases dir
      exacts [.inl isOpen, .inr isOpen]
    · rw [(others h' here).1, (otherKept h' .out here).1, (otherKept h' .inn here).1]
      exact reg.used h'
  case pair =>
    by_cases here : h' = h
    · subst here
      exact controlPair_opened g select opened (fun d other => kept h' d fun e => other e.2) d
    · rw [controlPair, (otherKept h' d here).1, (otherKept h' d here).2, (otherKept h' _ here).1, (otherKept h' _ here).2]
      exact reg.pair h' d
  case unique =>
    have own : identityOf t h = (dev, num) := Prod.ext hdev hnum
    have kept {k} (ne : k ≠ h) : identityOf t k = identityOf s k := Prod.ext (others k ne).2.1 (others k ne).2.2
    have noOther {k} (ne : k ≠ h) (usedK : (entry k t).used = true) : identityOf t k ≠ (dev, num) := by
      rw [kept ne]
      rw [(others k ne).1] at usedK
      intro sameIds
      obtain ⟨kdev, knum⟩ := Prod.mk.inj sameIds
      obtain ⟨-, -, -, new⟩ | ⟨-, ⟨usedH, hdev', hnum'⟩, -⟩ := select
      · exact new k (g.shape.2.1 ▸ lt_length_of_used usedK) ⟨usedK, kdev, knum⟩
      · exact ne (reg.unique k h usedK usedH (sameIds.trans (Prod.ext hdev'.symm hnum'.symm)))
    by_cases here : h' = h
    · subst here
      by_contra ne
      exact noOther (fun e => ne e.symm) used'' (same.symm.trans own)
    by_cases there : h'' = h
    · subst there
      exact absurd (same.trans own) (noOther here used')
    · rw [kept here, kept there] at same
      exact reg.unique h' h'' ((others h' here).1 ▸ used') ((others h'' there).1 ▸ used'') same

/-- EP_OPEN keeps the good states. -/
theorem good_of_opened (g : Good s) (init : s.initDone = true) (sizes : SizesOk type mps)
    (select : Fresh h dev num s ∨ Joins h type dev dir num s)
    (reserved : reserveAtOpen h dev num mps.toNat (halvesOf type dir) s = .ok u) :
    Good (openedEntry h type mps dev num (halvesOf type dir) u) := by
  have r := reserved_of_reserveAtOpen g select reserved
  have hh : h < u.eps.length := r.quiet.kept.sizes.1 ▸ lt_length_of_select g select
  have opening := quiet_openHalves_claimEntry (h := h) (type := type) (mps := mps) (dev := dev) (num := num)
    (ds := halvesOf type dir) u
  have quiet := r.quiet.trans opening
  have memories := memories_of_quiet quiet g.memories
  have opened (d) (hd : d ∈ halvesOf type dir) := half_opened (mps := mps) g select r hd
  have kept (h' d) (ne : ¬ (h' = h ∧ d ∈ halvesOf type dir)) := half_opened_other (mps := mps) g select r ne
  have slots (c d) : slot c d (openedEntry h type mps dev num (halvesOf type dir) u) = slot c d u := slot_congr openedEntry_chans c d
  have others : OtherIdentities h s (openedEntry h type mps dev num (halvesOf type dir) u) := by
    intro h' ne
    obtain ⟨used, hdev, hnum⟩ := openedEntry_otherIdentities (h := h) (type := type) (mps := mps) (dev := dev) (num := num)
      (ds := halvesOf type dir) (s := u) h' ne
    obtain ⟨used', hdev', hnum'⟩ := r.identities h'
    exact ⟨used.trans used', hdev.trans hdev', hnum.trans hnum'⟩
  have identity := openedEntry_identity (type := type) (mps := mps) (dev := dev) (num := num) (ds := halvesOf type dir) hh
  have ids : identityOf (openedEntry h type mps dev num (halvesOf type dir) u) = claimedIds h dev num s := by
    funext h'
    rw [claimedIds]
    split
    next here =>
      subst here
      exact Prod.ext identity.2.1 identity.2.2
    next other => exact Prod.ext (others h' other).2.1 (others h' other).2.2
  refine good_of_frame g init ⟨quiet.kept.controls, quiet.kept.sizes⟩ memories ?room ?wired
    (fun h' d => ?halves) (fun c d valid => ?valid)
    (registry_opened g select identity others (fun d hd => by rw [(opened d hd).1]; exact ⟨rfl, rfl⟩)
      fun h' d ne => by rw [kept h' d ne]; exact ⟨rfl, rfl⟩)
  case room =>
    rw [openedEntry_evq, r.evq]
    exact g.inv7
  case wired =>
    rw [ids]
    refine r.wired.shrinks (shrinks_of_same r.wired opening.kept.controls.1 (fun c d => by rw [slots]; exact ⟨rfl, rfl, rfl, rfl⟩) (fun h' d => ?_)
      (associationsAfter_of_chans openedEntry_chans))
    by_cases here : h' = h ∧ d ∈ halvesOf type dir
    · obtain ⟨rfl, hd⟩ := here
      rw [(opened d hd).1]
      exact ⟨rfl, rfl⟩
    · rw [kept h' d here, half_reserved_other r here]
      exact ⟨rfl, rfl⟩
  case halves =>
    rw [slots]
    by_cases here : h' = h ∧ d ∈ halvesOf type dir
    · obtain ⟨rfl, hd⟩ := here
      obtain ⟨openAfter, device⟩ := opened d hd
      have ofBound (bound : (half h' d u).bound = true) := r.slot d (by rw [reservedHalves, if_pos (device.1 bound)]; exact hd)
      rw [openAfter]
      refine halfOk_opened sizes device (fun bound => ?_) fun bound => (ofBound bound).2.2
      obtain ⟨size, count, -⟩ := ofBound bound
      exact ⟨count.trans size.ge, size⟩
    · rw [kept h' d here]
      refine (halfOk_of_good g h' d).slot_congr fun bound => r.kept _ d ?_
      exact (((wired_of_good g).linked _ h' d).2 ⟨bound, rfl⟩).1
  case valid =>
    rw [slots] at valid ⊢
    have bound := valid_of_good g c d (r.valid c d valid)
    rw [r.kept c d bound]
    exact bound

end

end Sys2Proof.Machine
end

