-- ==== Sys2Proof/Proofs/KeepsGood.lean ====
section
/-! SUPPORT. Every instruction, and every step, keeps the good states (R54, R324). -/

namespace Sys2Proof.Machine

open Sys2Proof.Safety Sys2Proof.Claims

section
variable {s t : State}

/-- An answer in RESULT and RESULT2 says nothing of the tables. -/
theorem good_of_answered (g : Good s) (answered : Answered s t) : Good t := by
  obtain ⟨r, r2, rfl⟩ := answered
  exact good_of_tables g rfl rfl rfl rfl rfl rfl g.memories g.inv7

theorem good_of_rejected (g : Good s) (rejected : Rejected s t) : Good t := good_of_answered g (answered_of_rejected rejected)

/-- A register access says nothing of the tables (R84, R285). -/
theorem good_of_accessed (g : Good s) (accessed : Accessed s t) : Good t := by
  obtain ⟨gie, intEn, nakLimit, arg0, rdata, rfl⟩ := accessed
  exact good_of_tables g rfl rfl rfl rfl rfl rfl g.memories g.inv7

/-- A read of EVQ_POP takes one word out (R34). -/
theorem good_of_popped (g : Good s) {v : Word} : Good (returnRead v { s with evq := s.evq.tail }) := by
  refine good_of_tables g rfl rfl rfl rfl rfl rfl g.memories ?_
  have tail : (returnRead v { s with evq := s.evq.tail }).evq.length = s.evq.length - 1 := List.length_tail
  have := g.inv7
  omega

/-- What every command but INIT keeps (R31). -/
theorem command_frame {i : Instr} (command : isCommand i = true) (notInit : isInit i = false) (next : exec i s = .next t) :
    SameFrame s t := by
  obtain ⟨u, kept, -, -, r, r2, rfl⟩ := command_kept command notInit next
  exact kept.frame

/-- INIT sets the role while nothing is open (R150). -/
theorem good_initRole {role : Role} (g : Good s) (before : s.initDone = false) : Good (initRole role s) := by
  obtain ⟨-, free⟩ := g.beforeInit before
  have w := wired_of_good g
  have closed (h d) : half h d s = Half.closed := by
    by_cases hh : h < s.cfg.epMax
    · rw [half, free h hh, Entry.half_free]
    · have table := g.shape.2.1
      exact half_outside (by omega) d
  refine good_of_facts g.shape g.memories ?_ (fun h d => ?_) (fun c d valid => valid_of_good g c d valid) ?_ g.inv7 nofun g.notFatal
  · exact w.shrinks (shrinks_of_same w rfl (fun _ _ => ⟨rfl, rfl, rfl, rfl⟩) (fun _ _ => ⟨rfl, rfl⟩) (associationsAfter_of_chans rfl))
  · rw [HalfOkAt, show half h d (initRole role s) = Half.closed from closed h d]
    exact halfOk_closed
  · exact (registry_of_good g).congr (fun _ => ⟨rfl, rfl, rfl⟩) fun _ _ => ⟨rfl, rfl⟩

/-- An accepted abort acts on the one half (R206). -/
theorem abort_actsOn {dir : Dir} {h : Nat} (g : Good s) (busy : (half h dir s).xs ≠ .idle) (after : AbortAfter dir h s t)
    (arena : t.arena = s.arena) (mem : t.mem = s.mem) : ActsOn 0 (half h dir s).ch.toNat h dir s t := by
  obtain ⟨-, settled, others, identities, slotSettled, word, -⟩ := after
  have ok := halfOk_of_good g h dir
  have counted : Counted s.cfg s.role (half h dir s) (half h dir s) :=
    ⟨⟨_, _, _, _, _, rfl⟩, ok.done_le, ok.retry.1, ok.retry.2.2⟩
  have bound := ok.bound_of_busy busy
  exact actsOn_of_settled g (serves_of_bound g bound) busy counted (ok.slotSize bound).1 settled (sameButFlags_of_otherHalves others)
    identities slotSettled word (by decide) (BitVec.isLt _) (arenaWritten_of_same arena) (memWritten_of_same mem)

/-- Clearing a stall changes flags of open halves only (R158). -/
theorem good_of_cleared {dir : Dir} {h : Nat} (g : Good s) (ready : ClearStallReady dir h s) (frame : SameFrame s t)
    (after : ClearStallAfter dir h s t) (arena : t.arena = s.arena) (mem : t.mem = s.mem) : Good t := by
  obtain ⟨init, handle, -⟩ := ready
  obtain ⟨-, cleared, others, identities, chans, evq, -⟩ := after
  have isOpen := (handleOk_iff.1 handle).2.2
  have w := wired_of_good g
  have flags (h' d) : SameButFlags (half h' d s) (half h' d t) := by
    by_cases here : h' = h ∧ d ∈ halvesOf (half h dir s).type dir
    · obtain ⟨rfl, hd⟩ := here
      refine .inr ⟨?_, _, _, cleared d hd⟩
      obtain rfl | rfl := eq_or_otherDir dir d
      · exact isOpen
      · refine (((registry_of_good g).pair h' dir ?_).1 isOpen).1
        by_contra notCtrl
        rw [halvesOf, if_neg notCtrl, List.mem_singleton] at hd
        cases dir <;> cases hd
    · exact .inl (others h' d here)
  refine good_of_shrinks g init frame ?_ (evq ▸ g.inv7) (shrinks_of_same w frame.1.1 (fun c d => ?_) (fun h' d => (flags h' d).bound)
    (associationsAfter_of_chans chans)) (fun h' d _ => congrFun (identityOf_of_same identities) h') (fun h' d => ?_) (fun c d valid => ?_)
    ((registry_of_good g).congr identities fun h' d => (flags h' d).isOpen)
  · rw [Memories, arena, mem, frame.1.1]
    exact g.memories
  · rw [slot_congr chans]
    exact ⟨rfl, rfl, rfl, rfl⟩
  · rw [slot_congr chans, (flags h' d).bound.2]
    exact (halfOk_of_good g h' d).sameButFlags (flags h' d)
  · rw [slot_congr chans] at valid ⊢
    exact valid_of_good g c d valid

/-- EP_CLOSE closes both halves of a control endpoint together (R154). -/
theorem good_of_closing {dir : Dir} {h : Nat} (g : Good s) (r : CloseReady dir h s) :
    Good (closeHalves h (closing dir h s) s) := by
  obtain ⟨init, handle, room⟩ := r
  obtain ⟨-, used, isOpen⟩ := handleOk_iff.1 handle
  obtain ⟨closed, words⟩ := closeList_closes (l := ofEntry h (closing dir h s)) (closable_of_good g)
    (nodup_ofEntry (nodup_halvesOf _ dir)) fun p hp => by
      obtain ⟨e, -⟩ := mem_ofEntry.1 hp
      rw [e]
      exact lt_length_of_used used
  rw [closeHalves_eq_closeList]
  refine good_of_closed g init closed (fun h' d chosen _ ctrl => ?_) ?_
  · rw [inList, decide_eq_true_iff, mem_ofEntry] at chosen ⊢
    obtain ⟨rfl, hd⟩ := chosen
    refine ⟨rfl, ?_⟩
    by_cases control : (half h' dir s).type = .ctrl
    · rw [closing, halvesOf, if_pos control]
      exact mem_bothDirs _
    · rw [closing, halvesOf, if_neg control, List.mem_singleton] at hd
      rw [hd] at ctrl
      exact absurd ctrl control
  · rw [words, closingWords_ofEntry, List.length_append, List.length_map, ← busyIn_eq_filter_length]
    exact room

theorem sizesOk_of_args {type : XferType} {mps : BitVec 11} {dev : BitVec 7} {z : BitVec 3}
    (args : epOpenBadArg type mps dev z s = false) : SizesOk type mps := by
  rw [← Bool.not_eq_true, epOpenBadArg_iff] at args
  simp only [not_or] at args
  obtain ⟨-, ⟨positive, bounded⟩, ctrl, -⟩ := args
  refine ⟨by omega, by omega, fun isCtrl => ?_⟩
  by_contra small
  exact ctrl ⟨isCtrl, by omega⟩

/-- Every command keeps the good states. -/
theorem good_of_command {i : Instr} (g : Good s) (command : isCommand i = true) (next : exec i s = .next t) : Good t := by
  have frame (notInit : isInit i = false) := command_frame command notInit next
  have mem := command_mem command next
  have quiet (notInit : isInit i = false) (notSubmit : isSubmit i = false) : t.arena = s.arena := by
    obtain ⟨u, quiet, r, r2, rfl⟩ := command_quiet command notInit notSubmit next
    exact quiet.arena
  cases i with
  | init z role =>
    refine (init_accepts s z role t next).elim (good_of_rejected g) ?_
    rintro ⟨-, before, rfl⟩
    exact good_of_answered (good_initRole g before) (answered_accept _)
  | epOpen type mps dev dir z num =>
    refine (epOpen_accepts s type mps dev dir z num t next).elim (good_of_rejected g) ?_
    rintro ⟨init, args, h, u, select, reserved, rfl⟩
    exact good_of_opened g init (sizesOk_of_args args) select reserved
  | epClose z dir handle =>
    refine (epClose_accepts s z dir handle t next).elim (good_of_rejected g) ?_
    rintro ⟨-, ready, rfl⟩
    exact good_of_answered (good_of_closing g ready) (answered_accept _)
  | epFind z dev dir z2 num =>
    refine (epFind_accepts s z dev dir z2 num t next).elim (good_of_rejected g) ?_
    rintro ⟨h, -, rfl⟩
    exact good_of_answered g (answered_acceptHandle h s)
  | xferSubmit setup zlp len z dir handle =>
    obtain rejected | ⟨ok, u, reserved, started⟩ := submit_next g next
    · exact good_of_rejected g rejected
    · exact good_of_started g ok reserved started (frame rfl) mem
  | xferAbort z dir handle =>
    refine (xferAbort_accepts s z dir handle t next).elim (good_of_rejected g) ?_
    rintro ⟨-, -, -, ⟨-, rfl⟩ | ⟨ready, rfl⟩⟩
    · exact good_of_answered g (answered_accept s)
    · obtain ⟨init, -, busy, room⟩ := id ready
      have after := abort_after g ready
      have acts := abort_actsOn g busy after (quiet rfl rfl) mem
      obtain ⟨-, -, -, -, -, word, -⟩ := after
      have arena := quiet rfl rfl
      refine good_of_actsOn g init (serves_of_bound g (bound_of_busy g busy)) (frame rfl) ?_ ?_ acts
      · rw [Memories, arena, mem, (frame rfl).1.1]
        exact g.memories
      · rwa [word, List.length_append]
  | epClearStall z dir handle =>
    refine (epClearStall_accepts s z dir handle t next).elim (good_of_rejected g) ?_
    rintro ⟨rfl, ready, rfl⟩
    obtain ⟨u, ran, after⟩ := clearStallRule dir handle s g ready
    rw [next] at ran
    obtain rfl := Host.Outcome.next.inj ran
    exact good_of_cleared g ready (frame rfl) after (quiet rfl rfl) mem
  | devClose z dev z2 =>
    refine (devClose_accepts s z dev z2 t next).elim (good_of_rejected g) ?_
    rintro ⟨-, -, ⟨init, -, room⟩, rfl⟩
    have good := good_of_closeWhere g init (ofDevice dev s) room
    rw [← closeDevice_eq_closeList (closable_of_good g)] at good
    exact good_of_answered good (answered_accept _)
  | epQuery z dir handle =>
    refine (epQuery_accepts s z dir handle t next).elim (good_of_rejected g) ?_
    rintro ⟨-, rfl⟩
    exact good_of_answered g ⟨_, _, rfl⟩
  | illegal0 | illegalA | illegalB | illegalC | illegalD | illegalE | illegalF =>
    cases next
    exact good_of_answered g ⟨_, _, rfl⟩
  | _ => cases command

/-- A store of the CPU keeps system memory canonical (R80, R90). -/
theorem good_of_stored (g : Good s) (cells : List (Word × Byte)) : Good (cpuStore cells s) := by
  obtain ⟨arenaWf, memWf, arenaIn, memIn⟩ := g.memories
  exact good_of_tables g rfl rfl rfl rfl rfl rfl
    ⟨arenaWf, Memory.writeCells_wf cells memWf, arenaIn, fun p hp => (Memory.mem_writeCells cells hp).elim (memIn p) id⟩ g.inv7

theorem good_of_loaded (g : Good s) (addrs : List Word) : Good (cpuLoad addrs s) :=
  good_of_tables g rfl rfl rfl rfl rfl rfl g.memories g.inv7

theorem good_of_taken (g : Good s) (rest : List Stimulus) : Good { s with inbox := rest } :=
  good_of_tables g rfl rfl rfl rfl rfl rfl g.memories g.inv7

end

end Sys2Proof.Machine

open Sys2Proof Sys2Proof.Machine Sys2Proof.Safety Sys2Proof.Claims

/-- Settles O10: by what kind of instruction runs. -/
theorem execKeepsGood : Obligations.ExecKeepsGood := by
  intro i s t good next
  obtain ⟨command, ran⟩ | event | ⟨-, rfl⟩ | ⟨-, accessed⟩ := exec_next_cases next
  · exact good_of_command good command ran
  · exact good_of_link good event next
  · exact good_of_popped good
  · exact good_of_accessed good accessed

/-- Settles O11: the next state of the instruction that a step runs is good, so the check passes. -/
theorem stepKeepsGood : Obligations.StepKeepsGood := by
  intro s good
  refine ⟨fun t next => ?_, fun n f fault => ?_⟩
  · cases attempt : s.inbox with
    | nil =>
      obtain rfl := Host.Outcome.next.inj ((step_idle attempt).symm.trans next)
      exact good
    | cons x rest =>
      have taken := good_of_taken good rest
      cases x with
      | store cells =>
        obtain rfl := Host.Outcome.next.inj ((step_store attempt).symm.trans next)
        exact good_of_stored taken cells
      | load addrs =>
        obtain rfl := Host.Outcome.next.inj ((step_load attempt).symm.trans next)
        exact good_of_loaded taken addrs
      | act r =>
        cases decoded : decode s.cfg.blockBase r with
        | error e =>
          rw [step_of_decode_error attempt decoded] at next
          cases e <;> cases next
        | ok i =>
          rw [step_of_decode_ok attempt decoded, checked_next] at next
          exact execKeepsGood i _ t taken next.1
  · obtain ⟨i, rest, t, ran, broken, -⟩ := step_invariant fault
    rw [firstBroken_of_good (execKeepsGood i _ t (good_of_taken good rest) ran)] at broken
    cases broken

end

