-- ==== Sys2Proof/Proofs/Completions.lean ====
section
/-! SUPPORT. Transfers in flight and XFER_COMPLETE words (R200, R230): every step keeps their sum, but that an accepted submit adds a
transfer. A step on one half is balanced by its own word; closings are balanced half by half. -/

namespace Sys2Proof.Machine

open Sys2Proof.Safety Sys2Proof.Claims

/-! ### Transfers in flight, counted half by half -/

section
variable {α : Type}

/-- Two sums over a list whose terms agree but at one element. -/
theorem sum_map_of_one {f g : α → Nat} {a : α} {l : List α} (distinct : l.Nodup) (mem : a ∈ l) (same : ∀ b ∈ l, b ≠ a → f b = g b) :
    (l.map f).sum + g a = (l.map g).sum + f a := by
  induction l with
  | nil => cases mem
  | cons b l ih =>
    obtain ⟨new, distinct⟩ := List.nodup_cons.1 distinct
    simp only [List.map_cons, List.sum_cons]
    obtain rfl | later := List.mem_cons.1 mem
    · have rest : l.map f = l.map g := List.map_congr_left fun c hc =>
        same c (List.mem_cons_of_mem _ hc) fun e => new (e ▸ hc)
      rw [rest]
      omega
    · have first := same b List.mem_cons_self fun e => new (e ▸ later)
      have rest := ih distinct later fun c hc => same c (List.mem_cons_of_mem _ hc)
      omega

end

theorem nodup_allHalves (n : Nat) : (allHalves n).Nodup := by
  refine List.nodup_flatMap.2 ⟨fun h _ => by simp [bothDirs], ?_⟩
  refine List.nodup_range.imp fun ne => ?_
  simp [Function.onFun, List.Disjoint, bothDirs, ne]

theorem busyCount_eq_sum (s : State) :
    busyCount (fun _ => true) s = ((allHalves s.cfg.epMax).map (fun p => inFlight (half p.1 p.2 s))).sum := by
  have one (x : Half) : (if (x.xs != .idle) = true then 1 else 0) = inFlight x := by cases xs : x.xs <;> simp [inFlight, xs]
  rw [busyCount, allHalves, List.map_flatMap, List.flatMap_def, List.sum_flatten, List.map_map]
  refine congrArg List.sum (List.map_congr_left fun h _ => ?_)
  simp only [Function.comp, busyIn, bothDirs, List.countP_cons, List.countP_nil, List.map_cons, List.map_nil, List.sum_cons, List.sum_nil, one, if_true]
  omega

/-! ### Balanced steps -/

/-- Transfers in flight after, and completions pushed, are those in flight before and those started. -/
def Balanced (started : Nat) (s t : State) : Prop :=
  ∃ ws, t.evq = s.evq ++ ws ∧
    busyCount (fun _ => true) t + ws.countP isCompletion = busyCount (fun _ => true) s + started

section
variable {s t u : State} {started h : Nat} {d : Dir}

theorem Balanced.trans (a : Balanced 0 s u) (b : Balanced started u t) : Balanced started s t := by
  obtain ⟨ws, evq, sum⟩ := a
  obtain ⟨ws', evq', sum'⟩ := b
  refine ⟨ws ++ ws', by rw [evq', evq, List.append_assoc], ?_⟩
  rw [List.countP_append]
  omega

theorem Balanced.answered (a : Balanced started s u) (answered : Answered u t) : Balanced started s t := by
  obtain ⟨r, r2, rfl⟩ := answered
  exact a

/-- A step on one half. -/
theorem balanced_of_one (cfg : t.cfg = s.cfg) (hh : h < s.cfg.epMax)
    (others : ∀ h' d', ¬ (h' = h ∧ d' = d) → inFlight (half h' d' t) = inFlight (half h' d' s))
    (events : EventsPushed started (half h d s) (half h d t) s t) : Balanced started s t := by
  obtain ⟨ws, evq, -, sum⟩ := events
  refine ⟨ws, evq, ?_⟩
  have counts := sum_map_of_one (f := fun p : Nat × Dir => inFlight (half p.1 p.2 t)) (g := fun p => inFlight (half p.1 p.2 s))
    (a := (h, d)) (nodup_allHalves s.cfg.epMax) (mem_allHalves.2 hh) fun p _ ne => others p.1 p.2 fun e => ne (Prod.ext e.1 e.2)
  rw [busyCount_eq_sum, busyCount_eq_sum, cfg]
  simp only at counts
  omega

/-- A step that starts and ends no transfer. -/
theorem balanced_of_same (cfg : t.cfg = s.cfg) (halves : ∀ h d, inFlight (half h d t) = inFlight (half h d s)) {ws : List Word}
    (evq : t.evq = s.evq ++ ws) (none : ws.countP isCompletion = 0) : Balanced 0 s t := by
  refine ⟨ws, evq, ?_⟩
  simp only [busyCount_eq_sum, cfg, halves, none]

theorem balanced_of_tables (cfg : t.cfg = s.cfg) (eps : t.eps = s.eps) (evq : t.evq = s.evq) : Balanced 0 s t :=
  balanced_of_same cfg (fun h d => by rw [half_congr eps]) (by rw [evq, List.append_nil]) rfl

theorem SameButFlags.inFlight {x x' : Half} (same : SameButFlags x x') : Machine.inFlight x' = Machine.inFlight x := by
  obtain rfl | ⟨-, halted, toggle, rfl⟩ := same <;> rfl

theorem balanced_of_actsOn {c : Nat} (g : Good s) (sv : Serves c h d s) (cfg : t.cfg = s.cfg) (a : ActsOn started c h d s t) :
    Balanced started s t :=
  balanced_of_one cfg (g.shape.2.1 ▸ sv.entry_lt) (fun h' d' ne => (a.others h' d' ne).inFlight) a.events

/-- A word of a bus report is no completion (R119). -/
theorem balanced_pushIf {e : EventClass} {w : Word} (other : isCompletion w = false) : Balanced 0 s (pushIf e w s) := by
  rw [pushIf_eq_reported]
  refine balanced_of_same rfl (fun _ _ => rfl) rfl ?_
  split <;> simp [other]

theorem inFlight_framed (x : Half) : inFlight (framed x) = inFlight x := by
  rw [framed]
  split
  · by_cases waits : x.xs = .wait <;> simp [inFlight, waits]
  · rfl

/-! ### Closing -/

theorem balanced_closeHalf (cl : Closable s) (hh : h < s.eps.length) : Balanced 0 s (closeHalf h d s) := by
  obtain ⟨closed, word⟩ := closeHalf_closes (d := d) cl hh
  refine balanced_of_one (d := d) closed.quiet.kept.controls.1 (cl.eps ▸ hh) (fun h' d' ne => ?_) ⟨_, word, ?_, ?_⟩
  · rw [closed.halves, if_neg fun e => ne (justHalf_iff.1 e)]
  · rw [closingWord]
    split <;> simp
  · have ended : half h d (closeHalf h d s) = Half.closed := by rw [closed.halves, if_pos (justHalf_iff.2 ⟨rfl, rfl⟩)]
    rw [ended, closingWord]
    split
    next idle => simp [inFlight, idle, Half.closed]
    next busy =>
      have lt : h < 256 := by
        have := cl.eps
        have := cl.handles
        omega
      have completes := isCompletion_completion d (o := 4) (by decide) lt (half h d s).done.isLt
      simp [inFlight, busy, Half.closed, completes]

theorem balanced_closeList {l : List (Nat × Dir)} (cl : Closable s) (inside : ∀ p ∈ l, p.1 < s.eps.length) :
    Balanced 0 s (closeList l s) := by
  induction l generalizing s with
  | nil => exact balanced_of_tables rfl rfl rfl
  | cons p l ih =>
    have hh := inside p List.mem_cons_self
    have first := (closeHalf_closes (d := p.2) cl hh).1
    refine (balanced_closeHalf cl hh).trans (ih (first.closable cl) fun q hq => ?_)
    rw [first.quiet.kept.sizes.1]
    exact inside q (List.mem_cons_of_mem _ hq)

theorem balanced_closeWhere (cl : Closable s) (p : Nat → Bool) :
    Balanced 0 s (closeList (openHalvesWhere p (List.range s.cfg.epMax) s) s) :=
  balanced_closeList cl fun q hq => by
    rw [cl.eps]
    exact List.mem_range.1 (mem_openHalvesWhere (h := q.1) (d := q.2).1 hq).1

end

/-! ### Every instruction -/

section
variable {s t : State} {i : Instr}

theorem link_balanced (g : Good s) (event : isLink i = true) (next : exec i s = .next t) : Balanced 0 s t := by
  obtain ⟨cfg, -⟩ := (link_kept event next).1.controls
  cases i with
  | linkTxAck | linkRxData | linkSetupRx | linkNak | linkStall | linkXerr =>
    exact balanced_of_actsOn g (serves_of_good g (slotEvent_ready rfl next)) cfg (slotEvent_acts g rfl next)
  | linkFrame =>
    obtain ⟨-, rfl⟩ := linkFrame_next next
    have quiet := quiet_frameService s
    have framed : Balanced 0 s (frameService s) := by
      refine balanced_of_same quiet.kept.controls.1 (fun h d => ?_) (by rw [(frameService_keeps s).2, List.append_nil]) rfl
      cases role : s.role with
      | host => rw [(frameService_host g role).1, inFlight_framed]
      | device => rw [frameService_of_device role]
    exact framed.trans (balanced_pushIf (by decide))
  | linkBusReset =>
    obtain ⟨-, rfl⟩ := linkBusReset_next next
    have cl := closable_of_good g
    have closed := balanced_closeWhere cl (fun _ => true)
    rw [← closeAll_eq_closeList cl] at closed
    exact closed.trans (balanced_pushIf (by decide))
  | linkAttach speed =>
    obtain ⟨-, -, rfl⟩ := linkAttach_next next
    exact balanced_pushIf (by cases speed <;> decide)
  | linkDetach =>
    obtain ⟨-, -, rfl⟩ := linkDetach_next next
    exact balanced_pushIf (by decide)
  | linkSuspend =>
    obtain ⟨-, rfl⟩ := linkSuspend_next next
    exact balanced_pushIf (by decide)
  | linkResume =>
    obtain ⟨-, rfl⟩ := linkResume_next next
    exact balanced_pushIf (by decide)
  | linkReserved0 | linkReservedD | linkReservedE | linkReservedF => cases next
  | _ => cases event

theorem balanced_of_rejected (rejected : Rejected s t) : Balanced 0 s t :=
  (balanced_of_tables rfl rfl rfl : Balanced 0 s s).answered (answered_of_rejected rejected)

/-- A half that EP_OPEN opens had no transfer and has none (R151). -/
theorem balanced_opened {type : XferType} {mps : BitVec 11} {dev : BitVec 7} {dir : Dir} {num : BitVec 4} {h : Nat} {u : State}
    (g : Good s) (select : Fresh h dev num s ∨ Joins h type dev dir num s)
    (reserved : reserveAtOpen h dev num mps.toNat (halvesOf type dir) s = .ok u) :
    Balanced 0 s (openedEntry h type mps dev num (halvesOf type dir) u) := by
  have r := reserved_of_reserveAtOpen g select reserved
  have opening := quiet_openHalves_claimEntry (h := h) (type := type) (mps := mps) (dev := dev) (num := num)
    (ds := halvesOf type dir) u
  refine balanced_of_same (r.quiet.trans opening).kept.controls.1 (fun h' d => ?_)
    (openedEntry_evq.trans (r.evq.trans (List.append_nil _).symm)) rfl
  by_cases here : h' = h ∧ d ∈ halvesOf type dir
  · obtain ⟨rfl, hd⟩ := here
    rw [(half_opened (mps := mps) g select r hd).1, (halfOk_of_good g h' d).closed (not_isOpen_of_select g select hd)]
    rfl
  · rw [half_opened_other g select r here]

theorem command_balanced (g : Good s) (command : isCommand i = true) (notSubmit : isSubmit i = false) (next : exec i s = .next t) :
    Balanced 0 s t := by
  have same : Balanced 0 s s := balanced_of_tables rfl rfl rfl
  cases i with
  | init z role =>
    obtain answered | answered := init_answered next
    · exact same.answered answered
    · exact (balanced_of_tables (t := initRole role s) rfl rfl rfl).answered answered
  | epOpen type mps dev dir z num =>
    refine (epOpen_accepts s type mps dev dir z num t next).elim balanced_of_rejected ?_
    rintro ⟨-, -, h, u, select, reserved, rfl⟩
    exact balanced_opened g select reserved
  | epClose z dir handle =>
    refine (epClose_accepts s z dir handle t next).elim balanced_of_rejected ?_
    rintro ⟨-, ready, rfl⟩
    have hh := lt_length_of_used (handleOk_iff.1 ready.2.1).2.1
    rw [closeHalves_eq_closeList]
    exact (balanced_closeList (closable_of_good g) fun p hp => by rwa [(mem_ofEntry.1 hp).1]).answered (answered_accept _)
  | epFind z dev dir z2 num =>
    refine (epFind_accepts s z dev dir z2 num t next).elim balanced_of_rejected ?_
    rintro ⟨h, -, rfl⟩
    exact same.answered (answered_acceptHandle h s)
  | xferAbort z dir handle =>
    refine (xferAbort_accepts s z dir handle t next).elim balanced_of_rejected ?_
    rintro ⟨-, -, -, ⟨-, rfl⟩ | ⟨ready, rfl⟩⟩
    · exact same.answered (answered_accept s)
    · obtain ⟨init, -, busy, room⟩ := id ready
      have quiet := quiet_abortHalf s handle.toNat dir
      exact balanced_of_actsOn g (serves_of_bound g (bound_of_busy g busy)) quiet.kept.controls.1
        (abort_actsOn g busy (abort_after g ready) quiet.arena quiet.mem)
  | epClearStall z dir handle =>
    refine (epClearStall_accepts s z dir handle t next).elim balanced_of_rejected ?_
    rintro ⟨-, ready, rfl⟩
    have hh := lt_length_of_used (handleOk_iff.1 ready.2.1).2.1
    refine (balanced_of_same (quiet_clearStall s _ _).kept.controls.1 (fun h d => ?_) ((modHalves_evq _).trans (List.append_nil _).symm)
      rfl).answered (answered_accept _)
    rw [show half h d (clearStall handle.toNat _ s) = _ from half_modHalves (f := restarted) (fun _ => rfl) _ hh h d]
    split <;> rfl
  | devClose z dev z2 =>
    refine (devClose_accepts s z dev z2 t next).elim balanced_of_rejected ?_
    rintro ⟨-, -, -, rfl⟩
    have closed := balanced_closeWhere (closable_of_good g) (ofDevice dev s)
    rw [← closeDevice_eq_closeList (closable_of_good g)] at closed
    exact closed.answered (answered_accept _)
  | epQuery z dir handle =>
    refine (epQuery_accepts s z dir handle t next).elim balanced_of_rejected ?_
    rintro ⟨-, rfl⟩
    exact same.answered ⟨_, _, rfl⟩
  | illegal0 | illegalA | illegalB | illegalC | illegalD | illegalE | illegalF =>
    cases next
    exact same.answered ⟨_, _, rfl⟩
  | xferSubmit => cases notSubmit
  | _ => cases command

/-- An accepted submit starts the one transfer, a rejected one none (R201, R321). -/
theorem submit_balanced (g : Good s) (submit : isSubmit i = true) (next : exec i s = .next t) :
    Balanced (if t.result = 0 then 1 else 0) s t := by
  cases i with
  | xferSubmit setup zlp len z dir handle =>
    obtain ⟨⟨cfg, -⟩, -⟩ := command_frame (i := .xferSubmit setup zlp len z dir handle) rfl rfl next
    obtain rejected | ⟨ok, u, reserved, started⟩ := submit_next g next
    · rw [if_neg (rejected_status rejected).1]
      exact balanced_of_rejected rejected
    · obtain ⟨-, handleOk, idle, -⟩ := id ok
      have hh : handle.toNat < s.cfg.epMax := (handleOk_iff.1 handleOk).1
      have flags := sameButFlags_of_submitted g ok reserved started.frame
      obtain ⟨⟨result, -⟩, halfAfter, -, ⟨-, -, -, evq, -⟩, -⟩ := started
      rw [if_pos (show t.result = 0 from result)]
      refine balanced_of_one (d := dir) cfg hh (fun h' d' ne => (flags h' d' ne).inFlight)
        ⟨[], by rw [evq, reserved.evq, List.append_nil], Nat.zero_le _, ?_⟩
      rw [halfAfter]
      simp [inFlight, submittedHalf, idle]
  | _ => cases submit

/-- A command pushes at the tail only (R281). -/
theorem command_events (command : isCommand i = true) (next : exec i s = .next t) : s.evq <+: t.evq := by
  cases init : isInit i with
  | false =>
    obtain ⟨u, kept, -, -, r, r2, rfl⟩ := command_kept command init next
    exact kept.events
  | true =>
    cases i with
    | init z role =>
      obtain ⟨r, r2, rfl⟩ | ⟨r, r2, rfl⟩ := init_answered next
      · exact List.prefix_rfl
      · exact List.prefix_rfl
    | _ => cases init

end

end Sys2Proof.Machine

open Sys2Proof Sys2Proof.Machine Sys2Proof.Safety Sys2Proof.Claims

/-- Settles O56: a submit starts a transfer, and every other end of a half's transfer pushes its word. -/
theorem oneCompletionEach : Obligations.OneCompletionEach := by
  intro i s t good next notPop
  change Balanced _ s t
  cases submit : isSubmit (underlying i) with
  | true =>
    simp only [true_and]
    exact submit_balanced good submit (exec_underlying i s ▸ next)
  | false =>
    rw [if_neg (by simp)]
    obtain ⟨command, ran⟩ | event | ⟨pop, -⟩ | ⟨-, gie, intEn, nakLimit, arg0, rdata, rfl⟩ := exec_next_cases next
    · exact command_balanced good command submit ran
    · exact link_balanced good event next
    · exact absurd pop notPop
    · exact balanced_of_tables rfl rfl rfl

/-- Settles O55: a step leaves the events of the FIFO in place and adds at the tail, and the depth is an invariant (R54, INV7). -/
theorem eventOrder : Obligations.EventOrder := by
  intro i s t next
  refine ⟨?pop, fun notPop => ?grows, fun good => ?depth⟩
  case pop =>
    rintro rfl
    cases next
    rfl
  case grows =>
    obtain ⟨command, ran⟩ | event | ⟨pop, -⟩ | ⟨-, gie, intEn, nakLimit, arg0, rdata, rfl⟩ := exec_next_cases next
    · exact command_events command ran
    · exact (link_kept event next).1.events
    · exact absurd pop notPop
    · exact List.prefix_rfl
  case depth => exact (windowWriters i s t next).1 ▸ (execKeepsGood i s t good next).inv7

end

