-- ==== Sys2Proof/Proofs/MemoryBounds.lean ====
section
/-! SUPPORT. Where the bytes of system memory and of the arena change (R90): a step that writes acts on one slot, and writes in that
slot's range and in the caller buffer of the half it serves. -/

namespace Sys2Proof.Machine

open Sys2Proof.Safety Sys2Proof.Claims

/-! ### Bytes outside what was written -/

section
variable {s t : State} {x : Half} {y : Slot} {a : Nat}

theorem MemWritten.inside (written : MemWritten x s t) (wf : Memory.wf s.mem)
    (changed : Memory.read t.mem a ≠ Memory.read s.mem a) : x.buf.toNat ≤ a ∧ a < x.buf.toNat + x.total.toNat := by
  obtain ⟨b, bytes, first, last, mem⟩ := written
  by_contra outside
  refine changed ?_
  rw [mem]
  exact Memory.read_writeBytes_outside bytes b a wf (by omega)

theorem ArenaWritten.outside (written : ArenaWritten y s t) (wf : Memory.wf s.arena)
    (outside : a < y.off.toNat ∨ y.off.toNat + y.size.toNat ≤ a) : Memory.read t.arena a = Memory.read s.arena a := by
  obtain ⟨bytes, fits, arena⟩ := written
  rw [arena]
  exact Memory.read_writeBytes_outside bytes y.off.toNat a wf (by omega)

/-- Bytes written in one slot's range leave the other ranges alone (R54, INV1). -/
theorem ArenaWritten.isolated {z : Slot} (written : ArenaWritten y s t) (wf : Memory.wf s.arena) (disjoint : apart z y) {k : Nat}
    (hk : k < z.size.toNat) : Memory.read t.arena (z.off.toNat + k) = Memory.read s.arena (z.off.toNat + k) := by
  refine written.outside wf ?_
  obtain before | after := disjoint
  · exact .inl (by omega)
  · exact .inr (by omega)

end

/-! ### Link events -/

section
variable {s t : State} {i : Instr}

/-- Only RX_DATA and SETUP_RX store in system memory (R90). -/
theorem link_mem (event : isLink i = true) (next : exec i s = .next t) (changed : t.mem ≠ s.mem) :
    ∃ c d, ((∃ pid n data, i = .linkRxData c d pid n data) ∨ ∃ n data, i = .linkSetupRx c d n data) ∧ slotEvent i = some (c, d) := by
  cases i with
  | linkRxData c d pid n data => exact ⟨c, d, .inl ⟨pid, n, data, rfl⟩, rfl⟩
  | linkSetupRx c d n data => exact ⟨c, d, .inr ⟨n, data, rfl⟩, rfl⟩
  | linkTxAck c d => exact absurd (kept_ackPacket (linkTxAck_next next).2.2).2 changed
  | xferSubmit => cases event
  | _ => exact absurd ((link_kept event next).2.2 rfl).1 changed

/-- An event that is not of one slot leaves the arena alone. -/
theorem link_arena (event : isLink i = true) (next : exec i s = .next t) (bus : slotEvent i = none) : t.arena = s.arena := by
  cases i with
  | linkTxAck | linkRxData | linkSetupRx => cases bus
  | xferSubmit => cases event
  | _ => exact ((link_kept event next).2.2 rfl).2

/-- No command but XFER_SUBMIT touches the arena. -/
theorem command_arena (command : isCommand i = true) (notSubmit : isSubmit i = false) (next : exec i s = .next t) :
    t.arena = s.arena := by
  cases init : isInit i with
  | false =>
    obtain ⟨u, quiet, r, r2, rfl⟩ := command_quiet command init notSubmit next
    exact quiet.arena
  | true =>
    cases i with
    | init z role => obtain ⟨r, r2, rfl⟩ | ⟨r, r2, rfl⟩ := init_answered next <;> rfl
    | _ => cases init

/-! ### Ranges of the slots left as they were -/

/-- A slot with the half it serves, both left as they were by a step, whose range the step left alone. -/
def RangeKept (s t : State) (c : Nat) (d : Dir) : Prop :=
  slot c d t = slot c d s → half (slot c d s).ep.toNat d t = half (slot c d s).ep.toNat d s →
    ∀ k < (slot c d s).size.toNat,
      Memory.read t.arena ((slot c d s).off.toNat + k) = Memory.read s.arena ((slot c d s).off.toNat + k)

variable {c h : Nat} {d : Dir}

theorem rangeKept_of_same (arena : t.arena = s.arena) : RangeKept s t c d := fun _ _ _ _ => by rw [arena]

/-- A step on one slot: that slot's half tells whether its range was written, the other ranges lie apart. -/
theorem rangeKept_of_actsOn {started c' : Nat} {d' : Dir} (g : Good s) (sv : Serves c' h d' s) (a : ActsOn started c' h d' s t)
    (bound : (slot c d s).bound = true) : RangeKept s t c d := by
  intro _ sameHalf k hk
  by_cases here : (c, d) = (c', d')
  · cases here
    rw [sv.ep] at sameHalf
    rw [a.untouched sameHalf]
  · exact a.arena.isolated g.memories.1 ((wired_of_good g).apart c d c' d' bound sv.bound here) hk

/-- An accepted submit changes the slot it starts on, and the range of another lies apart from it (R173, R202). -/
theorem submit_rangeKept (g : Good s) (submit : isSubmit i = true) (next : exec i s = .next t) (bound : (slot c d s).bound = true) :
    RangeKept s t c d := by
  cases i with
  | xferSubmit setup zlp len z dir handle =>
    obtain rejected | ⟨ok, u, reserved, started⟩ := submit_next g next
    · obtain ⟨code, -, rfl⟩ := rejected
      exact rangeKept_of_same rfl
    · intro sameSlot _ k hk
      have hh := lt_length_of_used (handleOk_iff.1 ok.2.1).2.1
      obtain ⟨sv, -⟩ := serves_of_reserved reserved hh
      have written := arenaWritten_of_started g reserved rfl started
      have kept := reserved.kept c d bound
      by_cases here : (c, d) = ((half handle.toNat dir u).ch.toNat, dir)
      · cases here
        have valid : (slot (half handle.toNat d u).ch.toNat d t).valid = true := by rw [started.slot.1]
        rw [sameSlot, ← kept, (reserved.slot d List.mem_cons_self).2.2] at valid
        cases valid
      · have disjoint := reserved.wired.apart c d _ dir (kept ▸ bound) sv.bound here
        rw [kept] at disjoint
        exact written.isolated g.memories.1 disjoint hk
  | _ => cases submit

end

end Sys2Proof.Machine

open Sys2Proof Sys2Proof.Machine Sys2Proof.Safety Sys2Proof.Claims

/-- Settles O52: only the two receiving events store in memory, and their event writes in the half's caller buffer only. -/
theorem memoryWriters : Obligations.MemoryWriters := by
  intro i s t a good next changed
  have memChanged : t.mem ≠ s.mem := fun same => changed (by rw [same])
  obtain ⟨command, ran⟩ | event | ⟨-, rfl⟩ | ⟨-, gie, intEn, nakLimit, arg0, rdata, rfl⟩ := exec_next_cases next
  · exact absurd (command_mem command ran) memChanged
  · obtain ⟨c, d, receives, named⟩ := link_mem event next memChanged
    exact ⟨c, d, receives, (slotEvent_acts good named next).mem.inside good.memories.2.1 changed⟩
  · exact absurd rfl memChanged
  · exact absurd rfl memChanged

/-- Settles O53: a step that writes in the arena acts on one slot, which it changes with its half, and the other ranges lie apart. -/
theorem arenaIsolation : Obligations.ArenaIsolation := by
  intro i s t c d good next _ bound
  change RangeKept s t c d
  obtain ⟨command, ran⟩ | event | ⟨-, rfl⟩ | ⟨-, gie, intEn, nakLimit, arg0, rdata, rfl⟩ := exec_next_cases next
  · cases submit : isSubmit (underlying i) with
    | true => exact submit_rangeKept good submit ran bound
    | false => exact rangeKept_of_same (command_arena command submit ran)
  · cases named : slotEvent i with
    | none => exact rangeKept_of_same (link_arena event next named)
    | some slot => exact rangeKept_of_actsOn good (serves_of_good good (slotEvent_ready named next)) (slotEvent_acts good named next) bound
  · exact rangeKept_of_same rfl
  · exact rangeKept_of_same rfl

end
